-- ==== Sys2Proof/Word.lean ====
section
/-! DEFINITION. The word types and byte lists of the TZ-32 (00_scope R3: little-endian, bit 0 least significant). -/

namespace Sys2Proof

/-- One byte. -/
abbrev Byte := BitVec 8
/-- A 32-bit word. -/
abbrev W32 := BitVec 32
/-- A 64-bit word. -/
abbrev W64 := BitVec 64
/-- A carrel instruction word (R201). -/
abbrev W128 := BitVec 128
/-- A run of bytes in ascending address order. -/
abbrev Bytes := List Byte

end Sys2Proof
end

