-- ==== Sys2Proof/Syntax.lean ====
section
/-! DEFINITION. The commands of the block: one constructor of `Instr` per row of spec/opcode_table.json, with their operands. -/

namespace Sys2Proof

/-- A submission queue: a function's admin queue, or queue `q` of context `c` (R528). -/
inductive QRef where
  | admin (fn : Nat)
  | ctx (c q : Nat)
deriving DecidableEq, Repr, Inhabited

/-- How a host command was submitted: its queue, its command id and its progress bit (R531). -/
structure Sub where
  q : QRef
  cid : Nat
  prog : Bool
deriving DecidableEq, Repr, Inhabited

/-- A write of the host to its own memory, seen by the device's later reads. -/
structure HostWrite where
  addr : Nat
  data : Bytes
deriving DecidableEq, Repr

/-- A requester of register accesses (R603, R610): a host port or a firmware core. -/
inductive Req where
  | port (n : Nat)
  | core (n : Nat)
deriving DecidableEq, Repr, Inhabited

/-- OPEN's body (R539). -/
structure OpenF where
  record : Nat
  qtable : Nat
  queues : Nat
  standby : Bool
  version : Nat
  pasid : Nat
  carrels : Nat
  ways : Nat
  weight : Nat
  frames : Nat
  job : Nat
  seed : Nat
  patron : Nat
deriving DecidableEq, Repr, Inhabited

/-- The body of OPEN with reclaim = 1 (R539, R561). -/
structure ReclaimF where
  record : Nat
  qtable : Nat
  queues : Nat
  version : Nat
  pasid : Nat
  ctx : Nat
  token : Nat
deriving DecidableEq, Repr, Inhabited

/-- MAP's body (R539). -/
structure MapF where
  va : Nat
  frames : Nat
  loc : Nat
  w : Bool
  remote : Bool
  peer : Nat
  target : Nat
deriving DecidableEq, Repr, Inhabited

/-- SET_POLICY's body without its selector and op (R539). -/
structure SetF where
  index : Nat
  record : Nat
  length : Nat
  target : Nat
deriving DecidableEq, Repr, Inhabited

/-- QUERY's body without its subject (R539). -/
structure QueryF where
  clear : Bool
  index : Nat
  buffer : Nat
  length : Nat
  ctx : Nat
deriving DecidableEq, Repr, Inhabited

/-! ### Carrel instruction fields (chapter 06). Size fields hold their encoded value. -/

/-- The common header (R202) but for class and op. -/
structure Hdr where
  pe : Bool
  pn : Bool
  ps : Nat
  fw : Bool
deriving DecidableEq, Repr, Inhabited

/-- ALU's fields. -/
structure AluF where
  rd : Nat
  rs1 : Nat
  rs2 : Nat
  im : Bool
  fn : Nat
  imm : Nat
deriving DecidableEq, Repr, Inhabited

/-- BR's fields. -/
structure BrF where
  cond : Nat
  rs1 : Nat
  rs2 : Nat
  target : Nat
deriving DecidableEq, Repr, Inhabited

/-- MOVE's fields. -/
structure MoveF where
  aD : Nat
  aS : Nat
  sb : Nat
  rows : Nat
  cols : Nat
  rv : Nat
deriving DecidableEq, Repr, Inhabited

/-- FOLD's fields. -/
structure FoldF where
  tile : Nat
  aA : Nat
  aB : Nat
  aC : Nat
  sb : Nat
  msize : Nat
  nsize : Nat
  ksize : Nat
  kind : Nat
  pmax : Nat
deriving DecidableEq, Repr, Inhabited

/-- PRE's fields. -/
structure PreF where
  tile : Nat
  aP : Nat
  sp : Nat
deriving DecidableEq, Repr, Inhabited

/-- EPI.ARITH's fields. -/
structure EpiArithF where
  tile : Nat
  saxis : Nat
  scale : Nat
  baxis : Nat
  bias : Nat
  slot : Nat
  target : Nat
  round : Nat
  stream : Nat
deriving DecidableEq, Repr, Inhabited

/-- EPI.TAP's fields. -/
structure EpiTapF where
  tile : Nat
  reduction : Nat
  raxis : Nat
  merge : Bool
  result : Nat
  tap : Bool
  qtensor : Nat
  taxis : Nat
  stats : Bool
  skind : Nat
  layer : Nat
deriving DecidableEq, Repr, Inhabited

/-- The fields of ROT and QNT. -/
structure RotF where
  aD : Nat
  aS : Nat
  sb : Nat
  rows : Nat
  klen : Nat
  rot : Nat
deriving DecidableEq, Repr, Inhabited

/-- RED's fields. -/
structure RedF where
  aD : Nat
  aS : Nat
  sb : Nat
  rows : Nat
  cols : Nat
  axis : Nat
  layer : Nat
  skind : Nat
deriving DecidableEq, Repr, Inhabited

/-- VEC's fields (`bmode` is the manual's `by`). -/
structure VecF where
  aD : Nat
  aX : Nat
  aY : Nat
  aZ : Nat
  sb : Nat
  rows : Nat
  cols : Nat
  bmode : Nat
  ys : Nat
  prec : Nat
  round : Nat
  stream : Nat
deriving DecidableEq, Repr, Inhabited

/-- COLL's fields. -/
structure CollF where
  slot : Nat
  aS : Nat
  aD : Nat
  desc : Nat
deriving DecidableEq, Repr, Inhabited

/-- FOLD operations (R138). -/
inductive FoldOp where
  | dot | l1 | l2 | maxp | minp | xpop
deriving DecidableEq, Repr, Inhabited

/-- PRE operations (R217). -/
inductive PreOp where
  | zero | brow | bcol | res | self
deriving DecidableEq, Repr, Inhabited

/-- RED operations. -/
inductive RedOp where
  | sum | sumsq | max | min | amax | stats | ladd | fadd
deriving DecidableEq, Repr, Inhabited

/-- VEC operations. -/
inductive VecOp where
  | add | sub | mul | fma | max | min | cvt | exp | rcp | rsqrt | split | merge
deriving DecidableEq, Repr, Inhabited

/-- COLL operations, in the order of their codes (R228). -/
inductive CollOp where
  | allReduce | reduceScatter | allGather | broadcast | allToAll | barrier | normReduce
  | tokenDispatch | tokenCombine
deriving DecidableEq, Repr, Inhabited

/-- A carrel instruction as its word spells it (R201, R203). -/
inductive Ins where
  | nop
  | li (rd : Nat) (rf : Bool) (imm : Nat)
  | alu (f : AluF)
  | br (f : BrF)
  | mova (ad rs : Nat)
  | movs (rd as : Nat)
  | flags (rd : Nat) (clr : Bool)
  | time (rd src : Nat)
  | endS
  | copy (f : MoveF)
  | stage (f : MoveF)
  | fill (f : MoveF)
  | fold (op : FoldOp) (f : FoldF)
  | pre (op : PreOp) (f : PreF)
  | epiArith (f : EpiArithF)
  | epiTap (f : EpiTapF)
  | epiReset (tile : Nat)
  | rot (inv : Bool) (f : RotF)
  | quant (f : RotF)
  | deq (f : RotF)
  | red (op : RedOp) (f : RedF)
  | vec (op : VecOp) (f : VecF)
  | rung (rd layer : Nat)
  | coll (op : CollOp) (f : CollF)
  | fence (writes : Bool)
  | bar
  | waitc (mask : Nat)
  | waitt (mask : Nat)
deriving DecidableEq, Repr, Inhabited

/-! ### Messages and events from outside -/

/-- A collective notice (R409). -/
structure Notice where
  id : Nat
  epoch : Nat
  rank : Nat
  fl : Bool
  un : Bool
  time : Nat
  digest : Nat
deriving DecidableEq, Repr, Inhabited

/-- Verdict outcomes (R410), and the epoch abort of R430. -/
inductive VOutcome where
  | group | failed | go | partialGo | timeout | abort
deriving DecidableEq, Repr, Inhabited

/-- A verdict record (R410): the OR of the notices' bits and the included ranks. -/
structure Verdict where
  id : Nat
  epoch : Nat
  outcome : VOutcome
  fl : Bool
  un : Bool
  included : List Nat
  deferred : Nat
  dropped : Nat
deriving DecidableEq, Repr, Inhabited

/-- One member's control data of a fused norm-reduce (R424): images of ledgers are 48 bytes (R48). -/
structure NormItem where
  ss : Bytes
  fl : Bool
  nf : Bool
  ws : Bool
  count : Nat
  block : Bytes
  cells : List Bytes
deriving DecidableEq, Repr, Inhabited

/-- The body of a collective data message: source rows by logical contribution, or control data. -/
inductive CollBody where
  | rows (contribution : Nat) (carried : Bool) (codes : List Nat) (poisoned : List Nat)
  | control (item : NormItem)
deriving DecidableEq, Repr, Inhabited

/-- A collective data message (R431). -/
structure CollMsg where
  id : Nat
  epoch : Nat
  rank : Nat
  body : CollBody
deriving DecidableEq, Repr, Inhabited

/-- A statistics record (R189), or an overfull event (R106), on its way to a watch entry. -/
structure StatsRec where
  layer : Nat
  kind : Nat
  sumsq : Bytes
  amax : Nat
  nonfinite : Nat
  count : Nat
  overfull : Bool
  op : Nat
  call : Nat        -- the call number an overfull event names
deriving DecidableEq, Repr, Inhabited

/-- What a partner states during training (R435, R444) with its active lanes. -/
structure TrainResp where
  addr : Nat
  sizes : List Nat
  buffers : List Nat
  lanes : Nat
  cert : Nat
deriving DecidableEq, Repr, Inhabited

/-- The outcome of a partner's SPDM authentication as the keeper finds it (R439). -/
structure AuthResp where
  chainOk : Bool
  reserveRole : Bool
  svn : Nat
  cert : Nat
deriving DecidableEq, Repr, Inhabited

/-- What the receiver finds of a flit's codewords (R436): correct, after that many corrected ones; or one that could not be corrected, where
`replay` says that the flit lost is one of the replay the receiver waits for (R443). -/
inductive FlitCheck where
  | good (corrected : Nat) | uncorrectable (replay : Bool)
deriving DecidableEq, Repr, Inhabited

/-- Why a port retrains: the cases of R445, and lanes that have passed their tests (R446). -/
inductive RetrainCause where
  | replays | lockLost | errorRatio | keyFailure | laneRestore
deriving DecidableEq, Repr, Inhabited

/-- A whole message at its destination (R438, R452): header fields, payload of each flit and its tag. -/
structure Message where
  dest : Nat
  hops : Nat
  src : Nat
  job : Nat
  kind : Nat
  mseq : Nat
  arg : Nat
  flits : List Bytes
  tags : List Nat
deriving DecidableEq, Repr, Inhabited

/-- Kind-9 detour changes (R461). -/
inductive DetourMsg where
  | add (coord reserve : Nat)
  | remove (coord : Nat)
deriving DecidableEq, Repr, Inhabited

/-- What a device can have lost when it declares itself failed (R19, R453, R647). -/
inductive LossCause where
  | wing (n : Nat)
  | annex (n : Nat)
  | hub (n : Nat)
  | stack (n : Nat)
  | linkCrypto
  | service
deriving DecidableEq, Repr, Inhabited

/-- Adjustable clock islands and the memory controllers (R22). -/
inductive Island where
  | carrel (p : Nat)
  | bay (b : Nat)
  | router (w : Nat)
  | memctl (k : Nat)
  | annex (a : Nat)
  | hub (h : Nat)
deriving DecidableEq, Repr, Inhabited

/-- Firmware cores (R571, R574). -/
inductive CoreId where
  | keeper | conservator | circulation
  | clerk (bay : Nat)
  /-- The standby cores on hub 1. -/
  | keeper1 | conservator1 | circulation1
deriving DecidableEq, Repr, Inhabited

/-- What a trap finds: whether protection refused an access (R589), and whether the resident copy passes its digest check before the restart
(R573). -/
structure TrapF where
  refusal : Bool
  digestOk : Bool
deriving DecidableEq, Repr, Inhabited

/-- How a function is reset (R558). -/
inductive ResetKind where
  | flr (fn : Nat)
  | hot (port : Nat)
  | linkDown (port : Nat)
deriving DecidableEq, Repr, Inhabited

/-- Why the standby host port takes over (R524). -/
inductive FailoverCause where
  | linkOut | perst
  | management (iid : Nat)
deriving DecidableEq, Repr, Inhabited

/-- Causes of a containment fault (R555). -/
inductive ContainCause where
  | rollbackFailed | keyLost | internalCheck | emptyGrant
deriving DecidableEq, Repr, Inhabited

/-- Hardware trips (R632). -/
inductive TripCause where
  | overvoltage | undervoltage | overcurrent | logicJunction | hbmJunction | coolantOutlet | railFault
deriving DecidableEq, Repr, Inhabited

/-- An image header with its component table (R578, R579); `keyOk` and `sigOk` are what the ROM's
hash and signature checks find, and a component's `body` is a digest of the stored bytes. -/
structure Component where
  id : Nat
  core : Nat
  offset : Nat
  size : Nat
  load : Nat
  digest : Nat
  body : Nat
deriving DecidableEq, Repr, Inhabited

/-- An Iazar image (R578). -/
structure Image where
  magic : Nat
  hversion : Nat
  version : Nat
  svn : Nat
  floor : Nat
  stepping : Nat
  ifaceMin : Nat
  ifaceMax : Nat
  hwrite : Nat
  hreadMin : Nat
  length : Nat
  reservedZero : Bool
  keyIndex : Nat
  keyOk : Bool
  sigOk : Bool
  headerDigest : Nat
  components : List Component
deriving DecidableEq, Repr, Inhabited

/-- Where a management or SPDM exchange runs (R563). -/
inductive Transport where
  | doe (port : Nat)
  | mctp
  | link (port : Nat)
deriving DecidableEq, Repr, Inhabited

/-- SPDM 1.3 requests (R439). -/
inductive SpdmMsg where
  | getVersion | getCapabilities | negotiateAlgorithms | getDigests | getCertificate
  | keyExchange (cert : Nat) (ok : Bool)
  | finish (ok : Bool)
  | keyUpdate | heartbeat | endSession
  /-- A request of a reserved code, or with a reserved field that is not 0. -/
  | other (code : Nat)
deriving DecidableEq, Repr, Inhabited

/-- KEY_INSTALL kinds (R542). -/
inductive KeyKind where
  | job | volume | fabric
  | other (code : Nat)
deriving DecidableEq, Repr, Inhabited

/-- The configuration record a request writes (R577). -/
structure ConfigRec where
  portMode : Nat
  minSvn : Nat
  authorities : List Nat
  reserved : Bool := false        -- some byte that the record reserves is not 0
deriving DecidableEq, Repr, Inhabited

/-- An MCTP packet (R564). -/
structure MctpPacket where
  som : Bool
  eom : Bool
  tag : Nat
  seq : Nat
  pecOk : Bool
  body : Bytes
  vendor : Bool
  secured : Bool
  macOk : Bool
deriving DecidableEq, Repr, Inhabited

/-- PLDM firmware update steps (R563, R581): a slot's bytes come with what the checks of its key and signature find (R580). -/
inductive PldmFw where
  | write (slot : Nat) (image : Bytes) (keyOk sigOk : Bool)
  | verify
  | activateReset
  /-- A request of a reserved code, or with a reserved field that is not 0. -/
  | other (code : Nat)
deriving DecidableEq, Repr, Inhabited

/-- PLDM discovery and platform monitoring requests (R563). -/
inductive PldmReq where
  | getTid | getTypes | getCommands
  | getSensor (id : Nat) (value : Nat)
  | getEvents
  | setEventReceiver (eid : Nat)
  | other (code : Nat) (reserved : Bool)
deriving DecidableEq, Repr, Inhabited

/-- Live activation runs from its request to the acceptance of every core's record (R590). -/
inductive LiveArg where
  | start
  | record (core : CoreId) (r : Bytes)
  /-- A request with a reserved code, or a reserved field that is not 0. -/
  | other (code : Nat)
deriving DecidableEq, Repr, Inhabited

/-- What release of MOD_RESET_N finds: straps, failing carrel slots and untrainable HBM lanes. -/
structure ReleaseF where
  mgmtSel : Bool
  clkMode : Bool
  failing : List Nat
  badLanes : List (Nat × Nat)
deriving DecidableEq, Repr, Inhabited

/-- Instructions of the test port (R639). -/
inductive JtagOp where
  | bypass | idcode | samplePreload | extest | clamp | highz
  | other (code : Nat)
deriving DecidableEq, Repr, Inhabited

/-- Beats of device time that a hold lasts: the first, and how many (R470, R472). -/
structure BeatSpan where
  first : Nat
  count : Nat
deriving DecidableEq, Repr, Inhabited

/-- A droop hold: the island whose cycle would have crossed the beat's edge, and the beat it held (R472). -/
structure DroopBeat where
  isl : Island
  beat : Nat
deriving DecidableEq, Repr, Inhabited

/-- What a reserve has heard of the jobs it would take over (R459, R515): each job and its restore point, and the addresses
of the buddies that named them. -/
structure RestorePoints where
  points : List (Nat × Nat)
  buddies : List Nat
deriving DecidableEq, Repr, Inhabited

/-- The commands. Each constructor is one row of spec/opcode_table.json. `c` names a context, `st` a
stream, `t` the device time at which a time-driven event happens. -/
inductive Instr where
  -- host commands (chapter 16)
  | openCtx (sub : Sub) (f : OpenF)
  | openReclaim (sub : Sub) (f : ReclaimF)
  | close (sub : Sub) (ctx : Nat)
  | bind (sub : Sub) (buf : Nat)
  | bindRelease (sub : Sub) (cn : Nat)
  | loadProgram (sub : Sub) (container len : Nat)
  | map (sub : Sub) (f : MapF)
  | unmap (sub : Sub) (va frames : Nat)
  | runStep (sub : Sub) (count cursor : Nat)
  | pause (sub : Sub)
  | resume (sub : Sub)
  | checkpoint (sub : Sub) (list entries : Nat)
  | restore (sub : Sub) (list volumes mapBuf mapEntries : Nat)
  | preempt (sub : Sub) (list entries deadline : Nat)
  | reshardComplete (sub : Sub)
  | reshardAbort (sub : Sub)
  | setJobRecord (sub : Sub) (f : SetF)
  | setParameterGroup (sub : Sub) (f : SetF)
  | setWatchEntry (sub : Sub) (f : SetF)
  | setRotationEntry (sub : Sub) (f : SetF)
  | setActivationTable (sub : Sub) (f : SetF)
  | setCollectiveDescriptor (sub : Sub) (f : SetF)
  | setGroupRecord (sub : Sub) (f : SetF)
  | setModeRecord (sub : Sub) (f : SetF)
  | setVolumePolicy (sub : Sub) (f : SetF)
  | setScheduling (sub : Sub) (f : SetF)
  | setQuota (sub : Sub) (f : SetF)
  | setFunctionAllotment (sub : Sub) (f : SetF)
  | setDeviceSetup (sub : Sub) (f : SetF)
  | setPolicyDelete (sub : Sub) (selector : Nat) (f : SetF)
  | queryContext (sub : Sub) (f : QueryF)
  | queryFlags (sub : Sub) (f : QueryF)
  | queryCatalogueEntry (sub : Sub) (f : QueryF)
  | queryShards (sub : Sub) (f : QueryF)
  | queryWatchEntry (sub : Sub) (f : QueryF)
  | queryWatchBlock (sub : Sub) (f : QueryF)
  | queryStepReport (sub : Sub) (f : QueryF)
  | queryMeter (sub : Sub) (f : QueryF)
  | queryDivergence (sub : Sub) (f : QueryF)
  | queryFaultRecords (sub : Sub) (f : QueryF)
  | queryActivationTable (sub : Sub) (f : QueryF)
  | queryDevice (sub : Sub) (f : QueryF)
  | fence (sub : Sub)
  | retire (sub : Sub) (frame cause : Nat)
  | retireMigrationDone (frame : Nat)
  -- queues
  | doorbellWrite (fn off value : Nat) (hw : List HostWrite)
  | commandFetch (q : QRef)
  | commandSlice (q : QRef) (cid units : Nat)
  | progressEntry (q : QRef) (cid t : Nat)
  | adminCtrlEnable (req : Req) (fn : Nat)
  -- register pages (chapter 18)
  | snapTrigger (req : Req)
  | snapshotLatch (t : Nat)
  | eventSelWrite (req : Req) (fn page k value : Nat)
  | evClear (req : Req) (fn page : Nat)
  | intStatusClear (req : Req) (fn page value hwSet : Nat)
  | intForceWrite (req : Req) (fn page value : Nat)
  | errSummaryClear (req : Req) (fn page : Nat)
  | portClear (req : Req) (port : Nat)
  | perturbEccArm (req : Req) (page value : Nat)
  | eccInjection (page : Nat)
  | registerWrite (req : Req) (fn off size value : Nat) (whole : Bool) (hw : List HostWrite)
  | lowWordReadLatch (req : Req) (fn off : Nat)
  -- carrel instructions (chapter 06)
  | ctrlNop (c st : Nat) (h : Hdr)
  | ctrlLi (c st : Nat) (h : Hdr) (rd : Nat) (rf : Bool) (imm : Nat)
  | ctrlAlu (c st : Nat) (h : Hdr) (f : AluF)
  | ctrlBr (c st : Nat) (h : Hdr) (f : BrF)
  | ctrlMova (c st : Nat) (h : Hdr) (ad rs : Nat)
  | ctrlMovs (c st : Nat) (h : Hdr) (rd as : Nat)
  | ctrlFlags (c st : Nat) (h : Hdr) (rd : Nat) (clr : Bool)
  | ctrlTime (c st : Nat) (h : Hdr) (rd src : Nat)
  | ctrlEnd (c st : Nat) (h : Hdr)
  | streamFallThrough (c st : Nat)
  | moveCopy (c st : Nat) (h : Hdr) (f : MoveF)
  | moveStage (c st : Nat) (h : Hdr) (f : MoveF)
  | moveFill (c st : Nat) (h : Hdr) (f : MoveF)
  | foldDot (c st : Nat) (h : Hdr) (f : FoldF)
  | foldL1 (c st : Nat) (h : Hdr) (f : FoldF)
  | foldL2 (c st : Nat) (h : Hdr) (f : FoldF)
  | foldMaxp (c st : Nat) (h : Hdr) (f : FoldF)
  | foldMinp (c st : Nat) (h : Hdr) (f : FoldF)
  | foldXpop (c st : Nat) (h : Hdr) (f : FoldF)
  | piecePartialArrival (c folio leaf span : Nat)
  | loadBalanceSteal (c folio thief : Nat)
  | foldComplete (c folio : Nat)
  | preZero (c st : Nat) (h : Hdr) (f : PreF)
  | preBrow (c st : Nat) (h : Hdr) (f : PreF)
  | preBcol (c st : Nat) (h : Hdr) (f : PreF)
  | preRes (c st : Nat) (h : Hdr) (f : PreF)
  | preSelf (c st : Nat) (h : Hdr) (f : PreF)
  | epiArith (c st : Nat) (h : Hdr) (f : EpiArithF)
  | epiTap (c st : Nat) (h : Hdr) (f : EpiTapF)
  | epiReset (c st : Nat) (h : Hdr) (tile : Nat)
  | rotFwd (c st : Nat) (h : Hdr) (f : RotF)
  | rotInv (c st : Nat) (h : Hdr) (f : RotF)
  | qntQuant (c st : Nat) (h : Hdr) (f : RotF)
  | qntDeq (c st : Nat) (h : Hdr) (f : RotF)
  | redSum (c st : Nat) (h : Hdr) (f : RedF)
  | redSumsq (c st : Nat) (h : Hdr) (f : RedF)
  | redMax (c st : Nat) (h : Hdr) (f : RedF)
  | redMin (c st : Nat) (h : Hdr) (f : RedF)
  | redAmax (c st : Nat) (h : Hdr) (f : RedF)
  | redStats (c st : Nat) (h : Hdr) (f : RedF)
  | redLadd (c st : Nat) (h : Hdr) (f : RedF)
  | redFadd (c st : Nat) (h : Hdr) (f : RedF)
  | vecAdd (c st : Nat) (h : Hdr) (f : VecF)
  | vecSub (c st : Nat) (h : Hdr) (f : VecF)
  | vecMul (c st : Nat) (h : Hdr) (f : VecF)
  | vecFma (c st : Nat) (h : Hdr) (f : VecF)
  | vecMax (c st : Nat) (h : Hdr) (f : VecF)
  | vecMin (c st : Nat) (h : Hdr) (f : VecF)
  | vecCvt (c st : Nat) (h : Hdr) (f : VecF)
  | vecExp (c st : Nat) (h : Hdr) (f : VecF)
  | vecRcp (c st : Nat) (h : Hdr) (f : VecF)
  | vecRsqrt (c st : Nat) (h : Hdr) (f : VecF)
  | vecSplit (c st : Nat) (h : Hdr) (f : VecF)
  | vecMerge (c st : Nat) (h : Hdr) (f : VecF)
  | watchRung (c st : Nat) (h : Hdr) (rd layer : Nat)
  | collAllReduce (c st : Nat) (h : Hdr) (f : CollF)
  | collReduceScatter (c st : Nat) (h : Hdr) (f : CollF)
  | collAllGather (c st : Nat) (h : Hdr) (f : CollF)
  | collBroadcast (c st : Nat) (h : Hdr) (f : CollF)
  | collAllToAll (c st : Nat) (h : Hdr) (f : CollF)
  | collBarrier (c st : Nat) (h : Hdr) (f : CollF)
  | collNormReduce (c st : Nat) (h : Hdr) (f : CollF)
  | collTokenDispatch (c st : Nat) (h : Hdr) (f : CollF)
  | collTokenCombine (c st : Nat) (h : Hdr) (f : CollF)
  | syncFence (c st : Nat) (h : Hdr) (writes : Bool)
  | syncBar (c st : Nat) (h : Hdr)
  | syncWaitc (c st : Nat) (h : Hdr) (mask : Nat)
  | syncWaitt (c st : Nat) (h : Hdr) (mask : Nat)
  -- the program phase's own events
  | operationComplete (c st op : Nat)
  | barRelease (c : Nat)
  | lookaheadStage (c st : Nat)
  | programPhaseFail (c : Nat)
  | programPhaseEnd (c : Nat)
  | statsRecordArrival (c : Nat) (n : Nat)
  -- annex atomics (R282): a cell of a tensor named by call number
  | annexIntAdd (c cn row col width value : Nat)
  | annexIntMinmax (c cn row col width : Nat) (signed max : Bool) (value : Nat)
  | annexCas (c cn row col width expected value : Nat)
  | annexLedgerAdd (c cn row col term : Nat)
  | annexLedgerCombine (c cn row col : Nat) (image : Bytes)
  | annexFloatAdd (c cn row col term : Nat)
  -- scrub, re-shelving, context switch
  | patrolScrub (atom symbols lane t : Nat)
  | reshelveRoundStart (c t : Nat) (moves : List (Nat × Nat × Nat))
  | reshelveCopyDone (c shard : Nat)
  | reshelveRoundEnd (c t : Nat)
  | vacatedFrameRelease (c : Nat)
  | carrelContextSwitch (carrel : Nat) (next : Option Nat)
  -- the step's phases (chapters 10, 15)
  | stepAdmit (c t : Nat)
  | normContributionSelf (c t : Nat)
  | normControlPhase (c : Nat)
  | gateDecide (c : Nat)
  | optimiserUpdate (c : Nat)
  | commitVote (c t : Nat)
  | voteResult (c : Nat) (v : Verdict)
  | stepSeal (c t : Nat)
  | stepSkip (c t : Nat)
  | secondCopy (c t : Nat)
  | drainStart (c slot : Nat)
  | drainReceive (c : Nat) (rank part : Nat) (colophon : Bool) (data : Bytes)
  | drainComplete (c slot : Nat) (buddyAck : Bool)
  | preemptDeadline (c t : Nat)
  -- collectives (chapter 12)
  | collNoticeReceive (c : Nat) (n : Notice)
  | collVerdict (c id t : Nat)
  | collVerdictReceive (c : Nat) (v : Verdict)
  | collDataPhaseDone (c id : Nat)
  | collMessageReceive (c : Nat) (m : CollMsg)
  | collNoVerdictTimeout (c id t : Nat)
  | epochAbort (c id epoch : Nat)
  -- links (chapter 13)
  | portTrain (p t : Nat) (resp : Option TrainResp)
  | portAuthenticate (p : Nat) (a : AuthResp)
  | flitReceive (p : Nat) (flit : Bytes) (check : FlitCheck) (t : Nat)
  | nakReceive (p seq : Nat)
  | frameSealTimeout (p : Nat)
  | portRetrain (p t : Nat) (cause : RetrainCause) (badLanes : Nat)
  | retrainTimeout (p t : Nat)
  | portDown (p : Nat)
  | laneTest (p lane t : Nat) (pass : Bool)
  | partnerAbsent (p t : Nat)
  | partnerStarvation (p buf t : Nat)
  | partnerFaulty (p t : Nat)
  | keyUpdate (p t : Nat) (done : Bool)
  | keyUpdateTimeout (p t : Nat)
  | messageDeliver (inPort : Nat) (m : Message)
  | messageRelay (inPort : Nat) (m : Message)
  | e2eNakReceive (dest job mseq t : Nat) (engineOk : Bool)
  | tagCheckRequest (src : Nat) (engineOk : Bool)
  | tagCheckWaitExpiry (job mseq t : Nat)
  | remoteReadRequest (src job va len mseq : Nat)
  | remoteWrite (src job va mseq : Nat) (data : Bytes)
  | timeExchange (t1 t2 t3 t4 : Nat) (skew : Int)
  | timeReply (p t1 t2 t3 : Nat)
  | fabricTimeAdoption (fabricTime : Nat)
  | tsyncEdge (t frame : Nat) (frameOk : Bool)
  | tsyncLoss (t : Nat)
  | refclkLoss (t : Nat)
  | detourChange (m : DetourMsg)
  | selfDeclareFailed (cause : LossCause)
  -- reserve takeover (chapter 15)
  | deviceLostDeclare (x : Nat) (declared : Bool) (reporters : List Nat)
  | reserveAdopt (x : Nat) (points : RestorePoints)
  | takeoverReceive (x reserve : Nat) (points : List (Nat × Nat))
  | takeoverVolumeStreamed (c : Nat) (volume : Bytes)
  | takeoverReady (c : Nat) (reports : List (Nat × Nat × Nat))
  | readyReceive (c epoch counter : Nat)
  | takeoverRefusal (x : Nat) (jobs : List Nat)
  -- resets and lifecycle (chapter 16)
  | functionReset (kind : ResetKind) (t : Nat)
  | portFailover (cause : FailoverCause) (t : Nat)
  | orphanGraceExpiry (c t : Nat)
  | drainingDone (c : Nat)
  | scrubDone (c : Nat)
  | containmentFault (c : Nat) (cause : ContainCause)
  -- transcript and metered holds (chapter 14)
  | transcriptRingWrite (c : Nat)
  | meteredRefreshHold (c beat : Nat)
  | meteredOutsideHold (c : Nat) (span : BeatSpan)
  | meteredDroopHold (c : Nat) (at_ : DroopBeat)
  -- control loops (chapters 17, 19)
  | droopStretch (isl : Island)
  | droopPersistenceTick (t : Nat)
  | powerCapTick (t watts : Nat)
  | thermalTick (t : Nat) (hot : List (Nat × Int))
  | powerCapSet (iid watts : Nat)
  | coolantFlowCheck (t flow watts : Nat)
  -- power, reset and pins (chapter 19)
  | hardwareTrip (cause : TripCause) (volts amps : Nat) (temp : Int) (t : Nat)
  | pwrEnRise (t : Nat)
  | surprisePowerDown (t : Nat)
  | presenceLoopOpen (t : Nat)
  | modResetAssert
  | modResetRelease (f : ReleaseF) (t : Nat)
  | perstAssert (port t : Nat)
  | configRequestEarly (port : Nat)
  -- firmware (chapter 17)
  | bootComplete (t : Nat)
  | watchdogExpiry (core : CoreId) (t pc : Nat) (digestOk : Bool)
  | coreTrap (core : CoreId) (t pc addr : Nat) (trap : TrapF)
  | standbyTakeover (core : CoreId) (t : Nat)
  | clerkQuarantine (bay t : Nat)
  | clerkRetry (bay : Nat) (ok : Bool) (t : Nat)
  | periodicCarrelSelfTest (phys : Nat) (pass : Bool) (t : Nat)
  | carrelRepair (phys : Nat) (sparePass : Bool)
  | hbmLaneSpare (stack channel lane : Nat)
  -- management and security
  | spdmSession (tr : Transport) (m : SpdmMsg)
  | getMeasurements (tr : Transport) (index : Nat)
  | keyInstall (tr : Transport) (c : Nat) (kind : KeyKind) (key : Bytes) (iid : Nat)
  | configRecordUpdate (tr : Transport) (r : ConfigRec) (iid : Nat)
  | keyRevocation (tr : Transport) (slot iid : Nat)
  | debugUnlock (tr : Transport) (iid : Nat)
  | pldmFirmwareUpdate (iid : Nat) (m : PldmFw)
  | liveActivation (iid t : Nat) (a : LiveArg)
  | handoverTimeout (t : Nat)
  | serviceRelease (tr : Transport) (iid : Nat)
  | carrelFailRequest (tr : Transport) (iid phys : Nat)
  | mctpPacket (p : MctpPacket) (t : Nat)
  | pldmPlatformRequest (iid : Nat) (m : PldmReq)
  | identityRead (addr : Nat)
  | jtagInstruction (op : JtagOp)
  | coreRestartComplete (core : CoreId) (t : Nat)
  | retrainComplete (p t lanes : Nat) (resumed : Bool) (cert : Nat)
  | mctpPacketGap (t : Nat)
  | mgmtBusReset
  | presenceLoopClose (t : Nat)
  | perstRelease (port t : Nat)
  | pwrEnFall (t : Nat)
deriving DecidableEq, Repr, Inhabited

end Sys2Proof
end

