-- ==== Sys2Proof/Decode.lean ====
section
/-! DEFINITION. The command a word spells (no row of the table gives bits), and the carrel instruction words of chapter 06
with their load-time checks (R193, R201–R232), with the writer of those words. -/

namespace Sys2Proof

/-- spec/opcode_table.json gives no row any bits: no word spells a command. -/
def decodeTableWord (_nbits _w : Nat) : Option Instr := none

/-- Bits [hi:lo] of an instruction word. -/
def wbits (w hi lo : Nat) : Nat := (w >>> lo) % 2 ^ (hi + 1 - lo)

/-- Bit `k` of an instruction word. -/
def wbit (w k : Nat) : Bool := (w >>> k) % 2 == 1

/-- The fields of MOVE (R212, R214): rv is reserved but in FILL; STAGE reserves aD too; FILL uses no source register. -/
def moveFields (w : Nat) : MoveF :=
  { aD := wbits w 111 109, aS := wbits w 108 106, sb := wbits w 105 101, rows := wbits w 100 89, cols := wbits w 88 69, rv := wbits w 68 64 }

def foldFields (w : Nat) : FoldF :=
  { tile := wbits w 111 108, aA := wbits w 107 105, aB := wbits w 104 102, aC := wbits w 101 99, sb := wbits w 98 94,
    msize := wbits w 93 82, nsize := wbits w 81 70, ksize := wbits w 69 59, kind := wbits w 58 57, pmax := wbits w 56 46 }

def preFields (w : Nat) : PreF := { tile := wbits w 111 108, aP := wbits w 107 105, sp := wbits w 104 100 }

def epiArithFields (w : Nat) : EpiArithF :=
  { tile := wbits w 111 108, saxis := wbits w 107 106, scale := wbits w 105 103, baxis := wbits w 102 101, bias := wbits w 100 98,
    slot := wbits w 97 94, target := wbits w 93 90, round := wbits w 89 88, stream := wbits w 87 72 }

def epiTapFields (w : Nat) : EpiTapF :=
  { tile := wbits w 111 108, reduction := wbits w 107 106, raxis := wbits w 105 105, merge := wbit w 104, result := wbits w 102 100,
    tap := wbit w 99, qtensor := wbits w 98 96, taxis := wbits w 95 95, stats := wbit w 94, skind := wbits w 93 93, layer := wbits w 92 77 }

def rotFields (w : Nat) : RotF :=
  { aD := wbits w 111 109, aS := wbits w 108 106, sb := wbits w 105 101, rows := wbits w 100 89, klen := wbits w 88 78, rot := wbits w 77 66 }

def redFields (w : Nat) : RedF :=
  { aD := wbits w 111 109, aS := wbits w 108 106, sb := wbits w 105 101, rows := wbits w 100 89, cols := wbits w 88 69,
    axis := wbits w 68 68, layer := wbits w 67 52, skind := wbits w 51 51 }

def vecFields (w : Nat) : VecF :=
  { aD := wbits w 111 109, aX := wbits w 108 106, aY := wbits w 105 103, aZ := wbits w 102 100, sb := wbits w 99 95,
    rows := wbits w 94 83, cols := wbits w 82 63, bmode := wbits w 62 61, ys := wbits w 60 56, prec := wbits w 55 54,
    round := wbits w 53 52, stream := wbits w 51 36 }

def collFields (w : Nat) : CollF :=
  { slot := wbits w 111 108, aS := wbits w 107 105, aD := wbits w 104 102, desc := wbits w 101 90 }

def aluFields (w : Nat) : AluF :=
  { rd := wbits w 111 107, rs1 := wbits w 106 102, rs2 := wbits w 101 97, im := wbit w 96, fn := wbits w 95 92, imm := wbits w 31 0 }

def foldOpOf : Nat → Option FoldOp
  | 0 => some .dot | 1 => some .l1 | 2 => some .l2 | 3 => some .maxp | 4 => some .minp | 5 => some .xpop | _ => none
def preOpOf : Nat → Option PreOp
  | 0 => some .zero | 1 => some .brow | 2 => some .bcol | 3 => some .res | 4 => some .self | _ => none
def redOpOf : Nat → Option RedOp
  | 0 => some .sum | 1 => some .sumsq | 2 => some .max | 3 => some .min | 4 => some .amax | 5 => some .stats | 6 => some .ladd
  | 7 => some .fadd | _ => none
def vecOpOf : Nat → Option VecOp
  | 0 => some .add | 1 => some .sub | 2 => some .mul | 3 => some .fma | 4 => some .max | 5 => some .min | 6 => some .cvt
  | 7 => some .exp | 8 => some .rcp | 9 => some .rsqrt | 10 => some .split | 11 => some .merge | _ => none
def collOpOf : Nat → Option CollOp
  | 0 => some .allReduce | 1 => some .reduceScatter | 2 => some .allGather | 3 => some .broadcast | 4 => some .allToAll
  | 5 => some .barrier | 6 => some .normReduce | 7 => some .tokenDispatch | 8 => some .tokenCombine | _ => none

def FoldOp.code : FoldOp → Nat | .dot => 0 | .l1 => 1 | .l2 => 2 | .maxp => 3 | .minp => 4 | .xpop => 5
def PreOp.code : PreOp → Nat | .zero => 0 | .brow => 1 | .bcol => 2 | .res => 3 | .self => 4
def RedOp.code : RedOp → Nat
  | .sum => 0 | .sumsq => 1 | .max => 2 | .min => 3 | .amax => 4 | .stats => 5 | .ladd => 6 | .fadd => 7
def VecOp.code : VecOp → Nat
  | .add => 0 | .sub => 1 | .mul => 2 | .fma => 3 | .max => 4 | .min => 5 | .cvt => 6 | .exp => 7 | .rcp => 8 | .rsqrt => 9
  | .split => 10 | .merge => 11
def CollOp.code : CollOp → Nat
  | .allReduce => 0 | .reduceScatter => 1 | .allGather => 2 | .broadcast => 3 | .allToAll => 4 | .barrier => 5 | .normReduce => 6
  | .tokenDispatch => 7 | .tokenCombine => 8

/-! ### The load-time checks of each class, on the fields -/

/-- LI with rf names a0–a7 and a 32-bit value (R209); ALU function codes 13–15 are reserved. -/
def liOk (rd : Nat) (rf : Bool) (imm : Nat) : Bool := !rf || (rd ≤ 7 && imm < 2 ^ 32)

/-- R212, R214: what COPY and STAGE reserve; FILL ignores aS, which no rule reserves. -/
def moveOk (op : Nat) (f : MoveF) : Bool :=
  if op == 0 then f.rv == 0 && f.sb ≤ 28
  else if op == 1 then f.aD == 0 && f.rv == 0 && f.sb ≤ 28
  else f.sb ≤ 30

def foldOk (f : FoldF) : Bool := f.sb ≤ 26 && f.kind ≤ 2 && f.pmax ≤ 1152

def preOk (op : PreOp) (f : PreF) : Bool :=
  match op with
  | .zero | .self => f.aP == 0 && f.sp == 0
  | .brow | .bcol => f.sp == 0
  | .res => f.sp ≤ 30

/-- R218: target FP32, BF16, FP16, FP8 E4M3, FP8 E5M2, INT8 or INT32; slot not 7; stream outside 0xFF00–0xFFFF. -/
def epiArithOk (f : EpiArithF) : Bool :=
  f.saxis ≤ 2 && f.baxis ≤ 2 && (f.saxis != 0 || f.scale == 0) && (f.baxis != 0 || f.bias == 0) && f.slot != 7
  && [5, 6, 7, 9, 10, 11, 13].contains f.target && f.round ≤ 2 && f.stream < 0xFF00

/-- R218: a register field whose stage is disabled is reserved; the other fields of a disabled stage are ignored. -/
def epiTapOk (f : EpiTapF) : Bool := f.reduction ≤ 2 && (f.reduction != 0 || f.result == 0) && (f.tap || f.qtensor == 0)

def rotOk (f : RotF) : Bool := f.sb ≤ 28 && f.rot != 0
def quantOk (f : RotF) : Bool := f.sb ≤ 28 && f.rot == 0

/-- The RED table: STATS reserves aD; the others ignore layer and skind. -/
def redOk (op : RedOp) (f : RedF) : Bool :=
  match op with
  | .stats => f.aD == 0 && f.sb ≤ 30
  | _ => f.sb ≤ 28

/-- R226, R251, R266: the fields an op does not use are reserved. -/
def vecOk (op : VecOp) (f : VecF) : Bool :=
  f.sb ≤ 30 && f.prec ≤ 2 && f.round ≤ 2 && f.stream < 0xFF00 &&
  match op with
  | .add | .sub | .mul | .max | .min =>
    f.aZ == 0 && (if f.bmode == 3 then f.aY == 0 else f.ys == 0)
  | .fma => if f.bmode == 3 then f.aY == 0 else f.ys == 0
  | .cvt => f.aY == 0 && f.bmode == 0 && f.ys == 0 && f.aZ == 0 && f.prec == 0
  | .exp | .rcp | .rsqrt => f.aY == 0 && f.bmode == 0 && f.ys == 0 && f.aZ == 0
  | .split => f.bmode == 0 && f.aZ == 0 && f.round == 0 && f.stream == 0 && f.prec ≤ 1
  | .merge => f.bmode == 0 && f.prec == 1

def collOk (op : CollOp) (f : CollF) : Bool := op != .barrier || (f.aS == 0 && f.aD == 0)

/-! ### Reading a word -/

/-- The class part of a word: the instruction its class, op and bits [111:0] spell. -/
def decodeClass (cls op w : Nat) : Option Ins :=
  let z (hi lo : Nat) : Bool := wbits w hi lo == 0
  match cls with
  | 0x0 =>
    match op with
    | 0 => if z 111 0 then some .nop else none
    | 1 => if z 105 64 && liOk (wbits w 111 107) (wbit w 106) (wbits w 63 0)
           then some (.li (wbits w 111 107) (wbit w 106) (wbits w 63 0)) else none
    | 2 => if z 91 32 && wbits w 95 92 ≤ 12 then some (.alu (aluFields w)) else none
    | 3 => if z 98 16 && wbits w 111 109 ≤ 6
           then some (.br ⟨wbits w 111 109, wbits w 108 104, wbits w 103 99, wbits w 15 0⟩) else none
    | 4 => if z 103 0 then some (.mova (wbits w 111 109) (wbits w 108 104)) else none
    | 5 => if z 103 0 then some (.movs (wbits w 111 107) (wbits w 106 104)) else none
    | 6 => if z 105 0 then some (.flags (wbits w 111 107) (wbit w 106)) else none
    | 7 => if z 103 0 && wbits w 106 104 ≤ 2 then some (.time (wbits w 111 107) (wbits w 106 104)) else none
    | 8 => if z 111 0 then some .endS else none
    | _ => none
  | 0x1 =>
    if op ≤ 2 && z 63 0 && moveOk op (moveFields w) then
      if op == 0 then some (.copy (moveFields w)) else if op == 1 then some (.stage (moveFields w)) else some (.fill (moveFields w))
    else none
  | 0x2 =>
    match foldOpOf op with
    | some o => if z 45 0 && foldOk (foldFields w) then some (.fold o (foldFields w)) else none
    | none => none
  | 0x3 =>
    match preOpOf op with
    | some o => if z 99 0 && preOk o (preFields w) then some (.pre o (preFields w)) else none
    | none => none
  | 0x4 =>
    match op with
    | 0 => if z 71 0 && epiArithOk (epiArithFields w) then some (.epiArith (epiArithFields w)) else none
    | 1 => if z 103 103 && z 76 0 && epiTapOk (epiTapFields w) then some (.epiTap (epiTapFields w)) else none
    | 2 => if z 107 0 then some (.epiReset (wbits w 111 108)) else none
    | _ => none
  | 0x5 => if op ≤ 1 && z 65 0 && rotOk (rotFields w) then some (.rot (op == 1) (rotFields w)) else none
  | 0x6 =>
    if op ≤ 1 && z 65 0 && quantOk (rotFields w) then
      if op == 0 then some (.quant (rotFields w)) else some (.deq (rotFields w))
    else none
  | 0x7 =>
    match redOpOf op with
    | some o => if z 50 0 && redOk o (redFields w) then some (.red o (redFields w)) else none
    | none => none
  | 0x8 =>
    match vecOpOf op with
    | some o => if z 35 0 && vecOk o (vecFields w) then some (.vec o (vecFields w)) else none
    | none => none
  | 0x9 => if op == 0 && z 90 0 then some (.rung (wbits w 111 107) (wbits w 106 91)) else none
  | 0xA =>
    match collOpOf op with
    | some o => if z 89 0 && collOk o (collFields w) then some (.coll o (collFields w)) else none
    | none => none
  | 0xB =>
    match op with
    | 0 => if wbits w 111 110 ≤ 1 && z 109 0 then some (.fence (wbits w 111 110 == 1)) else none
    | 1 => if z 111 0 then some .bar else none
    | 2 => if z 95 0 && wbits w 111 96 != 0 then some (.waitc (wbits w 111 96)) else none
    | 3 => if z 95 0 && wbits w 111 96 != 0 then some (.waitt (wbits w 111 96)) else none
    | _ => none
  | _ => none

/-- The header of a word (R202); with pe = 0, pn and ps are reserved (R204). -/
def decodeHdr (w : Nat) : Option Hdr :=
  let h : Hdr := { pe := wbit w 119, pn := wbit w 118, ps := wbits w 117 113, fw := wbit w 112 }
  if !h.pe && (h.pn || h.ps != 0) then none else some h

/-- An instruction word read whole: none where a load-time check that depends on its bits alone refuses it. -/
def decodeIns (w : Nat) : Option (Hdr × Ins) :=
  match decodeHdr w with
  | none => none
  | some h =>
    match decodeClass (wbits w 127 124) (wbits w 123 120) w with
    | none => none
    | some i => some (h, i)

/-- A branch target lies within its stream (R209). -/
def targetOk (len : Nat) : Ins → Bool
  | .br f => f.target < len
  | _ => true

/-- A word of a stream of `len` words passes every load-time check (R193). -/
def loadOk (len w : Nat) : Bool :=
  match decodeIns w with
  | some (_, i) => targetOk len i
  | none => false

/-! ### Writing a word (R201–R232) -/

def bn (b : Bool) (k : Nat) : Nat := if b then 2 ^ k else 0

def moveWord (f : MoveF) : Nat :=
  f.aD * 2 ^ 109 + f.aS * 2 ^ 106 + f.sb * 2 ^ 101 + f.rows * 2 ^ 89 + f.cols * 2 ^ 69 + f.rv * 2 ^ 64
def rotWord (f : RotF) : Nat :=
  f.aD * 2 ^ 109 + f.aS * 2 ^ 106 + f.sb * 2 ^ 101 + f.rows * 2 ^ 89 + f.klen * 2 ^ 78 + f.rot * 2 ^ 66

/-- Class and op of an instruction. -/
def Ins.classOp : Ins → Nat × Nat
  | .nop => (0, 0) | .li .. => (0, 1) | .alu _ => (0, 2) | .br _ => (0, 3) | .mova .. => (0, 4) | .movs .. => (0, 5)
  | .flags .. => (0, 6) | .time .. => (0, 7) | .endS => (0, 8)
  | .copy _ => (1, 0) | .stage _ => (1, 1) | .fill _ => (1, 2)
  | .fold o _ => (2, o.code) | .pre o _ => (3, o.code)
  | .epiArith _ => (4, 0) | .epiTap _ => (4, 1) | .epiReset _ => (4, 2)
  | .rot inv _ => (5, if inv then 1 else 0) | .quant _ => (6, 0) | .deq _ => (6, 1)
  | .red o _ => (7, o.code) | .vec o _ => (8, o.code) | .rung .. => (9, 0) | .coll o _ => (10, o.code)
  | .fence _ => (11, 0) | .bar => (11, 1) | .waitc _ => (11, 2) | .waitt _ => (11, 3)

/-- Bits [111:0] of an instruction. -/
def Ins.fields : Ins → Nat
  | .nop | .endS | .bar => 0
  | .li rd rf imm => rd * 2 ^ 107 + bn rf 106 + imm
  | .alu f => f.rd * 2 ^ 107 + f.rs1 * 2 ^ 102 + f.rs2 * 2 ^ 97 + bn f.im 96 + f.fn * 2 ^ 92 + f.imm
  | .br f => f.cond * 2 ^ 109 + f.rs1 * 2 ^ 104 + f.rs2 * 2 ^ 99 + f.target
  | .mova ad rs => ad * 2 ^ 109 + rs * 2 ^ 104
  | .movs rd as => rd * 2 ^ 107 + as * 2 ^ 104
  | .flags rd clr => rd * 2 ^ 107 + bn clr 106
  | .time rd src => rd * 2 ^ 107 + src * 2 ^ 104
  | .copy f | .stage f | .fill f => moveWord f
  | .fold _ f => f.tile * 2 ^ 108 + f.aA * 2 ^ 105 + f.aB * 2 ^ 102 + f.aC * 2 ^ 99 + f.sb * 2 ^ 94 + f.msize * 2 ^ 82
      + f.nsize * 2 ^ 70 + f.ksize * 2 ^ 59 + f.kind * 2 ^ 57 + f.pmax * 2 ^ 46
  | .pre _ f => f.tile * 2 ^ 108 + f.aP * 2 ^ 105 + f.sp * 2 ^ 100
  | .epiArith f => f.tile * 2 ^ 108 + f.saxis * 2 ^ 106 + f.scale * 2 ^ 103 + f.baxis * 2 ^ 101 + f.bias * 2 ^ 98 + f.slot * 2 ^ 94
      + f.target * 2 ^ 90 + f.round * 2 ^ 88 + f.stream * 2 ^ 72
  | .epiTap f => f.tile * 2 ^ 108 + f.reduction * 2 ^ 106 + f.raxis * 2 ^ 105 + bn f.merge 104 + f.result * 2 ^ 100 + bn f.tap 99
      + f.qtensor * 2 ^ 96 + f.taxis * 2 ^ 95 + bn f.stats 94 + f.skind * 2 ^ 93 + f.layer * 2 ^ 77
  | .epiReset t => t * 2 ^ 108
  | .rot _ f | .quant f | .deq f => rotWord f
  | .red _ f => f.aD * 2 ^ 109 + f.aS * 2 ^ 106 + f.sb * 2 ^ 101 + f.rows * 2 ^ 89 + f.cols * 2 ^ 69 + f.axis * 2 ^ 68
      + f.layer * 2 ^ 52 + f.skind * 2 ^ 51
  | .vec _ f => f.aD * 2 ^ 109 + f.aX * 2 ^ 106 + f.aY * 2 ^ 103 + f.aZ * 2 ^ 100 + f.sb * 2 ^ 95 + f.rows * 2 ^ 83
      + f.cols * 2 ^ 63 + f.bmode * 2 ^ 61 + f.ys * 2 ^ 56 + f.prec * 2 ^ 54 + f.round * 2 ^ 52 + f.stream * 2 ^ 36
  | .rung rd layer => rd * 2 ^ 107 + layer * 2 ^ 91
  | .coll _ f => f.slot * 2 ^ 108 + f.aS * 2 ^ 105 + f.aD * 2 ^ 102 + f.desc * 2 ^ 90
  | .fence w => bn w 110
  | .waitc m | .waitt m => m * 2 ^ 96

/-- The word of an instruction. -/
def encodeIns (h : Hdr) (i : Ins) : Nat :=
  i.classOp.1 * 2 ^ 124 + i.classOp.2 * 2 ^ 120 + bn h.pe 119 + bn h.pn 118 + h.ps * 2 ^ 113 + bn h.fw 112 + i.fields

end Sys2Proof
end

