-- ==== Sys2Proof/Config.lean ====
section
/-! DEFINITION. The free values: what the specification leaves open, as constants with no body (log 12). -/

namespace Sys2Proof.Config

/-- The reclaim token of the n-th OPEN: 16 random bytes from the keeper (R541). -/
opaque token : Nat → BitVec 128
/-- Byte `i` of the built-in activation table of slot 2–6 (R182 bounds its error and gives no coefficients; log 11). -/
opaque actByte : Nat → Nat → BitVec 8
/-- The cataloguer's choice of a carrel: which of `G` carrels serves, for the n-th choice (R195, R334; log 7). -/
opaque pick : Nat → Nat
/-- Serial number and manufacture date of the identity record (R628 gives neither layout nor value). -/
opaque serial : List (BitVec 8)
opaque madeOn : List (BitVec 8)
/-- Measurement 2 for a floor count, the revoked key slots and the unlock state (R585 gives the fuse state no layout). -/
opaque fuseDigest : Nat → List Nat → Bool → BitVec 384
/-- The program counter that the n-th record of a takeover or quarantine holds (R599 gives none for them). -/
opaque crashPc : Nat → BitVec 32
/-- Whether the resident copy of a core that a refused register access has trapped passes its digest check (R573), by the number of the choice. -/
opaque copyPasses : Nat → Bool
/-- Byte of the image that the module leaves the factory with, by its offset in slot A (log 1). -/
opaque factoryByte : Nat → BitVec 8
/-- Bytes of a boot control copy that are written when power is lost, by the number of the choice (R576). -/
opaque cutAfter : Nat → BitVec 5
/-- An image of this version understands handover entries of this type (R594; the manual lists no types). -/
opaque understands : Nat → Nat → Bool
/-- The n-th 512-bit XTS key the keeper generates: a context's, or the device's (R300). -/
opaque xtsKey : Nat → BitVec 512
/-- Where in a stack's device-reserved range the table of a level lies, for a root, a level and the address bits above it (R292, R295: the
manual leaves the places of the tables to the device). -/
opaque tableAt : Nat → Nat → Nat → BitVec 20
/-- Where the n-th context's level 3 table lies, as a number below 16 × 2^20: stack and 256-byte place. -/
opaque rootAt : Nat → BitVec 24
/-- Which carrel of an assignment set first receives a piece, for the n-th choice, a leaf and a span (R334). -/
opaque place : Nat → Nat → Nat → Nat
/-- A store granule of a carrel that left service can still be read, for the n-th such granule (R327, R328). -/
opaque granuleReads : Nat → Bool
/-- Which hub's engine gathers the in-device reduction of a descriptor and sequence (R21 says that one of the four does, and not which; log 14). -/
opaque collHub : Nat → Nat
/-- The bytes of a unit that a collective delivers where the manual states no result, for the n-th such delivery and a unit (R408, R428, R429;
log 127). -/
opaque freeUnit : Nat → Nat → BitVec 4608
/-- A peer refuses the accesses of an attempt to a page: peer index, page, attempt counter (R338: the peer's own tables decide; log 9). -/
opaque peerRefuses : Nat → Nat → Nat → Bool
/-- Granted frames that a peer has free, at the n-th choice, by peer index (R337: the peer's own state; log 9). -/
opaque peerFrames : Nat → Nat → Nat
/-- The n-th hop key: of a direction of a port, from the SPDM session's key schedule (R440, R442; the manual names the standard alone). -/
opaque hopKey : Nat → BitVec 256
/-- Byte `i` of the boot ROM digest, measurement 1 (R585). -/
opaque romByte : Nat → BitVec 8
/-- The class capabilities of a page class (R605: the manual lists none). -/
opaque classCaps : Nat → BitVec 16
/-- The class state bits of a page (R605: the manual lists none). -/
opaque classState : Nat → BitVec 24
/-- Whether a page class beside memory controllers, fabric ports and carrels has perturbation registers (R605, R621; log 109). -/
opaque perturbs : Nat → Bool
/-- A value the manual leaves open, for the n-th such value: the ROM's SPDM and PLDM response data. -/
opaque freeByte : Nat → Nat → BitVec 8
/-- Whether the k-th write of an operation that faulted in execution was done (R243), for the n-th free value (log 15). -/
opaque partialDone : Nat → Nat → Bool

/-- Whether a device-reserved frame holds device data (R308 tells such frames apart and does not say which they are; log 32). -/
opaque deviceData : Nat → Bool
/-- The device record of QUERY subject 0x0C as a function of stepping, Iazar version, lowest and highest interface version and number of
enabled carrels (R549 names the fields and gives no layout; log 33). -/
opaque deviceRecord : Nat → Nat → Nat → Nat → Nat → List (BitVec 8)

/-- ERR_SUMMARY.first_code of an error the manual gives no code: 0 corrected, 1 uncorrectable, for a page class (R606; log 12). -/
opaque errCode : Nat → Nat → BitVec 8
/-- The syndrome logged with an error of an atom, for the n-th error (R302, R303 log one; the code's construction is not given; log 12). -/
opaque syndrome : Nat → Nat → BitVec 64

end Sys2Proof.Config
end

