-- ==== Sys2Proof/Machine/Num.lean ====
section
/-! DEFINITION. Number formats, exact values, rounding, sticky flags and ledgers (chapter 02; R31 to R71). -/

namespace Sys2Proof.Machine

/-! ### Flags (R63, R71) -/

/-- The four sticky flags. -/
structure Flags where
  nv : Bool
  of : Bool
  uf : Bool
  nx : Bool
deriving DecidableEq, Repr, Inhabited

def Flags.none : Flags := ⟨false, false, false, false⟩
def Flags.NV : Flags := ⟨true, false, false, false⟩
def Flags.OF : Flags := ⟨false, true, false, false⟩
def Flags.NX : Flags := ⟨false, false, false, true⟩
def Flags.OFNX : Flags := ⟨false, true, false, true⟩
def Flags.UFNX : Flags := ⟨false, false, true, true⟩

/-- The union of two sets of raised flags. -/
def Flags.or (a b : Flags) : Flags := ⟨a.nv || b.nv, a.of || b.of, a.uf || b.uf, a.nx || b.nx⟩

/-- The flag word of R71. -/
def Flags.toWord (f : Flags) : Nat :=
  (if f.nv then 8 else 0) + (if f.of then 4 else 0) + (if f.uf then 2 else 0) + (if f.nx then 1 else 0)

/-- Raise `g` only where `b` holds. -/
def Flags.when (b : Bool) (g : Flags) : Flags := if b then g else Flags.none

/-! ### Formats (R31 to R36) -/

/-- The formats of R31, in the order of their codes. -/
inductive Fmt where
  | t2 | int2 | int4 | uint4 | fp4 | int8 | e4m3 | e5m2 | e8m0 | bf16 | fp16 | fp32 | fp64 | int32
deriving DecidableEq, Repr, Inhabited

/-- The format that a 4-bit code names; 0xE and 0xF are reserved (R31). -/
def Fmt.ofCode : Nat → Option Fmt
  | 0 => some .t2 | 1 => some .int2 | 2 => some .int4 | 3 => some .uint4 | 4 => some .fp4
  | 5 => some .int8 | 6 => some .e4m3 | 7 => some .e5m2 | 8 => some .e8m0 | 9 => some .bf16
  | 10 => some .fp16 | 11 => some .fp32 | 12 => some .fp64 | 13 => some .int32
  | _ => none

/-- The code of a format (R31). -/
def Fmt.code : Fmt → Nat
  | .t2 => 0 | .int2 => 1 | .int4 => 2 | .uint4 => 3 | .fp4 => 4 | .int8 => 5 | .e4m3 => 6
  | .e5m2 => 7 | .e8m0 => 8 | .bf16 => 9 | .fp16 => 10 | .fp32 => 11 | .fp64 => 12 | .int32 => 13

/-- Element width in bits (R31). -/
def Fmt.width : Fmt → Nat
  | .t2 | .int2 => 2
  | .int4 | .uint4 | .fp4 => 4
  | .int8 | .e4m3 | .e5m2 | .e8m0 => 8
  | .bf16 | .fp16 => 16
  | .fp32 | .int32 => 32
  | .fp64 => 64

/-- An element format of a quantised tensor (R73). -/
def Fmt.narrow : Fmt → Bool
  | .t2 | .int2 | .int4 | .uint4 | .fp4 | .int8 | .e4m3 | .e5m2 => true
  | _ => false

/-- Exponent width, mantissa width and bias of the floating formats with a sign (R36). -/
structure FloatShape where
  eb : Nat
  mb : Nat
  bias : Nat
deriving DecidableEq, Repr

/-- Exponent bits, fraction bits and bias of a floating format; FP64 is stored data to the array (R35, R36, R38, R39). -/
def Fmt.float : Fmt → Option FloatShape
  | .fp4 => some ⟨2, 1, 1⟩
  | .e4m3 => some ⟨4, 3, 7⟩
  | .e5m2 => some ⟨5, 2, 15⟩
  | .bf16 => some ⟨8, 7, 127⟩
  | .fp16 => some ⟨5, 10, 15⟩
  | .fp32 => some ⟨8, 23, 127⟩
  | .fp64 => some ⟨11, 52, 1023⟩
  | _ => none

/-- The format has infinities (R36). -/
def Fmt.hasInf : Fmt → Bool
  | .e5m2 | .bf16 | .fp16 | .fp32 | .fp64 => true
  | _ => false

/-- Largest finite magnitude code of a floating format (R36). -/
def Fmt.maxCode : Fmt → Nat
  | .fp4 => 0x7 | .e4m3 => 0x7E | .e5m2 => 0x7B | .bf16 => 0x7F7F | .fp16 => 0x7BFF
  | .fp32 => 0x7F7FFFFF | .fp64 => 0x7FEFFFFFFFFFFFFF | _ => 0

/-- Code of positive infinity. -/
def Fmt.infCode : Fmt → Nat
  | .e5m2 => 0x7C | .bf16 => 0x7F80 | .fp16 => 0x7C00 | .fp32 => 0x7F800000
  | .fp64 => 0x7FF0000000000000 | _ => 0

/-- The canonical NaN of the format (R41); 0 for a target without NaN (R51). -/
def Fmt.nanCode : Fmt → Nat
  | .e4m3 => 0x7F | .e5m2 => 0x7E | .e8m0 => 0xFF | .bf16 => 0x7FC0 | .fp16 => 0x7E00
  | .fp32 => 0x7FC00000 | .fp64 => 0x7FF8000000000000 | _ => 0

/-- Lowest and highest value of an integer format (R33); the ternary range for T2. -/
def Fmt.intRange : Fmt → Int × Int
  | .t2 => (-1, 1) | .int2 => (-2, 1) | .int4 => (-8, 7) | .uint4 => (0, 15)
  | .int8 => (-128, 127) | .int32 => (-(2 ^ 31 : Int), 2 ^ 31 - 1) | _ => (0, 0)

/-! ### Exact values -/

/-- An exact value: a NaN, an infinity, or ±(num / den) · 2^e with den ≠ 0 (a zero keeps its sign). -/
inductive XReal where
  | nan
  | inf (neg : Bool)
  | fin (neg : Bool) (num den : Nat) (e : Int)
deriving DecidableEq, Repr, Inhabited

/-- `2^k` for a possibly negative shift, as numerator. -/
def pow2p (k : Int) : Nat := if 0 ≤ k then 2 ^ k.toNat else 1

namespace XReal

def zero : XReal := .fin false 0 1 0
def one : XReal := .fin false 1 1 0
def ofNat (n : Nat) : XReal := .fin false n 1 0
def ofInt (i : Int) : XReal := .fin (decide (i < 0)) i.natAbs 1 0
/-- `i · 2^e`. -/
def ofScaled (i : Int) (e : Int) : XReal := .fin (decide (i < 0)) i.natAbs 1 e
def pow2 (e : Int) : XReal := .fin false 1 1 e

def isNan : XReal → Bool | .nan => true | _ => false
def isInf : XReal → Bool | .inf _ => true | _ => false
def isFin : XReal → Bool | .fin .. => true | _ => false
def isZero : XReal → Bool | .fin _ n _ _ => n == 0 | _ => false
def isNeg : XReal → Bool | .inf s => s | .fin s _ _ _ => s | .nan => false

def neg : XReal → XReal
  | .nan => .nan | .inf s => .inf (!s) | .fin s n d e => .fin (!s) n d e
def abs : XReal → XReal
  | .nan => .nan | .inf _ => .inf false | .fin _ n d e => .fin false n d e

/-- Exact sum under the IEEE rules for infinities and signed zeros (R264). -/
def add : XReal → XReal → XReal
  | .nan, _ | _, .nan => .nan
  | .inf a, .inf b => if a = b then .inf a else .nan
  | .inf a, .fin .. => .inf a
  | .fin .., .inf b => .inf b
  | .fin s1 n1 d1 e1, .fin s2 n2 d2 e2 =>
    let e := min e1 e2
    let a := n1 * d2 * pow2p (e1 - e)
    let b := n2 * d1 * pow2p (e2 - e)
    let d := d1 * d2
    if s1 = s2 then .fin s1 (a + b) d e
    else if a = b then .fin false 0 1 0
    else if b < a then .fin s1 (a - b) d e
    else .fin s2 (b - a) d e

def sub (a b : XReal) : XReal := add a b.neg

/-- Exact product; 0 × inf is a NaN (R264). -/
def mul : XReal → XReal → XReal
  | .nan, _ | _, .nan => .nan
  | .inf a, .inf b => .inf (a != b)
  | .inf a, .fin s n _ _ => if n = 0 then .nan else .inf (a != s)
  | .fin s n _ _, .inf b => if n = 0 then .nan else .inf (s != b)
  | .fin s1 n1 d1 e1, .fin s2 n2 d2 e2 => .fin (s1 != s2) (n1 * n2) (d1 * d2) (e1 + e2)

/-- Exact quotient under IEEE rules; a non-zero value over zero is an infinity, 0/0 and inf/inf a NaN. -/
def div : XReal → XReal → XReal
  | .nan, _ | _, .nan => .nan
  | .inf _, .inf _ => .nan
  | .inf a, .fin s _ _ _ => .inf (a != s)
  | .fin s _ _ _, .inf b => .fin (s != b) 0 1 0
  | .fin s1 n1 d1 e1, .fin s2 n2 d2 e2 =>
    if n2 = 0 then (if n1 = 0 then .nan else .inf (s1 != s2))
    else .fin (s1 != s2) (n1 * d2) (d1 * n2) (e1 - e2)

/-- Multiply by a power of two exactly. -/
def scale (x : XReal) (k : Int) : XReal :=
  match x with
  | .fin s n d e => .fin s n d (e + k)
  | y => y

/-- Comparison of magnitudes of finite values. -/
def magLt (n1 d1 : Nat) (e1 : Int) (n2 d2 : Nat) (e2 : Int) : Bool :=
  let e := min e1 e2
  decide (n1 * d2 * pow2p (e1 - e) < n2 * d1 * pow2p (e2 - e))

/-- `x < y` for values that are no NaN; zeros of both signs are equal (R40). -/
def lt : XReal → XReal → Bool
  | .nan, _ | _, .nan => false
  | .inf a, .inf b => a && !b
  | .inf a, .fin .. => a
  | .fin .., .inf b => !b
  | .fin s1 n1 d1 e1, .fin s2 n2 d2 e2 =>
    if n1 = 0 && n2 = 0 then false
    else if n1 = 0 then !s2
    else if n2 = 0 then s1
    else match s1, s2 with
      | true, false => true
      | false, true => false
      | false, false => magLt n1 d1 e1 n2 d2 e2
      | true, true => magLt n2 d2 e2 n1 d1 e1

def le (x y : XReal) : Bool := !x.isNan && !y.isNan && !lt y x
def eq (x y : XReal) : Bool := !x.isNan && !y.isNan && !lt x y && !lt y x

/-- ⌊log2 |x|⌋ of a finite non-zero value. -/
def ilog2 : XReal → Int
  | .fin _ n d e =>
    let k : Int := (Nat.log2 n : Int) - (Nat.log2 d : Int)
    let up := if 0 ≤ k then decide (d * 2 ^ k.toNat ≤ n) else decide (d ≤ n * 2 ^ (-k).toNat)
    (if up then k else k - 1) + e
  | _ => 0

end XReal

/-! ### Rounding (R54 to R58) -/

/-- Rounding modes (R54). -/
inductive RM where
  | rne | rtz | sr
deriving DecidableEq, Repr, Inhabited

/-- The mode that a 2-bit code names; 0b11 is reserved (R54). -/
def RM.ofCode : Nat → Option RM
  | 0 => some .rne | 1 => some .rtz | 2 => some .sr | _ => none

/-- A positive quotient `num / den` to an integer under a mode, with whether it was inexact.
`draw` is the 32-bit word of R57, used by SR on an inexact source only. -/
def roundQuot (rm : RM) (draw num den : Nat) : Nat × Bool :=
  let q := num / den
  let r := num % den
  if r = 0 then (q, false)
  else match rm with
    | .rtz => (q, true)
    | .rne => (if 2 * r < den then q else if den < 2 * r then q + 1 else if q % 2 = 0 then q else q + 1, true)
    | .sr => (if draw % 2 ^ 32 < r * 2 ^ 32 / den then q + 1 else q, true)

/-- |x| in units of 2^u, rounded to an integer. -/
def roundUnits (rm : RM) (draw : Nat) (n d : Nat) (e u : Int) : Nat × Bool :=
  roundQuot rm draw (n * pow2p (e - u)) (d * pow2p (u - e))

/-- x rounded to an integer of either sign. -/
def roundInt (rm : RM) (draw : Nat) : XReal → Int × Bool
  | .fin s n d e =>
    let (q, ix) := roundUnits rm draw n d e 0
    (if s then -(q : Int) else q, ix)
  | _ => (0, false)

/-- Sign bit of a floating format. -/
def signBit (f : Fmt) (neg : Bool) : Nat := if neg then 2 ^ (f.width - 1) else 0

/-- Value of a code (R33, R35–R37). The reserved T2 code decodes as 0 (R34). -/
def decode (f : Fmt) (c : Nat) : XReal :=
  match f with
  | .t2 => match c % 4 with | 1 => .ofInt 1 | 3 => .ofInt (-1) | _ => .zero
  | .uint4 => .ofNat (c % 16)
  | .int2 | .int4 | .int8 | .int32 =>
    let w := f.width
    let v := c % 2 ^ w
    .ofInt (if v < 2 ^ (w - 1) then (v : Int) else (v : Int) - 2 ^ w)
  | .e8m0 => if c % 256 = 255 then .nan else .pow2 ((c % 256 : Nat) - 127)
  | _ =>
    match f.float with
    | none => .zero
    | some sh =>
      let c := c % 2 ^ f.width
      let s := decide (2 ^ (f.width - 1) ≤ c)
      let mag := c % 2 ^ (f.width - 1)
      let ef := mag / 2 ^ sh.mb
      let m := mag % 2 ^ sh.mb
      if f = .e4m3 ∧ mag = 0x7F then .nan
      else if f.hasInf ∧ ef = 2 ^ sh.eb - 1 then (if m = 0 then .inf s else .nan)
      else if ef = 0 then .fin s m 1 (1 - (sh.bias : Int) - sh.mb)
      else .fin s (2 ^ sh.mb + m) 1 ((ef : Int) - sh.bias - sh.mb)

/-- The flags that consuming a code raises (R42, R34): NV for a NaN and for T2 0b10. -/
def consumeFlags (f : Fmt) (c : Nat) : Flags :=
  .when ((decode f c).isNan || (f == .t2 && c % 4 == 2)) .NV

/-- A conversion's out-of-range outcome for a target (R51, R58). -/
def overflowCode (f : Fmt) (rm : RM) (neg : Bool) : Nat :=
  signBit f neg + (if f.hasInf && rm != .rtz then f.infCode else f.maxCode)

/-- A finite value to a floating target by R49 steps 3 and 4, R51, R55 to R58. -/
def roundFloat (f : Fmt) (sh : FloatShape) (rm : RM) (draw : Nat) (s : Bool) (n d : Nat) (e : Int) : Nat × Flags :=
  if n = 0 then (signBit f s, .none)
  else
    let x := XReal.fin false n d e
    let emin : Int := 1 - (sh.bias : Int)
    let E := max x.ilog2 emin
    let u := E - sh.mb
    let (q, ix) := roundUnits rm draw n d e u
    -- the code: q counts units of 2^u; q may reach 2^(mb+1), the next binade's first point
    let base := ((E - emin).toNat) * 2 ^ sh.mb
    let code := base + q   -- for a normal E, q ≥ 2^mb supplies exponent field E - emin + 1
    let tiny := decide (x.ilog2 < emin)
    if code ≤ f.maxCode then
      (signBit f s + code, if ix then (if tiny then .UFNX else .NX) else .none)
    else (overflowCode f rm s, .OFNX)

/-- A finite value to E8M0 (R53). -/
def roundE8M0 (rm : RM) (draw : Nat) (s : Bool) (n d : Nat) (e : Int) : Nat × Flags :=
  if n = 0 then (0x00, .UFNX)
  else if s then (0xFF, .NV)
  else
    let x := XReal.fin false n d e
    let E := x.ilog2
    -- units of 2^E: x lies in [1, 2)
    let num := n * pow2p (e - E)
    let den := d * pow2p (E - e)
    let r := num - den
    let exact := decide (r = 0)
    let up := match rm with
      | .rtz => false
      | .rne => if 2 * r < den then false else if den < 2 * r then true else decide ((E + 127) % 2 ≠ 0)
      | .sr => decide (draw % 2 ^ 32 < r * 2 ^ 32 / den)
    let k := if exact then E else if up then E + 1 else E
    if k < -127 then (0x00, .UFNX)
    else if 127 < k then (0xFE, .OFNX)
    else ((k + 127).toNat, if exact then .none else .NX)

/-- The code of an integer in a two's-complement or unsigned format. -/
def intCode (f : Fmt) (i : Int) : Nat := (i % (2 ^ f.width : Nat)).toNat

/-- Conversion of an exact value to a target under R49 to R53. -/
def convert (f : Fmt) (rm : RM) (draw : Nat) (x : XReal) : Nat × Flags :=
  match f with
  | .t2 | .int2 | .int4 | .uint4 | .int8 | .int32 =>
    let (lo, hi) := f.intRange
    match x with
    | .nan => (0, .NV)
    | .inf s => (intCode f (if s then lo else hi), .OFNX)
    | .fin .. =>
      let (q, ix) := roundInt rm draw x
      if q < lo then (intCode f lo, .OFNX)
      else if hi < q then (intCode f hi, .OFNX)
      else (intCode f q, if ix then .NX else .none)
  | .e8m0 =>
    match x with
    | .nan => (0xFF, .NV)
    | .inf s => if s then (0xFF, .NV) else (0xFE, .OFNX)
    | .fin s n d e => roundE8M0 rm draw s n d e
  | _ =>
    match f.float with
    | none => (0, .none)
    | some sh =>
      match x with
      | .nan => (f.nanCode, .NV)
      | .inf s => if f.hasInf then (signBit f s + f.infCode, .none) else (signBit f s + f.maxCode, .OFNX)
      | .fin s n d e => roundFloat f sh rm draw s n d e

/-- A conversion between codes (R49): the reserved T2 code raises NV and converts as +0. -/
def convertCode (src dst : Fmt) (rm : RM) (draw c : Nat) : Nat × Flags :=
  let (r, fl) := convert dst rm draw (decode src c)
  (r, fl.or (consumeFlags src c))

/-! ### FP32 operations on codes, rounded by RNE (R56) -/

/-- An exact result to a format by RNE; NV when the result is a NaN. -/
def roundTo (f : Fmt) (x : XReal) : Nat × Flags := convert f .rne 0 x

def v32 (c : Nat) : XReal := decode .fp32 c
def add32 (a b : Nat) : Nat × Flags := roundTo .fp32 ((v32 a).add (v32 b))
def sub32 (a b : Nat) : Nat × Flags := roundTo .fp32 ((v32 a).sub (v32 b))
def mul32 (a b : Nat) : Nat × Flags := roundTo .fp32 ((v32 a).mul (v32 b))
def div32 (a b : Nat) : Nat × Flags := roundTo .fp32 ((v32 a).div (v32 b))
def neg32 (a : Nat) : Nat := if (v32 a).isNan then Fmt.nanCode .fp32 else (a + 2 ^ 31) % 2 ^ 32
def nan32 : Nat := 0x7FC00000

/-- Magnitude of an FP32 code that is no NaN. -/
def abs32 (a : Nat) : Nat := a % 2 ^ 31

/-! ### Square root and exponential, correctly rounded (R265, R363, R364) -/

/-- Bits of an integer square root, from bit `b` down. -/
def isqrtGo : Nat → Nat → Nat → Nat
  | 0, _, r => r
  | b + 1, n, r => let r' := r + 2 ^ b; isqrtGo b n (if r' * r' ≤ n then r' else r)

/-- ⌊√n⌋. -/
def isqrt (n : Nat) : Nat := isqrtGo (Nat.log2 n / 2 + 1) n 0

/-- √(num/den · 2^e) as an exact value when it is one, and otherwise as a value with a sticky last bit
so far below every grid that each mode rounds it as the root itself (DEDUCED). -/
def sqrtX : XReal → XReal
  | .nan => .nan
  | .inf s => if s then .nan else .inf false
  | .fin s n d e =>
    if n = 0 then .fin s 0 1 0
    else if s then .nan
    else
      let e' : Int := if e % 2 = 0 then e else e - 1
      let n' := if e % 2 = 0 then n else 2 * n
      -- 2^(2k) scaling, k large against every precision of R36
      let k : Nat := 160 + Nat.log2 d
      let num := n' * 2 ^ (2 * k)
      let r := isqrt (num / d)
      let exact := decide (r * r * d = num)
      if exact then .fin false r 1 (e' / 2 - k) else .fin false (2 * r + 1) 1 (e' / 2 - k - 1)

def expTaylor : Nat → Nat → Nat → Nat → Nat → Nat → Nat
  | 0, _, _, _, _, acc => acc
  | fuel + 1, y, p, k, t, acc => let t' := t * y / (k * 2 ^ p); expTaylor fuel y p (k + 1) t' (acc + t')

def expSquare : Nat → Nat → Nat → Nat
  | 0, _, v => v
  | n + 1, p, v => expSquare n p (v * v / 2 ^ p)

/-- e^x as an exact value at x = 0 and otherwise with a sticky last bit (DEDUCED: 380 fraction bits
stand beyond the hardest-to-round cases of every precision of R265). -/
def expX : XReal → XReal
  | .nan => .nan
  | .inf s => if s then .zero else .inf false
  | .fin s n d e =>
    if n = 0 then .one
    else
      let x := XReal.fin false n d e
      if x.ilog2 < -200 then .fin false (if s then 2 ^ 300 - 1 else 2 ^ 300 + 1) 1 (-300)
      else if 11 < x.ilog2 then (if s then .fin false 1 1 (-4000) else .fin false 1 1 4000)
      else
        let p : Nat := 420
        let y := n * pow2p (e + p - 12) / (d * pow2p (12 - e - p))
        let v := expSquare 12 p (expTaylor 100 y p 1 (2 ^ p) (2 ^ p))
        let r := 2 * (v / 2 ^ 20) + 1
        if s then .fin false 1 r (401) else .fin false r 1 (-401)

/-! ### Generator (R59) -/

def philoxRound (m0 m1 : Nat) (c : Nat × Nat × Nat × Nat) (k0 k1 : Nat) : Nat × Nat × Nat × Nat :=
  let (c0, c1, c2, c3) := c
  let p0 := m0 * c0
  let p1 := m1 * c2
  ((p1 / 2 ^ 32) ^^^ c1 ^^^ k0, p1 % 2 ^ 32, (p0 / 2 ^ 32) ^^^ c3 ^^^ k1, p0 % 2 ^ 32)

def philoxGo : Nat → (Nat × Nat × Nat × Nat) → Nat → Nat → Nat × Nat × Nat × Nat
  | 0, c, _, _ => c
  | n + 1, c, k0, k1 =>
    philoxGo n (philoxRound 0xd2511f53 0xcd9e8d57 c k0 k1) ((k0 + 0x9e3779b9) % 2 ^ 32) ((k1 + 0xbb67ae85) % 2 ^ 32)

/-- The draw of R59 over the inputs of R60. -/
def draw (seed stream step index : Nat) : Nat :=
  let k0 := seed % 2 ^ 32
  let k1 := seed / 2 ^ 32 % 2 ^ 32
  let c0 := index / 4 % 2 ^ 32
  let c1 := index / 2 ^ 34 % 2 ^ 30
  let c2 := step % 2 ^ 32
  let c3 := stream % 2 ^ 16 * 2 ^ 16 + step / 2 ^ 32 % 2 ^ 16
  let (a, b, c, d) := philoxGo 10 (c0, c1, c2, c3) k0 k1
  match index % 4 with
  | 0 => a | 1 => b | 2 => c | _ => d

/-! ### The ledger (R43 to R48) -/

/-- A ledger: L modulo 2^320 in units of 2^−149, and its three state bits. -/
structure Ledger where
  l : BitVec 320
  nan : Bool
  pinf : Bool
  ninf : Bool
deriving DecidableEq, Repr, Inhabited

def Ledger.empty : Ledger := ⟨0, false, false, false⟩

/-- Some state bit is set. -/
def Ledger.state (a : Ledger) : Bool := a.nan || a.pinf || a.ninf

/-- Add an FP32 term (R45). -/
def Ledger.add32 (a : Ledger) (c : Nat) : Ledger × Flags :=
  match v32 c with
  | .nan => ({ a with nan := true }, .NV)
  | .inf s => (if s then { a with ninf := true } else { a with pinf := true }, .none)
  | .fin s n _ e =>
    let t := BitVec.ofNat 320 (n * 2 ^ (e + 149).toNat)
    ({ a with l := if s then a.l - t else a.l + t }, .none)

/-- Combine two ledgers (R46). -/
def Ledger.combine (a b : Ledger) : Ledger :=
  ⟨a.l + b.l, a.nan || b.nan, a.pinf || b.pinf, a.ninf || b.ninf⟩

/-- The exact value of L. -/
def Ledger.value (a : Ledger) : XReal :=
  if a.nan || (a.pinf && a.ninf) then .nan
  else if a.pinf then .inf false
  else if a.ninf then .inf true
  else .ofScaled a.l.toInt (-149)

/-- Round to a format by RNE (R47 for FP32; R363 rounds ss to FP64). -/
def Ledger.round (f : Fmt) (a : Ledger) : Nat × Flags := roundTo f a.value

def Ledger.round32 (a : Ledger) : Nat × Flags := a.round .fp32

/-- `n` little-endian bytes of a number. -/
def leBytes : Nat → Nat → Bytes
  | 0, _ => []
  | n + 1, v => BitVec.ofNat 8 v :: leBytes n (v / 256)

/-- The number that little-endian bytes hold. -/
def leNat : Bytes → Nat
  | [] => 0
  | b :: bs => b.toNat + 256 * leNat bs

/-- The 48-byte image of a ledger (R48). -/
def Ledger.image (a : Ledger) : Bytes :=
  leBytes 40 a.l.toNat
    ++ [BitVec.ofNat 8 ((if a.nan then 1 else 0) + (if a.pinf then 2 else 0) + (if a.ninf then 4 else 0))]
    ++ List.replicate 7 0

/-- The ledger of an image; reserved bits and bytes are ignored (R48). -/
def Ledger.ofImage (b : Bytes) : Ledger :=
  let s := ((b.drop 40).headD 0)
  ⟨BitVec.ofNat 320 (leNat (b.take 40)), s.getLsbD 0, s.getLsbD 1, s.getLsbD 2⟩

end Sys2Proof.Machine
end

