-- ==== Sys2Proof/Machine/Crypto.lean ====
section
/-! DEFINITION. The named algorithms the manual uses: the CRC-32 of R116, SHA-384 and HMAC-SHA-384 (R403, R480,
R501, R503, R586) and AES-256-GMAC (R451), as their public standards define them. -/

namespace Sys2Proof.Machine

/-! ### CRC-32 (R116) -/

def crcBits : Nat → Nat → Nat
  | 0, c => c
  | n + 1, c => crcBits n (if c % 2 = 1 then (c / 2) ^^^ 0xEDB88320 else c / 2)

/-- The CRC of R116 over bytes in ascending address. -/
def crc32 (b : Bytes) : Nat :=
  (b.foldl (fun c x => crcBits 8 (c ^^^ x.toNat)) 0xFFFFFFFF) ^^^ 0xFFFFFFFF

/-! ### SHA-384 -/

def m64 : Nat := 2 ^ 64
def rotr64 (n x : Nat) : Nat := (x >>> n) ||| ((x <<< (64 - n)) % m64)

def sha512K : List Nat :=
  [0x428a2f98d728ae22, 0x7137449123ef65cd, 0xb5c0fbcfec4d3b2f, 0xe9b5dba58189dbbc,
   0x3956c25bf348b538, 0x59f111f1b605d019, 0x923f82a4af194f9b, 0xab1c5ed5da6d8118] ++
  [0xd807aa98a3030242, 0x12835b0145706fbe, 0x243185be4ee4b28c, 0x550c7dc3d5ffb4e2,
   0x72be5d74f27b896f, 0x80deb1fe3b1696b1, 0x9bdc06a725c71235, 0xc19bf174cf692694] ++
  [0xe49b69c19ef14ad2, 0xefbe4786384f25e3, 0x0fc19dc68b8cd5b5, 0x240ca1cc77ac9c65,
   0x2de92c6f592b0275, 0x4a7484aa6ea6e483, 0x5cb0a9dcbd41fbd4, 0x76f988da831153b5] ++
  [0x983e5152ee66dfab, 0xa831c66d2db43210, 0xb00327c898fb213f, 0xbf597fc7beef0ee4,
   0xc6e00bf33da88fc2, 0xd5a79147930aa725, 0x06ca6351e003826f, 0x142929670a0e6e70] ++
  [0x27b70a8546d22ffc, 0x2e1b21385c26c926, 0x4d2c6dfc5ac42aed, 0x53380d139d95b3df,
   0x650a73548baf63de, 0x766a0abb3c77b2a8, 0x81c2c92e47edaee6, 0x92722c851482353b] ++
  [0xa2bfe8a14cf10364, 0xa81a664bbc423001, 0xc24b8b70d0f89791, 0xc76c51a30654be30,
   0xd192e819d6ef5218, 0xd69906245565a910, 0xf40e35855771202a, 0x106aa07032bbd1b8] ++
  [0x19a4c116b8d2d0c8, 0x1e376c085141ab53, 0x2748774cdf8eeb99, 0x34b0bcb5e19b48a8,
   0x391c0cb3c5c95a63, 0x4ed8aa4ae3418acb, 0x5b9cca4f7763e373, 0x682e6ff3d6b2b8a3] ++
  [0x748f82ee5defb2fc, 0x78a5636f43172f60, 0x84c87814a1f0ab72, 0x8cc702081a6439ec,
   0x90befffa23631e28, 0xa4506cebde82bde9, 0xbef9a3f7b2c67915, 0xc67178f2e372532b] ++
  [0xca273eceea26619c, 0xd186b8c721c0c207, 0xeada7dd6cde0eb1e, 0xf57d4f7fee6ed178,
   0x06f067aa72176fba, 0x0a637dc5a2c898a6, 0x113f9804bef90dae, 0x1b710b35131c471b] ++
  [0x28db77f523047d84, 0x32caab7b40c72493, 0x3c9ebe0a15c9bebc, 0x431d67c49c100d4c,
   0x4cc5d4becb3e42b6, 0x597f299cfc657e2a, 0x5fcb6fab3ad6faec, 0x6c44198c4a475817]

def sha384Init : List Nat := [0xcbbb9d5dc1059ed8, 0x629a292a367cd507, 0x9159015a3070dd17, 0x152fecd8f70e5939, 0x67332667ffc00b31, 0x8eb44a8768581511, 0xdb0c2e0d64f98fa7, 0x47b5481dbefa4fa4]

/-- Big-endian number of a byte string. -/
def beNat (b : Bytes) : Nat := b.foldl (fun a x => a * 256 + x.toNat) 0

/-- `n` big-endian bytes of a number. -/
def beBytes (n v : Nat) : Bytes := (leBytes n v).reverse

/-- The first `n` 64-bit big-endian words of a block. -/
def beWords : Nat → Bytes → List Nat
  | 0, _ => []
  | n + 1, b => beNat (b.take 8) :: beWords n (b.drop 8)

/-- The message schedule: `w` holds the latest 16 words, newest last. -/
def shaSched : Nat → List Nat → List Nat → List Nat
  | 0, _, acc => acc.reverse
  | n + 1, w, acc =>
    let w0 := w.getD 0 0
    let w1 := w.getD 1 0
    let w9 := w.getD 9 0
    let w14 := w.getD 14 0
    let s0 := rotr64 1 w1 ^^^ rotr64 8 w1 ^^^ (w1 >>> 7)
    let s1 := rotr64 19 w14 ^^^ rotr64 61 w14 ^^^ (w14 >>> 6)
    shaSched n (w.drop 1 ++ [(w0 + s0 + w9 + s1) % m64]) (w0 :: acc)

def shaRounds : List Nat → List Nat → List Nat → List Nat
  | k :: ks, w :: ws, [a, b, c, d, e, f, g, h] =>
    let s1 := rotr64 14 e ^^^ rotr64 18 e ^^^ rotr64 41 e
    let ch := (e &&& f) ^^^ ((m64 - 1 - e) &&& g)
    let t1 := h + s1 + ch + k + w
    let s0 := rotr64 28 a ^^^ rotr64 34 a ^^^ rotr64 39 a
    let mj := (a &&& b) ^^^ (a &&& c) ^^^ (b &&& c)
    shaRounds ks ws [(t1 + s0 + mj) % m64, a, b, c, (d + t1) % m64, e, f, g]
  | _, _, st => st

def shaBlocks : Nat → Bytes → List Nat → List Nat
  | 0, _, h => h
  | n + 1, b, h =>
    let w := shaSched 80 (beWords 16 (b.take 128)) []
    shaBlocks n (b.drop 128) (List.zipWith (fun x y => (x + y) % m64) h (shaRounds sha512K w h))

/-- The 48-byte SHA-384 digest of a byte string. -/
def sha384 (b : Bytes) : Bytes :=
  let n := b.length
  let pad := (239 - n % 128) % 128
  let m := b ++ [0x80] ++ List.replicate pad 0 ++ beBytes 16 (8 * n)
  ((shaBlocks (m.length / 128) m sha384Init).take 6).flatMap (beBytes 8)

/-- HMAC-SHA-384 under a key (R503). -/
def hmac384 (key msg : Bytes) : Bytes :=
  let k0 := if 128 < key.length then sha384 key else key
  let k := k0 ++ List.replicate (128 - k0.length) 0
  sha384 (k.map (· ^^^ 0x5c) ++ sha384 (k.map (· ^^^ 0x36) ++ msg))

/-! ### AES-256 and GMAC (R451) -/

/-- Multiply by x in GF(2^8). -/
def xtime (a : Nat) : Nat := if 128 ≤ a then ((2 * a) ^^^ 0x1b) % 256 else 2 * a

def gmul8Go : Nat → Nat → Nat → Nat → Nat
  | 0, _, _, r => r
  | n + 1, a, b, r => gmul8Go n (xtime a) (b / 2) (if b % 2 = 1 then r ^^^ a else r)

/-- Product in GF(2^8). -/
def gmul8 (a b : Nat) : Nat := gmul8Go 8 a b 0

/-- a^254, the inverse of a non-zero element, by square and multiply over the bits of 254. -/
def ginv8 (a : Nat) : Nat :=
  [1, 1, 1, 1, 1, 1, 0].foldl (fun r b => let s := gmul8 r r; if b = 1 then gmul8 s a else s) a

/-- The S-box value of a byte. -/
def sbox (a : Nat) : Nat :=
  let b := ginv8 a
  let rot := fun n => ((b <<< n) ||| (b >>> (8 - n))) % 256
  b ^^^ rot 1 ^^^ rot 2 ^^^ rot 3 ^^^ rot 4 ^^^ 0x63

def sboxTable : List Nat := (List.range 256).map sbox

def subByte (a : Nat) : Nat := sboxTable.getD a 0

/-- Key expansion: words of 4 bytes, newest first. -/
def aesExpand : Nat → Nat → Nat → List (List Nat) → List (List Nat)
  | 0, _, _, ws => ws.reverse
  | n + 1, i, rc, ws =>
    let prev := ws.headD []
    let old := ws.getD 7 []
    let (t, rc') :=
      if i % 8 = 0 then
        match prev with
        | [a, b, c, d] => ([subByte b ^^^ rc, subByte c, subByte d, subByte a], xtime rc)
        | _ => (prev, rc)
      else if i % 8 = 4 then (prev.map subByte, rc)
      else (prev, rc)
    aesExpand n (i + 1) rc' (List.zipWith (· ^^^ ·) old t :: ws)

/-- The 60 round-key words of a 32-byte key. -/
def aesKeys (key : Bytes) : List (List Nat) :=
  let k := key.map BitVec.toNat
  let ws := (List.range 8).map fun i => (k.drop (4 * i)).take 4
  aesExpand 52 8 1 ws.reverse

def mixColumn : List Nat → List Nat
  | [a, b, c, d] =>
    [xtime a ^^^ (xtime b ^^^ b) ^^^ c ^^^ d, a ^^^ xtime b ^^^ (xtime c ^^^ c) ^^^ d,
     a ^^^ b ^^^ xtime c ^^^ (xtime d ^^^ d), (xtime a ^^^ a) ^^^ b ^^^ c ^^^ xtime d]
  | x => x

def shiftRows (s : List Nat) : List Nat :=
  (List.range 16).map fun i => s.getD ((i + 4 * (i % 4)) % 16) 0

def aesRounds : Nat → List (List Nat) → List Nat → List Nat
  | 0, _, s => s
  | n + 1, ks, s =>
    let t := shiftRows (s.map subByte)
    let u := if n = 0 then t else
      (List.range 4).flatMap fun i => mixColumn ((t.drop (4 * i)).take 4)
    aesRounds n (ks.drop 4) (List.zipWith (· ^^^ ·) u ((ks.take 4).flatten))

/-- AES-256 of one 16-byte block. -/
def aesBlock (key : Bytes) (blk : Bytes) : Bytes :=
  let ks := aesKeys key
  let s := List.zipWith (· ^^^ ·) (blk.map BitVec.toNat) ((ks.take 4).flatten)
  (aesRounds 14 (ks.drop 4) s).map (BitVec.ofNat 8)

/-- A product by α in XTS's GF(2^128), on little-endian numbers. -/
def xtsDouble (t : Nat) : Nat := if t < 2 ^ 127 then 2 * t else (2 * t) % 2 ^ 128 ^^^ 0x87

def xtsBlocks (key : Bytes) : Nat → Nat → Bytes → Bytes
  | 0, _, _ => []
  | n + 1, t, b =>
    let m := leBytes 16 t
    List.zipWith (· ^^^ ·) (aesBlock key (List.zipWith (· ^^^ ·) (b.take 16) m)) m ++ xtsBlocks key n (xtsDouble t) (b.drop 16)

/-- AES-XTS-256 of a data unit under a 512-bit key, its tweak the unit's number as a 128-bit little-endian integer (R299). -/
def xtsEncrypt (key : Bytes) (unit : Nat) (data : Bytes) : Bytes :=
  xtsBlocks (key.take 32) (data.length / 16) (leNat (aesBlock ((key.drop 32).take 32) (leBytes 16 unit))) data

def ghashMulGo : Nat → Nat → Nat → Nat → Nat
  | 0, _, _, z => z
  | n + 1, x, v, z =>
    let z' := if x.testBit n then z ^^^ v else z
    let v' := if v % 2 = 1 then (v / 2) ^^^ (0xe1 <<< 120) else v / 2
    ghashMulGo n x v' z'

/-- Product in GCM's GF(2^128), on big-endian numbers. -/
def ghashMul (x y : Nat) : Nat := ghashMulGo 128 x y 0

def ghashGo : Nat → Nat → Bytes → Nat → Nat
  | 0, _, _, y => y
  | n + 1, h, b, y => ghashGo n h (b.drop 16) (ghashMul (y ^^^ beNat (b.take 16)) h)

/-- The 16-byte AES-256-GMAC of additional data under a 12-byte nonce. -/
def gmac (key nonce aad : Bytes) : Bytes :=
  let h := beNat (aesBlock key (List.replicate 16 0))
  let padded := aad ++ List.replicate ((16 - aad.length % 16) % 16) 0 ++ beBytes 8 (8 * aad.length) ++ beBytes 8 0
  let s := ghashGo (padded.length / 16) h padded 0
  let e := aesBlock key (nonce ++ [0, 0, 0, 1])
  List.zipWith (· ^^^ ·) (beBytes 16 s) e

/-- AES-256 in counter mode from a block counter on; `n` blocks. -/
def ctrBlocks (key nonce : Bytes) : Nat → Nat → Bytes → Bytes
  | 0, _, _ => []
  | n + 1, k, b => List.zipWith (· ^^^ ·) (b.take 16) (aesBlock key (nonce ++ beBytes 4 k)) ++ ctrBlocks key nonce n (k + 1) (b.drop 16)

/-- The 16-byte AES-256-GCM tag of additional data and a plaintext (R440). -/
def gcmTag (key nonce aad plain : Bytes) : Bytes :=
  let h := beNat (aesBlock key (List.replicate 16 0))
  let pad (b : Bytes) : Bytes := b ++ List.replicate ((16 - b.length % 16) % 16) 0
  let c := ctrBlocks key nonce (plain.length / 16 + 1) 2 plain
  let data := pad aad ++ pad c ++ beBytes 8 (8 * aad.length) ++ beBytes 8 (8 * plain.length)
  List.zipWith (· ^^^ ·) (beBytes 16 (ghashGo (data.length / 16) h data 0)) (aesBlock key (nonce ++ [0, 0, 0, 1]))

/-- The IV of a direction's frame: its counter, little-endian (R3), and 32 zero bits (R440). -/
def frameNonce (frame : Nat) : Bytes := leBytes 8 frame ++ List.replicate 4 0

/-- A flit of a frame on the lanes, or back from them: bytes 8–255 under the frame's key stream, each flit's 248 bytes after those of the flits
before it (R440; log 130). -/
def wireFlit (key : Bytes) (frame pos : Nat) (b : Bytes) : Bytes :=
  let k := ctrBlocks key (frameNonce frame) 17 (2 + 248 * pos / 16) (List.replicate 272 0)
  b.take 8 ++ List.zipWith (· ^^^ ·) (b.drop 8) (k.drop (248 * pos % 16))

/-- The seal of a frame of 16 flits (R440): header bytes 0–7 are additional data, bytes 8–255 are encrypted; the IV is the direction's frame
counter, little-endian (R3), and 32 zero bits. Flits follow one another in both (DEDUCED, log 130). -/
def frameSeal (key : Bytes) (frame : Nat) (flits : List Bytes) : Bytes :=
  gcmTag key (frameNonce frame) (flits.flatMap (·.take 8)) (flits.flatMap (·.drop 8))

/-- The end-to-end tag of a flit: the first 8 bytes of the GMAC under the nonce of R451 (src as 32 bits,
mseq as 48 bits, flit index as 16 bits, little-endian under R3, in that order; DEDUCED), as a number. -/
def flitTag (key payload : Bytes) (src mseq idx : Nat) : Nat :=
  leNat ((gmac key (leBytes 4 src ++ leBytes 6 mseq ++ leBytes 2 idx) payload).take 8)

end Sys2Proof.Machine
end

