-- ==== Sys2Proof/Machine/Records.lean ====
section
/-! DEFINITION. The records the manual lays out byte by byte (chapters 03, 09 to 16): each as a structure, read from and written to its bytes. -/

namespace Sys2Proof.Machine

/-! ### Fields of byte strings (R3: little-endian) -/

/-- The `n` bytes of `b` from offset `o`. -/
def slice (b : Bytes) (o n : Nat) : Bytes := (b.drop o).take n
/-- The little-endian field of `n` bytes at offset `o`. -/
def fld (b : Bytes) (o n : Nat) : Nat := leNat (slice b o n)
/-- Bits [hi:lo] of a number. -/
def bitsOf (v hi lo : Nat) : Nat := (v >>> lo) % 2 ^ (hi + 1 - lo)
/-- Bit `k` of a number. -/
def bitOf (v k : Nat) : Bool := (v >>> k) % 2 == 1
/-- The bytes from offset `o`, `n` of them, are all 0. -/
def zeroAt (b : Bytes) (o n : Nat) : Bool := (slice b o n).all (· == 0)
def b2n (b : Bool) : Nat := if b then 1 else 0
/-- `n` zero bytes. -/
def zeros (n : Nat) : Bytes := List.replicate n 0
/-- `b` cut or filled with zero bytes to `n` bytes. -/
def fit (n : Nat) (b : Bytes) : Bytes := (b ++ zeros (n - b.length)).take n
/-- The signed value of a `w`-bit field. -/
def sext (w v : Nat) : Int := if 2 ^ (w - 1) ≤ v % 2 ^ w then (v % 2 ^ w : Nat) - (2 ^ w : Nat) else (v % 2 ^ w : Nat)
/-- The `w`-bit two's-complement code of an integer. -/
def twos (w : Nat) (i : Int) : Nat := (i % (2 ^ w : Nat)).toNat

/-! ### Status codes (R552) -/

/-- Status codes of completions, instruction faults and responses (R6, R552). -/
inductive Status where
  | success | earg | ebound | estate | ehandle | elimit | eversion | eaccess
  | everbatim | eslot | epc | equire | epoison
  | ecollTimeout | ecollGroup | eepoch | enorm | ecommit | eskiplimit | etakeover
  | eaborted | edeadline | evolume | edigest | ediverge
deriving DecidableEq, Repr, Inhabited

/-- The value of a status code (R552). -/
def Status.code : Status → Nat
  | .success => 0x0000 | .earg => 0x0010 | .ebound => 0x0011 | .estate => 0x0012 | .ehandle => 0x0013
  | .elimit => 0x0014 | .eversion => 0x0015 | .eaccess => 0x0016
  | .everbatim => 0x0020 | .eslot => 0x0021 | .epc => 0x0022 | .equire => 0x0023 | .epoison => 0x0024
  | .ecollTimeout => 0x0030 | .ecollGroup => 0x0031 | .eepoch => 0x0032 | .enorm => 0x0033
  | .ecommit => 0x0034 | .eskiplimit => 0x0035 | .etakeover => 0x0036
  | .eaborted => 0x0040 | .edeadline => 0x0041 | .evolume => 0x0042 | .edigest => 0x0043 | .ediverge => 0x0044

/-- Context states (R552). -/
inductive CtxSt where
  | free | opened | ready | running | paused | checkpointing | draining | faulted | orphaned | scrubbing
deriving DecidableEq, Repr, Inhabited

/-- The value of a context state code (R552). -/
def CtxSt.code : CtxSt → Nat
  | .free => 0 | .opened => 1 | .ready => 2 | .running => 3 | .paused => 4 | .checkpointing => 5
  | .draining => 6 | .faulted => 7 | .orphaned => 8 | .scrubbing => 9

/-! ### Quantisation policy (R72) -/

structure Policy where
  stream : Nat
  clipMask : Bool
  round : Nat
  marg : Bool
  rot : Bool
  learned : Bool
  sfmt : Bool
  gsize : Nat
  fmt : Nat
  rotId : Nat
  tau : Nat
  beta : Nat
deriving DecidableEq, Repr, Inhabited

def Policy.zero : Policy := ⟨0, false, 0, false, false, false, false, 0, 0, 0, 0, 0⟩

def Policy.toBytes (p : Policy) : Bytes :=
  leBytes 4 (p.stream * 65536 + b2n p.clipMask * 4096 + p.round * 1024 + b2n p.marg * 512 + b2n p.rot * 256
    + b2n p.learned * 128 + b2n p.sfmt * 64 + p.gsize * 16 + p.fmt)
  ++ leBytes 2 p.rotId ++ zeros 2 ++ leBytes 4 p.tau ++ leBytes 4 p.beta

/-- Reads a policy; none when a reserved bit is set. -/
def Policy.ofBytes (b : Bytes) : Option Policy :=
  let w := fld b 0 4
  if bitsOf w 15 13 != 0 || !zeroAt b 6 2 then none else
  some { stream := w / 65536, clipMask := bitOf w 12, round := bitsOf w 11 10, marg := bitOf w 9, rot := bitOf w 8,
         learned := bitOf w 7, sfmt := bitOf w 6, gsize := bitsOf w 5 4, fmt := bitsOf w 3 0,
         rotId := fld b 4 2, tau := fld b 8 4, beta := fld b 12 4 }

/-! ### Catalogue entries and shards (R318, R325) -/

structure Entry where
  kind : Nat
  cls : Nat
  fmt : Nat
  ndim : Nat
  trans : Bool
  gaxis : Bool
  layer : Nat
  dims : List Nat
  policy : Policy
  source : Nat
  tscale : Nat
  scales : Nat
  masters : Nat
  zeropts : Nat
  sgrad : Nat
  marg : Nat
  base : Nat
  pitch : Nat
  vrow : Nat
  vcol : Nat
  gen : Nat
  remote : Nat
  abandoned : Nat
deriving DecidableEq, Repr, Inhabited

/-- Bytes 0–95 of an entry. -/
def Entry.host (e : Entry) : Bytes :=
  leBytes 1 (e.kind * 16 + e.cls) ++ leBytes 1 (e.fmt * 16 + e.ndim * 4 + b2n e.trans * 2 + b2n e.gaxis)
  ++ leBytes 2 e.layer ++ (e.dims.map (leBytes 4)).flatten ++ e.policy.toBytes
  ++ leBytes 4 e.source ++ leBytes 4 e.tscale ++ leBytes 4 e.scales ++ leBytes 4 e.masters
  ++ leBytes 4 e.zeropts ++ leBytes 4 e.sgrad ++ leBytes 4 e.marg
  ++ leBytes 8 e.base ++ leBytes 8 e.pitch ++ leBytes 8 e.vrow ++ leBytes 8 e.vcol

/-- All 128 bytes, as QUERY returns them. -/
def Entry.toBytes (e : Entry) (shards : Nat) : Bytes :=
  e.host ++ leBytes 8 e.gen ++ leBytes 4 shards ++ leBytes 4 e.remote ++ leBytes 4 e.abandoned ++ zeros 12

/-- Reads bytes 0–95; none for a reserved kind, class or bit, or a field that R318 gives as 0 for the kind or class. -/
def Entry.ofBytes (b : Bytes) : Option Entry :=
  let k := fld b 0 1 / 16; let c := fld b 0 1 % 16
  let f := fld b 1 1
  let nd := bitsOf f 3 2
  let dims := [fld b 4 4, fld b 8 4, fld b 12 4, fld b 16 4]
  let view := k == 3 || k == 4
  let quant := k == 1 || k == 4
  if k > 4 || c > 4 || (view && c != 0) then none else
  if (k == 1 || k == 2 || k == 4) && f / 16 != 0 then none else
  if !view && (bitOf f 1 || !zeroAt b 80 16) then none else
  if !quant && (bitOf f 0 || !zeroAt b 20 16 || !zeroAt b 40 24) then none else
  if (k == 0 || k == 2) && !zeroAt b 36 4 then none else
  if (view || c == 3) && !zeroAt b 64 16 then none else
  if fld b 64 8 == 0 && fld b 72 8 != 0 then none else
  if fld b 72 8 % 64 != 0 then none else
  if (dims.drop (nd + 1)).any (· != 0) then none else
  match Policy.ofBytes (slice b 20 16) with
  | none => none
  | some p => some
    { kind := k, cls := c, fmt := f / 16, ndim := nd, trans := bitOf f 1, gaxis := bitOf f 0, layer := fld b 2 2, dims := dims,
      policy := p, source := fld b 36 4, tscale := fld b 40 4, scales := fld b 44 4, masters := fld b 48 4,
      zeropts := fld b 52 4, sgrad := fld b 56 4, marg := fld b 60 4, base := fld b 64 8, pitch := fld b 72 8,
      vrow := fld b 80 8, vcol := fld b 88 8, gen := 0, remote := 0, abandoned := 0 }

/-- A shard record (R325). -/
structure Shard where
  transit : Bool
  loc : Nat
  unit : Nat
  peer : Nat
  heat : Nat
deriving DecidableEq, Repr, Inhabited

def Shard.toBytes (s : Shard) : Bytes :=
  leBytes 8 (b2n s.transit * 2 ^ 63 + s.loc * 2 ^ 61 + s.unit * 2 ^ 57 + s.peer * 2 ^ 32 + s.heat)

/-! ### Job record, parameter groups (R347, R351) -/

structure Job where
  edition : Nat
  dyn : Bool
  initExp : Int
  growth : Nat
  skipLimit : Nat
  clip : Nat
  normDesc : Nat
  groups : Nat
  ls : Nat
  loss : Nat
  report : Nat
deriving DecidableEq, Repr, Inhabited

def Job.toBytes (j : Job) : Bytes :=
  leBytes 1 (j.edition * 64 + b2n j.dyn * 32) ++ leBytes 1 (twos 8 j.initExp) ++ leBytes 2 j.growth
  ++ leBytes 1 j.skipLimit ++ zeros 3 ++ leBytes 4 j.clip ++ leBytes 2 j.normDesc ++ leBytes 2 j.groups
  ++ leBytes 4 j.ls ++ leBytes 4 j.loss ++ leBytes 4 j.report ++ zeros 36

def Job.ofBytes (b : Bytes) : Option Job :=
  if bitsOf (fld b 0 1) 4 0 != 0 || !zeroAt b 5 3 || bitsOf (fld b 12 2) 15 12 != 0 || !zeroAt b 28 36
    || fld b 0 1 / 64 == 3 then none else
  some { edition := fld b 0 1 / 64, dyn := bitOf (fld b 0 1) 5, initExp := sext 8 (fld b 1 1), growth := fld b 2 2,
         skipLimit := fld b 4 1, clip := fld b 8 4, normDesc := fld b 12 2, groups := fld b 14 2,
         ls := fld b 16 4, loss := fld b 20 4, report := fld b 24 4 }

/-- The initial loss-scale exponent: −128 selects 16 (R347). -/
def Job.startExp (j : Job) : Int := if j.initExp = -128 then 16 else j.initExp
/-- 0 selects 2,000 (R347). -/
def Job.growthOf (j : Job) : Nat := if j.growth = 0 then 2000 else j.growth
/-- 0 selects 32; 255 is no limit (R347). -/
def Job.limitOf (j : Job) : Option Nat :=
  if j.skipLimit = 0 then some 32 else if j.skipLimit = 255 then none else some j.skipLimit

structure Group where
  opt : Nat
  mfmt : Nat
  norm : Bool
  sg : Bool
  master : Nat
  grad : Nat
  m : Nat
  v : Nat
  lr : Nat
  image0 : Nat
  image1 : Nat
  b1 : Nat
  b2 : Nat
  eps : Nat
  wd : Nat
  t : Nat
deriving DecidableEq, Repr, Inhabited

def Group.toBytes (g : Group) : Bytes :=
  leBytes 1 (g.opt * 16 + g.mfmt * 4 + b2n g.norm * 2 + b2n g.sg) ++ zeros 3
  ++ leBytes 4 g.master ++ leBytes 4 g.grad ++ leBytes 4 g.m ++ leBytes 4 g.v ++ leBytes 4 g.lr
  ++ leBytes 4 g.image0 ++ leBytes 4 g.image1 ++ leBytes 4 g.b1 ++ leBytes 4 g.b2 ++ leBytes 4 g.eps
  ++ leBytes 4 g.wd ++ leBytes 8 g.t ++ zeros 8

def Group.ofBytes (b : Bytes) : Option Group :=
  let f := fld b 0 1
  if f / 16 > 3 || bitsOf f 3 2 > 1 || !zeroAt b 1 3 || !zeroAt b 56 8 then none else
  some { opt := f / 16, mfmt := bitsOf f 3 2, norm := bitOf f 1, sg := bitOf f 0, master := fld b 4 4, grad := fld b 8 4,
         m := fld b 12 4, v := fld b 16 4, lr := fld b 20 4, image0 := fld b 24 4, image1 := fld b 28 4,
         b1 := fld b 32 4, b2 := fld b 36 4, eps := fld b 40 4, wd := fld b 44 4, t := fld b 48 8 }

/-! ### Watch entries (R379) -/

structure Watch where
  polOut : Nat
  polGrad : Nat
  floor : Nat
  f8 : Bool
  ceiling : Nat
  init : Nat
  demote : Nat
  factor : Nat
  alpha : Nat
  rotId : Nat
  warm : Nat
  rung : Nat
  lateNfOut : Bool
  lateNfGrad : Bool
  lateOvf : Bool
  clean : Nat
  avgOut : Nat
  avgGrad : Nat
  smpOut : Nat
  smpGrad : Nat
  lastChange : Nat
  alerts : Nat
  promotions : Nat
  demotions : Nat
  overfull : Nat
deriving DecidableEq, Repr, Inhabited

/-- Bytes 0–15, which the host supplies. -/
def Watch.host (w : Watch) : Bytes :=
  leBytes 1 (w.polOut * 64 + w.polGrad * 16 + w.floor * 2 + b2n w.f8) ++ leBytes 1 (w.ceiling * 32 + w.init * 4)
  ++ leBytes 2 w.demote ++ leBytes 4 w.factor ++ leBytes 4 w.alpha ++ leBytes 2 w.rotId ++ leBytes 1 w.warm ++ zeros 1

def Watch.toBytes (w : Watch) : Bytes :=
  w.host ++ leBytes 1 (w.rung * 32 + b2n w.lateNfOut * 16 + b2n w.lateNfGrad * 8 + b2n w.lateOvf * 4) ++ zeros 1
  ++ leBytes 2 w.clean ++ leBytes 4 w.avgOut ++ leBytes 4 w.avgGrad ++ leBytes 1 w.smpOut ++ leBytes 1 w.smpGrad
  ++ zeros 2 ++ leBytes 8 w.lastChange ++ leBytes 4 w.alerts ++ leBytes 4 w.promotions ++ leBytes 4 w.demotions
  ++ leBytes 4 w.overfull ++ zeros 8

/-- Reads bytes 0–15 of a SET_POLICY; the device fields are those of a new entry (R381), last_change left to the caller. -/
def Watch.ofHost (b : Bytes) : Option Watch :=
  let x := fld b 0 1; let y := fld b 1 1
  if x / 64 == 3 || bitsOf x 5 4 == 3 || bitsOf x 3 1 > 4 || y / 32 > 4 || bitsOf y 4 2 > 4 || bitsOf y 1 0 != 0
    || fld b 12 2 ≥ 4096 || !zeroAt b 15 1 then none else
  some { polOut := x / 64, polGrad := bitsOf x 5 4, floor := bitsOf x 3 1, f8 := bitOf x 0, ceiling := y / 32, init := bitsOf y 4 2,
         demote := fld b 2 2, factor := fld b 4 4, alpha := fld b 8 4, rotId := fld b 12 2, warm := fld b 14 1,
         rung := bitsOf y 4 2, lateNfOut := false, lateNfGrad := false, lateOvf := false, clean := 0, avgOut := 0, avgGrad := 0,
         smpOut := 0, smpGrad := 0, lastChange := 0, alerts := 0, promotions := 0, demotions := 0, overfull := 0 }

/-- Reads all 64 bytes, as a volume's context image holds them (R502). -/
def Watch.ofBytes (b : Bytes) : Option Watch :=
  match Watch.ofHost b with
  | none => none
  | some w =>
    let r := fld b 16 1
    if r / 32 > 4 || bitsOf r 1 0 != 0 || !zeroAt b 17 1 || !zeroAt b 30 2 || !zeroAt b 56 8 then none else
    some { w with rung := r / 32, lateNfOut := bitOf r 4, lateNfGrad := bitOf r 3, lateOvf := bitOf r 2, clean := fld b 18 2,
                  avgOut := fld b 20 4, avgGrad := fld b 24 4, smpOut := fld b 28 1, smpGrad := fld b 29 1,
                  lastChange := fld b 32 8, alerts := fld b 40 4, promotions := fld b 44 4, demotions := fld b 48 4,
                  overfull := fld b 52 4 }

/-- +0 selects 8.0 (R379). -/
def Watch.factorOf (w : Watch) : Nat := if w.factor = 0 then 0x41000000 else w.factor
/-- +0 selects 2^−6 (R379). -/
def Watch.alphaOf (w : Watch) : Nat := if w.alpha = 0 then 0x3C800000 else w.alpha
/-- 0 selects 1,000 (R379). -/
def Watch.demoteOf (w : Watch) : Nat := if w.demote = 0 then 1000 else w.demote
/-- 0 selects 8 (R379). -/
def Watch.warmOf (w : Watch) : Nat := if w.warm = 0 then 8 else w.warm

/-! ### Rotation entries (R91, R547) -/

structure RotEntry where
  size : Nat
  seed : Nat
deriving DecidableEq, Repr, Inhabited

/-- The block size n: coded as gsize is (R72, R91). -/
def gsizeOf (code : Nat) : Nat := if code = 0 then 32 else if code = 1 then 64 else 128

def RotEntry.n (r : RotEntry) : Nat := gsizeOf r.size

def RotEntry.toBytes (r : RotEntry) (id : Nat) : Bytes :=
  leBytes 2 id ++ leBytes 1 r.size ++ zeros 5 ++ leBytes 8 r.seed

/-! ### Collective groups and descriptors (R400, R404) -/

structure GroupRec where
  total : Nat
  members : List (Nat × Nat)   -- coordinate and contribution count, in rank order
deriving DecidableEq, Repr, Inhabited

def GroupRec.toBytes (g : GroupRec) (id : Nat) : Bytes :=
  leBytes 2 id ++ leBytes 2 (g.members.length - 1) ++ leBytes 4 g.total ++ zeros 8
  ++ (g.members.map fun m => leBytes 2 m.1 ++ leBytes 2 m.2).flatten

/-- The coord and c of each rank. -/
def memberPairs : Nat → Bytes → List (Nat × Nat)
  | 0, _ => []
  | n + 1, b => (fld b 0 2, fld b 2 2) :: memberPairs n (b.drop 4)

structure Desc where
  op : Nat
  redop : Nat
  transit : Nat
  round : Nat
  late : Bool
  carry : Bool
  norm : Bool
  dfmt : Nat
  group : Nat
  root : Nat
  deadline : Nat
  experts : Nat
  slots : Nat
  cap : Nat
  tokens : Nat
  route : Nat
  weight : Nat
  slotmap : Nat
deriving DecidableEq, Repr, Inhabited

def Desc.toBytes (d : Desc) : Bytes :=
  leBytes 1 (d.op * 16 + d.redop)
  ++ leBytes 1 (d.transit * 32 + d.round * 8 + b2n d.late * 4 + b2n d.carry * 2 + b2n d.norm)
  ++ leBytes 1 d.dfmt ++ zeros 1 ++ leBytes 2 d.group ++ leBytes 2 d.root ++ leBytes 4 d.deadline ++ leBytes 4 d.experts
  ++ leBytes 1 d.slots ++ zeros 3 ++ leBytes 4 d.cap ++ leBytes 4 d.tokens ++ leBytes 4 d.route ++ leBytes 4 d.weight
  ++ leBytes 4 d.slotmap ++ zeros 24

def Desc.ofBytes (b : Bytes) : Option Desc :=
  let x := fld b 0 1; let y := fld b 1 1
  if x / 16 > 8 || x % 16 > 4 || y / 32 > 4 || fld b 2 1 / 16 != 0 || !zeroAt b 3 1 || fld b 4 2 ≥ 1024 || !zeroAt b 17 3
    || !zeroAt b 40 24 then none else
  some { op := x / 16, redop := x % 16, transit := y / 32, round := bitsOf y 4 3, late := bitOf y 2, carry := bitOf y 1,
         norm := bitOf y 0, dfmt := fld b 2 1 % 16, group := fld b 4 2, root := fld b 6 2, deadline := fld b 8 4,
         experts := fld b 12 4, slots := fld b 16 1, cap := fld b 20 4, tokens := fld b 24 4, route := fld b 28 4,
         weight := fld b 32 4, slotmap := fld b 36 4 }

/-- The deadline in ns: 0 selects 50,000 µs (R404). -/
def Desc.deadlineNs (d : Desc) : Nat := (if d.deadline = 0 then 50000 else d.deadline) * 1000

/-! ### Mode record, volume policy (R462, R489) -/

structure ModeRec where
  verbatim : Bool
  metered : Bool
  clocks : Nat
  replay : Bool
  ring : Nat
  batches : Nat
  reference : Nat
deriving DecidableEq, Repr, Inhabited

def ModeRec.zero : ModeRec := ⟨false, false, 0, false, 0, 0, 0⟩

def ModeRec.toBytes (m : ModeRec) : Bytes :=
  leBytes 1 (b2n m.verbatim * 128 + b2n m.metered * 64 + m.clocks * 16 + b2n m.replay * 8) ++ zeros 3
  ++ leBytes 4 m.ring ++ leBytes 4 m.batches ++ leBytes 4 m.reference ++ zeros 16

def ModeRec.ofBytes (b : Bytes) : Option ModeRec :=
  let x := fld b 0 1
  if bitsOf x 2 0 != 0 || bitsOf x 5 4 > 1 || !zeroAt b 1 3 || !zeroAt b 16 16 then none else
  some { verbatim := bitOf x 7, metered := bitOf x 6, clocks := bitsOf x 5 4, replay := bitOf x 3, ring := fld b 4 4,
         batches := fld b 8 4, reference := fld b 12 4 }

structure VolPolicy where
  target : Nat
  copy : Bool
  rate : Nat
  extras : Nat
  area : Nat
deriving DecidableEq, Repr, Inhabited

def VolPolicy.zero : VolPolicy := ⟨0, false, 0, 0, 0⟩

def VolPolicy.toBytes (p : VolPolicy) : Bytes :=
  leBytes 1 (p.target * 64 + b2n p.copy * 32) ++ zeros 3 ++ leBytes 4 p.rate ++ leBytes 4 p.extras ++ leBytes 4 p.area ++ zeros 16

def VolPolicy.ofBytes (b : Bytes) : Option VolPolicy :=
  let x := fld b 0 1
  if bitsOf x 4 0 != 0 || !zeroAt b 1 3 || !zeroAt b 16 16 then none else
  some { target := x / 64, copy := bitOf x 5, rate := fld b 4 4, extras := fld b 8 4, area := fld b 12 4 }

/-! ### Reports of the device (R373, R474, R486, R245, R311, R599) -/

structure Report where
  step : Nat
  outcome : Nat
  eUsed : Int
  eNext : Int
  bound : Bool
  clean : Nat
  consec : Nat
  skips : Nat
  ss : Nat
  norm : Nat
  clipf : Nat
  status : Nat
  contrib : Nat
  deferred : Nat
  dropped : Nat
deriving DecidableEq, Repr, Inhabited

def Report.toBytes (r : Report) : Bytes :=
  leBytes 8 r.step ++ leBytes 1 r.outcome ++ leBytes 1 (twos 8 r.eUsed) ++ leBytes 1 (twos 8 r.eNext) ++ leBytes 1 (b2n r.bound)
  ++ leBytes 2 r.clean ++ leBytes 2 r.consec ++ leBytes 8 r.skips ++ leBytes 8 r.ss ++ leBytes 4 r.norm ++ leBytes 4 r.clipf
  ++ leBytes 2 r.status ++ zeros 2 ++ leBytes 4 r.contrib ++ leBytes 4 r.deferred ++ leBytes 4 r.dropped ++ zeros 8

structure Meter where
  beats : Nat
  refresh : Nat
  outside : Nat
  droop : Nat
  replays : Nat
  crash : Bool
  clock : Bool
  shared : Bool
  valid : Bool
deriving DecidableEq, Repr, Inhabited

def Meter.zero : Meter := ⟨0, 0, 0, 0, 0, false, false, false, false⟩

def Meter.toBytes (m : Meter) : Bytes :=
  leBytes 8 m.beats ++ leBytes 8 m.refresh ++ leBytes 8 m.outside ++ leBytes 8 m.droop ++ leBytes 4 m.replays
  ++ leBytes 1 (b2n m.crash * 8 + b2n m.clock * 4 + b2n m.shared * 2 + b2n m.valid) ++ zeros 11

structure Divergence where
  seq : Nat
  ref : Nat
  type : Nat
  offset : Nat
deriving DecidableEq, Repr, Inhabited

def Divergence.toBytes (d : Divergence) : Bytes :=
  leBytes 8 d.seq ++ leBytes 8 d.ref ++ leBytes 1 d.type ++ zeros 1 ++ leBytes 2 d.offset ++ zeros 12

/-- An instruction fault record (R245). -/
structure FaultRec where
  word : Nat
  pc : Nat
  stream : Nat
  status : Status
  check : Nat
  detail : Nat
  time : Nat
  carrel : Nat
  step : Nat
deriving DecidableEq, Repr, Inhabited

def FaultRec.toBytes (f : FaultRec) : Bytes :=
  leBytes 16 f.word ++ leBytes 2 f.pc ++ leBytes 1 f.stream ++ zeros 1 ++ leBytes 2 f.status.code ++ leBytes 1 f.check ++ zeros 1
  ++ leBytes 8 f.detail ++ leBytes 8 f.time ++ leBytes 2 f.carrel ++ leBytes 6 f.step

/-- A retirement event (R311). -/
structure RetireRec where
  frame : Nat
  time : Nat
  cause : Nat
  migrated : Bool
  channel : Nat
  corrected : Nat
deriving DecidableEq, Repr, Inhabited

def RetireRec.toBytes (r : RetireRec) : Bytes :=
  leBytes 8 r.frame ++ leBytes 8 r.time ++ leBytes 1 r.cause ++ leBytes 1 (b2n r.migrated) ++ leBytes 2 r.channel
  ++ leBytes 4 r.corrected ++ zeros 8

/-- A crash record (R599). -/
structure CrashRec where
  time : Nat
  core : Nat
  index : Nat
  cause : Nat
  pc : Nat
  addr : Nat
deriving DecidableEq, Repr, Inhabited

def CrashRec.toBytes (c : CrashRec) : Bytes :=
  leBytes 8 c.time ++ leBytes 1 c.core ++ zeros 1 ++ leBytes 2 c.index ++ leBytes 1 c.cause ++ zeros 3 ++ leBytes 4 c.pc
  ++ zeros 4 ++ leBytes 8 c.addr

/-- A submission descriptor's 64 bytes from its header and body (R531). -/
def descriptor (opcode : Nat) (prog : Bool) (cid : Nat) (body : Bytes) : Bytes :=
  leBytes 1 opcode ++ leBytes 1 (b2n prog) ++ leBytes 2 cid ++ zeros 4 ++ fit 56 body

/-- A completion entry (R532). -/
structure Compl where
  cid : Nat
  status : Status
  progress : Bool
  queue : Nat
  sqhead : Nat
  result : Nat
deriving DecidableEq, Repr, Inhabited

def Compl.toBytes (c : Compl) (phase : Bool) : Bytes :=
  leBytes 2 c.cid ++ leBytes 2 c.status.code ++ leBytes 1 (b2n c.progress * 2 + b2n phase) ++ leBytes 1 c.queue
  ++ leBytes 2 c.sqhead ++ leBytes 8 c.result

/-- A transcript record before it is chained: type, scope and body (R478, R479). -/
structure TRec where
  type : Nat
  isLocal : Bool
  body : Bytes
deriving DecidableEq, Repr, Inhabited

end Sys2Proof.Machine
end

