-- ==== Sys2Proof/Machine/State.lean ====
section
/-! DEFINITION. Everything the specification gives the TZ-32 to hold, as plain data, with the state after reset. -/

namespace Sys2Proof.Machine

/-- Bytes by address: addresses strictly rising, no byte equal to 0, which an unlisted address reads as (log 2). -/
abbrev Mem := List Host.Cell

/-- Values by number: keys strictly rising. -/
abbrev Tab (α : Type) := List (Nat × α)

/-! ### Context: queues, mappings, catalogue -/

/-- A queue pair (R529–R533). -/
structure Queue where
  sq : Nat
  sqn : Nat
  vector : Nat
  irq : Bool
  cq : Nat
  cqn : Nat
  tail : Nat
  head : Nat
  cqTail : Nat
  cqHead : Nat
  phase : Bool
  used : Nat                -- completion entries written and not yet freed
  held : List Compl
deriving DecidableEq, Repr, Inhabited

def Queue.none : Queue := ⟨0, 0, 0, false, 0, 0, 0, 0, 0, 0, true, 0, []⟩

/-- What a command that runs in slices and takes effect at its last one is to do (R546, R556). -/
inductive Sliced where
  | load (container length : Nat)
  | map (f : MapF)
  | unmap (va frames : Nat)
  | restore (list volumes mapBuf mapEntries : Nat)
deriving DecidableEq, Repr, Inhabited

/-- A command in flight (R534): fetched, perhaps started, with the units of its progress (R557). -/
structure Cmd where
  q : QRef
  cid : Nat
  prog : Bool
  opcode : Nat
  body : Bytes
  started : Bool
  units : Nat
  lastProgress : Nat
  work : Option Sliced := none
deriving DecidableEq, Repr, Inhabited

/-- The leaf of one 64 KiB page: target, writability, leaf size code (R293), frame address and peer index. -/
structure Leaf where
  loc : Nat
  w : Bool
  size : Nat
  frame : Nat
  peer : Nat
  shelved : Bool := false            -- a page MAP aimed at local HBM and placed on a peer (R331)
deriving DecidableEq, Repr, Inhabited

/-- The store granules of a scratch tensor (R326): the owner of each, its bytes and its poisoned 64-byte lines. -/
structure Scratch where
  owners : List Nat
  bytes : Mem
  poison : List Nat
deriving DecidableEq, Repr, Inhabited

/-- One move of a re-shelving round (R341): the shard (call number and index), its new stack, its frames there. -/
structure Move where
  call : Nat
  shard : Nat
  run : Nat                         -- the 2 MiB run of addresses the shard lies in
  stack : Nat
  frames : List Nat
  copied : Bool
  abandoned : Bool
deriving DecidableEq, Repr, Inhabited

/-- A patron's catalogue and its placement state (R314–R345). -/
structure Catalogue where
  tags : Tab Nat
  live : Tab Entry
  shards : Tab (List Shard)
  scratch : Tab Scratch
  staged : List (Nat × Nat × Nat)   -- valid staged copies: call number, first row, rows (R329)
  gen : Nat
  round : Option (Nat × List Move)
  lastRound : Option Nat
  rounds : Nat
  streaks : List (Nat × Nat × Nat × Nat)
  vacated : List (Nat × Nat × Nat)  -- frame, and the attempt and operation number at the flip (R343)
  balanceOff : Bool
  reshelveOff : Bool
  schedNext : Option (Bool × Bool)
deriving DecidableEq, Repr, Inhabited

def Catalogue.empty : Catalogue := ⟨[], [], [], [], [], 0, none, none, 0, [], [], false, false, none⟩

/-! ### Context: program and policies -/

/-- A stream's words and initial registers (R192, R543). -/
structure ProgStream where
  words : List Nat
  s : List Nat
  a : List Nat
deriving DecidableEq, Repr, Inhabited

/-- A loaded program with the container it was received in (R488). -/
structure Program where
  container : Bytes
  streams : List ProgStream
deriving DecidableEq, Repr, Inhabited

/-- The records SET_POLICY defines (R547). -/
structure Policies where
  job : Option Job
  groups : Tab Group
  watch : Tab Watch
  imageRung : Tab Nat
  rot : Tab RotEntry
  act : Tab Bytes
  actNext : Tab (Option Bytes)
  descs : Tab Desc
  grps : Tab GroupRec
  mode : ModeRec
  modeNext : Option ModeRec
  vol : VolPolicy
deriving DecidableEq, Repr, Inhabited

def Policies.empty : Policies := ⟨none, [], [], [], [], [], [], [], [], ModeRec.zero, none, VolPolicy.zero⟩

/-- A carried contribution (R420, R502 type 16): its bits, loss state, watch block and source row in FP32 codes.
`fresh` marks one deferred in the running attempt, `used` one consumed in it. -/
structure Carried where
  desc : Nat
  seq : Nat
  contribution : Nat
  fl : Bool
  nf : Bool
  ws : Bool
  lossBad : Bool
  block : Bytes
  row : List Nat
  poison : List Nat                  -- positions of the row that poisoned source elements left unknown
  fresh : Bool
  used : Bool
deriving DecidableEq, Repr, Inhabited

/-- A deferred contribution of the job, whichever member carries it, as every member knows it from the verdicts (R420, R421, R465; log 131):
`fresh` marks one deferred in the running attempt, `used` one consumed in it, `lost` one that its member has said it had no room for. -/
structure Owed where
  desc : Nat
  seq : Nat
  contribution : Nat
  fresh : Bool
  used : Bool
  lost : Bool := false
deriving DecidableEq, Repr, Inhabited

/-- The gate's state and the position of a job (R356, R370, R372, R407, R430, R483). -/
structure Gate where
  exp : Int
  clean : Nat
  consec : Nat
  skips : Nat
  step : Nat
  cursor : Nat
  attempt : Nat
  epoch : Nat
  ranStep : Bool
  carry : List Carried
  owed : List Owed                    -- the job's carry set by number
deriving DecidableEq, Repr, Inhabited

def Gate.zero : Gate := ⟨0, 0, 0, 0, 0, 0, 0, 0, false, [], []⟩

/-- Flag words of a patron (R65, R66, R655): per logical carrel and per bay vector unit, the part of each not yet in the
aggregates, the part not yet in the device aggregate alone (by carrel, or 1152 + bay), the bay aggregates and the device aggregate. Absent
words read 0. -/
structure FlagWords where
  carrel : Tab Nat
  bayVu : Tab Nat
  newCarrel : Tab Nat
  newVu : Tab Nat
  newDev : Tab Nat
  bayAgg : Tab Nat
  devAgg : Nat
deriving DecidableEq, Repr, Inhabited

def FlagWords.zero : FlagWords := ⟨[], [], [], [], [], [], 0⟩

/-! ### Context: the running attempt -/

/-- A tile's preload (R216–R219): call numbers and origins as taken at the PRE's issue. -/
inductive Preload where
  | zero | brow (call : Nat) | bcol (call : Nat) | res (call row col : Nat) | self
deriving DecidableEq, Repr, Inhabited

/-- A tile's epilogue stages (R217–R219), call numbers as taken at the EPI's issue. -/
structure Epi where
  saxis : Nat
  scale : Nat
  baxis : Nat
  bias : Nat
  slot : Nat
  target : Nat
  round : Nat
  stream : Nat
  reduction : Nat
  raxis : Nat
  merge : Bool
  result : Nat
  tap : Bool
  qtensor : Nat
  taxis : Nat
  stats : Bool
  skind : Nat
  layer : Nat
deriving DecidableEq, Repr, Inhabited

/-- The defaults of R175: no scale, no bias, activation slot 0, target FP32 under RNE, nothing tapped. -/
def Epi.default : Epi := ⟨0, 0, 0, 0, 0, 11, 0, 0, 0, 0, false, 0, false, 0, 0, false, 0, 0⟩

structure Tile where
  pre : Preload
  epi : Epi
  busy : Bool
deriving DecidableEq, Repr, Inhabited

def Tile.idle : Tile := ⟨.zero, Epi.default, false⟩

/-- A collective slot (R228, R229): busy, the collective's id and its ending. -/
structure Slot where
  busy : Bool
  id : Nat
  status : Option Status
  detail : Nat                        -- what a fault record of its status names (R245)
deriving DecidableEq, Repr, Inhabited

def Slot.free : Slot := ⟨false, 0, none, 0⟩

/-- An operation in a stream's issue window (R234–R238): the call numbers it reads and writes. -/
structure Op where
  id : Nat
  reads : List Nat
  writes : List Nat
  folio : Bool
  coll : Option Nat
  set : List Nat := []        -- its assignment set of logical carrels, chosen from the grant at issue (R333)
deriving DecidableEq, Repr, Inhabited

/-- A stream of the running attempt (R192–R198, R238). -/
structure Stream where
  pc : Nat
  s : List Nat
  a : List Nat
  tiles : List Tile
  slots : List Slot
  window : List Op
  bars : Nat
  barsDone : Nat
  ended : Bool
  waiting : Bool
  stopped : Bool
  issue : Nat
  descs : List Nat
deriving DecidableEq, Repr, Inhabited

/-- One accumulator cell of a leaf buffer (R167): a total or partial code, or a ledger. -/
inductive Cell where
  | word (n : Nat)
  | ledger (l : Ledger)
deriving DecidableEq, Repr, Inhabited

/-- A tensor scale as a folio read it at its start (R79): its FP32 code, or why it could not be read. -/
inductive XScale where
  | code (n : Nat)
  | poisoned (addr : Nat)
  | refused (addr : Nat)
deriving DecidableEq, Repr, Inhabited

/-- A folio in flight (R147–R152, R216): what its FOLD captured, and the partials that have arrived. -/
structure Folio where
  id : Nat
  stream : Nat
  op : FoldOp
  kind : Nat
  a : Nat
  b : Nat
  c : Nat
  org : List Nat
  m : Nat
  n : Nat
  k : Nat
  p : Nat
  q : Nat
  rung4 : Bool
  tile : Nat
  pre : Preload
  epi : Epi
  set : List Nat                     -- the assignment set chosen at issue (R333)
  choice : Nat                       -- the number of the free choice that gave each piece its first carrel (R334)
  carrels : List (Nat × Nat × Nat)   -- leaf, span, and the carrel a stolen piece went to
  scaleA : Option XScale             -- the tensor scales as the folio's start read them (R79): of A, of B, of a tapped image
  scaleB : Option XScale
  scaleT : Option XScale
  partials : List (Nat × Nat × List Cell)
  leavesDone : List Nat
  winners : List (Nat × Nat × Nat)   -- line, index and value of each winner so far (R186)
  overs : List Nat                   -- the operands, by call number, whose overfull event it has reported (R106, R107)
  word : Nat
  pc : Nat
  status : Status
deriving DecidableEq, Repr, Inhabited

/-- The norm-reduce result the gate reads, with the reduced watch block (R363, R383, R424, R425). -/
structure NormResult where
  fl : Bool
  nf : Bool
  ws : Bool
  ss : Ledger
  contrib : Nat
  enorm : Bool
  block : Bytes
deriving DecidableEq, Repr, Inhabited

/-- The gate's decision (R363). -/
structure Decision where
  outcome : Nat
  q : Nat
  u32 : Nat
  k32 : Nat
  f : Nat
deriving DecidableEq, Repr, Inhabited

inductive Phase where
  | program | decide | update | vote | skip | seal | copy
deriving DecidableEq, Repr, Inhabited

/-- The statistics an attempt has collected for one watch entry and kind (R382, R384). -/
structure WatchAcc where
  entry : Nat
  kind : Nat
  sumsq : Ledger
  amax : Nat
  nonfinite : Nat
  count : Nat
  overfull : Bool
deriving DecidableEq, Repr, Inhabited

/-- The rung decisions of an attempt for one entry (R389, R390): the promoted rung and the demotion if it commits. -/
structure RungDecision where
  entry : Nat
  old : Nat
  promoted : Nat
  demoted : Nat
  alerts : Nat
  overfull : Nat
  avgOut : Option Nat
  avgGrad : Option Nat
deriving DecidableEq, Repr, Inhabited

/-- The beats that an attempt's meter has counted as held, each in one column (R476): the last refresh window, beats of droop, spans outside. -/
structure Held where
  refresh : Option Nat
  droop : List Nat
  outside : List (Nat × Nat)
deriving DecidableEq, Repr, Inhabited

/-- An attempt (R353). -/
structure Attempt where
  phase : Phase
  start : Nat
  eUsed : Int
  status : Status
  firstFault : Nat
  streams : List Stream
  opSeq : Nat
  folios : List Folio
  records : List StatsRec
  contributed : Bool
  normIssued : Bool
  item : Option NormItem
  acc : List WatchAcc
  lateOut : List Nat
  lateGrad : List Nat
  lateOvf : List Nat
  decision : Option Decision
  rungs : List RungDecision
  watchRecs : List (Nat × Nat × Nat × Nat × Nat)   -- entry, kind, cause, old and new rung
  lost : List (Nat × Nat × Nat × Nat)             -- deferred contributions its commit did not consume: descriptor, sequence, number, action (R479)
  updated : Bool                                  -- phase D has begun
  saved : List (Nat × List (Byte × Bool))         -- committed bytes of scale tensors that no volume holds
  un : Bool
  voted : Bool
  vote : Option VOutcome
  voteTime : Nat
  meteredOn : Bool
  meter : Meter
  held : Held                                     -- beats already counted in the meter's hold columns
deriving DecidableEq, Repr, Inhabited

/-- A RUN_STEP in progress (R544): its command, count, cursor base and commits so far, and what will end it. -/
structure Run where
  q : QRef
  cid : Nat
  prog : Bool
  count : Nat
  base : Nat
  commits : Nat
  pause : Bool
  ending : Option Status
deriving DecidableEq, Repr, Inhabited

/-! ### Context: collectives, volumes, transcript -/

/-- A collective on this member (R407–R431): what it holds as root, as a participant and as an owner. -/
structure Coll where
  id : Nat
  epoch : Nat
  issued : Option (Nat × Nat × Nat × Nat × Nat)   -- stream, slot, time, source and destination call numbers
  notices : List Notice
  verdict : Option Verdict
  bodies : List CollMsg
  own : List (Nat × List Nat × List Nat)          -- contribution, codes and poisoned positions, as read at issue
  result : Option (List Nat × List Nat)           -- delivered codes and poisoned positions, held until delivered
  delivered : Bool
  ended : Option Status
  ss : Ledger                                     -- the member's share of the attempt's norm (R423)
  nf : Bool
  count : Nat
  consumed : List Nat                             -- carried contributions that entered (R421)
  fault : Option (Status × Nat) := none           -- of the writes of its result, until the norm-reduce has ended (R241)
  norm : Option NormResult
deriving DecidableEq, Repr, Inhabited

/-- One shard of a volume (R501, R504), with the offsets of the bytes that poisoned atoms made zero (R506). -/
structure VShard where
  call : Nat
  kind : Nat
  part : Nat
  first : Nat
  units : Nat
  bytes : Bytes
  poison : List Nat
deriving DecidableEq, Repr, Inhabited

/-- A member volume: its colophon's header fields as 256 bytes, its shards, its HMAC (R503). -/
structure Volume where
  header : Bytes
  shards : List VShard
  mac : Bytes
deriving DecidableEq, Repr, Inhabited

/-- A second-copy slot (R493–R499). -/
structure VSlot where
  vol : Option Volume
  step : Nat
  drained : Bool
  draining : Bool
  readers : Nat
  target : Nat                       -- where its volume drains to, resolved at the admission that filled it (R491)
deriving DecidableEq, Repr, Inhabited

def VSlot.empty : VSlot := ⟨none, 0, true, false, 0, 3⟩

/-- The context's volume state (R489–R512). -/
structure Vols where
  slot0 : VSlot
  slot1 : VSlot
  snapshot : Option Volume
  sized : Nat
  target : Nat
  resize : Bool                      -- a SET_POLICY since the last admission: the region is sized anew (R492)
  snapFrames : Nat                   -- frames reserved for the snapshot (R495)
deriving DecidableEq, Repr, Inhabited

def Vols.empty : Vols := ⟨VSlot.empty, VSlot.empty, none, 0, 3, true, 0⟩

/-- A partner's drained volume (R500): step, the bytes received, whether it is complete. -/
structure Partner where
  ctx : Nat
  rank : Nat
  step : Nat
  data : List (Nat × Bytes)
  complete : Bool
deriving DecidableEq, Repr, Inhabited

/-- The transcript of a context (R477–R487). -/
structure Transcript where
  staging : List Bytes
  chain : Bytes
  seq : Nat
  ringOff : Nat
  refPos : Nat                       -- comparable records of the reference that have been compared
  attemptRecs : List (Nat × Bytes)   -- comparable stream of the attempt: seq and record
deriving DecidableEq, Repr, Inhabited

def Transcript.zero : Transcript := ⟨[], zeros 16, 0, 64, 0, []⟩

/-- A CHECKPOINT or PREEMPT that is writing (R507, R508). -/
structure LongCmd where
  q : QRef
  cid : Nat
  opcode : Nat
  list : Nat
  entries : Nat
  deadline : Nat
  vol : Option Volume       -- none while a PREEMPT waits for the attempt to end
  slot : Option Nat         -- the second-copy slot it reads
  pos : Nat                 -- bytes written
deriving DecidableEq, Repr, Inhabited

/-- Identity and quotas of a context (R539–R541, R554, R566). -/
structure Ident where
  st : CtxSt
  prior : CtxSt
  fn : Nat
  pasid : Nat
  version : Nat
  standby : Bool
  patron : Nat
  job : Nat
  seed : Nat
  token : Nat
  deadline : Nat
  carrels : Nat
  ways : Nat
  weight : Nat
  frames : Nat
  grant : List Nat
  grantNext : Option (List Nat)
  lent : List Nat                   -- carrels that a quarantined bay has taken out of the grant (R598)
  quotaNext : Option (Nat × Nat × Nat × Nat)
  wayMask : Nat
  maskNext : Option Nat             -- the way mask from the next step boundary on (R280)
  jobKey : Option Bytes
  volKey : Option Bytes
  xtsKey : Bool
  reshardOpen : Bool
  awaitReady : Bool
deriving DecidableEq, Repr, Inhabited

/-- A patron context (R527). -/
structure Ctx where
  ident : Ident
  queues : List Queue
  lastQueue : Nat                   -- the queue whose descriptor was taken last (R534)
  cmds : List Cmd
  long : Option LongCmd
  closing : Option (QRef × Nat)
  reshard : Option (QRef × Nat × Bool)
  root : Nat                        -- device physical address of its level 3 page table as OPEN placed it (R292)
  tableMoves : List (Nat × Nat)     -- migrations of device-reserved frames, which its tables follow: old and new frame (R309)
  maps : Tab Leaf                   -- the leaves of its page tables, one for each 64 KiB page (R293)
  cat : Catalogue
  prog : Option Program
  progNext : Option Program
  pol : Policies
  gate : Gate
  flags : FlagWords
  run : Option Run
  att : Option Attempt
  faults : Tab FaultRec
  report : Option Report
  meter : Option Meter
  divergence : Option Divergence
  block : Bytes
  colls : List Coll
  heldMsgs : List CollMsg
  heldNotices : List Notice
  heldVerdicts : List Verdict
  heldAborts : List (Nat × Nat)      -- epoch aborts of a higher epoch: id and epoch (R431)
  vols : Vols
  tr : Transcript
  peerMem : Tab Mem                 -- by peer index: the bytes of this patron's frames there that remote shards hold (R337)
  peerPoison : Tab (List Nat)       -- and their poisoned atoms (R304)
  streamed : Bool
  restorePoint : Option Nat
deriving DecidableEq, Repr, Inhabited

/-- The context states, one entry per context that is not FREE; an absent context is FREE (R527). -/
abbrev Contexts := Tab Ctx

/-! ### The device -/

/-- Pins, straps and power (R625–R633, R640–R644). -/
structure Pins where
  pwrEn : Bool
  presence : Bool
  pwrGood : Bool
  modReset : Bool          -- MOD_RESET_N: true when released
  perst0 : Bool
  perst1 : Bool
  mgmtSel : Bool
  clkMode : Bool
  inputSwitch : Bool
  aux : Bool
  tripped : Bool
  pwrEnLow : Nat           -- device-independent time at which PWR_EN last fell
  tripCause : Option TripCause
  tripVolts : Nat
  tripAmps : Nat
  tripTemp : Int
  tripCount : Nat
  jtag : JtagOp            -- the instruction in the test port (R639)
  serviceLed : Bool
deriving DecidableEq, Repr, Inhabited

/-- Device time and its sources (R25–R28, R458, R636–R638). -/
inductive TimeSource where
  | own | links | tsync
deriving DecidableEq, Repr, Inhabited

structure Clock where
  now : Nat
  adopted : Bool
  hold : Nat                 -- counts that fabric time is still behind (R26)
  rate : Int
  source : TimeSource
  refclkLost : Bool
  tsValue : Nat
  tsFrames : Nat
  tsLast : Nat
  tsLosses : Nat
deriving DecidableEq, Repr, Inhabited

/-- How many rungs each loop has taken from an island (R595). -/
structure Drop where
  island : Island
  droop : Nat
  cap : Nat
  heat : Nat
deriving DecidableEq, Repr, Inhabited

/-- Power, thermal and clock control (R595, R630, R631, R646). -/
structure Control where
  cap : Nat
  under : Nat                        -- consecutive periods more than 3% below the cap
  drops : List Drop
  stretches : List (Island × Nat)    -- stretches of the running period
  lastStretch : List (Island × Nat)
  cool : List (Nat × Nat)            -- die, and the time since which it is below its throttle point by 5 K
  climb : Nat                        -- rungs above the safe rung that islands have climbed since boot or a conservator's return
  flowSince : Option Nat
  flowEvent : Bool
deriving DecidableEq, Repr, Inhabited

/-- What a valid copy of the boot control block holds (R576). -/
structure BootCtl where
  seq : Nat
  committed : Nat
  trial : Nat
  tries : Nat
  version : Nat
deriving DecidableEq, Repr, Inhabited

/-- A firmware core (R573, R574, R597, R598). -/
structure CoreSt where
  id : CoreId
  up : Bool
  downAt : Nat
  crashes : List Nat                -- times of its crashes, newest first
  copyOk : Bool                     -- its resident copy has passed its digest check
  takenOver : Bool                  -- its standby has taken its duties over: it stays out of service (R574)
  kick : Nat                        -- the last kick of its watchdog that is known: its start or restart (R573)
  sram : Mem                        -- its private SRAM (R571)
deriving DecidableEq, Repr, Inhabited

/-- The shared resources of R588, in its order. -/
inductive Resource where
  | keys | sensors | journal | catalogue | bayPages (bay : Nat) | reservedHbm (area : Nat) | flash | otherSram
deriving DecidableEq, Repr, Inhabited

/-- What a core may do with a resource. -/
structure Access where
  r : Bool
  w : Bool
deriving DecidableEq, Repr, Inhabited

/-- A setting of a core's protection and of the firewalls (R588): it grants a core a resource. -/
structure Grant where
  core : CoreId
  res : Resource
  may : Access
deriving DecidableEq, Repr, Inhabited

/-- A live update under way (R590–R593). -/
structure LiveUpd where
  start : Nat
  accepted : List CoreId
deriving DecidableEq, Repr, Inhabited

/-- One entry of the circulation journal (R370, R572, R597): a command started, a completion entry written into a slot of its ring, what phase F
publishes. -/
inductive Journalled where
  | started (q : QRef) (cid opcode : Nat)
  | written (q : QRef) (slot : Nat) (entry : Bytes)
  | published (ctx : Nat) (gate : Gate) (watch : Tab Watch)
deriving DecidableEq, Repr

/-- The circulation journal in its protected SRAM (R572): the 64-bit sequence word of the last write, and the entries, newest last. -/
structure Journal where
  seq : Nat
  entries : List Journalled
deriving DecidableEq, Repr

/-- Firmware, flash and keeper state (chapter 17). -/
structure Firmware where
  stage : Nat
  check : Nat
  slot : Nat
  recovery : Bool
  ctl0 : Bytes                       -- the two copies of the boot control block, 32 bytes each (R576)
  ctl1 : Bytes
  writing : Option (Bool × Nat)      -- the copy written last (true: copy 1), and when; power lost before time goes on may have cut it short
  config : ConfigRec
  slotA : Option Image
  slotB : Option Image
  written : Tab Bytes                -- by image slot, the bytes that an update has written there (R575)
  staged : Bool
  stagedSlot : Nat
  floor : Nat
  revoked : List Nat
  attLog : List Bytes
  attDigest : Bytes
  unlocked : Bool
  cores : List CoreSt
  crashLog : List CrashRec
  quarantined : List Nat
  live : Option LiveUpd
  handSeq : Nat
  running : Option Image
  resident : Tab Nat                 -- by component, the digest of its copy in device-reserved memory (R573)
  pendingTrial : Bool
  grants : List Grant                -- the protection and firewall settings the keeper has programmed; what none grants is refused (R588)
  locked : Bool                      -- they are locked until the next release of MOD_RESET_N
deriving DecidableEq, Repr, Inhabited

/-- A register page (R605–R608, R621). -/
structure Page where
  intEn : Bool
  freeze : Bool
  intStatus : Nat
  intEnable : Nat
  errCount : Nat
  errCode : Nat
  errValid : Bool
  errAddr : Nat
  errSyn : Nat
  snapGen : Nat
  sel : List Nat
  cnt : List Nat
  snap : List Nat
  pCtrl : Nat
  pSeed : Nat
  pDelay : Nat
  pCredit : Nat
  pBp : Nat
  pRetry : Nat
  pEccAddr : Nat
  pEcc : Nat
  pInjected : Nat
deriving DecidableEq, Repr, Inhabited

def Page.reset : Page :=
  ⟨false, false, 0, 0, 0, 0, false, 0, 0, 0, [0, 0, 0, 0, 0, 0, 0, 0], [0, 0, 0, 0, 0, 0, 0, 0], [0, 0, 0, 0, 0, 0, 0, 0],
   0, 0, 0, 0, 0, 0, 0, 0, 0⟩

/-- A half write or a read latch of one requester and register (R603, R610). -/
structure Half where
  req : Req
  off : Nat
  value : Nat
deriving DecidableEq, Repr, Inhabited

/-- Register space (chapter 18): pages whose contents differ from what their class holds with nothing written. -/
structure Regs where
  pages : Tab Page
  gen : Nat
  snapTime : Nat
  snapPending : Bool
  snapIgnored : Nat
  latchedGen : Nat
  perturbRefused : Nat
  writeHalf : List Half
  readLatch : List Half
  ceAddr : Tab Nat
  ceSyn : Tab Nat
  detourWindow : Nat
deriving DecidableEq, Repr, Inhabited

/-- A function: its admin queue pair, allotment and vector table size (R526–R529, R547, R617). -/
structure Fun where
  adm : Queue
  en : Bool
  cmds : List Cmd
  allot : Option (Nat × Nat × Nat × Nat × Nat)
  mute : Bool                       -- reset, and not set up again: its port sends no MSI-X message for it (R559)
deriving DecidableEq, Repr, Inhabited

def Fun.reset : Fun := ⟨Queue.none, false, [], none, false⟩

/-- Host ports and setup (R523, R524, R547, R654). -/
structure HostIf where
  active : Nat
  up0 : Bool
  up1 : Bool
  out0 : Nat                        -- when the port's link last left L0 (R524)
  out1 : Nat
  twoHost : Bool
  address : Option Nat
  axes : List Nat
  partition : Bool
  grace : Nat
  funs : Tab Fun
deriving DecidableEq, Repr, Inhabited

/-- A flit in a retry buffer (R443), by its message. -/
structure Sent where
  seq : Nat
  flit : Bytes
  dest : Nat
  mseq : Nat
  job : Nat
deriving DecidableEq, Repr, Inhabited

inductive PortSt where
  | down | training | authenticating | up | retraining
deriving DecidableEq, Repr, Inhabited

/-- A received frame whose seal has not been checked (R441): the hop key and frame number it is sealed under, whether that key is the next
one, and its 16 flits as they came off the lanes; a lost flit is empty. -/
structure RxFrame where
  key : Nat
  frame : Nat
  next : Bool
  flits : List Bytes
deriving DecidableEq, Repr, Inhabited

/-- A fabric port (R434–R449). -/
structure Port where
  st : PortSt
  lanes : Nat                 -- active lane mask
  cause : Nat                 -- down cause: 0 absent, 1 retrain failed, 2 faulty, 3 hostile
  partner : Nat
  cert : Nat
  rxSeq : Nat
  txSeq : Nat
  nakSent : Bool
  retry : List Sent
  held : List Message         -- messages sent whose last flit the partner has not acknowledged (R448)
  sizes : List Nat            -- the partner's stated sizes
  credits : List Nat
  ownFree : List Nat          -- free places of this side's 32 receive buffers
  txPos : Nat                 -- flits sent in the frame that is open
  txFrame : List Bytes        -- those flits
  txSeal : Bytes              -- the seal of the frame before, which the open one carries (R440)
  txFrames : Nat              -- frames sent under the key in use: the direction's frame counter
  txKey : Nat                 -- which hop key is in use (R440, R442)
  oldKey : Option (Nat × Nat) -- the key before it, held for so many flits not yet acknowledged (R442)
  rxPhase : Bool              -- key phase of the frames received
  rxKey : Nat                 -- which hop key the partner's frames are under, and the key of the next phase (R440, R442)
  rxNext : Nat
  rxFrames : Nat              -- frames received under the key: the frame counter of that direction
  rxFlits : List Bytes        -- flits received of the frame that is open
  rxPrev : Option RxFrame     -- the frame before it, whose seal the open one brings
  sentFlits : Nat             -- flits sent under the key in use
  kphase : Bool
  keyTime : Nat
  keyPending : Option Nat
  replayFails : Nat           -- consecutive replays that failed, as receiver
  lastNak : Option (Nat × Nat)  -- as transmitter: the sequence last replayed and its replays that failed
  starving : List (Nat × Nat) -- buffers without credit, and since when
  events : List Nat           -- times of fault events within the last 1 ms
  retrainAt : Option Nat
  laneOk : List (Nat × Nat)   -- dropped lanes and the time since which each passes
  laneReady : List Nat        -- lanes that may return at the next retrain
  rxMsg : Tab (List Bytes)    -- by receive buffer, flits received of the message under assembly
  skip : List Nat             -- receive buffers whose message is being discarded
  gen : Nat                   -- generation of the detour table that messages received here are routed by (R461)
deriving DecidableEq, Repr, Inhabited

def Port.reset : Port :=
  { st := .down, lanes := 0, cause := 0, partner := 0, cert := 0, rxSeq := 0, txSeq := 0, nakSent := false, retry := [], held := [], sizes := [],
    credits := [], ownFree := [], txPos := 0, txFrame := [], txSeal := [], txFrames := 0, txKey := 0, oldKey := none, rxPhase := false,
    rxKey := 0, rxNext := 0, rxFrames := 0, rxFlits := [], rxPrev := none, sentFlits := 0, kphase := false, keyTime := 0, keyPending := none,
    replayFails := 0, lastNak := none, starving := [], events := [], retrainAt := none, laneOk := [], laneReady := [], rxMsg := [], skip := [],
    gen := 0 }

/-- A detour table entry (R460). -/
structure Detour where
  coord : Nat
  reserve : Nat
  gen : Nat
deriving DecidableEq, Repr, Inhabited

/-- A message sent and not yet known to be delivered (R453, R454). -/
structure Waiting where
  job : Nat
  mseq : Nat
  dest : Nat
  attempts : Nat
  routes : List (List Nat)
  rounds : Nat
  checking : Bool
  since : Nat
  answered : Option Nat       -- when the destination answered the tag check
deriving DecidableEq, Repr, Inhabited

/-- A message on its way out (R443, R455): the address of the device it must go to next, where a resent one takes a route of its own; the
port it has begun to leave by and how many of its flits have left; the hub it comes from; and the lane bytes of exact sums that it carries
(R417). -/
structure Outgoing where
  msg : Message
  via : Option Nat
  port : Option Nat
  next : Nat
  hub : Nat
  lanes : Nat := 0
deriving DecidableEq, Repr, Inhabited

/-- What this device has delivered from one source and job (R452). -/
structure Delivered where
  src : Nat
  job : Nat
  highest : Nat
  seen : List Nat
deriving DecidableEq, Repr, Inhabited

/-- The fabric side of the device (chapter 13, 15). -/
structure Fabric where
  ports : Tab Port
  detours : List Detour
  detoursOld : List Detour            -- the generation before, by which ports route that have not switched yet (R461)
  detourGen : Nat
  mseq : Tab Nat
  waiting : List Waiting
  delivered : List Delivered
  lost : List Nat
  refused : List Nat
  certs : List (Nat × Nat)
  adopted : Option Nat
  selfFailed : Bool
  fabricKey : Option Bytes
  partners : List Partner
  points : List (Nat × Nat × Nat)     -- adopted coordinate's jobs: coordinate, job, restore point
  buddies : List Nat                  -- addresses of the adopted coordinate's buddies (R515, R520)
  queued : List Outgoing              -- messages that wait for a port with credit, oldest first
  kept : List Message                 -- the device's own messages, for a resend (R453; log 146)
  floods : List (Nat × List Nat)      -- refusals and ready messages that have been passed on (log 146)
deriving DecidableEq, Repr, Inhabited

/-- A management response: its one status code of R552 (R6), and whether it is the ResponseNotReady of an endpoint whose core is down
(R597). Which code stands for which refusal is the model's choice where the rules name none (log 111). -/
structure Answer where
  status : Status
  notReady : Bool := false
deriving DecidableEq, Repr, Inhabited

def Answer.ok : Answer := ⟨.success, false⟩
def Answer.of (st : Status) : Answer := ⟨st, false⟩
/-- The core that serves the request is down (R597). -/
def Answer.late : Answer := ⟨.estate, true⟩

/-- The identity record at address 0x50 (R628). -/
structure Identity where
  part : Bytes
  serial : Bytes
  stepping : Nat
  date : Bytes
deriving DecidableEq, Repr, Inhabited

/-- PLDM events (R636, R646). -/
inductive MgmtEvent where
  | refclk | flow
deriving DecidableEq, Repr, Inhabited

/-- A management request that changes state, without its request id (R565). -/
inductive MgmtReq where
  | powerCap (watts : Nat)
  | keyInstall (tr : Transport) (c : Nat) (kind : KeyKind) (key : Bytes)
  | config (tr : Transport) (r : ConfigRec)
  | revoke (tr : Transport) (slot : Nat)
  | unlock (tr : Transport)
  | carrelFail (tr : Transport) (phys : Nat)
  | service (tr : Transport)
  | firmware (m : PldmFw)
  | live
  | receiver (eid : Nat)
  | failover
deriving DecidableEq, Repr, Inhabited

/-- The management endpoint (R563–R565, R542). -/
structure Mgmt where
  assembling : Option (Nat × Nat × Nat × Bytes)   -- tag, next sequence, time of the last packet, bytes
  responses : List (Nat × MgmtReq × Answer)       -- requests acted upon by instance number, newest first, with their stored responses
  sessions : List (Transport × Nat × Nat)          -- transport, requester's certificate, stage (5: secured)
  eventReceiver : Option Nat
  events : List MgmtEvent                          -- sent events, newest last
  message : Option Bytes                           -- the last complete message that passed its integrity check
deriving DecidableEq, Repr, Inhabited

/-- Carrels, repair and memory reliability (R14–R19, R301–R313, R650–R652). -/
structure Silicon where
  failing : List Nat
  spareUsed : List (Nat × Nat)        -- bay, slot of the failing carrel its spare replaces
  withdrawn : List Nat
  storeErrs : List (Nat × Nat × Nat)  -- physical carrel, line poisoned in its store, time
  bayFailed : List Nat
  carrelCtx : Tab Nat
  corrected : Tab Nat                 -- corrected errors per frame
  frameChannel : Tab Nat              -- channel of the most recent logged error per frame
  laneErrs : List (Nat × Nat × Nat × Nat)   -- stack, channel, lane, and times counted within an hour
  lanesPending : List (Nat × Nat)
  lanesSpared : List (Nat × Nat × Nat)      -- stack, channel, lanes spared
  retired : List Nat
  ring : List RetireRec
  devFrames : List Nat
  devMoves : List (Nat × Nat)         -- migrations of device-reserved frames: old and new frame
  migrations : List (Nat × Nat × Nat × List (QRef × Nat))   -- frame, new frame, cause, the RETIREs in progress
  scrubbing : List Nat
  refreshes : Tab Nat                 -- refresh intervals per stack, patrol reads included (R290)
  channelErrs : Tab Nat               -- corrected errors per pseudo-channel, 64 k + n of stack k (R302)
  keySlots : Tab Bytes                -- the key slots of every memory controller: 0 the device key, c + 1 of context c (R300)
deriving DecidableEq, Repr, Inhabited

/-- A cached line of the annex (R275–R279): the HBM line it holds, the context it is tagged with, its home, set and way. While it is
dirty, `under` is what HBM holds beneath it. -/
structure Line where
  line : Nat                          -- device physical address / 64
  tag : Nat
  home : Nat                          -- die × 64 + bank
  set : Nat
  way : Nat
  dirty : Bool
  under : Bytes
  underPoison : Bool                  -- HBM's atom beneath is poisoned
deriving DecidableEq, Repr, Inhabited

/-- Where a pinned frame's 1,024 lines lie in their die (R660): one in each set of a run of 1,024 sets, all in one way. -/
structure Pin where
  block : Nat
  way : Nat
deriving DecidableEq, Repr, Inhabited

/-- The memory behind device physical addresses (R287), as every reader on the device sees it (R271): bytes, ledger-cell states, poisoned
atoms. A dirty annex line is newer than HBM, which then holds the line's `under`. -/
structure Storage where
  bytes : Mem
  cellState : Tab Nat
  poison : List Nat
  owner : Tab Nat                     -- allocated frames and the context each belongs to
  lines : List Line                   -- cached lines, the most recently used first
  pins : Tab Pin                      -- pinned frames
deriving DecidableEq, Repr, Inhabited

/-- What leaves the block, newest last: the MODEL's own record (log 4). -/
inductive Out where
  | msix (fn vec : Nat)
  | read (req : Req) (off value : Nat)
  /-- A member's notice to the root, in its 32 bytes (R409). -/
  | notice (dest : Nat) (b : Bytes)
  | verdict (v : Verdict)
  | collMsg (m : CollMsg)
  /-- A block of an exact sum as it goes to the rank that owns its elements: collective, block number, rank, bytes (R417). -/
  | lanes (id block dest : Nat) (b : Bytes)
  /-- Other data of a sum as it goes to a member: the maxima of the exact protocol, coded blocks of a partial or of a result (R413–R416). -/
  | sumData (id dest : Nat) (b : Bytes)
  | abortMsg (id epoch : Nat)
  /-- A drain to the buddy, messages of kind 7: the shards in order, then the colophon (R497). -/
  | volume (dest step : Nat) (shards : List Bytes) (colophon : Bytes)
  | drainAck (ctx rank step : Nat)
  | readResp (dest va : Nat) (data : Bytes) (poisoned : List Nat) (status seq : Nat)
  | writeAck (dest mseq status seq : Nat)
  | e2eNak (dest job mseq seq : Nat)
  | resend (dest job mseq : Nat) (route : List Nat)
  | tagCheck (dest seq : Nat)
  | tagAnswer (dest seq : Nat)
  | nak (port seq : Nat)
  /-- Flits that go out again, each as it is before its frame's encryption and as the lanes carry it (R440). -/
  | replay (port : Nat) (flits : List (Bytes × Bytes))
  /-- A message, or more of its flits, leaves by a port: the flits as the lanes carry them. -/
  | relay (port : Nat) (m : Message) (wire : List Bytes)
  /-- Training of a port, with the device's own statement of its address, where one is set, its axis sizes and the sizes of its receive
  buffers (R435, R444). -/
  | train (port : Nat) (address : Option Nat) (sizes buffers : List Nat)
  /-- A kind 9 flood: 0 a device's own failure, 1 takeover, 2 refusal, 3 ready. -/
  | flood (tag : Nat) (args : List Nat)
  /-- A member's report to the reserve: job, epoch, attempt counter (R516). -/
  | takeoverReport (reserve job epoch counter : Nat)
  | timeReply (port t1 t2 t3 : Nat)
  | pldm (iid : Nat) (a : Answer)
  | event (receiver : Option Nat) (e : MgmtEvent)
  | spdm (a : Answer) (data : Bytes)
  | sensor (iid id value : Nat) (a : Answer)
  | identity (a : Answer) (i : Identity) (cause : Option TripCause) (volts amps : Nat) (temp : Int) (count : Nat)
  | jtagOut (value : Nat)
  | retryStatus (port : Nat)
  /-- A configuration request answered by a device that is ready (R523, R641). -/
  | configAnswer (port : Nat)
  /-- An annex atomic's acknowledgement: its status, and the old cell where it returns one (R281, R282). -/
  | atomic (ctx : Nat) (st : Status) (old : Option Nat)
  /-- A tagged access to a peer device (R338): job, peer index, whether it writes, its virtual address there and length. -/
  | remote (job dest : Nat) (write : Bool) (va len : Nat)
  /-- A flit without a message (R437), before its frame's encryption and as the lanes carry it. -/
  | flit (port : Nat) (bytes wire : Bytes)
deriving DecidableEq, Repr

/-- The machine. -/
structure State where
  pins : Pins
  clock : Clock
  control : Control
  fw : Firmware
  regs : Regs
  host : HostIf
  fabric : Fabric
  mgmt : Mgmt
  journal : Journal                 -- on hub 0
  mirror : Journal                  -- its mirror on hub 1
  si : Silicon
  mem : Storage
  ctxs : Contexts
  hostMem : Mem
  free : Nat
  out : List Out
  pending : List Instr
deriving DecidableEq, Repr

/-- Why a step stops with a fault. -/
inductive Fault where
  /-- A patrol scrub, an error injection or a corrected error names an address outside HBM, which R287 calls reserved and never
  generated: raised by PATROL_SCRUB. Safe: the model stops. -/
  | reservedPhysical
deriving DecidableEq, Repr

/-- Why a step is refused. -/
inductive Refusal where
  /-- The command has no meaning in this model yet. Safe: the model stops. -/
  | notModelled (mnemonic : String)
  /-- A test port instruction other than those R639 names, while the unlock of R587 is in force: the manual does not say what it does.
  Raised by JTAG_INSTRUCTION. Safe: the model stops. -/
  | debugInstruction
deriving DecidableEq, Repr

/-! ### Reset -/

/-- The B1 image set: host interface 3.0 to 3.2 (R579), one component of each required kind (log 1). -/
def Image.factory : Image :=
  { magic := 0x52415A49, hversion := 1, version := 0, svn := 0, floor := 0, stepping := 0xB1, ifaceMin := 0x0300, ifaceMax := 0x0302,
    hwrite := 1, hreadMin := 1, length := 0x2000, reservedZero := true, keyIndex := 0, keyOk := true, sigOk := true, headerDigest := 0,
    components := [⟨1, 1, 0x1000, 4096, 0, 1, 1⟩, ⟨2, 2, 0x1000, 4096, 0, 2, 2⟩, ⟨3, 3, 0x1000, 4096, 0, 3, 3⟩,
                   ⟨4, 4, 0x1000, 4096, 0, 4, 4⟩] }

/-- Copy 0 of the boot control block as it leaves the factory (log 1): magic, seq 1, slot A committed, version 0, and the CRC-32 of these bytes. -/
def factoryCtl : Bytes := [0x49, 0x5A, 0x43, 0x4C, 1, 0, 0, 0] ++ List.replicate 20 0 ++ [0x5D, 0x68, 0x6B, 0xD9]

/-- The cores that have duties: the primaries and the clerks of R571. -/
def coreIds : List CoreId :=
  [.keeper, .conservator, .circulation] ++ (List.range 96).map CoreId.clerk
/-- Every core of R571, the standbys of hub 1 included. -/
def allCores : List CoreId := coreIds ++ [.keeper1, .conservator1, .circulation1]

/-- Power is good, MOD_RESET_N and both PERST_N are held low: the device before its release from reset (log 1). -/
def Pins.reset : Pins :=
  { pwrEn := true, presence := true, pwrGood := true, modReset := false, perst0 := false, perst1 := false, mgmtSel := false,
    clkMode := false, inputSwitch := true, aux := true, tripped := false, pwrEnLow := 0, tripCause := none, tripVolts := 0,
    tripAmps := 0, tripTemp := 0, tripCount := 0, jtag := .bypass, serviceLed := false }

def Clock.reset : Clock := ⟨0, false, 0, 0, .own, false, 0, 0, 0, 0⟩

def Control.reset : Control :=
  { cap := 7200, under := 0, drops := [], stretches := [], lastStretch := [], cool := [], climb := 0, flowSince := none, flowEvent := false }

def Firmware.reset : Firmware :=
  { stage := 0, check := 0, slot := 0, recovery := false, ctl0 := factoryCtl, ctl1 := List.replicate 32 0xFF, writing := none,
    config := ⟨0, 0, [], false⟩, slotA := some Image.factory, slotB := none, written := [], staged := false, stagedSlot := 1, floor := 0, revoked := [],
    attLog := [], attDigest := zeros 48, unlocked := false, cores := allCores.map fun i => ⟨i, false, 0, [], true, false, 0, []⟩, crashLog := [],
    quarantined := [], live := none, handSeq := 0, running := none, resident := [], pendingTrial := false, grants := [], locked := false }

def Regs.reset : Regs := ⟨[], 0, 0, false, 0, 0, 0, [], [], [], [], 0⟩

def HostIf.reset : HostIf :=
  { active := 0, up0 := false, up1 := false, out0 := 0, out1 := 0, twoHost := false, address := none, axes := [16, 16, 16, 16], partition := false,
    grace := 60, funs := [] }

def Fabric.reset : Fabric :=
  { ports := [], detours := [], detoursOld := [], detourGen := 0, mseq := [], waiting := [], delivered := [], lost := [], refused := [], certs := [],
    adopted := none, selfFailed := false, fabricKey := none, partners := [], points := [], buddies := [], queued := [], kept := [], floods := [] }

def Mgmt.reset : Mgmt := ⟨none, [], [], none, [], none⟩

def Silicon.reset : Silicon := ⟨[], [], [], [], [], [], [], [], [], [], [], [], [], [], [], [], [], [], [], []⟩

def Storage.reset : Storage := ⟨[], [], [], [], [], []⟩

/-- The machine right after reset is asserted: nothing runs until MOD_RESET_RELEASE and BOOT_COMPLETE. -/
def State.reset : State :=
  { pins := Pins.reset, clock := Clock.reset, control := Control.reset, fw := Firmware.reset, regs := Regs.reset,
    host := HostIf.reset, fabric := Fabric.reset, mgmt := Mgmt.reset, journal := ⟨0, []⟩, mirror := ⟨0, []⟩, si := Silicon.reset, mem := Storage.reset, ctxs := [],
    hostMem := [], free := 0, out := [], pending := [] }

end Sys2Proof.Machine
end

