-- ==== Sys2Proof/Machine/Ops.lean ====
section
/-! DEFINITION. Named operations over the state: tables, memory, translation, register pages and events, queues and completions, contexts, transcript. -/

namespace Sys2Proof.Machine

/-! ### Tables -/

def tget (t : Tab α) (k : Nat) : Option α :=
  match t with
  | [] => none
  | (k', v) :: r => if k' = k then some v else tget r k

/-- Sets a key, keeping keys strictly rising. -/
def tset (t : Tab α) (k : Nat) (v : α) : Tab α :=
  match t with
  | [] => [(k, v)]
  | (k', v') :: r => if k < k' then (k, v) :: (k', v') :: r else if k = k' then (k, v) :: r else (k', v') :: tset r k v

def tdel (t : Tab α) (k : Nat) : Tab α :=
  match t with
  | [] => []
  | (k', v') :: r => if k' = k then r else (k', v') :: tdel r k

def tgetD (t : Tab α) (k : Nat) (d : α) : α := (tget t k).getD d
/-- Sets a number, listing none that is 0. -/
def tset0 (t : Tab Nat) (k v : Nat) : Tab Nat := if v = 0 then tdel t k else tset t k v

/-- Adds to a rising list of numbers. -/
def insertN (l : List Nat) (k : Nat) : List Nat :=
  match l with
  | [] => [k]
  | x :: r => if k < x then k :: x :: r else if k = x then x :: r else x :: insertN r k

/-- Replaces the value at position `i`. -/
def setAt (l : List α) (i : Nat) (v : α) : List α := l.set i v

/-- The items of `l` that `f` finds something in, in order. -/
def collect (f : α → Option β) (l : List α) : List β := l.filterMap f

/-! ### Byte memories -/

/-- A byte; an unlisted address reads as 0 (R313, log 2). -/
def mget (m : Mem) (a : Nat) : Byte := tgetD m a 0
/-- Writes a byte, keeping the canonical form. -/
def mset (m : Mem) (a : Nat) (b : Byte) : Mem := if b = 0 then tdel m a else tset m a b
/-- Reads `n` bytes from `a`. -/
def mread (m : Mem) (a : Nat) : Nat → Bytes
  | 0 => []
  | n + 1 => mget m a :: mread m (a + 1) n
/-- Writes bytes from `a` upward. -/
def mwrite (m : Mem) (a : Nat) : Bytes → Mem
  | [] => m
  | b :: r => mwrite (mset m a b) (a + 1) r
/-- Makes the `n` bytes from `a` read as 0. -/
def mclear (m : Mem) (a n : Nat) : Mem := m.filter fun p => p.1 < a || a + n ≤ p.1

/-- The canonical form: addresses strictly rising, no listed 0. -/
def memOk : Mem → Bool
  | [] => true
  | (_, b) :: [] => b != 0
  | (a, b) :: (a', b') :: r => b != 0 && a < a' && memOk ((a', b') :: r)

abbrev Memory.wf (m : Mem) : Prop := memOk m = true

/-! ### The device physical map (R287) -/

def frameBytes : Nat := 65536
def stackBytes : Nat := 0xC00000000
def stackReserved : Nat := 0x10000000
def annexBase : Nat := 0x10000000000
def annexBytes : Nat := 0x80000000

/-- The stack an HBM address lies in. -/
def stackOf (pa : Nat) : Option Nat := if pa / stackBytes < 16 then some (pa / stackBytes) else none
/-- The annex die a pinned address lies in. -/
def annexOf (pa : Nat) : Option Nat :=
  if annexBase ≤ pa ∧ (pa - annexBase) / annexBytes < 4 then some ((pa - annexBase) / annexBytes) else none
/-- The frame lies in a stack's device-reserved range (its top 256 MiB). -/
def isReserved (pa : Nat) : Bool := match stackOf pa with | some _ => stackBytes - stackReserved ≤ pa % stackBytes | none => false
/-- Pseudo-channel of an HBM address (R288). -/
def channelOf (pa : Nat) : Nat := let o := pa % stackBytes; bitsOf o 14 9 ^^^ bitsOf o 20 15
/-- Home index of a cached line (R275). -/
def homeOf (pa : Nat) : Nat := bitsOf pa 13 6 ^^^ bitsOf pa 21 14

/-! ### Contexts -/

def getCtx (s : State) (c : Nat) : Option Ctx := tget s.ctxs c
def setCtx (s : State) (c : Nat) (x : Ctx) : State := { s with ctxs := tset s.ctxs c x }
def delCtx (s : State) (c : Nat) : State := { s with ctxs := tdel s.ctxs c }
def modCtx (s : State) (c : Nat) (f : Ctx → Ctx) : State :=
  match getCtx s c with
  | none => s
  | some x => setCtx s c (f x)

def ctxState (s : State) (c : Nat) : CtxSt := match getCtx s c with | some x => x.ident.st | none => .free
def Ctx.setSt (x : Ctx) (st : CtxSt) : Ctx := { x with ident := { x.ident with st := st } }
def Ctx.modAtt (x : Ctx) (f : Attempt → Attempt) : Ctx := { x with att := x.att.map f }
/-- The number of carrels in the grant (R333). -/
def Ctx.g (x : Ctx) : Nat := x.ident.grant.length
/-- Verbatim mode (R462, R468). -/
def Ctx.verbatim (x : Ctx) : Bool := x.pol.mode.verbatim
/-- A step of the patron is running (R322, R380). -/
def Ctx.stepRuns (x : Ctx) : Bool := x.att.isSome || x.run.isSome
/-- The edition in force: train-4/8 where no job record exists (R349). -/
def Ctx.edition (x : Ctx) : Nat := match x.pol.job with | some j => j.edition | none => 0

/-- The next free value: its number, and the state with the counter advanced (log 12). -/
def State.fresh (s : State) : Nat × State := (s.free, { s with free := s.free + 1 })
def State.emit (s : State) (o : Out) : State := { s with out := s.out ++ [o] }
/-- Device time never decreases; an event at `t` happens no earlier than now (R26). -/
def State.at (s : State) (t : Nat) : State :=
  { s with clock := { s.clock with now := max s.clock.now t, hold := if s.clock.now < t then 0 else s.clock.hold } }
def State.now (s : State) : Nat := s.clock.now
/-- The device runs: power is good, reset is released and boot is complete. -/
def State.running (s : State) : Bool := s.pins.pwrGood && s.pins.modReset && s.fw.stage == 7 && !s.fw.recovery
/-- The package is powered and out of reset. -/
def State.released (s : State) : Bool := s.pins.pwrGood && s.pins.modReset

/-! ### Register pages and events (R600–R612) -/

def pgPackage : Nat := 0
def pgCataloguer : Nat := 8
def pgRouting : Nat := 9
def pgColl (h : Nat) : Nat := 0x14 + h
def pgToken (h : Nat) : Nat := 0x18 + h
def pgAnnex (a : Nat) : Nat := 0x20 + a
def pgMem (k : Nat) : Nat := 0x24 + k
def pgPort (p : Nat) : Nat := 0x40 + p
def pgBay (b : Nat) : Nat := 0x100 + b
def pgCarrel (p : Nat) : Nat := 0x200 + p
def pgFun (f : Nat) : Nat := 0x800 + f
def pgCtx (c : Nat) : Nat := 0x1000 + c

/-- Class code and number of instances by first page (R604). -/
def pageClasses : List (Nat × Nat × Nat) :=
  [(0x000, 1, 0x01), (0x001, 6, 0x02), (0x008, 1, 0x03), (0x009, 1, 0x04), (0x00A, 2, 0x05), (0x010, 4, 0x06), (0x014, 4, 0x07),
   (0x018, 4, 0x08), (0x01C, 2, 0x09), (0x020, 4, 0x0A), (0x024, 16, 0x0B), (0x040, 64, 0x0C), (0x080, 24, 0x0D), (0x100, 96, 0x0E),
   (0x200, 1248, 0x0F), (0x800, 256, 0x10), (0x1000, 4096, 0x11)]

/-- Class and instance of a page; none for a page R604 does not list. -/
def pageClass (p : Nat) : Option (Nat × Nat) :=
  match pageClasses.find? (fun e => e.1 ≤ p && p < e.1 + e.2.1) with
  | some e => some (e.2.2, p - e.1)
  | none => none

/-- A spare carrel that serves no logical carrel is power-gated (R615): physical carrel 13 i + 12 unless its bay uses it. -/
def pageAsleep (s : State) (p : Nat) : Bool :=
  match pageClass p with
  | some (0x0F, n) => n % 13 == 12 && !(s.si.spareUsed.any fun u => u.1 == n / 13)
  | _ => false

/-- A page; one that nothing has written holds its class's reset values and the last snapshot's generation. -/
def getPage (s : State) (p : Nat) : Page :=
  match tget s.regs.pages p with
  | some g => g
  | none =>
    if s.regs.latchedGen = 0 ∨ pageAsleep s p then Page.reset
    else { Page.reset with snapGen := s.regs.latchedGen % 2 ^ 32, intStatus := 2 ^ 30 }

def setPage (s : State) (p : Nat) (g : Page) : State := { s with regs := { s.regs with pages := tset s.regs.pages p g } }

/-- The function an event of a page goes to (R606). -/
def pageOwner (s : State) (p : Nat) : Nat :=
  match pageClass p with
  | some (0x10, n) => n
  | some (0x11, n) => match getCtx s n with | some x => x.ident.fn | none => 0
  | _ => 0

/-- The function has been reset and not set up again: no MSI-X message leaves for it (R559; log 152). -/
def muted (s : State) (fn : Nat) : Bool := match tget s.host.funs fn with | some f => f.mute | none => false

/-- A page's counter counts this source for this context (R608). -/
def selCounts (isCtx : Bool) (sel source : Nat) (ctx : Option Nat) : Bool :=
  bitOf sel 31 && bitsOf sel 11 0 == source && source != 0
  && (isCtx || !bitOf sel 30 || (match ctx with | some c => c == bitsOf sel 27 16 | none => false))

def addCounts (isCtx : Bool) (source n : Nat) (ctx : Option Nat) : List Nat → List Nat → List Nat
  | sel :: ss, c :: cs =>
    (if selCounts isCtx sel source ctx then (c + n) % 2 ^ 64 else c) :: addCounts isCtx source n ctx ss cs
  | _, cs => cs

/-- Counts `n` events of a source on a page (R608, R612): the registers alone change. -/
def countEv (s : State) (p source n : Nat) (ctx : Option Nat := none) : State :=
  let g := getPage s p
  { s with regs :=
      if g.freeze || n == 0 || !(g.sel.any fun x => bitOf x 31 && bitsOf x 11 0 == source) then s.regs
      else (setPage s p { g with cnt := addCounts (0x1000 ≤ p) source n ctx g.sel g.cnt }).regs }

/-- Bits of a 32-bit word that are 1. -/
def bitsSet (v : Nat) : Nat := ((List.range 32).filter (bitOf v)).length

/-- Sets INT_STATUS bits of a page; each that becomes 1 while enabled raises one event on vector 0 (R606). -/
def raiseInt (s : State) (p bits : Nat) : State :=
  let g := getPage s p
  let fresh := bits &&& (2 ^ 32 - 1 - (g.intStatus &&& bits)) &&& bits
  if fresh == 0 then s else
  let s1 := countEv (setPage s p { g with intStatus := g.intStatus ||| fresh }) p 0x003 (bitsSet fresh)
  { s1 with out := s1.out ++ List.replicate (if g.intEn && !muted s (pageOwner s p) then bitsSet (fresh &&& g.intEnable) else 0) (.msix (pageOwner s p) 0) }

/-- Logs an error on a page: the first keeps its code, address and syndrome (R606, R607). -/
def logError (s : State) (p code addr syn : Nat) : State :=
  let g := getPage s p
  let g1 := { g with errCount := min 0xFFFF (g.errCount + 1) }
  let g2 := if g.errValid then g1 else { g1 with errCode := code, errValid := true, errAddr := addr, errSyn := syn }
  let s1 := countEv (setPage s p g2) p 0x004 1
  if g.errValid then s1 else raiseInt s1 p (2 ^ 31)

/-- A device event, reported to the physical function in its page (R617). -/
def devEvent (s : State) (bit : Nat) : State := raiseInt s (pgFun 0) (2 ^ bit)

/-! ### Places behind a virtual address (R270, R292–R298) -/

/-- Where a byte of a tensor lives. -/
inductive Place where
  | phys (pa : Nat)
  | host (addr : Nat)
  | peer (idx va : Nat)
  | store (idx off : Nat)
deriving DecidableEq, Repr

/-- A page-table entry (R293): a leaf's frame or the next table's address in `target`. -/
structure PEntry where
  v : Bool
  loc : Nat
  size : Nat
  w : Bool
  reserved : Nat
  target : Nat
  peer : Nat
deriving DecidableEq, Repr, Inhabited

def PEntry.zero : PEntry := ⟨false, 0, 0, false, 0, 0, 0⟩

/-- The 64 bits of an entry: a pointer holds bits [15:8] of the table's address in `low`, a leaf bits [15:8] of the peer index. -/
def PEntry.toWord (e : PEntry) : Nat :=
  b2n e.v * 2 ^ 63 + e.loc % 4 * 2 ^ 61 + e.size % 4 * 2 ^ 59 + b2n e.w * 2 ^ 58 + e.reserved % 64 * 2 ^ 52 + e.target / 2 ^ 16 % 2 ^ 36 * 2 ^ 16
  + (if e.size = 3 then e.target / 256 % 256 * 256 else e.peer % 2 ^ 16)

def PEntry.ofWord (n : Nat) : PEntry :=
  { v := bitOf n 63, loc := bitsOf n 62 61, size := bitsOf n 60 59, w := bitOf n 58, reserved := bitsOf n 57 52,
    target := bitsOf n 51 16 * 2 ^ 16 + (if bitsOf n 60 59 = 3 then bitsOf n 15 8 * 256 else 0),
    peer := if bitsOf n 60 59 = 3 then 0 else bitsOf n 15 0 }

/-- Bytes of the page a leaf of this size code maps: 64 KiB, 2 MiB, 1 GiB. -/
def pageBytes (size : Nat) : Nat := match size with | 0 => 0x10000 | 1 => 0x200000 | _ => 0x40000000

/-- Bits of the address below a level's index (R292). -/
def levelShift (level : Nat) : Nat := match level with | 0 => 16 | 1 => 21 | 2 => 30 | _ => 39

/-- A malformed entry: a frame off its page size, a size its level does not allow, or a leaf at level 3 (R293). Level n holds leaves of
size code n alone. -/
def malformed (level : Nat) (e : PEntry) : Bool :=
  e.reserved != 0 || (if e.size = 3 then level == 0 || e.w || e.loc != 0 else e.size != level || e.target % pageBytes e.size != 0)

/-- Where what lay at an address of device-reserved memory lies after the migrations of frames there, in their order (R309). -/
def movedTo (l : List (Nat × Nat)) (a : Nat) : Nat :=
  l.foldl (fun a m => if a / frameBytes * frameBytes = m.1 then m.2 + a % frameBytes else a) a

/-- Where the table of a level that covers an address lies: device-reserved memory of a stack (R292, R295). -/
def tableAddr (x : Ctx) (level va : Nat) : Nat :=
  let place := (Config.tableAt x.root level (va / 2 ^ levelShift (level + 1))).toNat
  movedTo x.tableMoves (if level = 3 then x.root else x.root / stackBytes * stackBytes + (stackBytes - stackReserved) + place * 256)

/-- A context's level 3 table, at a place of its own in some stack's device-reserved range. -/
def rootAddr (n : Nat) : Nat :=
  let place := (Config.rootAt n).toNat
  place / 2 ^ 20 % 16 * stackBytes + (stackBytes - stackReserved) + place % 2 ^ 20 * 256

/-- The leaf that maps a page: its own record, as the entry of the page its size code names. -/
def leafEntry (l : Leaf) (page : Nat) : PEntry :=
  { v := true, loc := l.loc, size := l.size, w := l.w, reserved := 0,
    target := l.frame - page % (pageBytes l.size / frameBytes) * frameBytes, peer := if l.loc = 3 then l.peer else 0 }

/-- The entry for an address in its table of a level, as the device has built it from the context's leaves (R295). -/
def tableEntry (x : Ctx) (level va : Nat) : PEntry :=
  let pointer : PEntry := { v := true, loc := 0, size := 3, w := false, reserved := 0, target := tableAddr x (level - 1) va, peer := 0 }
  match tget x.maps (va / frameBytes) with
  | some l => if l.size = level then leafEntry l (va / frameBytes) else if l.size < level then pointer else PEntry.zero
  | none => if level ≠ 0 ∧ x.maps.any (fun m => m.1 * frameBytes / 2 ^ levelShift level == va / 2 ^ levelShift level) then pointer else PEntry.zero

/-- Bytes of a table of a level (R292). -/
def tableBytes (level : Nat) : Nat := if level = 0 then 256 else 4096
/-- Addresses that the tables of a context's mappings cover: level, table, first virtual address. -/
def tablesOf (x : Ctx) : List (Nat × Nat × Nat) :=
  (3, tableAddr x 3 0, 0) :: (List.range 3).flatMap fun k =>
    x.maps.map fun m => (k, tableAddr x k (m.1 * frameBytes), m.1 * frameBytes / 2 ^ levelShift (k + 1) * 2 ^ levelShift (k + 1))

/-- The byte of a page table that lies at an address of device-reserved memory (R293, R295). -/
def tableByte (x : Ctx) (pa : Nat) : Option Byte :=
  ((tablesOf x).find? fun t => t.2.1 ≤ pa && pa < t.2.1 + tableBytes t.1).map fun t =>
    (leBytes 8 (tableEntry x t.1 (t.2.2 + (pa - t.2.1) / 8 * 2 ^ levelShift t.1)).toWord).getD ((pa - t.2.1) % 8) 0

/-- The walk from a level down to the leaf of an address (R292); none where an entry is invalid or malformed. -/
def walk (x : Ctx) (va : Nat) : Nat → Option PEntry
  | 0 =>
    let e := tableEntry x 0 va
    if !e.v || malformed 0 e then none else some e
  | n + 1 =>
    let e := tableEntry x (n + 1) va
    if !e.v || malformed (n + 1) e then none else if e.size = 3 then walk x va n else some e

/-- Where host memory keeps what a bus address names in a request that carries a function's PASID (R522, R528): each function and PASID has
its own space of 64-bit addresses, after the one of requests that carry none (log 151). -/
def hostKey (fn pasid a : Nat) : Nat := 2 ^ 64 * (1 + 2 ^ 20 * fn + pasid) + a
/-- The key of an access under a context's current PASID. -/
def Ctx.hostAt (x : Ctx) (a : Nat) : Nat := hostKey x.ident.fn x.ident.pasid a

/-- The place a leaf gives an address (R294). -/
def leafPlace (x : Ctx) (e : PEntry) (va : Nat) : Place :=
  let a := e.target + va % pageBytes e.size
  if e.loc = 0 ∨ e.loc = 1 then .phys a else if e.loc = 2 then .host (x.hostAt a) else .peer e.peer a

/-- Translation of a virtual address by a walk of four levels from the context's root; none is EACCESS: an invalid or malformed entry, or
a write to a leaf with w = 0, or a peer that refuses the access (R292, R298, R338; log 9). -/
def translate (x : Ctx) (va : Nat) (write : Bool) : Option Place :=
  match walk x va 3 with
  | none => none
  | some e =>
    if (write && !e.w) || (e.loc == 3 && Config.peerRefuses e.peer (va / frameBytes) x.gate.attempt) then none else some (leafPlace x e va)

/-- A byte of a place. -/
def peek (s : State) (x : Ctx) : Place → Byte
  | .phys pa => mget s.mem.bytes pa
  | .host a => mget s.hostMem a
  | .peer i va => mget (tgetD x.peerMem i []) va
  | .store i o => match tget x.cat.scratch i with | some t => mget t.bytes o | none => 0

/-- The byte lies in a poisoned atom or line (R303, R274). -/
def poisonedAt (s : State) (x : Ctx) : Place → Bool
  | .phys pa => s.mem.poison.contains (pa / 64)
  | .store i o => match tget x.cat.scratch i with | some t => t.poison.contains (o / 64) | none => false
  | .peer i va => (tgetD x.peerPoison i []).contains (va / 64)
  | .host _ => false

/-- Writes a byte of a place in context `c`. -/
def poke (s : State) (c : Nat) (p : Place) (b : Byte) : State :=
  match p with
  | .phys pa => { s with mem := { s.mem with bytes := mset s.mem.bytes pa b } }
  | .host a => { s with hostMem := mset s.hostMem a b }
  | .peer i va => modCtx s c fun x => { x with peerMem := tset x.peerMem i (mset (tgetD x.peerMem i []) va b) }
  | .store i o => modCtx s c fun x =>
      match tget x.cat.scratch i with
      | some t => { x with cat := { x.cat with scratch := tset x.cat.scratch i { t with bytes := mset t.bytes o b } } }
      | none => x

/-- Marks or clears the poison of the atom or line a place lies in. -/
def setPoison (s : State) (c : Nat) (p : Place) (on : Bool) : State :=
  let upd (l : List Nat) (k : Nat) : List Nat := if on then insertN l k else l.filter (· != k)
  match p with
  | .phys pa => { s with mem := { s.mem with poison := upd s.mem.poison (pa / 64) } }
  | .store i o => modCtx s c fun x =>
      match tget x.cat.scratch i with
      | some t => { x with cat := { x.cat with scratch := tset x.cat.scratch i { t with poison := upd t.poison (o / 64) } } }
      | none => x
  | .peer i va => modCtx s c fun x => { x with peerPoison := tset x.peerPoison i (upd (tgetD x.peerPoison i []) (va / 64)) }
  | .host _ => s

/-! ### Host memory through a context's mappings (R536) -/

/-- Every page of the `n` bytes from `va` is mapped, and writable where `write`. -/
def mappedPages (x : Ctx) (page : Nat) (write : Bool) : Nat → Bool
  | 0 => true
  | n + 1 => (match tget x.maps page with | some l => !write || l.w | none => false) && mappedPages x (page + 1) write n

/-- A buffer of `n` bytes at `va` lies wholly in the context's mappings (R536). -/
def bufferOk (x : Ctx) (va n : Nat) (write : Bool) : Bool :=
  n == 0 || mappedPages x (va / frameBytes) write ((va + n - 1) / frameBytes + 1 - va / frameBytes)

/-- Reads `n` bytes at `va`; unmapped bytes read as 0 (the caller has checked the buffer). -/
def readVa (s : State) (x : Ctx) (va : Nat) : Nat → Bytes
  | 0 => []
  | n + 1 =>
    (match translate x va false with | some p => peek s x p | none => 0) :: readVa s x (va + 1) n

/-- Some byte of the `n` bytes at `va` is poisoned: the offset of the first. -/
def poisonVa (s : State) (x : Ctx) (va off : Nat) : Nat → Option Nat
  | 0 => none
  | n + 1 =>
    match translate x va false with
    | some p => if poisonedAt s x p then some off else poisonVa s x (va + 1) (off + 1) n
    | none => poisonVa s x (va + 1) (off + 1) n

/-- Writes bytes at `va` of context `c`, one after the other. -/
def writeBytesVa (s : State) (c va : Nat) : Bytes → State
  | [] => s
  | b :: r =>
    match getCtx s c with
    | none => s
    | some x =>
      match translate x va true with
      | some p => writeBytesVa (poke s c p b) c (va + 1) r
      | none => writeBytesVa s c (va + 1) r

/-- Bytes of a shard run. -/
def shardBytes : Nat := 0x200000

/-- A write that overwrites a whole poisoned atom clears its poison (R306). -/
def clearAtoms (s : State) (c va n : Nat) : State :=
  match getCtx s c with
  | none => s
  | some x =>
    (List.range (n / 64)).foldl (fun s k =>
      let a := (va + 63) / 64 * 64 + 64 * k
      if va + n < a + 64 then s else
      match translate x a true with
      | some p => setPoison s c p false
      | none => s) s

/-! ### The circulation journal (R572) -/

/-- Entries that the 4 MiB of protected SRAM hold, at 64 bytes each (log 155). -/
def journalSlots : Nat := 65536

/-- One write of the journal: the entry and the next sequence word. -/
def Journal.push (j : Journal) (e : Journalled) : Journal :=
  let l := j.entries ++ [e]
  { seq := (j.seq + 1) % 2 ^ 64, entries := l.drop (l.length - journalSlots) }

/-- A journal write: it is mirrored on hub 1 before it counts as made. -/
def journalWrite (s : State) (e : Journalled) : State :=
  let j := s.journal.push e
  { { s with mirror := j } with journal := j }

/-! ### Queues and completions (R529–R534) -/

/-- The queue a submission names. -/
def getQueue (s : State) : QRef → Option Queue
  | .admin fn => match tget s.host.funs fn with | some f => if f.en then some f.adm else none | none => none
  | .ctx c q => match getCtx s c with | some x => x.queues[q]? | none => none

def setQueue (s : State) (q : QRef) (v : Queue) : State :=
  match q with
  | .admin fn =>
    match tget s.host.funs fn with
    | some f => { s with host := { s.host with funs := tset s.host.funs fn { f with adm := v } } }
    | none => s
  | .ctx c q => modCtx s c fun x => { x with queues := x.queues.set q v }

def queueNum : QRef → Nat | .admin _ => 0 | .ctx _ q => q
/-- The function that owns a queue. -/
def queueFn (s : State) : QRef → Nat
  | .admin fn => fn
  | .ctx c _ => match getCtx s c with | some x => x.ident.fn | none => 0

/-- A ring address in host memory: a context's queues carry its PASID, an admin queue carries none (R528). -/
def ringAt (s : State) (q : QRef) (a : Nat) : Nat :=
  match q with
  | .admin _ => a
  | .ctx c _ => match getCtx s c with | some x => x.hostAt a | none => a
/-- The vector of a completion ring: 0 for an admin queue's (R526). -/
def ringVector (q : QRef) (v : Queue) : Nat := match q with | .admin _ => 0 | .ctx _ _ => v.vector

/-- Writes one completion entry into a freed slot of the ring, then its MSI-X message (R532, R534). -/
def putEntry (s : State) (q : QRef) (v : Queue) (e : Compl) : State :=
  let s0 := journalWrite s (.written q v.cqTail (e.toBytes v.phase))
  let s1 := { s0 with hostMem := mwrite s.hostMem (ringAt s q (v.cq + 16 * v.cqTail)) (e.toBytes v.phase) }
  let wrap := v.cqTail + 1 == v.cqn
  let s2 := setQueue s1 q { v with cqTail := if wrap then 0 else v.cqTail + 1, phase := if wrap then !v.phase else v.phase,
                                   used := v.used + 1 }
  if v.irq then s2.emit (.msix (queueFn s q) (ringVector q v)) else s2

/-- Of the progress entries held for one command only the newest is kept (R533). -/
def holdEntry (l : List Compl) (e : Compl) : List Compl :=
  (if e.progress then l.filter fun h => !(h.progress && h.cid == e.cid) else l) ++ [e]

/-- Writes an entry, or holds it while the ring is full (R533). -/
def postEntry (s : State) (q : QRef) (e : Compl) : State :=
  match getQueue s q with
  | none => s
  | some v => if v.used < v.cqn && v.held.isEmpty then putEntry s q v e else setQueue s q { v with held := holdEntry v.held e }

/-- Writes held entries into freed slots. -/
def drainHeld (q : QRef) : Nat → State → State
  | 0, s => s
  | n + 1, s =>
    match getQueue s q with
    | none => s
    | some v =>
      match v.held with
      | [] => s
      | e :: r => if v.used < v.cqn then drainHeld q n (putEntry (setQueue s q { v with held := r }) q { v with held := r } e) else s

def cmdsOf (s : State) : QRef → List Cmd
  | .admin fn => match tget s.host.funs fn with | some f => f.cmds | none => []
  | .ctx c _ => match getCtx s c with | some x => x.cmds | none => []

def setCmds (s : State) (q : QRef) (l : List Cmd) : State :=
  match q with
  | .admin fn =>
    match tget s.host.funs fn with
    | some f => { s with host := { s.host with funs := tset s.host.funs fn { f with cmds := l } } }
    | none => s
  | .ctx c _ => modCtx s c fun x => { x with cmds := l }

def Cmd.is (k : Cmd) (q : QRef) (cid : Nat) : Bool := k.q == q && k.cid == cid

def dropFirst (p : Cmd → Bool) : List Cmd → List Cmd
  | [] => []
  | k :: r => if p k then r else k :: dropFirst p r

/-- Completes a command: its final entry is written or held, and it leaves the commands in flight (R534). -/
def completeOne (s : State) (q : QRef) (cid : Nat) (st : Status) (result : Nat) : State :=
  let head := match getQueue s q with | some v => v.head | none => 0
  let s1 := setCmds s q (dropFirst (·.is q cid) (cmdsOf s q))
  let s2 := postEntry s1 q { cid := cid, status := st, progress := false, queue := queueNum q, sqhead := head, result := result }
  countEv s2 (pgFun (queueFn s q)) 0x101 1

/-- The opcode of FENCE (R539). -/
def opFence : Nat := 0x10

/-- A started FENCE of a queue whose earlier commands are all gone (R553). -/
def readyFence (q : QRef) (seen : Bool) : List Cmd → Option Cmd
  | [] => none
  | k :: r =>
    if k.q == q then
      if k.opcode == opFence && k.started && !seen then some k else readyFence q true r
    else readyFence q seen r

/-- Completes waiting FENCEs of a queue in order. -/
def releaseFences (q : QRef) : Nat → State → State
  | 0, s => s
  | n + 1, s =>
    match readyFence q false (cmdsOf s q) with
    | none => s
    | some k => releaseFences q n (completeOne s q k.cid .success 0)

/-- Completes a command, and every FENCE that waited on it (R534, R553). -/
def complete (s : State) (q : QRef) (cid : Nat) (st : Status) (result : Nat) : State :=
  let s1 := completeOne s q cid st result
  releaseFences q (cmdsOf s1 q).length s1

/-- Records a command as started: it completes later, and a sliced one takes effect then. -/
def startCmd (s : State) (sub : Sub) (opcode : Nat) (body : Bytes) (work : Option Sliced := none) : State :=
  let s := journalWrite s (.started sub.q sub.cid opcode)
  let k : Cmd := { q := sub.q, cid := sub.cid, prog := sub.prog, opcode := opcode, body := body, started := true, units := 0,
                   lastProgress := s.now, work := work }
  setCmds s sub.q (cmdsOf s sub.q ++ [k])

/-! ### The transcript (R477–R482) -/

/-- The 48-byte header and body of a record (R478). -/
def recBytes (r : TRec) (step attempt seq time : Nat) (chain : Bytes) : Bytes :=
  leBytes 2 (48 + r.body.length) ++ leBytes 1 r.type ++ leBytes 1 (b2n r.isLocal) ++ leBytes 6 step ++ leBytes 6 (attempt % 2 ^ 48)
  ++ leBytes 8 seq ++ leBytes 8 time ++ chain ++ r.body

/-- Forms and stages a record that carries step number `step`; a global record advances the job chain (R480). With ring 0 it is then discarded (R482). -/
def addRecAt (s : State) (c step : Nat) (r : TRec) : State :=
  modCtx s c fun x =>
    let t := x.tr
    let chain := if r.isLocal then t.chain
      else (sha384 (t.chain ++ recBytes r step 0 0 0 (zeros 16))).take 16
    let b := recBytes r step x.gate.attempt t.seq s.now chain
    let comparable := !r.isLocal || r.type == 2
    { x with tr := { t with staging := if x.pol.mode.ring = 0 then t.staging else t.staging ++ [b], chain := chain, seq := t.seq + 1,
                            attemptRecs := if comparable && x.att.isSome then t.attemptRecs ++ [(t.seq, b)] else t.attemptRecs } }

/-- A record that carries the step number as it stands (R478). -/
def addRec (s : State) (c : Nat) (r : TRec) : State :=
  match getCtx s c with
  | none => s
  | some x => addRecAt s c x.gate.step r

/-- The record of an accepted host command (R477, R479). -/
def cmdRec (s : State) (c opcode : Nat) (sub : Sub) (body : Bytes) : State :=
  addRec s c ⟨1, true, descriptor opcode sub.prog sub.cid body ++ zeros 16⟩

/-- A SET_POLICY record written (R479 type 0x06): the next admission sizes the second-copy region anew (R492). -/
def policyRec (s : State) (c sel idx : Nat) (record : Bytes) : State :=
  addRec (modCtx s c fun x => { x with vols := { x.vols with resize := true } }) c ⟨6, true, leBytes 2 sel ++ leBytes 2 idx ++ zeros 4 ++ sha384 record ++ zeros 8⟩

/-- An event record (R479 type 0x07). -/
def eventRec (s : State) (c code addr : Nat) : State :=
  addRec s c ⟨7, true, leBytes 2 code ++ zeros 6 ++ leBytes 8 addr⟩

/-- Bytes staged and not yet in the ring (R481). -/
def stagedBytes (x : Ctx) : Nat := (x.tr.staging.map List.length).sum

/-! ### Frames (R308–R313, R331) -/

def frameOwner (s : State) (f : Nat) : Option Nat := tget s.mem.owner f
/-- A patron frame of an HBM stack that nothing holds. -/
def frameFree (s : State) (f : Nat) : Bool :=
  (frameOwner s f).isNone && !isReserved f && !s.si.retired.contains f && !s.si.scrubbing.contains f && !s.si.devFrames.contains f

/-- Frames per stack open to patrons. -/
def stackFrames : Nat := (stackBytes - stackReserved) / frameBytes

/-- Frames of stack `k` that are held, retired or being scrubbed. -/
def stackBusy (s : State) (k : Nat) : Nat :=
  (s.mem.owner.filter fun p => stackOf p.1 == some k).length
  + ((s.si.retired ++ s.si.scrubbing.filter fun f => !s.si.retired.contains f).filter fun f => stackOf f == some k && !isReserved f).length
def stackFreeCount (s : State) (k : Nat) : Nat := stackFrames - stackBusy s k

/-- The stack with the most free frames, the lowest among equals (R331). -/
def freestStack (s : State) : Nat :=
  (List.range 16).foldl (fun b k => if stackFreeCount s b < stackFreeCount s k then k else b) 0

/-- The `n` lowest free frames of a run of frames; `gas` frames are looked at. -/
def takeFrames (ok : Nat → Bool) : Nat → Nat → Nat → Option (List Nat)
  | 0, _, 0 => some []
  | 0, _, _ + 1 => none
  | _ + 1, _, 0 => some []
  | gas + 1, f, n + 1 =>
    if ok f then (takeFrames ok gas (f + frameBytes) n).map (f :: ·) else takeFrames ok gas (f + frameBytes) (n + 1)

/-- `n` free patron frames of stack `k`, lowest first; none where the stack has fewer. -/
def framesOf (s : State) (k n : Nat) : Option (List Nat) :=
  if stackFreeCount s k < n then none else
  takeFrames (frameFree s) (stackBusy s k + s.mem.owner.length + n) (k * stackBytes) n

/-- Gives frames to a context, written as zeros (R313). -/
def grantFrames (s : State) (c : Nat) (l : List Nat) : State :=
  { s with mem := l.foldl (fun m f => { m with owner := tset m.owner f c, bytes := mclear m.bytes f frameBytes,
                                               poison := m.poison.filter fun a => a < f / 64 || f / 64 + 1024 ≤ a,
                                               cellState := m.cellState.filter fun p => p.1 < f || f + frameBytes ≤ p.1,
                                               lines := m.lines.filter fun l => l.line < f / 64 || f / 64 + 1024 ≤ l.line,
                                               pins := tdel m.pins f }) s.mem }

/-- Takes frames from their owner: overwritten under the device key, then free (R313). -/
def freeFrames (s : State) (l : List Nat) : State :=
  { s with mem := l.foldl (fun m f => { m with owner := tdel m.owner f, bytes := mclear m.bytes f frameBytes,
                                               poison := m.poison.filter fun a => a < f / 64 || f / 64 + 1024 ≤ a,
                                               cellState := m.cellState.filter fun p => p.1 < f || f + frameBytes ≤ p.1,
                                               lines := m.lines.filter fun l => l.line < f / 64 || f / 64 + 1024 ≤ l.line,
                                               pins := tdel m.pins f }) s.mem }

/-! ### Carrels, bays and grants (R14–R18, R332, R566–R568) -/

def bayOfCarrel (l : Nat) : Nat := l / 12
/-- The physical carrel a logical carrel is served by (R14, R15): the bay's spare where it replaces that slot. -/
def physOf (s : State) (l : Nat) : Nat :=
  let bay := l / 12; let slot := l % 12
  if s.si.spareUsed.any (fun u => u.1 == bay && u.2 == slot) then 13 * bay + 12 else 13 * bay + slot

/-- A logical carrel can be granted: neither withdrawn nor in a failed or quarantined bay (R17, R18, R598). -/
def carrelIn (s : State) (l : Nat) : Bool :=
  !s.si.withdrawn.contains l && !s.si.bayFailed.contains (l / 12) && !s.fw.quarantined.contains (l / 12)

/-- The carrel would be in, were its bay not quarantined: it returns when the bay does (R598). -/
def onlyQuarantined (s : State) (l : Nat) : Bool :=
  s.fw.quarantined.contains (l / 12) && !s.si.withdrawn.contains l && !s.si.bayFailed.contains (l / 12)

/-- The logical carrels that may be granted. -/
def enabledCarrels (s : State) : List Nat := (List.range 1152).filter (carrelIn s)

/-- A grant of `n` carrels avoiding `taken`: which ones is the device's choice; the lowest (log 7). -/
def chooseGrant (s : State) (taken : List Nat) (n : Nat) : Option (List Nat) :=
  let l := ((enabledCarrels s).filter fun k => !taken.contains k).take n
  if l.length = n then some l else none

/-- Carrels of all other contexts' grants. -/
def grantsOf (s : State) (c : Nat) : List Nat :=
  (s.ctxs.filter fun p => p.1 != c).flatMap fun p => p.2.ident.grant

/-! ### Firmware cores and clock rungs (R571, R595–R597) -/

/-- The standby of a core on hub 1 (R571, R574); a clerk has none. -/
def standbyOf : CoreId → CoreId
  | .keeper => .keeper1
  | .conservator => .conservator1
  | .circulation => .circulation1
  | i => i
/-- The core whose duties a core has or may take over. -/
def primaryOf : CoreId → CoreId
  | .keeper1 => .keeper
  | .conservator1 => .conservator
  | .circulation1 => .circulation
  | i => i

/-- The core that does a core's duties: its standby, once that has taken them over (R574). -/
def dutyOf (s : State) (i : CoreId) : CoreId := if s.fw.cores.any (fun k => k.id == i && k.takenOver) then standbyOf i else i

/-- This very core runs. -/
def coreRunsUp (s : State) (i : CoreId) : Bool := s.fw.cores.any fun k => k.id == i && k.up

/-- The core that does these duties has not crashed. -/
def coreAlive (s : State) (i : CoreId) : Bool := coreRunsUp s (dutyOf s i)

/-- The hub that has the flash interface and the management endpoint: the keeper's (R574). -/
def keeperHub (s : State) : Nat := if dutyOf s .keeper = .keeper then 0 else 1

/-- The core runs: it has not crashed, and has not written its record in a live update that goes on, which stops it (R590, R592). -/
def coreUp (s : State) (i : CoreId) : Bool :=
  coreAlive s i && !(match s.fw.live with | some l => l.accepted.contains i | none => false)

/-- Changes the meter of every running attempt (R474). -/
def meterAll (s : State) (f : Meter → Meter) : State :=
  { s with ctxs := s.ctxs.map fun p => (p.1, p.2.modAtt fun a => { a with meter := f a.meter }) }

/-- The clock set of the metered attempt that runs, if one does (R469, R470). -/
def meteredSet (s : State) : Option Nat :=
  (s.ctxs.find? fun p => match p.2.att with | some a => a.meteredOn | none => false).map fun p => p.2.pol.mode.clocks

/-- The rung an island is set to: that of its nominal clock, or of the reduced set (R22, R470, R595). -/
def setRung (s : State) (i : Island) : Nat :=
  let reduced := meteredSet s == some 1
  match i with
  | .carrel _ => if reduced then 12 else 18
  | .bay _ => if reduced then 12 else 18
  | .router _ => if reduced then 16 else 24
  | .annex _ => if reduced then 16 else 24
  | .hub _ => if reduced then 12 else 24
  | .memctl _ => 0

def safeRung : Nat := 8

def dropOf (k : Control) (i : Island) : Drop := (k.drops.find? (·.island == i)).getD ⟨i, 0, 0, 0⟩

/-- The rung of an adjustable island: the safe rung while the conservator is down; else its set rung, as far as it has climbed, less what
the loops have taken. -/
def islandRung (s : State) (i : Island) : Nat :=
  let d := dropOf s.control i
  if coreAlive s .conservator then min (setRung s i) (safeRung + s.control.climb) - (d.droop + d.cap + d.heat) else safeRung

end Sys2Proof.Machine
end

