-- ==== Sys2Proof/Machine/Flags.lean ====
section
/-! DEFINITION. The sticky flag words of a patron (R63–R71, R655, R267). -/

namespace Sys2Proof.Machine

def orWord (t : Tab Nat) (k w : Nat) : Tab Nat := tset0 t k (tgetD t k 0 ||| w)

/-- Raises flags in the word of a logical carrel (R65). -/
def FlagWords.raiseCarrel (f : FlagWords) (l : Nat) (g : Flags) : FlagWords :=
  if g.toWord = 0 then f else { f with carrel := orWord f.carrel l g.toWord, newCarrel := orWord f.newCarrel l g.toWord }

/-- Raises flags in the word of a bay vector unit (R267, R655). -/
def FlagWords.raiseVu (f : FlagWords) (bay : Nat) (g : Flags) : FlagWords :=
  if g.toWord = 0 then f else { f with bayVu := orWord f.bayVu bay g.toWord, newVu := orWord f.newVu bay g.toWord }

/-- Flags reach the aggregates at each slice end and each step boundary (R66). -/
def FlagWords.flush (f : FlagWords) : FlagWords :=
  let agg1 := f.newCarrel.foldl (fun a p => orWord a (p.1 / 12) p.2) f.bayAgg
  let agg2 := f.newVu.foldl (fun a p => orWord a p.1 p.2) agg1
  { f with bayAgg := agg2, devAgg := (f.newCarrel ++ f.newVu ++ f.newDev).foldl (fun a p => a ||| p.2) f.devAgg,
           newCarrel := [], newVu := [], newDev := [] }

/-- The flags of one carrel, and of its bay's vector unit, that have not reached the aggregates reach them: its slice ends (R66, R267). -/
def FlagWords.flushCarrel (f : FlagWords) (l : Nat) : FlagWords :=
  let b := l / 12
  let w := tgetD f.newCarrel l 0 ||| tgetD f.newVu b 0
  let d := tgetD f.newDev l 0 ||| tgetD f.newDev (1152 + b) 0
  { f with bayAgg := tset0 f.bayAgg b (tgetD f.bayAgg b 0 ||| w), devAgg := f.devAgg ||| w ||| d, newCarrel := tdel f.newCarrel l,
           newVu := tdel f.newVu b, newDev := tdel (tdel f.newDev l) (1152 + b) }

/-- A clear of a carrel's word alone (R67). -/
def FlagWords.clearCarrel (f : FlagWords) (l : Nat) : FlagWords := { f with carrel := tdel f.carrel l }

/-- A clear of a bay aggregate: it and the words of the bay's carrels and vector unit. The device aggregate stands as it is, and what those
words raised still reaches it at the next slice end (R66, R67). -/
def FlagWords.clearBay (f : FlagWords) (b : Nat) : FlagWords :=
  let mine := f.newCarrel.filter fun p => p.1 / 12 == b
  let dev := mine.foldl (fun t p => orWord t p.1 p.2) f.newDev
  { f with bayAgg := tdel f.bayAgg b, carrel := f.carrel.filter (fun p => p.1 / 12 != b), bayVu := tdel f.bayVu b,
           newCarrel := f.newCarrel.filter (fun p => p.1 / 12 != b), newVu := tdel f.newVu b,
           newDev := if tgetD f.newVu b 0 = 0 then dev else orWord dev (1152 + b) (tgetD f.newVu b 0) }

/-- A clear of the device aggregate clears every word of the patron (R67). -/
def FlagWords.clearAll (_ : FlagWords) : FlagWords := FlagWords.zero

def raiseOn (s : State) (c l : Nat) (g : Flags) : State := modCtx s c fun x => { x with flags := x.flags.raiseCarrel l g }
def raiseVuOn (s : State) (c bay : Nat) (g : Flags) : State := modCtx s c fun x => { x with flags := x.flags.raiseVu bay g }
def flushFlags (s : State) (c : Nat) : State := modCtx s c fun x => { x with flags := x.flags.flush }

end Sys2Proof.Machine
end

