-- ==== Sys2Proof/Machine/Mesh.lean ====
section
/-! DEFINITION. The package fabric: dies, edges, routes, traffic classes, packets (R7–R14, R20). -/

namespace Sys2Proof.Machine

/-- A logic die (R7). -/
inductive Die where
  | wing (w : Nat)
  | annex (a : Nat)
  | hub (h : Nat)
deriving DecidableEq, Repr, Inhabited

/-! ### Where dies lie (R8, R9, R13, R14, R20) -/

def column (w : Nat) : Nat := w % 6
def row (w : Nat) : Nat := w / 6
def wingAt (x y : Nat) : Nat := 6 * y + x

/-- The edge wings a die attaches to (R9). -/
def Die.attached : Die → List Nat
  | .wing w => [w]
  | .annex a => (match a with | 0 => [0, 6] | 1 => [12, 18] | 2 => [5, 11] | _ => [17, 23])
  | .hub h => (match h with | 0 => [0, 1, 2] | 1 => [3, 4, 5] | 2 => [18, 19, 20] | _ => [21, 22, 23])

/-- The die-to-die edges: east-west, north-south, annex and hub (R9). -/
def meshEdges : List (Die × Die) :=
  ((List.range 24).filter (column · < 5)).map (fun w => (.wing w, .wing (w + 1)))
  ++ (List.range 18).map (fun w => (.wing w, .wing (w + 6)))
  ++ (List.range 4).flatMap (fun a => (Die.annex a).attached.map fun w => (.annex a, .wing w))
  ++ (List.range 4).flatMap (fun h => (Die.hub h).attached.map fun w => (.hub h, .wing w))

/-- The wing a stack is wired to (R13). -/
def stackWing (k : Nat) : Nat := match k with | 6 => 6 | 7 => 11 | 8 => 12 | 9 => 17 | _ => if k < 6 then k else k + 8
/-- The hub of a fabric port, and of a host port (R20). -/
def portHub (p : Nat) : Nat := p % 4
def hostHub (n : Nat) : Nat := n % 2
/-- The wing of a bay, and of a logical carrel (R14). -/
def bayWing (b : Nat) : Nat := b / 4
def carrelWing (l : Nat) : Nat := l / 48

/-! ### Routes (R11) -/

def apart (a b : Nat) : Nat := max a b - min a b

/-- Columns between a wing and the nearest column of a die. -/
def columnsTo (d : Die) (w : Nat) : Nat := (d.attached.map fun v => apart (column w) (column v)).min?.getD 0

/-- The attached wing of `d` nearest the column of `e`; the lower-numbered of two that are equally near. -/
def nearestWing (d e : Die) : Nat :=
  d.attached.foldl (fun b w => if columnsTo e w < columnsTo e b then w else b) (d.attached.headD 0)

/-- Steps from `a` towards `b`, `b` included and `a` not. -/
def towards (a b : Nat) : List Nat := if a ≤ b then (List.range (b - a)).map (a + 1 + ·) else (List.range (a - b)).map (a - 1 - ·)

/-- The wings a packet crosses: along the row of its entry wing to the column of its exit wing, then along that column. -/
def routeOf (src dst : Die) : List Nat :=
  let a := nearestWing src dst
  let b := nearestWing dst src
  a :: ((towards (column a) (column b)).map (wingAt · (row a)) ++ (towards (row a) (row b)).map (wingAt (column b)))

/-- Mesh hops between two dies' wings. -/
def meshHops (src dst : Die) : Nat := (routeOf src dst).length - 1

/-! ### Packets (R12) -/

/-- The traffic classes. -/
inductive Traffic where
  | request | response | collective | control
deriving DecidableEq, Repr, Inhabited

/-- The event source of a class at a wing router (R612). -/
def Traffic.source : Traffic → Nat | .request => 0x100 | .response => 0x101 | .collective => 0x102 | .control => 0x103

/-- A packet of one class, in flits: one for each 64-byte atom it carries, or one alone (log 113). -/
structure Packet where
  src : Die
  dst : Die
  cls : Traffic
  flits : Nat
deriving DecidableEq, Repr, Inhabited

def pgWing (w : Nat) : Nat := 0x80 + w

/-- A packet crosses the fabric: each wing router of its route forwards its flits. It arrives before the next packet is sent, so those of one
pair of islands and one class are delivered in the order they were sent (R12; log 113). Only counters change. -/
def sendPacket (s : State) (ctx : Option Nat) (p : Packet) : State :=
  { s with regs := ((routeOf p.src p.dst).foldl (fun s w => countEv s (pgWing w) p.cls.source p.flits ctx) s).regs }

/-- Flits cross from one hub to another; within a hub they do not enter the mesh. -/
def crossHubs (s : State) (ctx : Option Nat) (a b : Nat) (cls : Traffic) (flits : Nat) : State :=
  if a = b then s else sendPacket s ctx ⟨.hub a, .hub b, cls, flits⟩

/-- The cataloguer engine on hub 0 is driven by the circulation core: from hub 1, over the control class, once the standby has its duties (R574). -/
def driveCataloguer (s : State) (ctx : Option Nat) : State :=
  if dutyOf s .circulation = .circulation then s else crossHubs s ctx 1 0 .control 1

/-- Atoms of 64 bytes that a run of bytes touches. -/
def atomsOf (a n : Nat) : Nat := if n = 0 then 0 else (a + n - 1) / 64 + 1 - a / 64

/-- A read or a write of `n` bytes at `pa` of `dst`: the request and its response. -/
def exchange (s : State) (ctx : Option Nat) (src dst : Die) (pa n : Nat) (write : Bool) : State :=
  let k := atomsOf pa n
  let s1 := sendPacket s ctx ⟨src, dst, .request, if write then k else 1⟩
  sendPacket s1 ctx ⟨dst, src, .response, if write then 1 else k⟩

end Sys2Proof.Machine
end

