-- ==== Sys2Proof/Machine/Post.lean ====
section
/-! DEFINITION. Messages that the device itself sends across the fabric: header, flits, end-to-end tags, and the queue they wait in
(R437, R438, R451, R452, R459). -/

namespace Sys2Proof.Machine

/-! ### Who this device is (R433, R459) -/

/-- This device answers to the address (R459). -/
def isMe (s : State) (a : Nat) : Bool := s.host.address == some a || s.fabric.adopted == some a

/-- The address that the device's own messages name as their source: a reserve that has adopted a coordinate speaks as that coordinate. -/
def ownAddress (s : State) : Nat := s.fabric.adopted.getD (s.host.address.getD 0)

/-- The next own message number of a job (R452). -/
def takeMseq (s : State) (job : Nat) : Nat × State :=
  let n := tgetD s.fabric.mseq job 0
  (n, { s with fabric := { s.fabric with mseq := tset s.fabric.mseq job (n + 1) } })

/-- The context of a patron tag. -/
def jobCtx (s : State) (job : Nat) : Option (Nat × Ctx) := if job = 0 then none else s.ctxs.find? fun p => p.2.ident.job == job && p.2.ident.st != .scrubbing

/-- The key a job's tags are formed under: the job key of the context it maps to, the fabric device key for job 0. -/
def tagKey (s : State) (job : Nat) : Option (Option Bytes) :=
  if job = 0 then some s.fabric.fabricKey
  else (s.ctxs.find? fun p => p.2.ident.job == job && p.2.ident.st != .scrubbing).map fun p => p.2.ident.jobKey

/-! ### The bytes of a message (R438) -/

/-- A payload with the hops field of its message header set. -/
def withHops (b : Bytes) (hops : Nat) : Bytes := b.set 6 (BitVec.ofNat 8 ((b.getD 6 0).toNat % 16 + 16 * hops))

/-- The 32 header bytes of a message. -/
def msgHeader (dest src job kind len mseq arg : Nat) : Bytes :=
  leBytes 4 (dest % 2 ^ 20) ++ leBytes 4 (src % 2 ^ 20) ++ leBytes 4 job ++ leBytes 2 (kind * 4096 + len) ++ zeros 2
  ++ leBytes 8 (mseq % 2 ^ 48) ++ leBytes 8 arg

/-- Payloads of 240 bytes. -/
def payloads (b : Bytes) : List Bytes := (List.range ((b.length + 239) / 240)).map fun i => slice b (240 * i) 240

/-- A message with its tags; each covers a payload as the source formed it, with hops 0 (R451, log 35). -/
def formMessage (key : Bytes) (dest src job kind arg mseq : Nat) (body : Bytes) : Message :=
  let l := payloads (msgHeader dest src job kind ((32 + body.length + 239) / 240 - 1) mseq arg ++ body)
  { dest := dest, hops := 0, src := src, job := job, kind := kind, mseq := mseq, arg := arg, flits := l,
    tags := (List.range l.length).map fun i => flitTag key (fit 240 (l.getD i [])) src mseq i }

/-- The body bytes that a message of 4,096 flits carries. -/
def bodyMax : Nat := 240 * 4096 - 32

/-- A body in pieces of one message each; an empty body is one message. -/
def pieces (b : Bytes) : List Bytes :=
  if b = [] then [[]] else (List.range ((b.length + bodyMax - 1) / bodyMax)).map fun i => slice b (bodyMax * i) bodyMax

/-! ### The queue (R443, R444, R457) -/

/-- A message waits for a port with credit; own messages are kept for an end-to-end NAK (R453; log 146). -/
def enqueue (s : State) (o : Outgoing) : State := { s with fabric := { s.fabric with queued := s.fabric.queued ++ [o] } }

/-- One message under a number taken from its job's counter. Without the job's key no tag can be formed, and nothing is sent. -/
def postOne (s : State) (job dest kind arg : Nat) (body : Bytes) (hub : Nat := 0) (lanes : Nat := 0) : State :=
  let q := takeMseq s job
  match tagKey s job with
  | some (some key) =>
    let m := formMessage key dest (ownAddress s) job kind arg q.1 body
    let s1 := enqueue q.2 ⟨m, none, none, 0, hub, lanes⟩
    { s1 with fabric := { s1.fabric with kept := s1.fabric.kept ++ [m] } }
  | _ => q.2

/-- The device sends a message, in as many pieces as its body needs; `hub` is the hub it comes from. -/
def post (s : State) (job dest kind arg : Nat) (body : Bytes) (hub : Nat := 0) (lanes : Nat := 0) : State :=
  ((pieces body).zipIdx).foldl (fun s b => postOne s job dest kind arg b.1 hub (if b.2 = 0 then lanes else 0)) s

/-- A message of which `record`, given the first piece's number, is the output. -/
def send (s : State) (job dest kind arg : Nat) (body : Bytes) (record : Nat → Out) : State :=
  (post s job dest kind arg body).emit (record (tgetD s.fabric.mseq job 0))

/-- The coordinate of a peer index: the indexes count the coordinates of the fabric, axis 0 fastest (R337). -/
def peerAddr (s : State) (i : Nat) : Nat :=
  let k (a : Nat) : Nat := max 1 (s.host.axes.getD a 16)
  i % k 0 + 16 * (i / k 0 % k 1) + 256 * (i / (k 0 * k 1) % k 2) + 4096 * (i / (k 0 * k 1 * k 2))

/-- An access to a remote shard crosses the fabric: a read as its length, a write as its bytes (R338, R438; log 146). -/
def remoteAccess (s : State) (job i : Nat) (write : Bool) (va n : Nat) (data : Bytes) : State :=
  (post s job (peerAddr s i) (if write then 2 else 0) va (if write then data else leBytes 4 n)).emit (.remote job i write va n)

/-- The partners of the ports that are up, each once. -/
def neighbours (s : State) : List Nat :=
  s.fabric.ports.foldl (fun l p => if p.2.st == .up then insertN l p.2.partner else l) []

/-- A kind 9 message to every neighbour, each of which passes it on: a flood under the fabric device key (R461). Its first body byte says
what it is: 0 a device's own failure, 1 takeover, 2 refusal, 3 ready, 4 detour change, 5 tag check, 6 the answer to one, 7 a member's report to the reserve, 8 a
reserve's question for restore points, 9 the answer (log 146). -/
def floodBody (tag : Nat) (args : List Nat) : Bytes := leBytes 1 tag ++ args.flatMap (leBytes 8)
def flood (s : State) (tag : Nat) (args : List Nat) : State :=
  let s1 := if tag = 2 ∨ tag = 3 then { s with fabric := { s.fabric with floods := s.fabric.floods ++ [(tag, args)] } } else s
  ((neighbours s).foldl (fun s d => post s 0 d 9 0 (floodBody tag args)) s1).emit (.flood tag args)

/-- A flood that has come is passed on, once. -/
def passOn (s : State) (tag : Nat) (args : List Nat) : State := if s.fabric.floods.contains (tag, args) then s else flood s tag args

/-! ### What a port in training states (R435, R444) -/

/-- Places of each of this side's 32 receive buffers: at most 255; the device's choice (log 34). -/
def ownSizes : List Nat := List.replicate 32 255

/-- What a port in training states to its partner: the device's address, where the host has set one, and its axis and buffer sizes (R435,
R444). -/
def stateSelf (s : State) (n : Nat) : State := s.emit (.train n s.host.address s.host.axes ownSizes)

/-- Ports in training state the address that has just been set (R435). -/
def restate (s : State) : State := s.fabric.ports.foldl (fun s p => if p.2.st = .training then stateSelf s p.1 else s) s

end Sys2Proof.Machine
end

