-- ==== Sys2Proof/Machine/Access.lean ====
section
/-! DEFINITION. How an access reaches memory: slots of the stacks, cached lines of the annex, pinned lines, the cataloguer's choices
(R195, R270–R280, R289, R333, R660). -/

namespace Sys2Proof.Machine

/-! ### The cataloguer's choices (R195, R334; log 7) -/

/-- One of a list of carrels or bays: a free choice. -/
def chooseFrom (s : State) (l : List Nat) : Nat × State :=
  let n := s.fresh
  (l.getD (Config.pick n.1 % l.length) 0, n.2)

/-- A carrel of the grant. -/
def someCarrel (s : State) (x : Ctx) : Nat × State := chooseFrom s x.ident.grant

/-! ### Slots of a stack (R289) -/

/-- Aligned 512-byte slots that an access of `n` contiguous bytes occupies. -/
def slotsOf (pa n : Nat) : Nat := if n = 0 then 0 else (pa + n - 1) / 512 + 1 - pa / 512

/-- One access of a unit to contiguous bytes of an HBM stack: the slots it occupies, counted at the stack's memory controller and in the
context's page, and its packets. -/
def stackAccess (s : State) (c : Nat) (src : Die) (pa n : Nat) (write : Bool) : State :=
  match stackOf pa with
  | none => s
  | some k =>
    let m := slotsOf pa n
    let s1 := countEv (countEv s (pgMem k) (if write then 0x101 else 0x100) m (some c)) (pgCtx c) 0x104 m (some c)
    exchange s1 (some c) src (.wing (stackWing k)) pa n write

/-! ### Homes, sets and ways (R275–R277, R660) -/

/-- The set of a line in its home bank: the manual gives none for cached lines (DESIGN CHOICE, log 114). -/
def setOf (pa : Nat) : Nat := bitsOf pa 26 14
/-- Die and bank of a home index. -/
def homeDie (h : Nat) : Nat := h / 64
def homeBank (h : Nat) : Nat := h % 64

/-- The run of 1,024 sets of its die that a set of a bank lies in. -/
def blockOf (bank set : Nat) : Nat := (bank * 8192 + set) / 1024

/-- Ways in which pinned lines lie in the sets of a block. -/
def pinnedWays (s : State) (die block : Nat) : List Nat :=
  (s.mem.pins.filter fun p => annexOf p.1 == some die && p.2.block == block).map (·.2.way)

/-- The ways a mask holds. -/
def waysIn (mask : Nat) : List Nat := (List.range 64).filter (bitOf mask)

/-- Bank and set of line `j` of a pinned frame (R660). -/
def pinPlace (p : Pin) (j : Nat) : Nat × Nat := ((p.block * 1024 + j) / 8192, (p.block * 1024 + j) % 8192)

/-- The ways a patron's lines are allocated in: all of them, or in partition mode those of its mask, less those that leave it at the next step
boundary (R278–R280). -/
def mayUse (s : State) (x : Ctx) : List Nat :=
  if s.host.partition then waysIn (x.ident.wayMask &&& x.ident.maskNext.getD x.ident.wayMask) else List.range 64

/-- Atomics of a patron are admitted: with partition mode on, only under a way mask (R279). -/
def atomicsOk (s : State) (x : Ctx) : Bool := !s.host.partition || x.ident.wayMask != 0

/-! ### Cached lines (R271, R277) -/

/-- A line leaves the annex: what it holds is written back if it is dirty, and counted (R277). -/
def writeBack (s : State) (l : Line) : State :=
  let s1 := { s with mem := { s.mem with lines := s.mem.lines.filter fun k => k.line != l.line } }
  if !l.dirty then s1 else
  stackAccess (countEv s1 (pgAnnex (homeDie l.home)) 0x102 1 (some l.tag)) l.tag (.annex (homeDie l.home)) (64 * l.line) 64 true

/-- The way a missing line takes of those its patron may use: one with no line, else that of the least recently used, which leaves. A way of a
pinned line is never taken (R277; the manual's pseudo-LRU is the model's LRU, log 114). -/
def freeWay (s : State) (home set : Nat) (ways : List Nat) : Option (Nat × Option Line) :=
  let open_ := ways.filter fun w => !(pinnedWays s (homeDie home) (blockOf (homeBank home) set)).contains w
  let here := s.mem.lines.filter fun l => l.home == home && l.set == set
  match open_.find? fun w => !here.any (·.way == w) with
  | some w => some (w, none)
  | none => ((here.filter fun l => open_.contains l.way).getLast?).map fun l => (l.way, some l)

/-- A line becomes the most recently used; a write makes it dirty, and HBM keeps what it held, its poison with it. -/
def useLine (s : State) (l : Line) (write : Bool) : State :=
  let now := { l with dirty := true, under := mread s.mem.bytes (64 * l.line) 64, underPoison := s.mem.poison.contains l.line }
  let k := if write && !l.dirty then now else l
  { s with mem := { s.mem with lines := k :: s.mem.lines.filter fun j => j.line != l.line } }

/-- One access of a patron to one cached line at its home: a hit on a line with the patron's tag, or a miss that brings the line in from its
stack (R277, R278). `key` is the address that gives the line its home: its own, or of its group of ledger cells (R276). -/
def lineAccess (s : State) (c : Nat) (x : Ctx) (key pa : Nat) (write : Bool) : State :=
  let home := homeOf key
  match s.mem.lines.find? fun l => l.line == pa / 64 && l.tag == c with
  | some l => countEv (useLine s l write) (pgAnnex (homeDie home)) 0x100 1 (some c)
  | none =>
    let s1 := countEv s (pgAnnex (homeDie home)) 0x101 1 (some c)
    match freeWay s1 home (setOf key) (mayUse s x) with
    | none => stackAccess s1 c (.annex (homeDie home)) pa 64 write
    | some (w, old) =>
      let s2 := match old with | some l => writeBack s1 l | none => s1
      useLine (stackAccess s2 c (.annex (homeDie home)) (pa / 64 * 64) 64 false) ⟨pa / 64, c, home, setOf key, w, false, [], false⟩ write

/-- Lines leave without a write-back: HBM keeps what it held beneath the dirty ones, poisoned or not (R313). -/
def dropLines (m : Storage) (gone : Line → Bool) : Storage :=
  let out := m.lines.filter gone
  { m with bytes := out.foldl (fun b l => if l.dirty then mwrite b (64 * l.line) l.under else b) m.bytes,
           poison := out.foldl (fun p l => if !l.dirty then p else if l.underPoison then insertN p l.line else p.filter (· != l.line)) m.poison,
           lines := m.lines.filter fun l => !gone l }

/-- Lines are written back and invalidated (R280). -/
def flushLines (s : State) (gone : Line → Bool) : State := (s.mem.lines.filter gone).foldl writeBack s

/-! ### Pinned frames (R277, R660) -/

/-- HBM frames a context holds (R566). -/
def heldFrames (s : State) (c : Nat) : Nat := (s.mem.owner.filter fun p => p.2 == c && (stackOf p.1).isSome).length
/-- Pinned annex frames: of a context, and of a die (R660). -/
def pinnedOf (s : State) (c : Nat) : Nat := (s.mem.owner.filter fun p => p.2 == c && (annexOf p.1).isSome).length
def pinnedDie (s : State) (a : Nat) : Nat := (s.mem.owner.filter fun p => annexOf p.1 == some a).length
/-- 1.5 GiB of a die can be pinned (R660). -/
def pinnedMax : Nat := 24576

/-- Pinned lines in each set of a block. -/
def blockPins (s : State) (die block : Nat) : Nat := (pinnedWays s die block).length

/-- Where a frame's lines go: a block whose sets hold the fewest pinned lines of the die, the lowest with a way left among `ways`, and the
lowest such way. At most 48 ways of a set hold pinned lines. -/
def pinFor (s : State) (die : Nat) (ways : List Nat) : Option Pin :=
  let least := ((List.range 512).map (blockPins s die)).min?.getD 0
  if 48 ≤ least then none else
  (List.range 512).findSome? fun b =>
    if blockPins s die b ≠ least then none
    else (ways.find? fun w => !(pinnedWays s die b).contains w).map fun w => ⟨b, w⟩

/-- One pinned frame: from the die with the most pinned capacity free, the lowest among equals, its lines in ways the patron may use. Cached
lines in its way leave. -/
def takePinned (s : State) (c : Nat) (x : Ctx) : Option (Nat × State) :=
  let d := (List.range 4).foldl (fun b a => if pinnedDie s a < pinnedDie s b then a else b) 0
  if pinnedMax ≤ pinnedDie s d then none else
  match takeFrames (fun f => (frameOwner s f).isNone) (pinnedDie s d + 1) (annexBase + d * annexBytes) 1, pinFor s d (mayUse s x) with
  | some (f :: _), some p =>
    let s1 := flushLines s fun l => homeDie l.home == d && blockOf (homeBank l.home) l.set == p.block && l.way == p.way
    let s2 := grantFrames s1 c [f]
    some (f, { s2 with mem := { s2.mem with pins := tset s2.mem.pins f p } })
  | _, _ => none

def takePinnedN (c : Nat) (x : Ctx) : Nat → State → Option (List Nat × State)
  | 0, s => some ([], s)
  | n + 1, s =>
    match takePinned s c x with
    | none => none
    | some (f, s1) => match takePinnedN c x n s1 with | none => none | some (l, s2) => some (f :: l, s2)

/-! ### An access to a run of virtual addresses (R270) -/

/-- How the bytes of a tensor are reached (R270): past the annex, or at their lines' homes; a patron without ways takes the direct path in
partition mode (R279). -/
def annexPath (s : State) (x : Ctx) (cls : Nat) : Bool := cls == 1 && !(s.host.partition && x.ident.wayMask == 0)

/-- The address that gives the line at `pa` its home: its own, or for ledger cells that of the first line of its group of eight, 320 bytes
from the start of its row on; `va` is the line's virtual address and `off` its place in the row (R276). -/
def homeKey (x : Ctx) (cells : Bool) (va off pa : Nat) : Nat :=
  if !cells then pa else match translate x (va - off % 320) false with | some (.phys q) => q | _ => pa

/-- The cached lines that `n` bytes at `va`, `off` bytes into their row, touch from `pa` on: home address and own address. -/
def annexLines (x : Ctx) (cells : Bool) (va off pa n : Nat) : List (Nat × Nat) :=
  (List.range (atomsOf pa n)).map fun k =>
    let v := (va / 64 + k) * 64
    let a := (pa / 64 + k) * 64
    (homeKey x cells v (off + v - va) a, a)

/-- An access of a unit to `n` bytes that lie in one page, `off` bytes into their row; pinned lines are always in the annex. What is written to a
remote shard leaves the device when its bytes are known (`tellPeers`). -/
def pageAccess (s : State) (c : Nat) (x : Ctx) (src : Die) (cls : Nat) (cells : Bool) (va off n : Nat) (write : Bool) : State :=
  match translate x va write with
  | some (.phys pa) =>
    match annexOf pa with
    | some d => exchange (countEv s (pgAnnex d) 0x100 (atomsOf pa n) (some c)) (some c) src (.annex d) pa n write
    | none =>
      if annexPath s x cls then
        (annexLines x cells va off pa n).foldl (fun s l =>
          lineAccess (exchange s (some c) src (.annex (homeDie (homeOf l.1))) l.2 64 write) c x l.1 l.2 write) s
      else stackAccess s c src pa n write
  | some (.host _) => exchange s (some c) src (.hub (hostHub s.host.active)) va n write
  | some (.peer i v) =>
    let s1 := exchange s (some c) src (.hub 0) v n write
    if write then s1 else remoteAccess s1 x.ident.job i false v n []
  | _ => s

/-- An access to a run of bytes, page by page; `gas` pages are looked at. -/
def runAccess (c : Nat) (x : Ctx) (src : Die) (cls : Nat) (cells : Bool) (write : Bool) : Nat → Nat → Nat → Nat → State → State
  | 0, _, _, _, s => s
  | gas + 1, va, off, n, s =>
    if n = 0 then s else
    let k := min n (frameBytes - va % frameBytes)
    runAccess c x src cls cells write gas (va + k) (off + k) (n - k) (pageAccess s c x src cls cells va off k write)

end Sys2Proof.Machine
end

