-- ==== Sys2Proof/Machine/Operands.lean ====
section
/-! DEFINITION. Operands: call numbers, matrix views, elements, quires and ledger cells of a patron's tensors (R199, R207, R314–R320). -/

namespace Sys2Proof.Machine

/-! ### Call numbers and tensors -/

def callIdx (cn : Nat) : Nat := cn % 2 ^ 20
def callTag (cn : Nat) : Nat := cn / 2 ^ 20 % 2 ^ 12
def callNo (tag idx : Nat) : Nat := tag * 2 ^ 20 + idx

/-- The live entry of a call number: its index holds an entry and the tags match (R314, R315). -/
def liveEntry (x : Ctx) (cn : Nat) : Option Entry :=
  if cn < 2 ^ 32 ∧ callTag cn ≠ 0 ∧ tgetD x.cat.tags (callIdx cn) 0 = callTag cn then tget x.cat.live (callIdx cn) else none

/-- Columns of the matrix view: the last dimension (R319). -/
def Entry.cols (e : Entry) : Nat := e.dims.getD e.ndim 1
/-- Rows of the matrix view: the product of the other extents (R319). -/
def Entry.rows (e : Entry) : Nat := (e.dims.take e.ndim).foldl (· * ·) 1
/-- Grouped-axis length and number of lines of a quantised tensor (R207). -/
def Entry.axisLen (e : Entry) : Nat := if e.gaxis then e.rows else e.cols
def Entry.lines (e : Entry) : Nat := if e.kind = 1 ∧ e.gaxis then e.cols else e.rows
/-- A quire tensor or a quantising view. -/
def quantised (e : Entry) : Bool := e.kind == 1 || e.kind == 4
def Entry.width (e : Entry) : Nat := match Fmt.ofCode e.fmt with | some f => f.width | none => 8

/-- A tensor operand: its call number and entry. -/
structure TRef where
  call : Nat
  e : Entry
deriving DecidableEq, Repr

def tensor (x : Ctx) (cn : Nat) : Option TRef := (liveEntry x cn).map fun e => ⟨cn, e⟩
def TRef.idx (t : TRef) : Nat := callIdx t.call

/-- An extent lies inside the view (R207). -/
def extentOk (e : Entry) (r c nr nc : Nat) : Bool := r + nr ≤ e.rows && c + nc ≤ e.cols

def up64 (n : Nat) : Nat := (n + 63) / 64 * 64
/-- Quires per line of a format: 2,048, 1,024 or 512 elements each (R112). -/
def quireElems (f : Fmt) : Nat := match f.width with | 2 => 2048 | 4 => 1024 | _ => 512
def ceilDiv (a b : Nat) : Nat := (a + b - 1) / b

/-- Bytes of one stored line of a tensor. -/
def Entry.lineBytes (e : Entry) : Nat :=
  match e.kind with
  | 1 => ceilDiv e.axisLen 512 * 576
  | 2 => ceilDiv e.cols 8 * 320
  | _ => ceilDiv (e.cols * e.width) 8

/-- Byte pitch of the lines; a scratch tensor's lines lie 64-byte aligned in its granules (log 7). -/
def Entry.step (e : Entry) : Nat := if e.cls = 3 then up64 e.lineBytes else e.pitch

/-- The place of byte `off` of a stored tensor; none is EACCESS. -/
def placeOf (x : Ctx) (t : TRef) (off : Nat) (write : Bool) : Option Place :=
  if t.e.cls = 3 then some (.store t.idx off) else translate x (t.e.base + off) write

/-- A view's element as an element of its source (R319). -/
def viewPos (e : Entry) (i j : Nat) : Nat × Nat := if e.trans then (e.vrow + j, e.vcol + i) else (e.vrow + i, e.vcol + j)

/-- The stored tensor and position behind an element of a plain tensor or plain view (R320). -/
def stored (x : Ctx) (t : TRef) (i j : Nat) : Option (TRef × Nat × Nat) :=
  if t.e.kind = 3 then
    match tensor x t.e.source with
    | some u => some (u, viewPos t.e i j)
    | none => none
  else some (t, i, j)

/-- The device virtual address of an element, for fault records (R245). -/
def addrOf (x : Ctx) (t : TRef) (i j : Nat) : Nat :=
  match stored x t i j with
  | some (u, a, b) => u.e.base + a * u.e.step + b * u.e.width / 8
  | none => 0

/-- Logical element index (R61). -/
def logicalIdx (e : Entry) (i j : Nat) : Nat := i * e.cols + j

/-! ### Reading -/

def readBytes (s : State) (x : Ctx) (t : TRef) (off : Nat) : Nat → Option Bytes
  | 0 => some []
  | n + 1 =>
    match placeOf x t off false with
    | none => none
    | some p => (readBytes s x t (off + 1) n).map (peek s x p :: ·)

def anyPoison (s : State) (x : Ctx) (t : TRef) (off : Nat) : Nat → Bool
  | 0 => false
  | n + 1 => (match placeOf x t off false with | some p => poisonedAt s x p | none => false) || anyPoison s x t (off + 1) n

/-- The device virtual address of the first poisoned byte of a range of a stored tensor, for the fault record (R305, R245; log 38). -/
def poisonAddr (s : State) (x : Ctx) (t : TRef) (off : Nat) : Nat → Nat
  | 0 => t.e.base + off
  | n + 1 => if (match placeOf x t off false with | some p => poisonedAt s x p | none => false) then t.e.base + off
             else poisonAddr s x t (off + 1) n

/-- Offsets, from `off` on and within `n` bytes, of the 64-byte atoms that are poisoned (R304). -/
def poisonAtoms (s : State) (x : Ctx) (t : TRef) (off n : Nat) : List Nat :=
  ((List.range (ceilDiv n 64)).map (64 * ·)).filter fun k =>
    match placeOf x t (off + k) false with | some p => poisonedAt s x p | none => false

/-- The code of an element and whether it is poisoned; none is EACCESS (R298). -/
def readCode (s : State) (x : Ctx) (t : TRef) (i j : Nat) : Option (Nat × Bool) :=
  match stored x t i j with
  | none => none
  | some (u, a, b) =>
    let w := u.e.width
    let bit := b * w
    let off := a * u.e.step + bit / 8
    let n := ceilDiv w 8
    match readBytes s x u off n with
    | none => none
    | some bs => some (leNat bs / 2 ^ (bit % 8) % 2 ^ w, anyPoison s x u off n)

/-- The format of a plain tensor or view. -/
def TRef.fmt (t : TRef) : Fmt := (Fmt.ofCode t.e.fmt).getD .fp32

/-! ### Writing -/

/-- A write of the masked bits of one byte. -/
structure WUnit where
  p : Place
  v : Nat
  m : Nat
deriving DecidableEq, Repr

def bitCount (m : Nat) : Nat := ((List.range 8).filter fun k => bitOf m k).length

def applyUnit (s : State) (c : Nat) (u : WUnit) : State :=
  match getCtx s c with
  | none => s
  | some x =>
    let old := (peek s x u.p).toNat
    poke s c u.p (BitVec.ofNat 8 ((old &&& (255 - u.m)) ||| (u.v &&& u.m)))

/-- The atom or line a place lies in. -/
def Place.atom : Place → Place
  | .phys pa => .phys (pa / 64 * 64)
  | .host a => .host (a / 64 * 64)
  | .peer i va => .peer i (va / 64 * 64)
  | .store i o => .store i (o / 64 * 64)

def addBits (l : List (Place × Nat)) (p : Place) (n : Nat) : List (Place × Nat) :=
  match l with
  | [] => [(p, n)]
  | (q, k) :: r => if q = p then (q, k + n) :: r else (q, k) :: addBits r p n

/-- Bits written of each poisoned atom touched. -/
def poisonCover (s : State) (x : Ctx) (l : List WUnit) : List (Place × Nat) :=
  l.foldl (fun a u => if poisonedAt s x u.p then addBits a u.p.atom (bitCount u.m) else a) []

/-- Neighbouring bytes of a peer as runs: peer, address, length. -/
def peerRuns : List Place → List (Nat × Nat × Nat) → List (Nat × Nat × Nat)
  | [], l => l.reverse
  | .peer i v :: r, (j, a, n) :: l =>
    if i = j ∧ a ≤ v ∧ v ≤ a + n then peerRuns r ((j, a, max n (v + 1 - a)) :: l) else peerRuns r ((i, v, 1) :: (j, a, n) :: l)
  | .peer i v :: r, [] => peerRuns r [(i, v, 1)]
  | _ :: r, l => peerRuns r l

/-- What was written at these places of remote shards goes to the peers that hold them (R338). -/
def tellPeers (s : State) (c : Nat) (l : List Place) : State :=
  (peerRuns l []).foldl (fun s q => match getCtx s c with
    | none => s
    | some x => remoteAccess s x.ident.job q.1 true q.2.1 q.2.2 ((List.range q.2.2).map fun k => mget (tgetD x.peerMem q.1 []) (q.2.1 + k))) s

/-- Performs the writes of one operation; one that overwrites a whole poisoned atom clears its poison (R306). -/
def applyUnits (s : State) (c : Nat) (l : List WUnit) : State :=
  match getCtx s c with
  | none => s
  | some x =>
    let cover := poisonCover s x l
    let s1 := l.foldl (fun s u => applyUnit s c u) s
    tellPeers (cover.foldl (fun s p => if 512 ≤ p.2 then setPoison s c p.1 false else s) s1) c (l.map (·.p))

/-- The writes that put a code at an element; none is EACCESS. -/
def byteUnits (x : Ctx) (t : TRef) (off : Nat) : Bytes → Option (List WUnit)
  | [] => some []
  | b :: r =>
    match placeOf x t off true with
    | none => none
    | some p => (byteUnits x t (off + 1) r).map (⟨p, b.toNat, 255⟩ :: ·)

def codeUnits (x : Ctx) (t : TRef) (i j code : Nat) : Option (List WUnit) :=
  match stored x t i j with
  | none => none
  | some (u, a, b) =>
    let w := u.e.width
    let bit := b * w
    let off := a * u.e.step + bit / 8
    if w < 8 then
      match placeOf x u off true with
      | none => none
      | some p => some [⟨p, (code % 2 ^ w) * 2 ^ (bit % 8), (2 ^ w - 1) * 2 ^ (bit % 8)⟩]
    else byteUnits x u off (leBytes (w / 8) code)

/-! ### Outcomes of data work -/

/-- What ends an operation in execution (R241, R243): status, EQUIRE check code and address. -/
structure XFault where
  status : Status
  check : Nat
  detail : Nat
deriving DecidableEq, Repr

/-- One element an operation produces, a fault that ends the operation (R243), or a fault that every earlier element precedes (R306). -/
inductive Item where
  | put (i j code : Nat) (poison : Bool)
  | stop (f : XFault)
  | cut (f : XFault)
deriving DecidableEq, Repr

/-- The items before the first cut, and its fault. -/
def upToCut : List Item → List Item × Option XFault
  | [] => ([], none)
  | .cut f :: _ => ([], some f)
  | a :: r => let q := upToCut r; (a :: q.1, q.2)

/-- The writes of an item and the places it poisons; a refused translation is its fault. -/
def itemUnits (x : Ctx) (t : TRef) : Item → Except XFault (List WUnit × List Place)
  | .stop f | .cut f => .error f
  | .put i j k p =>
    match codeUnits x t i j k with
    | none => .error ⟨.eaccess, 0, addrOf x t i j⟩
    | some us => .ok (us, if p then us.map (·.p) else [])

def firstError : List (Except XFault α) → Option XFault
  | [] => none
  | .error f :: _ => some f
  | .ok _ :: r => firstError r

def oks (l : List (Except XFault α)) : List α := l.filterMap fun | .ok a => some a | .error _ => none

/-- The writes that were done before or beside the fault that ended an operation: any of them (R243, log 15). -/
def someOf (n : Nat) (l : List α) : List α := (l.zipIdx.filter fun q => Config.partialDone n q.2).map (·.1)

/-- Performs the writes of items, then marks what they poison (R304). -/
def putAll (s : State) (c : Nat) (l : List (List WUnit × List Place)) : State :=
  (l.flatMap (·.2)).foldl (fun s p => setPoison s c p true) (applyUnits s c (l.flatMap (·.1)))

/-- Writes a list of items into a tensor; an operation that faults leaves each element old or new (R243). -/
def putItems (s : State) (c : Nat) (t : TRef) (l : List Item) : State × Option XFault :=
  match getCtx s c with
  | none => (s, none)
  | some x =>
    let a := upToCut l
    let us := a.1.map (itemUnits x t)
    match firstError us with
    | none => (putAll s c (oks us), a.2)
    | some f => (putAll s.fresh.2 c (someOf s.fresh.1 (oks us)), some f)

/-- Positions of an extent in row-major order. -/
def positions (nr nc : Nat) : List (Nat × Nat) :=
  (List.range nr).flatMap fun i => (List.range nc).map fun j => (i, j)

/-! ### Shards: heat and abandoned moves (R325, R341) -/

/-- First shard run and number of shards of a tensor's range (R324). -/
def Entry.span (e : Entry) : Nat := e.lines * e.pitch
def Entry.shardCount (e : Entry) : Nat :=
  if e.base = 0 ∨ e.kind ≥ 3 ∨ e.span = 0 then 0 else (e.base + e.span - 1) / shardBytes + 1 - e.base / shardBytes

def Policy.f (p : Policy) : Fmt := (Fmt.ofCode p.fmt).getD .int8
/-- Formats that can hold marginalia (R73). -/
def admitsMarg (f : Fmt) : Bool := match f with | .t2 | .int2 | .int4 | .fp4 => true | _ => false

/-- The policy at a rung (R110, R111, R393); at rung 4, for which R110 names no format, that of rung 3 (DESIGN CHOICE, log 162). -/
def policyAt (p : Policy) (w : Watch) (rung : Nat) : Policy :=
  let wide := p.f.width == 8
  let rid := if p.rotId = 0 then w.rotId else p.rotId
  match rung with
  | 0 => { p with rot := false, rotId := 0, marg := false }
  | 1 => { p with rot := true, rotId := rid, marg := false }
  | 2 => { p with rot := true, rotId := rid, marg := !wide && admitsMarg p.f }
  | _ => { p with fmt := if wide then p.fmt else if w.f8 then Fmt.e4m3.code else Fmt.int8.code, rot := false, rotId := 0, marg := false }

/-- The format the quires of a tensor's image lie in: the programmed one, or that of the rung the image was formed under (R110, R393). -/
def storedFmt (x : Ctx) (t : TRef) : Fmt :=
  match tget x.pol.imageRung t.idx, tget x.pol.watch t.e.layer with
  | some k, some w => (policyAt t.e.policy w k).f
  | _, _ => t.e.policy.f

/-- Byte runs are [first, first + length). -/
def meets (a n b m : Nat) : Bool := a < b + m && b < a + n

/-- A run of bytes of a stored tensor: its place in the tensor, its place in its row, its length. -/
structure Strip where
  off : Nat
  inRow : Nat
  len : Nat
deriving DecidableEq, Repr

/-- The bytes of `nc` positions from `c` on of line `i`: of a quire tensor the whole quires that hold them, of ledger cells whole cells. -/
def lineRun (f : Fmt) (e : Entry) (i c nc : Nat) : Strip :=
  let r : Nat × Nat := match e.kind with
    | 1 => let q := quireElems f; (c / q * 576, (ceilDiv (c + nc) q - c / q) * 576)
    | 2 => (c * 40, nc * 40)
    | _ => (c * e.width / 8, ceilDiv ((c + nc) * e.width) 8 - c * e.width / 8)
  ⟨i * e.step + r.1, r.1, r.2⟩

/-- An extent of lines and positions. -/
structure Extent where
  r : Nat
  c : Nat
  nr : Nat
  nc : Nat
deriving DecidableEq, Repr

/-- The runs of an extent of lines and positions of a stored tensor: each is one access (R289). -/
def runsOf (x : Ctx) (q : TRef × Extent) : List Strip :=
  (List.range q.2.nr).map fun k => lineRun (storedFmt x q.1) q.1.e (q.2.r + k) q.2.c q.2.nc

/-- Lines of a tensor and positions of each: of its matrix view, or of its groups (R207). -/
def Entry.whole (e : Entry) : Extent := if quantised e then ⟨0, 0, if e.gaxis then e.cols else e.rows, e.axisLen⟩ else ⟨0, 0, e.rows, e.cols⟩

/-- The stored tensor and extent behind an extent of a tensor or a view (R319, R320). -/
def storedExtent (x : Ctx) (t : TRef) (g : Extent) : TRef × Extent :=
  if t.e.kind < 3 then (t, g) else
  match tensor x t.e.source with
  | none => (t, g)
  | some u =>
    let v : Extent := if t.e.kind = 4 ∧ t.e.gaxis then ⟨g.c, g.r, g.nc, g.nr⟩ else g
    (u, if t.e.trans then ⟨t.e.vrow + v.c, t.e.vcol + v.r, v.nc, v.nr⟩ else ⟨t.e.vrow + v.r, t.e.vcol + v.c, v.nr, v.nc⟩)

/-- The virtual addresses a move takes: the whole run of its shard, so that no shard of another tensor is split (R324). -/
def moveRange (m : Move) : Nat × Nat := (m.run * shardBytes, shardBytes)

/-- A staged copy, through whatever view it was staged, holds a byte of these runs of a scratch tensor; so does one whose tensor is gone. -/
def stagedIn (x : Ctx) (g : Nat × Nat × Nat) (call : Nat) (rs : List Strip) : Bool :=
  match tensor x g.1 with
  | none => true
  | some t =>
    let q := storedExtent x t ⟨g.2.1, 0, g.2.2, t.e.whole.nc⟩
    q.1.call == call && (runsOf x q).any fun a => rs.any fun b => meets a.off a.len b.off b.len

/-- A staged copy holds bytes of a run of virtual addresses; so does one whose tensor is gone. -/
def stagedMeets (x : Ctx) (g : Nat × Nat × Nat) (va n : Nat) : Bool :=
  match tensor x g.1 with
  | none => true
  | some t =>
    let q := storedExtent x t ⟨g.2.1, 0, g.2.2, t.e.whole.nc⟩
    (runsOf x q).any fun r => meets (q.1.e.base + r.off) r.len va n

/-- A foreground write of these runs of virtual addresses: it abandons the moves of the shards it meets and ends the staged copies of the
lines it meets, whatever tensor names them (R329, R341). -/
def wrote (x : Ctx) (l : List (Nat × Nat)) : Ctx :=
  let cat := x.cat
  { x with cat := { cat with
      round := cat.round.map fun r => (r.1, r.2.map fun m =>
        if l.any (fun q => let g := moveRange m; meets q.1 q.2 g.1 g.2) then { m with abandoned := true } else m),
      staged := cat.staged.filter fun g => !(l.any fun q => stagedMeets x g q.1 q.2) } }

/-- Accesses of a tensor's shards: each run of virtual addresses warms the shards it lies in (R325). -/
def warm (e : Entry) (l : List Shard) (rs : List (Nat × Nat)) : List Shard :=
  l.zipIdx.map fun h =>
    let lo := (e.base / shardBytes + h.2) * shardBytes
    { h.1 with heat := min 0xFFFFFFFF (h.1.heat + (rs.filter fun r => meets r.1 r.2 lo shardBytes).length) }

/-- An access by virtual address warms the shards of every entry whose range it meets. -/
def warmVa (x : Ctx) (va n : Nat) : Ctx :=
  let part (e : Entry) : List (Nat × Nat) :=
    if meets va n e.base e.span then [(max va e.base, min (va + n) (e.base + e.span) - max va e.base)] else []
  let heat (p : Nat × List Shard) : Nat × List Shard := match tget x.cat.live p.1 with | some e => (p.1, warm e p.2 (part e)) | none => p
  { x with cat := { x.cat with shards := x.cat.shards.map heat } }

/-- A foreground access of a unit to an extent of a tensor (R270, R289, R325, R329, R341): its heat, its slots, annex lines and packets; a
write abandons moves and ends staged copies. A scratch tensor costs no memory traffic. The accessing carrel is a carrel of the grant,
freely chosen (R334), where none is named. -/
def touchAt (s : State) (c call : Nat) (g : Extent) (write : Bool) (unit : Option Nat := none) : State :=
  match getCtx s c with
  | none => s
  | some x =>
    match tensor x call with
    | none => s
    | some t =>
      let q := storedExtent x t g
      let rs := runsOf x q
      if q.1.e.cls = 3 then (if write then modCtx s c fun x =>
        { x with cat := { x.cat with staged := x.cat.staged.filter fun g => !stagedIn x g q.1.call rs } } else s)
      else
        let k := match unit with | some l => (l, s) | none => someCarrel s x
        let s1 := rs.foldl (fun s r => runAccess c x (.wing (carrelWing k.1)) q.1.e.cls (q.1.e.kind == 2) write (r.len / frameBytes + 2)
          (q.1.e.base + r.off) r.inRow r.len s) k.2
        modCtx s1 c fun x =>
          let y := { x with cat := { x.cat with shards := match tget x.cat.shards q.1.idx with
                                                         | some l => tset x.cat.shards q.1.idx (warm q.1.e l (rs.map fun r => (q.1.e.base + r.off, r.len)))
                                                         | none => x.cat.shards } }
          if write then wrote y (rs.map fun r => (q.1.e.base + r.off, r.len)) else y

/-- An access to whole lines of a tensor. -/
def touch (s : State) (c call r n : Nat) (write : Bool) : State :=
  match getCtx s c with
  | none => s
  | some x => match tensor x call with | some t => touchAt s c call ⟨r, 0, n, t.e.whole.nc⟩ write | none => s

/-- An access to all of a tensor. -/
def touchAll (s : State) (c call : Nat) (write : Bool) : State :=
  match getCtx s c with
  | none => s
  | some x => match tensor x call with | some t => touchAt s c call t.e.whole write | none => s

/-- A read of `n` bytes at `va` of context `c` by a firmware core or a port: hub 0's, past the annex (R289). -/
def readBuffer (s : State) (c va n : Nat) : State :=
  match getCtx s c with
  | none => s
  | some x => runAccess c x (.hub 0) 0 false false (n / frameBytes + 2) va 0 n s

/-- Writes bytes at `va` of context `c` for a firmware core or a port: hub 0's, past the annex. -/
def writeVa (s : State) (c va : Nat) (b : Bytes) : State :=
  match getCtx s c with
  | none => s
  | some x =>
    let s1 := runAccess c x (.hub 0) 0 false true (b.length / frameBytes + 2) va 0 b.length s
    let s2 := tellPeers (clearAtoms (writeBytesVa s1 c va b) c va b.length) c
      ((List.range b.length).filterMap fun k => translate x (va + k) true)
    modCtx s2 c fun x => wrote x [(va, b.length)]

/-! ### Ledger cells (R276, R285) -/

/-- Byte offset of cell (i, j): groups of eight cells of 40 bytes. -/
def cellOff (e : Entry) (i j : Nat) : Nat := i * e.step + j * 40

/-- The physical address of a cell, the key of its state bits. -/
def cellKey (x : Ctx) (t : TRef) (i j : Nat) : Nat :=
  match placeOf x t (cellOff t.e i j) false with | some (.phys pa) => pa | _ => 0

/-- Reads a ledger cell, and whether it is poisoned; none is EACCESS. -/
def readCell (s : State) (x : Ctx) (t : TRef) (i j : Nat) : Option (Ledger × Bool) :=
  match readBytes s x t (cellOff t.e i j) 40 with
  | none => none
  | some b =>
    let st := tgetD s.mem.cellState (cellKey x t i j) 0
    some (⟨BitVec.ofNat 320 (leNat b), bitOf st 0, bitOf st 1, bitOf st 2⟩, anyPoison s x t (cellOff t.e i j) 40)

def ledgerState (l : Ledger) : Nat := b2n l.nan + 2 * b2n l.pinf + 4 * b2n l.ninf

/-- Writes a ledger cell: the value in the address space, the state in the home bank's metadata (R285). -/
def writeCell (s : State) (c : Nat) (t : TRef) (i j : Nat) (l : Ledger) : Option State :=
  match getCtx s c with
  | none => none
  | some x =>
    match byteUnits x t (cellOff t.e i j) (leBytes 40 l.l.toNat) with
    | none => none
    | some us =>
      let k := cellKey x t i j
      let s1 := applyUnits s c us
      some { s1 with mem := { s1.mem with cellState := tset0 s1.mem.cellState k (ledgerState l) } }

/-- The norm-reduce of the running attempt has delivered its cells, also to a member that it excluded (R424). -/
def cellsDelivered (x : Ctx) : Bool :=
  x.colls.any fun q => q.norm.isSome && q.epoch == x.gate.epoch && q.id % 2 ^ 36 == x.gate.attempt % 2 ^ 36

/-- A scale-gradient cell tensor takes no ledger add from the member's notice to the next admission (R424), nor after the combined cells have
been delivered, which every member holds alike. -/
def frozenCells (x : Ctx) (cn : Nat) : Bool :=
  x.pol.groups.any (fun g => g.2.sg && g.2.grad == cn)
  && (match x.att with | some a => a.contributed || cellsDelivered x | none => x.gate.ranStep) && x.edition != 1

/-! ### Quires (R112–R120) -/

/-- Byte offset of quire `n` of line `i`. -/
def quireOff (e : Entry) (i n : Nat) : Nat := i * e.step + n * 576

def readQuire (s : State) (x : Ctx) (t : TRef) (i n : Nat) : Option (Bytes × Bool) :=
  (readBytes s x t (quireOff t.e i n) 576).map fun b => (b, anyPoison s x t (quireOff t.e i n) 576)

/-- Element code `k` of a quire, `w` bits wide (R32). -/
def quireCode (b : Bytes) (w k : Nat) : Nat := ((b.getD (k * w / 8) 0).toNat / 2 ^ (k * w % 8)) % 2 ^ w

/-- Packs codes of `w` bits, eight bits to a byte (R32). -/
def packCodes (w : Nat) : List Nat → Bytes
  | a :: b :: c :: d :: r =>
    if w = 2 then BitVec.ofNat 8 (a + 4 * b + 16 * c + 64 * d) :: packCodes w r
    else if w = 4 then BitVec.ofNat 8 (a + 16 * b) :: BitVec.ofNat 8 (c + 16 * d) :: packCodes w r
    else BitVec.ofNat 8 a :: BitVec.ofNat 8 b :: BitVec.ofNat 8 c :: BitVec.ofNat 8 d :: packCodes w r
  | l =>
    if w = 4 then (match l with | [a, b, c] => [BitVec.ofNat 8 (a + 16 * b), BitVec.ofNat 8 c] | [a, b] => [BitVec.ofNat 8 (a + 16 * b)]
                                | [a] => [BitVec.ofNat 8 a] | _ => [])
    else if w = 2 then (match l with | [] => [] | l => [BitVec.ofNat 8 (l.getD 0 0 + 4 * l.getD 1 0 + 16 * l.getD 2 0)])
    else l.map (BitVec.ofNat 8)

end Sys2Proof.Machine
end

