-- ==== Sys2Proof/Machine/Quant.lean ====
section
/-! DEFINITION. Quantisation, rotations, marginalia and quires (R72–R120, R110, R393). -/

namespace Sys2Proof.Machine

/-! ### Policies in force (R73, R110, R111, R393) -/

/-- The rung in force at a watch entry; none for a layer that is not defined. -/
def rungOf (x : Ctx) (layer : Nat) : Option Nat := (tget x.pol.watch layer).map Watch.rung

def Policy.g (p : Policy) : Nat := gsizeOf p.gsize
/-- Group scale format (R72). -/
def Policy.sf (p : Policy) : Fmt := if p.sfmt then .e4m3 else .e8m0

/-- +0 or positive and finite. -/
def posOrZero (c : Nat) : Bool := c == 0 || ((v32 c).isFin && !(v32 c).isNeg && !(v32 c).isZero)

/-- The checks of R73, with R54 and R62 for its round code and stream. -/
def policyOk (x : Ctx) (p : Policy) (zeropts : Nat) : Bool :=
  [0, 1, 2, 3, 4, 5, 6, 7].contains p.fmt && p.gsize ≤ 2 && !(p.gsize == 0 && p.fmt ≤ 1)
  && (if p.rot then p.rotId != 0 && (tget x.pol.rot p.rotId).isSome else p.rotId == 0)
  && (!p.marg || [0, 1, 2, 4].contains p.fmt) && posOrZero p.tau && posOrZero p.beta
  && !(p.learned && p.fmt == 3 && zeropts == 0) && p.round ≤ 2 && p.stream < 0xFF00

/-- The effective policy of a quantised entry, and whether its layer stands at rung 4 (R393, R397). -/
def effective (x : Ctx) (e : Entry) : Policy × Bool :=
  match tget x.pol.watch e.layer with
  | none => (e.policy, false)
  | some w => if e.layer = 0xFFFF then (e.policy, false) else (policyAt e.policy w w.rung, w.rung == 4)

/-- Rung 1 or 2 needs a rotation whose block divides the grouped axis (R393). -/
def rungOk (x : Ctx) (e : Entry) (p : Policy) : Bool :=
  !p.rot || (match tget x.pol.rot p.rotId with | some r => e.axisLen % r.n == 0 | none => false)

/-! ### Rotation (R93–R95) -/

/-- Whether the sign d_k is −1 (R93). -/
def signNeg (seed k : Nat) : Bool := bitOf (draw seed 0 0 (k / 32)) (k % 32)

def applySigns (seed : Nat) (k : Nat) : List Nat → List Nat
  | [] => []
  | c :: r => (if signNeg seed k then neg32 c else c) :: applySigns seed (k + 1) r

def zipOp (op : Nat → Nat → Nat × Flags) : List Nat → List Nat → List Nat × Flags
  | a :: as, b :: bs => let p := op a b; let r := zipOp op as bs; (p.1 :: r.1, p.2.or r.2)
  | _, _ => ([], Flags.none)

/-- One stage of the butterfly with distance `h`: pairs j, j + h where bit h of j is 0. -/
def butterflyStage (h : Nat) : Nat → List Nat → List Nat × Flags
  | 0, l => (l, Flags.none)
  | n + 1, l =>
    match l with
    | [] => ([], Flags.none)
    | l =>
      let a := l.take h; let b := (l.drop h).take h
      let p := zipOp add32 a b; let m := zipOp sub32 a b
      let r := butterflyStage h n (l.drop (2 * h))
      (p.1 ++ m.1 ++ r.1, (p.2.or m.2).or r.2)

/-- The stages h = 1, 2, 4 … below n. -/
def butterfly : Nat → Nat → List Nat → List Nat × Flags
  | 0, _, l => (l, Flags.none)
  | st + 1, h, l =>
    if l.length ≤ h then (l, Flags.none) else
    let p := butterflyStage h l.length l
    let q := butterfly st (2 * h) p.1
    (q.1, p.2.or q.2)

/-- Splits a line in blocks of `n`. -/
def blocksOf (n : Nat) : Nat → List α → List (List α)
  | 0, _ => []
  | k + 1, l => match l with | [] => [] | l => l.take n :: blocksOf n k (l.drop n)

def mapFlags (f : α → β × Flags) : List α → List β × Flags
  | [] => ([], Flags.none)
  | a :: r => let p := f a; let q := mapFlags f r; (p.1 :: q.1, p.2.or q.2)

/-- The forward rotation of a line that starts at axis index `k0` (R94). -/
def rotateLine (r : RotEntry) (k0 : Nat) (l : List Nat) : List Nat × Flags :=
  let bs := blocksOf r.n (l.length) (applySigns r.seed k0 l)
  let p := mapFlags (butterfly 8 1) bs
  (p.1.flatten, p.2)

/-- The inverse: the butterfly, then the signs, then 1/n by RNE (R220). -/
def unrotateLine (r : RotEntry) (k0 : Nat) (l : List Nat) : List Nat × Flags :=
  let p := mapFlags (butterfly 8 1) (blocksOf r.n l.length l)
  let inv := (roundTo .fp32 (XReal.pow2 (-(Nat.log2 r.n : Nat)))).1
  let q := mapFlags (fun c => mul32 c inv) (applySigns r.seed k0 p.1.flatten)
  (q.1, p.2.or q.2)

/-! ### Scales (R77–R82) -/

/-- The bound M of a format (R74). -/
def boundM (f : Fmt) : XReal :=
  match f with
  | .t2 | .int2 => .ofNat 1 | .int4 => .ofNat 7 | .uint4 => .ofNat 15 | .fp4 => .ofNat 6 | .int8 => .ofNat 127
  | .e4m3 => .ofNat 448 | .e5m2 => .ofNat 57344 | _ => .ofNat 1

/-- The value of a group scale code; NaN for the codes R77 calls so. -/
def scaleVal (sf : Fmt) (c : Nat) : XReal :=
  if sf == .e4m3 && 0x7F ≤ c % 256 then .nan else decode sf c

def scaleOne (sf : Fmt) : Nat := if sf == .e4m3 then 0x38 else 0x7F
def scaleNan (sf : Fmt) : Nat := if sf == .e4m3 then 0x7F else 0xFF

/-- The smallest E4M3 code in 1..0x7E whose value is at least `q`. -/
def leastE4M3 (q : XReal) : Nat → Nat → Nat
  | 0, c => c
  | n + 1, c => if q.le (decode .e4m3 c) then c else leastE4M3 q n (c + 1)

/-- The scale code for a magnitude `a` above 0 (R80, R82). -/
def scaleFor (sf : Fmt) (m a : XReal) : Nat × Flags :=
  let q := a.div m
  if sf == .e4m3 then
    if XReal.lt (.ofNat 448) q then (0x7E, Flags.OF) else (leastE4M3 q 125 1, Flags.none)
  else if q.isInf then (0xFE, Flags.OF)
  else
    let k := q.ilog2
    let e := if XReal.eq q (.pow2 k) then k else k + 1
    if 127 < e then (0xFE, Flags.OF) else if e < -127 then (0x00, Flags.none) else ((e + 127).toNat, Flags.none)

def maxAbs (l : List Nat) : Nat := l.foldl (fun a c => if XReal.lt (v32 a) (v32 (abs32 c)) then abs32 c else a) 0
def maxOf (l : List Nat) : Nat := l.foldl (fun a c => if XReal.lt (v32 a) (v32 c) then c else a) 0
def minOf (l : List Nat) : Nat := l.foldl (fun a c => if XReal.lt (v32 c) (v32 a) then c else a) 0

/-- The scale and zero point codes of a group under dynamic scales (R80–R82); `l` holds its real elements. -/
def dynScale (p : Policy) (l : List Nat) : Nat × Nat × Flags :=
  if l.any (fun c => !(v32 c).isFin) then (scaleNan p.sf, 0, Flags.NV)
  else if p.f == .uint4 then
    let hi := maxOf l; let lo := minOf l
    let r := (sub32 hi lo).1
    if (v32 r).isZero then (scaleOne p.sf, 0, Flags.none) else
    let s := scaleFor p.sf (boundM .uint4) (v32 r)
    let z := (roundInt .rne 0 ((v32 lo).neg.div (scaleVal p.sf s.1))).1
    (s.1, if z < 0 then 0 else if 15 < z then 15 else z.toNat, s.2)
  else
    let amax := maxAbs l
    let a := if p.marg then
        let ss := l.foldl (fun t c => (add32 t (mul32 c c).1).1) 0
        let rms := (roundTo .fp32 (sqrtX (v32 (div32 ss (roundTo .fp32 (.ofNat p.g)).1).1))).1
        let lim := (mul32 (if p.beta = 0 then 0x40000000 else p.beta) rms).1
        if XReal.lt (v32 lim) (v32 amax) then lim else amax
      else amax
    if (v32 a).isZero then (scaleOne p.sf, 0, Flags.none) else
    let s := scaleFor p.sf (boundM p.f) (v32 a)
    (s.1, 0, s.2)

/-! ### Quantising one line (R108) -/

/-- What a quantisation reads of a quantised entry besides its source line. -/
structure QCtx where
  p : Policy
  st : Nat                   -- tensor scale code
  rot : Option RotEntry
  seed : Nat                 -- the patron's stochastic seed
  step : Nat
deriving DecidableEq, Repr

/-- A quantised line: element codes, group scales and zero points, records by axis position, overfull blocks by number. -/
structure LineQ where
  codes : List Nat
  scales : List Nat
  zps : List Nat
  recs : List (Nat × Nat)
  overfull : List Nat
  flags : Flags
deriving DecidableEq, Repr

/-- A tensor scale that makes every element a NaN (R78). -/
def badTensorScale (st : Nat) : Bool := let v := v32 st; v.isNan || v.isInf || (v.isNeg && !v.isZero)

/-- The candidates of an aligned block: axis position, magnitude (R100). -/
def insertBig (k : Nat) (v : Nat) : List (Nat × Nat) → List (Nat × Nat)
  | [] => [(k, v)]
  | (k', v') :: r => if XReal.lt (v32 v') (v32 v) then (k, v) :: (k', v') :: r else (k', v') :: insertBig k v r

/-- The axis positions a block takes into marginalia, and whether it is overfull (R101–R103). -/
def blockTakes (cands : List (Nat × Nat)) : List Nat × Bool :=
  if cands.length ≤ 8 then (cands.map (·.1), false)
  else (((cands.foldl (fun a c => insertBig c.1 c.2 a) []).take 8).map (·.1), true)

/-- Steps 2 to 4 of R108 on a run of a line that begins at axis index `k0`: the rotated values, the values x' after division, the
scale and zero point code of each group, the groups R82 makes NaN, and the flags. -/
structure Prep where
  rot : List Nat
  xs : List Nat
  sc : List (Nat × Nat)
  badG : List Bool
  flags : Flags
deriving DecidableEq, Repr

def prepLine (q : QCtx) (k0 : Nat) (learned : Option (List (Nat × Nat))) (src : List Nat) : Prep :=
  let p := q.p
  let r1 := match q.rot with | some r => rotateLine r k0 src | none => (src, Flags.none)
  let r2 := if q.st = 0x3F800000 then (r1.1, Flags.none) else mapFlags (fun c => div32 c q.st) r1.1
  let groups := blocksOf p.g (ceilDiv src.length p.g) r2.1
  let dyn := mapFlags (fun l => let d := dynScale p l; ((d.1, d.2.1), d.2.2)) groups
  let sc : List (Nat × Nat) × Flags := match learned with | some l => (l, Flags.none) | none => dyn
  { rot := r1.1, xs := r2.1, sc := sc.1,
    badG := groups.map fun l => learned.isNone && l.any (fun c => !(v32 c).isFin),
    flags := (r1.2.or r2.2).or sc.2 }

/-- Quantises a run of a line that begins at axis index `k0`: `src` holds its FP32 values, `lidx k` the logical index of the run's
k-th element, `learned` the scale and zero point codes of each group where scales are learned (R108). A learned scale of value 0 divides
as any other: x'/0 is an infinity, or for 0/0 a NaN, and converts so (DESIGN CHOICE, log 117: R108 does not say). -/
def quantLine (q : QCtx) (k0 : Nat) (lidx : Nat → Nat) (learned : Option (List (Nat × Nat))) (src : List Nat) : LineQ :=
  let p := q.p
  let g := p.g
  let ng := ceilDiv src.length g
  if (v32 q.st).isZero then
    let sc := match learned with | some l => l | none => List.replicate ng (scaleOne p.sf, 0)
    { codes := (List.range src.length).map fun k => if p.f == .uint4 then (sc.getD (k / g) (0, 0)).2 else 0,
      scales := sc.map (·.1), zps := sc.map (·.2), recs := [], overfull := [], flags := Flags.none }
  else
    let pr := prepLine q k0 learned src
    let bad : Nat → Bool := fun k => pr.badG.getD (k / g) false
    let tau := if p.tau = 0 then boundM p.f else v32 p.tau
    let xs := pr.xs
    let cand : Nat → Bool := fun k =>
      p.marg && !bad k && XReal.lt (tau.mul (scaleVal p.sf (pr.sc.getD (k / g) (0, 0)).1)) (v32 (abs32 (xs.getD k 0)))
    let nb := ceilDiv xs.length 128
    let takes := (List.range nb).map fun b =>
      blockTakes (((List.range 128).map (· + 128 * b)).filterMap fun k =>
        if k < xs.length && cand k then some (k, abs32 (xs.getD k 0)) else none)
    let taken : Nat → Bool := fun k => (takes.getD (k / 128) ([], false)).1.contains k
    let recs := mapFlags (fun k => let c := convertCode .fp32 .bf16 .rne 0 (pr.rot.getD k 0); ((k, c.1), c.2))
      ((List.range xs.length).filter taken)
    let cs := mapFlags (fun k =>
      if taken k then (0, Flags.none)
      else if bad k then (0, Flags.none)
      else
        let s := pr.sc.getD (k / g) (0, 0)
        let v := (v32 (xs.getD k 0)).div (scaleVal p.sf s.1)
        let v := if p.f == .uint4 then v.add (.ofNat s.2) else v
        let d := if p.round = 2 then draw q.seed p.stream q.step (lidx k) else 0
        convert p.f ((RM.ofCode p.round).getD .rne) d v) (List.range xs.length)
    { codes := cs.1, scales := pr.sc.map (·.1), zps := pr.sc.map (·.2), recs := recs.1,
      overfull := (List.range nb).filter fun b => (takes.getD b ([], false)).2,
      flags := (pr.flags.or recs.2).or cs.2 }

/-! ### Quires: forming and checking (R112–R118) -/

/-- First record of the slot of quire `n` of line `i` (R656). -/
def slotOf (e : Entry) (i n : Nat) : Nat :=
  let E := quireElems e.policy.f
  (i * ceilDiv e.axisLen E + n) * (E / 16)

/-- Quire `n` of a quantised run whose first quire is quire `n0` of line `i`, with its records (R112–R117). -/
def formQuire (e : Entry) (p : Policy) (l : LineQ) (i n0 n : Nat) : Bytes × List Nat :=
  let E := quireElems p.f
  let g := p.g
  let len := l.codes.length
  let ng := E / g
  let zpOf : Nat → Nat := fun j => l.zps.getD j 0
  let codes := (List.range E).map fun k =>
    let a := n * E + k
    if a < len then l.codes.getD a 0 else if p.f == .uint4 then zpOf (a / g) else 0
  let scales := (List.range 32).map fun j => if j < ng then l.scales.getD (n * ng + j) (scaleOne p.sf) else 0
  let recs := l.recs.filter fun r => n * E ≤ r.1 && r.1 < (n + 1) * E
  let words := recs.map fun r => r.2 * 65536 + (r.1 - n * E)
  let overs := (List.range (E / 128)).foldl (fun a b => if l.overfull.contains (n * (E / 128) + b) then a + 2 ^ b else a) 0
  let zps := if p.f == .uint4 then packCodes 4 ((List.range 32).map fun j => if j < ng then zpOf (n * ng + j) else 0) else zeros 16
  let body := packCodes p.f.width codes ++ scales.map (BitVec.ofNat 8)
    ++ leBytes 1 (b2n (p.f == .uint4) * 128 + b2n p.sfmt * 64 + p.gsize * 16 + p.fmt) ++ leBytes 1 words.length ++ leBytes 2 overs
    ++ leBytes 4 (if words.isEmpty then 0 else slotOf e i (n0 + n)) ++ leBytes 2 p.rotId ++ leBytes 1 1 ++ zeros 1 ++ zps
  (body ++ leBytes 4 (crc32 body), words)

/-- The side fields of a quire. -/
def qFmt (b : Bytes) : Nat := fld b 544 1 % 16
def qCount (b : Bytes) : Nat := fld b 545 1
def qOver (b : Bytes) : Nat := fld b 546 2
def qIndex (b : Bytes) : Nat := fld b 548 4
def qRot (b : Bytes) : Nat := fld b 552 2
def qZp (b : Bytes) (j : Nat) : Nat := quireCode (slice b 556 16) 4 j

/-- The records of a tensor's marginalia region from record `r` (R104, R656). -/
def readRecs (s : State) (x : Ctx) (e : Entry) (r : Nat) : Nat → Option (List Nat × Bool)
  | 0 => some ([], false)
  | n + 1 =>
    match tensor x e.marg with
    | none => none
    | some t =>
      if t.e.rows * t.e.cols ≤ r then none else
      match readCode s x t (r / t.e.cols) (r % t.e.cols), readRecs s x e (r + 1) n with
      | some (c, p), some (l, q) => some (c :: l, p || q)
      | _, _ => none

/-- The address of the first poisoned record of a run of marginalia. -/
def poisonRec (s : State) (x : Ctx) (e : Entry) (r : Nat) : Nat → Nat
  | 0 => 0
  | n + 1 =>
    match tensor x e.marg with
    | none => 0
    | some t =>
      match readCode s x t (r / t.e.cols) (r % t.e.cols) with
      | some (_, true) => addrOf x t (r / t.e.cols) (r % t.e.cols)
      | _ => poisonRec s x e (r + 1) n

/-- The address of the first record of a run that lies in the region and that no read reaches: its translation is refused. -/
def refusedRec (s : State) (x : Ctx) (e : Entry) (r : Nat) : Nat → Option Nat
  | 0 => none
  | n + 1 =>
    match tensor x e.marg with
    | none => none
    | some t =>
      if t.e.rows * t.e.cols ≤ r then none
      else if (readCode s x t (r / t.e.cols) (r % t.e.cols)).isNone then some (addrOf x t (r / t.e.cols) (r % t.e.cols))
      else refusedRec s x e (r + 1) n

def strictRise : List Nat → Bool
  | a :: b :: r => a < b && strictRise (b :: r)
  | _ => true

/-- The checks of R118 in order on quire `n` of line `i`: the code of the first that fails, 0 where none does. A `rot_id` above 4,095 fails
as check 2 (DESIGN CHOICE, log 118: R92 calls it a reserved value, and check 4 would catch it too). -/
def quireCheck (e : Entry) (p : Policy) (b : Bytes) (recs : Option (List Nat)) (i n : Nat) : Nat :=
  let f := (Fmt.ofCode (qFmt b)).getD .fp32
  let E := quireElems f
  let gs := bitsOf (fld b 544 1) 5 4
  let ng := E / gsizeOf gs
  if crc32 (b.take 572) != fld b 572 4 then 1
  else if fld b 554 1 != 1 || fld b 555 1 != 0 || 4096 ≤ qRot b || !f.narrow || gs == 3 || !zeroAt b (512 + ng) (32 - ng) then 2
  else if bitOf (fld b 544 1) 7 != (f == .uint4) || (f != .uint4 && !zeroAt b 556 16)
    || (f.width == 8 && (qCount b != 0 || qOver b != 0)) || 8 * (E / 128) < qCount b || 2 ^ (E / 128) ≤ qOver b then 3
  else if qFmt b != p.fmt || gs != p.gsize || bitOf (fld b 544 1) 6 != p.sfmt || qRot b != p.rotId then 4
  else if qCount b == 0 then 0
  else if qIndex b != slotOf e i n then 5
  else match recs with
    | none => 5
    | some l =>
      if l.any (fun r => bitsOf r 15 11 != 0 || E ≤ r % 2048) || !strictRise (l.map (· % 2048))
        || (List.range (E / 128)).any (fun k => 8 < (l.filter fun r => r % 2048 / 128 == k).length) then 5 else 0

/-- A quire as the feeder takes it: its bytes and records, checked. -/
inductive QRead where
  | ok (b : Bytes) (recs : List Nat)
  | bad (f : XFault)
deriving DecidableEq, Repr

/-- Reads and checks quire `n` of line `i` (R118, R305). Records whose translation is refused give EACCESS (R241), once every check before
theirs has passed. A poisoned quire ends with EPOISON before any check; a poisoned record is first
judged by check 5 and then gives EPOISON (DESIGN CHOICE, log 118: the manual gives no order of EPOISON and EQUIRE). -/
def feedQuire (s : State) (x : Ctx) (t : TRef) (p : Policy) (i n : Nat) : QRead :=
  let va := t.e.base + quireOff t.e i n
  match readQuire s x t i n with
  | none => .bad ⟨.eaccess, 0, va⟩
  | some (b, poison) =>
    if poison then .bad ⟨.epoison, 0, poisonAddr s x t (quireOff t.e i n) 576⟩ else
    let cnt := if qCount b ≤ 128 then qCount b else 0
    let recs := if cnt = 0 then some ([], false) else readRecs s x t.e (qIndex b) cnt
    let k := quireCheck t.e p b (recs.map (·.1)) i n
    let refused := if recs.isNone && k == 5 && qIndex b == slotOf t.e i n then refusedRec s x t.e (qIndex b) cnt else none
    if let some a := refused then .bad ⟨.eaccess, 0, a⟩ else
    if k != 0 then .bad ⟨.equire, k, va⟩ else
    match recs with
    | some (l, false) => .ok b l
    | _ => .bad ⟨.epoison, 0, poisonRec s x t.e (qIndex b) cnt⟩

/-! ### Element values (R74–R78) -/

/-- A narrow element's level, scale and tensor scale as a value in FP32 (R74, R75, R77, R78). Under a zero group scale the value is 0
without a flag; a bad tensor scale makes it a NaN even so (log 116). -/
def elemValue (f sf : Fmt) (code zp scale st : Nat) : Nat × Flags :=
  let sv := scaleVal sf scale
  if sv.isNan || badTensorScale st then (nan32, Flags.NV) else
  if sv.isZero then (0, Flags.none) else
  let lv := if f == .uint4 then (decode .uint4 code).sub (.ofNat zp) else decode f code
  let fl := consumeFlags f code
  if lv.isNan then (nan32, fl) else
  let pr := lv.mul sv
  let big := pr.isFin && XReal.le (.pow2 128) pr.abs
  let pr1 := if big then .inf pr.isNeg else pr
  let r := if st = 0x3F800000 then roundTo .fp32 pr1 else roundTo .fp32 (pr1.mul (v32 st))
  (r.1, (fl.or (Flags.when big (Flags.OF.or Flags.NX))).or r.2)

/-- The tensor scale of an entry: 1.0 where it names none (R78); poison and EACCESS are faults. -/
def tensorScale (s : State) (x : Ctx) (e : Entry) : Except XFault Nat :=
  if e.tscale = 0 then .ok 0x3F800000 else
  match tensor x e.tscale with
  | none => .error ⟨.eaccess, 0, 0⟩
  | some t =>
    match readCode s x t 0 0 with
    | none => .error ⟨.eaccess, 0, t.e.base⟩
    | some (_, true) => .error ⟨.epoison, 0, t.e.base⟩
    | some (c, false) => .ok c

/-- A tensor scale as a folio keeps it, and back (R79). -/
def XScale.of : Except XFault Nat → XScale
  | .ok n => .code n
  | .error f => if f.status == .epoison then .poisoned f.detail else .refused f.detail
def XScale.get : XScale → Except XFault Nat
  | .code n => .ok n
  | .poisoned a => .error ⟨.epoison, 0, a⟩
  | .refused a => .error ⟨.eaccess, 0, a⟩

/-- Reads plain codes of an extent's line, converted to FP32; the first poisoned or refused element is a fault. -/
def readLine32 (s : State) (x : Ctx) (t : TRef) (pos : Nat → Nat × Nat) : Nat → Nat → Except XFault (List Nat × Flags)
  | _, 0 => .ok ([], Flags.none)
  | k, n + 1 =>
    let ij := pos k
    match readCode s x t ij.1 ij.2 with
    | none => .error ⟨.eaccess, 0, addrOf x t ij.1 ij.2⟩
    | some (_, true) => .error ⟨.epoison, 0, addrOf x t ij.1 ij.2⟩
    | some (c, false) =>
      match readLine32 s x t pos (k + 1) n with
      | .error f => .error f
      | .ok (l, fl) =>
        let r := convertCode t.fmt .fp32 .rne 0 c
        .ok (r.1 :: l, r.2.or fl)

/-- A code of a vector or table tensor by its flat index; poison and EACCESS are faults. -/
def flatCode (s : State) (x : Ctx) (cn k : Nat) : Except XFault (TRef × Nat) :=
  match tensor x cn with
  | none => .error ⟨.eaccess, 0, 0⟩
  | some t =>
    match readCode s x t (k / t.e.cols) (k % t.e.cols) with
    | none => .error ⟨.eaccess, 0, addrOf x t (k / t.e.cols) (k % t.e.cols)⟩
    | some (_, true) => .error ⟨.epoison, 0, addrOf x t (k / t.e.cols) (k % t.e.cols)⟩
    | some (c, false) => .ok (t, c)

/-- `f` on each item in order; the first fault ends the work. -/
def eachOk (f : α → Except XFault β) : List α → Except XFault (List β)
  | [] => .ok []
  | a :: r =>
    match f a with
    | .error e => .error e
    | .ok b => match eachOk f r with | .error e => .error e | .ok l => .ok (b :: l)

/-- Learned scale and zero point codes of `ng` groups of a line from group `g0` (R83, R89). -/
def learnedOf (s : State) (x : Ctx) (e : Entry) (p : Policy) (line g0 ng : Nat) : Except XFault (Option (List (Nat × Nat))) :=
  if !p.learned then .ok none else
  let all := ceilDiv e.axisLen p.g
  match eachOk (fun j =>
      let k := line * all + g0 + j
      match flatCode s x e.scales k with
      | .error f => .error f
      | .ok (_, a) =>
        if e.zeropts = 0 then .ok (a, 0) else
        match flatCode s x e.zeropts k with | .error f => .error f | .ok (_, z) => .ok (a, z)) (List.range ng) with
  | .error f => .error f
  | .ok l => .ok (some l)

/-- Matrix position of axis index `k` of a line (R207). -/
def linePos (gaxis : Bool) (line k : Nat) : Nat × Nat := if gaxis then (k, line) else (line, k)

/-- What quantising under an effective policy and a tensor scale reads besides the source. -/
def qctxOf (x : Ctx) (p : Policy) (st : Nat) : QCtx := ⟨p, st, if p.rot then tget x.pol.rot p.rotId else none, x.ident.seed, x.gate.step⟩

/-- The run of whole groups, rotation blocks and marginalia blocks around `len` axis positions from `k0`: its bounds. -/
def runBounds (x : Ctx) (e : Entry) (p : Policy) (k0 len : Nat) : Nat × Nat :=
  let n := if p.rot then (match tget x.pol.rot p.rotId with | some r => r.n | none => 1) else 1
  let al := max (max p.g n) (if p.marg then 128 else 1)
  (k0 / al * al, min e.axisLen (ceilDiv (k0 + len) al * al))

/-- A run with what R108 reads for it: its first axis index, its context, its source values and their flags, its learned scales. -/
structure RunSrc where
  a0 : Nat
  q : QCtx
  src : List Nat
  flags : Flags
  learned : Option (List (Nat × Nat))
deriving DecidableEq, Repr

/-- Reads the run around `len` positions from `k0` of a line under a tensor scale; `pos k` is the source element of axis index k. -/
def runSource (s : State) (x : Ctx) (e : Entry) (p : Policy) (u : TRef) (pos : Nat → Nat × Nat) (line k0 len st : Nat) :
    Except XFault RunSrc :=
  let b := runBounds x e p k0 len
  match readLine32 s x u pos b.1 (b.2 - b.1) with
  | .error f => .error f
  | .ok (l, fl) =>
    match learnedOf s x e p line (b.1 / p.g) (ceilDiv (b.2 - b.1) p.g) with
    | .error f => .error f
    | .ok lr => .ok ⟨b.1, qctxOf x p st, l, fl, lr⟩

/-- Quantises the run around `len` positions from `k0` of a line of an entry from its source, as a feeder or QNT does (R108, R109):
the run's first axis index and its quantised form. The zero-tensor case raises no flag at all. -/
def quantRun (s : State) (x : Ctx) (e : Entry) (p : Policy) (u : TRef) (pos : Nat → Nat × Nat) (line k0 len st : Nat) :
    Except XFault (Nat × LineQ) :=
  match runSource s x e p u pos line k0 len st with
  | .error f => .error f
  | .ok r =>
    let q := quantLine r.q r.a0 (fun k => let ij := linePos e.gaxis line (r.a0 + k); logicalIdx e ij.1 ij.2) r.learned r.src
    .ok (r.a0, { q with flags := if (v32 st).isZero then Flags.none else q.flags.or r.flags })

end Sys2Proof.Machine
end

