-- ==== Sys2Proof/Machine/Fold.lean ====
section
/-! DEFINITION. Folding: feeders, chunk results, promotion, orders of addition, integer totals (R121–R174, R246–R249, R394–R397). -/

namespace Sys2Proof.Machine

/-! ### Operands as the feeders take them -/

/-- One line of an operand over a run of K: the codes, and for each chunk of 32 the group scale and zero point codes; the tensor
scale; the marginalia records by position in the run; flags and overfull blocks of a quantisation made for it. -/
structure FLine where
  fmt : Fmt
  codes : List Nat
  sf : Fmt
  scs : List Nat
  zps : List Nat
  st : Nat
  recs : List (Nat × Nat)
  flags : Flags
  overs : Nat
deriving DecidableEq, Repr

/-- A line without scales. -/
def FLine.plain (f : Fmt) (codes : List Nat) (fl : Flags) : FLine := ⟨f, codes, .e8m0, [], [], 0x3F800000, [], fl, 0⟩
def FLine.scale (l : FLine) (c : Nat) : Nat := l.scs.getD c (scaleOne l.sf)
def FLine.zp (l : FLine) (c : Nat) : Nat := l.zps.getD c 0

/-- Quires are replaced by their source while the rung they were formed under differs from the rung in force (R395). -/
def substituted (x : Ctx) (t : TRef) : Bool :=
  match tget x.pol.imageRung t.idx, rungOf x t.e.layer with
  | some r, some w => t.e.kind == 1 && r != w
  | _, _ => false

/-- The tensor a quantised operand is formed from, with the place of its elements (R319, R395). -/
def sourceOf (x : Ctx) (e : Entry) : Option (TRef × (Nat → Nat → Nat × Nat)) :=
  match tensor x e.source with
  | none => none
  | some u => some (u, if e.kind = 4 then viewPos e else fun i j => (i, j))

/-- Cuts a quantised run that begins at axis index `a0` to `len` positions from `k0`. -/
def lineOfRun (p : Policy) (st a0 k0 len : Nat) (q : LineQ) : FLine :=
  let o := k0 - a0
  let gi : Nat → Nat := fun c => (o + 32 * c) / p.g
  let nc := ceilDiv len 32
  { fmt := p.f, codes := (q.codes.drop o).take len, sf := p.sf, scs := (List.range nc).map fun c => q.scales.getD (gi c) (scaleOne p.sf),
    zps := (List.range nc).map fun c => q.zps.getD (gi c) 0, st := st,
    recs := (q.recs.filter fun r => o ≤ r.1 && r.1 < o + len).map fun r => (r.1 - o, r.2), flags := q.flags,
    overs := q.overfull.length }

/-- The quires of a run, read in ascending order, as a run from the first quire's first element (R113). -/
def quireRunBy (rd : Nat → QRead) (p : Policy) (k0 len : Nat) : Except XFault (Nat × LineQ) :=
  let E := quireElems p.f
  let n0 := k0 / E
  let ns := (List.range ((k0 + len - 1) / E + 1 - n0)).map (· + n0)
  match eachOk (fun n => match rd n with | .bad f => .error f | .ok b r => .ok (b, r)) ns with
  | .error f => .error f
  | .ok l =>
    let ng := E / p.g
    let at_ : Nat → Bytes × List Nat := fun k => l.getD k ([], [])
    let idx := List.range l.length
    .ok (n0 * E,
      { codes := idx.flatMap fun k => (List.range E).map fun j => quireCode (at_ k).1 p.f.width j,
        scales := idx.flatMap fun k => (List.range ng).map fun j => fld (at_ k).1 (512 + j) 1,
        zps := idx.flatMap fun k => (List.range ng).map fun j => qZp (at_ k).1 j,
        recs := idx.flatMap fun k => (at_ k).2.map fun r => (k * E + r % 2048, r / 65536),
        overfull := [], flags := Flags.none })

/-- The quires of a run as a feeder takes them, each checked (R118). -/
def quireRun (s : State) (x : Ctx) (t : TRef) (p : Policy) (line k0 len : Nat) : Except XFault (Nat × LineQ) :=
  quireRunBy (feedQuire s x t p line) p k0 len

/-- A quantised operand's line under its effective policy and a tensor scale: its quires, or its source quantised on the fly (R109, R395). -/
def quantFeed (s : State) (x : Ctx) (t : TRef) (p : Policy) (line k0 len : Nat) (sc : Except XFault Nat) : Except XFault FLine :=
  match sc with
  | .error f => .error f
  | .ok st =>
    if t.e.kind = 4 ∨ substituted x t then
      match sourceOf x t.e with
      | none => .error ⟨.eaccess, 0, 0⟩
      | some (u, at_) =>
        match quantRun s x t.e p u (fun k => let ij := linePos t.e.gaxis line k; at_ ij.1 ij.2) line k0 len st with
        | .error f => .error f
        | .ok (a0, q) => .ok (lineOfRun p st a0 k0 len q)
    else
      match quireRun s x t p line k0 len with
      | .error f => .error f
      | .ok (a0, q) => .ok (lineOfRun p st a0 k0 len q)

/-- Codes of `n` plain elements; the first refused or poisoned is a fault. -/
def plainCodes (s : State) (x : Ctx) (u : TRef) (pos : Nat → Nat × Nat) (k0 n : Nat) : Except XFault (List Nat) :=
  eachOk (fun k =>
    let ij := pos (k0 + k)
    match readCode s x u ij.1 ij.2 with
    | none => .error ⟨.eaccess, 0, addrOf x u ij.1 ij.2⟩
    | some (_, true) => .error ⟨.epoison, 0, addrOf x u ij.1 ij.2⟩
    | some (c, false) => .ok c) (List.range n)

/-- The format of a plain tensor behind a plain tensor or view. -/
def wideFmt (f : Fmt) : Fmt := if f == .fp16 then .fp16 else .bf16

/-- A wide operand's line: BF16 or FP16 codes, FP32 rounded to BF16 (R246, R396). -/
def wideFeed (s : State) (x : Ctx) (u : TRef) (pos : Nat → Nat × Nat) (k0 len : Nat) : Except XFault FLine :=
  match plainCodes s x u pos k0 len with
  | .error f => .error f
  | .ok l =>
    let w := wideFmt u.fmt
    let r := if u.fmt == w then (l, Flags.none) else mapFlags (convertCode u.fmt w .rne 0) l
    .ok (FLine.plain w r.1 r.2)

/-- One line of an operand of a folio over `len` K positions from `k0`: `isA` tells which way K runs (R145), `sc` is the tensor scale the
folio's start read (R79). -/
def feedLine (s : State) (x : Ctx) (op : FoldOp) (rung4 isA : Bool) (t : TRef) (line k0 len : Nat) (sc : Except XFault Nat) :
    Except XFault FLine :=
  let pos : Nat → Nat × Nat := fun k => if isA then (line, k) else (k, line)
  if op == .xpop then
    match plainCodes s x t pos (k0 / 8) (len / 8) with
    | .error f => .error f
    | .ok l => .ok (FLine.plain .int8 l Flags.none)
  else if t.e.kind = 1 ∨ t.e.kind = 4 then
    if rung4 then
      match sourceOf x t.e with
      | none => .error ⟨.eaccess, 0, 0⟩
      | some (u, at_) => wideFeed s x u (fun k => let ij := pos k; at_ ij.1 ij.2) k0 len
    else quantFeed s x t (effective x t.e).1 line k0 len sc
  else if t.fmt.narrow then
    match plainCodes s x t pos k0 len with
    | .error f => .error f
    | .ok l => .ok (FLine.plain t.fmt l Flags.none)
  else wideFeed s x t pos k0 len

/-! ### Feed values (R126–R133, R139, R247) -/

inductive Mark where
  | none | nan | inf
deriving DecidableEq, Repr, Inhabited

/-- One element as the array takes it: feed value, mark, and the tests of R132 and R133. -/
structure FE where
  v : Int
  mark : Mark
  zero : Bool
  neg : Bool
  absent : Bool
deriving DecidableEq, Repr, Inhabited

/-- A chunk of one line: its feed factor is 2^fac, and each feed value is fed in `parts` nibbles (R126, R134, R248). -/
structure Feed where
  fac : Int
  parts : Nat
  els : List FE
  flags : Flags
deriving DecidableEq, Repr

def Feed.none : Feed := ⟨0, 1, [], Flags.none⟩

/-- The formats that a feeder aligns: bits below the alignment point of R129 and R247. -/
def alignTop (f : Fmt) : Option Int :=
  match f with | .e4m3 => some 7 | .e5m2 => some 6 | .bf16 | .fp16 => some 15 | _ => none

/-- Significand and exponent of a finite non-zero code (R129). -/
def sigExp (f : Fmt) (c : Nat) : Nat × Int :=
  match f.float with
  | none => (0, 0)
  | some sh =>
    let mag := c % 2 ^ (f.width - 1)
    let ef := mag / 2 ^ sh.mb; let m := mag % 2 ^ sh.mb
    if ef = 0 then (m, 1 - (sh.bias : Int)) else (2 ^ sh.mb + m, (ef : Int) - sh.bias)

/-- Nibbles of a feed value (R126, R248). -/
def feedParts (f : Fmt) : Nat := match f.width with | 8 => 2 | 16 => 4 | _ => 1

def mantissaBits (f : Fmt) : Int := match f.float with | some sh => (sh.mb : Int) | none => 0

/-- Alignment of one group of 32 elements (R129, R247). -/
def alignChunk (f : Fmt) (top : Int) (codes : List Nat) (absent : Nat → Bool) : Feed :=
  let idx := List.range codes.length
  let live : Nat → Bool := fun k => let d := decode f (codes.getD k 0); d.isFin && !d.isZero && !absent k
  let es := (idx.filter live).map fun k => (sigExp f (codes.getD k 0)).2
  let emax := match es with | [] => 0 | e :: r => r.foldl max e
  let r := mapFlags (fun k =>
    let c := codes.getD k 0
    let d := decode f c
    let neg := bitOf c (f.width - 1)
    let fl := consumeFlags f c
    if live k then
      let se := sigExp f c
      let q := roundUnits .rne 0 se.1 1 (se.2 - emax + top - mantissaBits f) 0
      (⟨if neg then -(q.1 : Int) else q.1, .none, false, neg, false⟩, Flags.when q.2 .NX)
    else (⟨0, if absent k then .none else if d.isNan then .nan else if d.isInf then .inf else .none, d.isZero, neg, absent k⟩, fl)) idx
  ⟨emax - top, feedParts f, r.1, r.2⟩

/-- The feed of chunk `c` of a line (R90, R126–R133): `scaled` where scales count, that is in float folios (R157). In a dot folio a zero group or
tensor scale makes the chunk all zeros and drops its marks, those of a NaN scale too (R161); the NaN scale is consumed and raises NV (R77,
R78, R131), the elements raise nothing, under a zero tensor scale either (DESIGN CHOICE, log 116: R77 says so of a zero group scale). An element
in marginalia is absent there no longer, and a UINT4 element has the sign of its level (DESIGN CHOICE, log 159). -/
def feedChunk (op : FoldOp) (scaled : Bool) (l : FLine) (c : Nat) : Feed :=
  let codes := (l.codes.drop (32 * c)).take 32
  let absent : Nat → Bool := fun k => l.recs.any fun r => r.1 == 32 * c + k
  let sv := scaleVal l.sf (l.scale c)
  let nanS := scaled && (sv.isNan || badTensorScale l.st)
  let zeroS := scaled && op == .dot && (sv.isZero || (v32 l.st).isZero)
  if zeroS then ⟨0, feedParts l.fmt, codes.map fun _ => ⟨0, .none, true, false, false⟩, Flags.when nanS .NV⟩
  else if nanS then ⟨0, feedParts l.fmt, (List.range codes.length).map fun k => ⟨0, .nan, false, false, absent k⟩, Flags.NV⟩
  else match alignTop l.fmt with
    | some top => alignChunk l.fmt top codes absent
    | none =>
      let r := mapFlags (fun k =>
        let code := codes.getD k 0
        let d : Int := match decode l.fmt code with
          | .fin s n _ e => let m : Int := (n * pow2p (if l.fmt == .fp4 then e + 1 else e) : Nat); if s then -m else m
          | _ => 0
        let lv : Int := if l.fmt == .uint4 && !(op == .l1 || op == .l2) then d - l.zp c else d
        ((⟨if absent k then 0 else lv, .none, d == 0, decide (lv < 0), absent k⟩ : FE), consumeFlags l.fmt code)) (List.range codes.length)
      ⟨if l.fmt == .fp4 then -1 else 0, feedParts l.fmt, r.1, r.2⟩

/-! ### Chunk results (R132, R135, R138–R143) -/

/-- The state bits of a chunk. -/
structure St3 where
  nan : Bool
  pinf : Bool
  ninf : Bool
deriving DecidableEq, Repr

/-- The state that one K position sets (R132, R133). An absent element, one in marginalia, sets none with its partner, but for the NaN scale
of its own group. -/
def posState (a b : FE) (t : St3) : St3 :=
  if (a.absent && a.mark == .nan) || (b.absent && b.mark == .nan) then { t with nan := true }
  else if a.absent || b.absent then t
  else if a.mark == .nan || b.mark == .nan then { t with nan := true }
  else if a.mark == .none && b.mark == .none then t
  else if (a.mark == .inf && b.zero) || (b.mark == .inf && a.zero) then { t with nan := true }
  else if a.neg != b.neg then { t with ninf := true } else { t with pinf := true }

def chunkState : List FE → List FE → St3
  | a :: as, b :: bs => posState a b (chunkState as bs)
  | _, _ => ⟨false, false, false⟩

/-! ### Passes (R123–R125, R128, R134–R137, R248) -/

/-- A value in a signed register of `w` bits. -/
def signedReg (w : Nat) (v : Int) : Int := sext w (twos w v)

/-- Part `i` of a feed value that is fed in `parts` nibbles, split by sign and magnitude: of one part the value itself, of two `lo` and
`hi` (R128), of four the nibbles n_0 to n_3 (R248). Every part lies in −15..15. -/
def feedPart (parts i : Nat) (v : Int) : Int :=
  if parts = 1 then v else let m : Int := (v.natAbs / 16 ^ i % 16 : Nat); if v < 0 then -m else m

/-- One pass over a chunk: part `i` of A by part `j` of B at each K position, summed in the cell's 16-bit register (R123, R124). -/
def passSum (pa pb i j : Nat) (a b : List FE) : Int :=
  signedReg 16 ((List.zipWith (fun p q => feedPart pa i p.v * feedPart pb j q.v) a b).foldl (· + ·) 0)

/-- The passes of an a-part by a b-part product in their order, and the weight of each (R134, R248). -/
def passOrder (pa pb : Nat) : List (Nat × Nat × Int) :=
  (List.range pa).flatMap fun i => (List.range pb).map fun j => (i, j, ((16 ^ (i + j) : Nat) : Int))

/-- Bits of the chunk register (R135, R248). -/
def chunkBits (pa pb : Nat) : Nat := if pa = 4 ∧ pb = 4 then 40 else 24

/-- The pass combiner: each pass result times its weight, added in the chunk register. -/
def dotSum (pa pb : Nat) (a b : List FE) : Int :=
  (passOrder pa pb).foldl (fun r q => signedReg (chunkBits pa pb) (r + passSum pa pb q.1 q.2.1 a b * q.2.2)) 0

/-- One K position's contribution to an operation of one pass (R138, R139, R140). -/
def cellOp (op : FoldOp) (a b : Int) : Int :=
  match op with
  | .l1 => ((a - b).natAbs : Int)
  | .l2 => (a - b) * (a - b)
  | _ => a + b

/-- The result of a chunk of a fed operation: of dot by passes, of the others in one (R135, R138). -/
def chunkSum (op : FoldOp) (pa pb : Nat) (a b : List FE) : Int :=
  if op == .dot then dotSum pa pb a b else
  let l := List.zipWith (fun p q => cellOp op p.v q.v) a b
  match op with
  | .maxp => (match l with | [] => 0 | v :: r => r.foldl max v)
  | .minp => (match l with | [] => 0 | v :: r => r.foldl min v)
  | _ => l.foldl (· + ·) 0

/-- The Hamming distance over 16 bytes (R143). -/
def hamming (a b : List Nat) : Nat := (List.zipWith (fun p q => bitCount (p ^^^ q)) a b).foldl (· + ·) 0

/-- K positions of a chunk: 32, of xor-popcount 128 bits (R143). A folio's chunk count C is K divided by it (DESIGN CHOICE for xor-popcount,
log 119: R149 writes C = K / 32). -/
def chunkWidth (op : FoldOp) : Nat := if op == .xpop then 128 else 32

/-! ### Promotion (R158–R162, R249) -/

/-- The factors of R158 beyond the chunk result, the factor 1/n of a rotation (R97) among them, as an exact value. -/
def factorOf (op : FoldOp) (fa fb : Feed) (a b : FLine) (c : Nat) (rho : XReal) : XReal :=
  let f : Int := match op with | .maxp | .minp => fa.fac | .xpop => 0 | _ => fa.fac + fb.fac
  if op == .dot then
    ((((scaleVal a.sf (a.scale c)).mul (scaleVal b.sf (b.scale c))).mul ((v32 a.st).mul (v32 b.st))).mul rho).scale f
  else (XReal.pow2 f).mul rho

/-- The term of a chunk (R158–R161, R171). -/
def promote (st : St3) (p : Int) (factor : XReal) : Nat × Flags :=
  if st.nan || (st.pinf && st.ninf) then (nan32, Flags.NV)
  else if st.pinf then (0x7F800000, Flags.none)
  else if st.ninf then (0xFF800000, Flags.none)
  else if p = 0 then (0, Flags.none)
  else roundTo .fp32 ((XReal.ofInt p).mul factor)

/-- Chunk result, state and term of chunk `c` of one output. -/
def chunkOf (op : FoldOp) (fa fb : List Feed) (a b : FLine) (c : Nat) : Int × St3 :=
  if op == .xpop then ((hamming ((a.codes.drop (16 * c)).take 16) ((b.codes.drop (16 * c)).take 16) : Nat), ⟨false, false, false⟩)
  else
    let x := fa.getD c Feed.none; let y := fb.getD c Feed.none
    (chunkSum op x.parts y.parts x.els y.els, chunkState x.els y.els)

def termOf (op : FoldOp) (rho : XReal) (fa fb : List Feed) (a b : FLine) (c : Nat) : Nat × Flags :=
  let r := chunkOf op fa fb a b c
  promote r.2 r.1 (factorOf op (fa.getD c Feed.none) (fb.getD c Feed.none) a b c rho)

/-- The value of a position for a marginalia term (R105). -/
def margVal (l : FLine) (k : Nat) : Nat × Flags :=
  match l.recs.find? (·.1 == k) with
  | some r => convertCode .bf16 .fp32 .rne 0 r.2
  | none => elemValue l.fmt l.sf (l.codes.getD k 0) (l.zp (k / 32)) (l.scale (k / 32)) l.st

/-- The marginalia term at a position (R105, R162). -/
def margTerm (rho : XReal) (a b : FLine) (k : Nat) : Nat × Flags :=
  let x := margVal a k; let y := margVal b k
  let p := mul32 x.1 y.1
  let r := roundTo .fp32 ((v32 p.1).mul rho)
  (r.1, ((x.2.or y.2).or p.2).or r.2)

/-- Positions of a run of `n` positions from `k` at which either operand has a record, ascending. -/
def margPos (a b : FLine) (k n : Nat) : List Nat :=
  if a.recs.isEmpty && b.recs.isEmpty then [] else
  ((List.range n).map (· + k)).filter fun j => (a.recs.any (·.1 == j)) || (b.recs.any (·.1 == j))

/-- Sequential FP32 additions (R163, R165). -/
def seqAdd (acc : Nat × Flags) (l : List (Nat × Flags)) : Nat × Flags :=
  l.foldl (fun a t => let r := add32 a.1 t.1; (r.1, (a.2.or t.2).or r.2)) acc

/-- The largest or smallest of FP32 codes that are no NaN, the first among equals. -/
def extreme32 (mx : Bool) : List Nat → Nat
  | [] => 0
  | v :: r => r.foldl (fun a c => if (if mx then XReal.lt (v32 a) (v32 c) else XReal.lt (v32 c) (v32 a)) then c else a) v

/-! ### The work of one piece on one output -/

/-- How a folio accumulates. -/
structure Sum where
  op : FoldOp
  float : Bool
  verbatim : Bool
  rho : XReal
deriving DecidableEq, Repr

/-- Chunks `c0` to `c1` (folio counts) on lines that begin at chunk `o` (folio count): a throughput piece partial from `start`
(R165), a Verbatim piece's ledger of block partials (R163, R164), or an integer or extreme partial (R141, R169). `nC` is the
folio's number of chunks. -/
def Sum.piece (m : Sum) (fa fb : List Feed) (a b : FLine) (o c0 c1 nC : Nat) (start : Nat) : Cell × Flags :=
  let w := chunkWidth m.op
  let cpb := 1024 / w
  let cs := (List.range (c1 - c0)).map (· + c0)
  let raw : Nat → Int := fun c => (chunkOf m.op fa fb a b (c - o)).1
  let term : Nat → Nat × Flags := fun c => termOf m.op m.rho fa fb a b (c - o)
  if !m.float then
    let vs := cs.map raw
    let v : Int := match m.op, vs with
      | .maxp, v :: r => r.foldl max v
      | .minp, v :: r => r.foldl min v
      | _, l => l.foldl (· + ·) 0
    (.word (twos 32 v), Flags.none)
  else match m.op with
  | .maxp | .minp =>
    let ts := cs.map term
    let fl := ts.foldl (fun g t => g.or t.2) Flags.none
    let v := if ts.any (fun t => (v32 t.1).isNan) then nan32
      else extreme32 (m.op == .maxp) (ts.map (·.1))
    (.word v, fl)
  | _ =>
    let margs : Nat → List (Nat × Flags) := fun c =>
      let blk := c / cpb
      (margPos a b (blk * 1024 - o * w) (min ((blk + 1) * cpb) nC * w - blk * 1024)).map (margTerm m.rho a b)
    let closes : Nat → Bool := fun c => c + 1 == nC || (c + 1) % cpb == 0
    if m.verbatim then
      let r := cs.foldl (fun (acc : Ledger × Nat × Flags) c =>
        let t := seqAdd (acc.2.1, acc.2.2) [term c]
        if closes c then
          let u := seqAdd t (margs c)
          let l := acc.1.add32 u.1
          (l.1, 0, u.2.or l.2)
        else (acc.1, t.1, t.2)) (Ledger.empty, 0, Flags.none)
      (.ledger r.1, r.2.2)
    else
      let r := cs.foldl (fun acc c => seqAdd acc (term c :: if closes c then margs c else [])) (start, Flags.none)
      (.word r.1, r.2)

/-- The total of one output from its pieces in span order (R164, R166, R168–R170): `pre` is the preload value. -/
def Sum.total (m : Sum) (pre : Option Nat) (l : List Cell) : Nat × Flags :=
  let ws := l.map fun c => match c with | .word w => w | .ledger _ => 0
  if !m.float then
    let vs := (match pre with | some p => [sext 32 p] | none => []) ++ ws.map (sext 32)
    let v : Int := match m.op, vs with
      | .maxp, v :: r => r.foldl max v
      | .minp, v :: r => r.foldl min v
      | _, l => l.foldl (· + ·) 0
    (twos 32 v, Flags.none)
  else match m.op with
  | .maxp | .minp =>
    let vs := (match pre with | some p => [p] | none => []) ++ ws
    if vs.any (fun c => (v32 c).isNan) then (nan32, Flags.NV) else
    let t := extreme32 (m.op == .maxp) vs
    (if (v32 t).isZero then 0 else t, Flags.none)
  | _ =>
    if m.verbatim then
      let l0 := match pre with | some p => Ledger.empty.add32 p | none => (Ledger.empty, Flags.none)
      let led := l.foldl (fun a c => match c with | .ledger d => a.combine d | .word _ => a) l0.1
      let r := led.round32
      (r.1, l0.2.or r.2)
    else match ws with
      | [] => (0, Flags.none)
      | p :: r => seqAdd (p, Flags.none) (r.map fun w => (w, Flags.none))

/-! ### Spans (R149, R150) -/

/-- Number of spans and the chunk at which span `i` begins. -/
def spanCount (verbatim : Bool) (nB nC P L : Nat) : Nat := min (if verbatim then nB else nC) (max 1 (ceilDiv P L))
def spanStart (verbatim : Bool) (nB nC cpb q i : Nat) : Nat := if verbatim then min nC (i * nB / q * cpb) else i * nC / q

end Sys2Proof.Machine
end

