-- ==== Sys2Proof/Machine/Epilogue.lean ====
section
/-! DEFINITION. Preload values and the epilogue of a folio: scale, bias, activation, winners, scale-gradient tap, narrowing,
statistics (R172–R190, R657). -/

namespace Sys2Proof.Machine

/-! ### Leaves, chunks, K-blocks (R147, R149) -/

def Folio.leafCols (f : Folio) : Nat := ceilDiv f.n 64
def Folio.leaves (f : Folio) : Nat := ceilDiv f.m 64 * f.leafCols
def Folio.chunks (f : Folio) : Nat := f.k / chunkWidth f.op
def Folio.blocks (f : Folio) : Nat := ceilDiv f.k 1024

/-! ### Preload (R172–R174) -/

/-- A plain element as FP32, or as its INT32 code in an integer folio. -/
def plainVal (s : State) (x : Ctx) (t : TRef) (isInt : Bool) (i j : Nat) : Except XFault (Nat × Flags) :=
  match readCode s x t i j with
  | none => .error ⟨.eaccess, 0, addrOf x t i j⟩
  | some (_, true) => .error ⟨.epoison, 0, addrOf x t i j⟩
  | some (c, false) => .ok (if isInt then (c, Flags.none) else convertCode t.fmt .fp32 .rne 0 c)

/-- A vector element by its flat index, as FP32 or INT32. -/
def vecVal (s : State) (x : Ctx) (cn : Nat) (isInt : Bool) (k : Nat) : Except XFault (Nat × Flags) :=
  match tensor x cn with
  | none => .error ⟨.eaccess, 0, 0⟩
  | some t => plainVal s x t isInt (k / t.e.cols) (k % t.e.cols)

/-- The preload value of output (i, j) of a folio, counted from its origin in the output tensor (R172, R217). -/
def preVal (s : State) (x : Ctx) (f : Folio) (i j : Nat) : Except XFault (Option Nat × Flags) :=
  let isInt := f.kind != 0
  let r := f.org.getD 4 0; let c := f.org.getD 5 0
  let wrap (v : Except XFault (Nat × Flags)) : Except XFault (Option Nat × Flags) :=
    match v with | .error e => .error e | .ok p => .ok (some p.1, p.2)
  match f.pre with
  | .zero => .ok (none, Flags.none)
  | .brow v => wrap (vecVal s x v isInt (r + i))
  | .bcol v => wrap (vecVal s x v isInt (c + j))
  | .res v ro co => wrap (match tensor x v with | none => .error ⟨.eaccess, 0, 0⟩ | some t => plainVal s x t isInt (ro + i) (co + j))
  | .self => wrap (match tensor x f.c with | none => .error ⟨.eaccess, 0, 0⟩ | some t => plainVal s x t isInt (r + i) (c + j))

/-! ### Activation (R178–R182) -/

/-- Free bytes of a built-in table as an FP32 code; a finite one. -/
def builtinCode (slot o : Nat) : Nat :=
  let c := leNat ((List.range 4).map fun k => Config.actByte slot (o + k))
  if (v32 c).isFin then c else c - 2 ^ 30

/-- Enters a breakpoint among rising ones, once. -/
def insertPoint : List Nat → Nat → List Nat
  | [], c => [c]
  | a :: r, c => if XReal.lt (v32 c) (v32 a) then c :: a :: r else if XReal.lt (v32 a) (v32 c) then a :: insertPoint r c else a :: r

/-- The breakpoints of a built-in table: free, finite and strictly ascending, at most 63 (log 11). -/
def builtinPoints (slot : Nat) : List Nat :=
  ((List.range ((Config.actByte slot 0).toNat % 64)).map fun j => builtinCode slot (20 + 4 * j)).foldl insertPoint []

/-- Segments and degree of a built-in table: free within R179's ranges (log 11). -/
def builtinSegs (slot : Nat) : Nat := (builtinPoints slot).length + 1
def builtinDegree (slot : Nat) : Nat := (Config.actByte slot 1).toNat % 4

/-- An offset or coefficient at byte `o` of a built-in table's record: free and finite where the table uses it, else 0 (R179). -/
def builtinEntry (slot o : Nat) (used : Bool) : Bytes := if used then leBytes 4 (builtinCode slot o) else zeros 4

/-- The record of a built-in table: laid out as R179 says, with R182's limit entries; its breakpoints, offsets and coefficients are free
(log 11). -/
def builtinTable (slot : Nat) : Bytes :=
  let lim : Nat × Nat := match slot with
    | 4 => (0xBF800000, 0x3F800000) | 5 => (0, 0x3F800000) | _ => (0, 0x7F800000)
  leBytes 1 (builtinSegs slot) ++ leBytes 1 (builtinDegree slot) ++ zeros 2 ++ leBytes 4 lim.1 ++ leBytes 4 lim.2 ++ zeros 8
  ++ ((List.range 63).flatMap fun j => leBytes 4 ((builtinPoints slot).getD j 0))
  ++ (List.range 64).flatMap fun i => (List.range 5).flatMap fun k =>
      builtinEntry slot (272 + 20 * i + 4 * k) (i < builtinSegs slot && (k == 0 || k ≤ builtinDegree slot + 1))

/-- The record of a table slot; none for slots 0, 1, 7 and unloaded user slots. -/
def actTable (x : Ctx) (slot : Nat) : Option Bytes :=
  if 2 ≤ slot ∧ slot ≤ 6 then some (builtinTable slot) else if 8 ≤ slot then tget x.pol.act slot else none

/-- The segment of an input: how many breakpoints b_1 … b_(S−1) are at or below it. -/
def actSegment (t : Bytes) (v : XReal) : Nat :=
  ((List.range (fld t 0 1 - 1)).filter fun k => XReal.le (v32 (fld t (20 + 4 * k) 4)) v).length

/-- The activation of an FP32 value (R178). -/
def activate (x : Ctx) (slot v : Nat) : Nat × Flags :=
  if slot = 0 then (v, Flags.none)
  else if (v32 v).isNan then (nan32, Flags.NV)
  else if slot = 1 then (if XReal.lt XReal.zero (v32 v) then v else 0, Flags.none)
  else match actTable x slot with
    | none => (v, Flags.none)
    | some t =>
      if (v32 v).isInf then (if (v32 v).isNeg then fld t 4 4 else fld t 8 4, Flags.none) else
      let o := 272 + 20 * actSegment t (v32 v)
      let k (n : Nat) : Nat := fld t (o + 4 * n) 4
      let d := sub32 v (k 0)
      let step (acc : Nat × Flags) (n : Nat) : Nat × Flags :=
        let m := mul32 acc.1 d.1
        let a := add32 m.1 (k n)
        (a.1, (acc.2.or m.2).or a.2)
      let r := [3, 2, 1].foldl step (k 4, Flags.none)
      (r.1, r.2.or d.2)

/-! ### What the epilogue reads besides totals (R325; log 120) -/

/-- An access to `n` elements of a vector or table tensor from flat index `k` on. -/
def touchFlat (s : State) (c call k n : Nat) (write : Bool) (unit : Option Nat := none) : State :=
  match getCtx s c with
  | none => s
  | some x =>
    match tensor x call with
    | none => s
    | some t =>
      let w := max 1 t.e.cols
      let g : Extent := if k % w + n ≤ w then ⟨k / w, k % w, 1, n⟩ else ⟨k / w, 0, (k + n - 1) / w + 1 - k / w, w⟩
      if n = 0 then s else touchAt s c call g write unit

/-- Accesses to the marginalia records that quire `n` of line `i` of an image names (R104, R656). -/
def touchRecs (s : State) (c : Nat) (x : Ctx) (t : TRef) (i n : Nat) (unit : Option Nat) : State :=
  match readQuire s x t i n with
  | none => s
  | some (b, _) => if qCount b = 0 then s else touchFlat s c t.e.marg (qIndex b) (min 128 (qCount b)) false unit

/-- Accesses to the learned scales and zero points of an extent of lines (R83, R89). -/
def touchLearned (s : State) (c : Nat) (e : Entry) (p : Policy) (g : Extent) (unit : Option Nat) : State :=
  if !p.learned then s else
  let all := ceilDiv e.axisLen p.g
  (List.range g.nr).foldl (fun s k =>
    let one (s : State) (call : Nat) : State :=
      touchFlat s c call ((g.r + k) * all + g.c / p.g) (ceilDiv (g.c + g.nc) p.g - g.c / p.g) false unit
    one (one s e.scales) e.zeropts) s

/-- An extent of lines as an extent of the matrix view (R207). -/
def Extent.ofLines (gaxis : Bool) (g : Extent) : Extent := if gaxis then ⟨g.c, g.r, g.nc, g.nr⟩ else g

/-- Accesses of a feeder to an extent of lines of an operand: its quires and their records, or, where it is formed on the fly, its source and
its learned scales and zero points (R109, R395). -/
def touchOpnd (s : State) (c : Nat) (x : Ctx) (t : TRef) (g : Extent) (unit : Option Nat) : State :=
  if !quantised t.e then touchAt s c t.call g false unit else
  let p := (effective x t.e).1
  if t.e.kind = 4 ∨ substituted x t then
    let s1 := if t.e.kind = 4 then touchAt s c t.call g false unit
      else touchAt s c t.e.source (g.ofLines t.e.gaxis) false unit
    touchLearned s1 c t.e p g unit
  else
    let E := quireElems p.f
    let s1 := touchAt s c t.call g false unit
    if !p.marg then s1 else
    (positions g.nr (ceilDiv (g.c + g.nc) E - g.c / E)).foldl (fun s q => touchRecs s c x t (g.r + q.1) (g.c / E + q.2) unit) s1

/-! ### Stages 0 to 3 -/

/-- Some of stages 1 to 3b is enabled (R176). -/
def Epi.active (e : Epi) : Bool := e.saxis != 0 || e.baxis != 0 || e.slot != 0 || e.reduction != 0 || e.tap
/-- The total is stored as its INT32 image (R176). -/
def Epi.rawInt (e : Epi) (isInt : Bool) : Bool := isInt && e.target == 13 && !e.active

/-- Element of a scale or bias vector for output element (i, j) of the output tensor (R177). -/
def axisVal (s : State) (x : Ctx) (axis cn i j : Nat) : Except XFault (Nat × Flags) :=
  vecVal s x cn false (if axis = 1 then i else j)

/-- Stages 0 to 3 on one total, at (i, j) of the output tensor (R175–R178). -/
def stage03 (s : State) (x : Ctx) (e : Epi) (isInt : Bool) (i j v : Nat) : Except XFault (Nat × Flags) :=
  if e.rawInt isInt then .ok (v, Flags.none) else
  let v0 := if isInt then convertCode .int32 .fp32 .rne 0 v else (v, Flags.none)
  let s1 : Except XFault (Nat × Flags) :=
    if e.saxis = 0 then .ok v0 else
    match axisVal s x e.saxis e.scale i j with
    | .error f => .error f
    | .ok k => let r := mul32 v0.1 k.1; .ok (r.1, (v0.2.or k.2).or r.2)
  match s1 with
  | .error f => .error f
  | .ok v1 =>
    let s2 : Except XFault (Nat × Flags) :=
      if e.baxis = 0 then .ok v1 else
      match axisVal s x e.baxis e.bias i j with
      | .error f => .error f
      | .ok k => let r := add32 v1.1 k.1; .ok (r.1, (v1.2.or k.2).or r.2)
    match s2 with
    | .error f => .error f
    | .ok v2 => let r := activate x e.slot v2.1; .ok (r.1, v2.2.or r.2)

/-! ### Winners (R186–R188) -/

/-- The new candidate outranks the old one (R187): index, as its INT32 code, and FP32 value of each. -/
def outranks (mx : Bool) (new old : Nat × Nat) : Bool :=
  let a := v32 new.2; let b := v32 old.2
  if a.isNan != b.isNan then a.isNan
  else if !a.isNan && (if mx then XReal.lt b a else XReal.lt a b) then true
  else if !a.isNan && (if mx then XReal.lt a b else XReal.lt b a) then false
  else sext 32 new.1 < sext 32 old.1

/-- Enters a candidate for a line. -/
def winEnter (mx : Bool) (l : List (Nat × Nat × Nat)) (line idx v : Nat) : List (Nat × Nat × Nat) :=
  match l with
  | [] => [(line, idx, v)]
  | (k, i, w) :: r =>
    if k = line then (if outranks mx (idx, v) (i, w) then (k, idx, v) else (k, i, w)) :: r else (k, i, w) :: winEnter mx r line idx v

/-- The record's value: a NaN is held as the canonical NaN (R187). -/
def winValue (v : Nat) : Nat := if (v32 v).isNan then nan32 else v

/-- Writes winner records into the result tensor: overwriting (merge 0), or by the compare-and-swap loop of R188 (merge 1), from the home
carrel `unit`. -/
def putWinners (s : State) (c : Nat) (e : Epi) (l : List (Nat × Nat × Nat)) (unit : Option Nat) : State × Option XFault :=
  match getCtx s c with
  | none => (s, none)
  | some x =>
    match tensor x e.result with
    | none => (s, some ⟨.eaccess, 0, 0⟩)
    | some t =>
      l.foldl (fun (acc : State × Option XFault) w =>
        if acc.2.isSome then acc else
        let keep : Except XFault Bool :=
          if !e.merge then .ok true else
          match plainCodes acc.1 x t (fun k => (0, k)) (2 * w.1) 2 with
          | .error f => .error f
          | .ok o => .ok (outranks (e.reduction == 1) w.2 (o.getD 0 0, o.getD 1 0))
        match keep with
        | .error f => (acc.1, some f)
        | .ok false => acc
        | .ok true => putItems (touchAt acc.1 c t.call ⟨0, 2 * w.1, 1, 2⟩ true unit) c t [.put 0 (2 * w.1) (w.2.1 % 2 ^ 32) false, .put 0 (2 * w.1 + 1) (winValue w.2.2) false])
        (s, none)

/-! ### Scale-gradient tap and clip mask (R86–R88, R184, R185) -/

/-- The level range of a format (R74), for UINT4 of u + z. -/
def inRange (f : Fmt) (u : XReal) : Bool :=
  let b : XReal × XReal := match f with
    | .t2 => (.ofInt (-1), .ofInt 1) | .int2 => (.ofInt (-2), .ofInt 1) | .int4 => (.ofInt (-8), .ofInt 7)
    | .uint4 => (.ofInt 0, .ofInt 15) | .fp4 => (.ofInt (-6), .ofInt 6) | .int8 => (.ofInt (-128), .ofInt 127)
    | .e4m3 => (.ofInt (-448), .ofInt 448) | _ => (.ofInt (-57344), .ofInt 57344)
  XReal.le b.1 u && XReal.le u b.2

/-- What the tap makes of one line: the value passed on for each element, the FP32 terms of each group, and the flags. -/
structure TapOut where
  pass : List Nat
  terms : List (Nat × List Nat)
  flags : Flags
deriving DecidableEq, Repr

/-- Stage 3b on the gradients `g` of a run of a line from axis index `k0` (R184, R185): `sc` is the image's tensor scale as the folio's start
read it. A UINT4 code becomes a level under the zero point recomputed from the source (DESIGN CHOICE, log 160). -/
def tapLine (s : State) (x : Ctx) (t : TRef) (line k0 : Nat) (g : List Nat) (sc : Except XFault Nat) : Except XFault TapOut :=
  let p := (effective x t.e).1
  match sc, sourceOf x t.e with
  | .error f, _ => .error f
  | _, none => .error ⟨.eaccess, 0, 0⟩
  | .ok st, some (u, at_) =>
    match runSource s x t.e p u (fun k => let ij := linePos t.e.gaxis line k; at_ ij.1 ij.2) line k0 g.length st,
          quantFeed s x t p line k0 g.length sc with
    | .error f, _ => .error f
    | _, .error f => .error f
    | .ok src, .ok im =>
      let pr := prepLine src.q src.a0 src.learned src.src
      let o := k0 - src.a0
      let rot := src.q.rot
      let r0 := match rot with
        | none => (g, Flags.none)
        | some e =>
          let a := rotateLine e k0 g
          let inv := (roundTo .fp32 (XReal.pow2 (-(Nat.log2 e.n : Nat)))).1
          let b := mapFlags (fun c => mul32 c inv) a.1
          (b.1, a.2.or b.2)
      let zeroT := (v32 src.q.st).isZero
      let elem : Nat → (XReal × Bool) := fun k =>          -- dv/ds_g and whether the element is saturated
        if zeroT || im.recs.any (·.1 == k) then (.zero, false) else
        let sg := pr.sc.getD ((o + k) / p.g) (0, 0)
        let z := sg.2
        let u := (v32 (pr.xs.getD (o + k) 0)).div (scaleVal p.sf sg.1)
        let lv := let d := decode p.f (im.codes.getD k 0); if p.f == .uint4 then d.sub (.ofNat z) else d
        if u.isNan then (.nan, false)
        else if inRange p.f (if p.f == .uint4 then u.add (.ofNat z) else u) then ((v32 src.q.st).mul (lv.sub u), false)
        else ((v32 src.q.st).mul lv, true)
      let es := (List.range g.length).map elem
      let ts := mapFlags (fun k => roundTo .fp32 ((v32 (r0.1.getD k 0)).mul (es.getD k (.zero, false)).1)) (List.range g.length)
      let groups := (List.range (g.length / p.g)).map fun j => ((k0 / p.g) + j, (ts.1.drop (j * p.g)).take p.g)
      let blk := match rot with | some e => e.n | none => p.g
      let pass := mapFlags (fun b =>
        let ks := (List.range blk).map (· + b * blk)
        let gs := (g.drop (b * blk)).take blk
        if !(p.clipMask && ks.any fun k => (es.getD k (.zero, false)).2) then (gs, Flags.none) else
        let cleared := ks.map fun k => if (es.getD k (.zero, false)).2 then 0 else r0.1.getD k 0
        match rot with
        | none => (cleared, Flags.none)
        | some e =>
          let h := butterfly 8 1 cleared
          (applySigns e.seed (k0 + b * blk) h.1, h.2)) (List.range (g.length / blk))
      .ok { pass := pass.1.flatten, terms := groups,
            flags := (((if zeroT then Flags.none else (pr.flags.or src.flags).or im.flags).or r0.2).or ts.2).or pass.2 }

/-- Adds the terms of a group to its ledger cell, in ascending order, from the home carrel `unit` (R184, R45). -/
def tapAdd (s : State) (c : Nat) (t : TRef) (cell : Nat) (terms : List Nat) (unit : Option Nat) : Except XFault (State × Flags) :=
  match getCtx s c with
  | none => .ok (s, Flags.none)
  | some x =>
    if frozenCells x t.call then .ok (s, Flags.none) else
    let i := cell / t.e.cols; let j := cell % t.e.cols
    match readCell s x t i j with
    | none => .error ⟨.eaccess, 0, t.e.base + cellOff t.e i j⟩
    | some (_, true) => .error ⟨.epoison, 0, poisonAddr s x t (cellOff t.e i j) 40⟩
    | some (l, false) =>
      let r := terms.foldl (fun (a : Ledger × Flags) v => let b := a.1.add32 v; (b.1, a.2.or b.2)) (l, Flags.none)
      match writeCell (touchAt s c t.call ⟨i, j, 1, 1⟩ true unit) c t i j r.1 with
      | none => .error ⟨.eaccess, 0, t.e.base + cellOff t.e i j⟩
      | some s1 => .ok (s1, r.2)

/-! ### Statistics (R189) -/

/-- The value a stored element has for statistics: FP32, rounding where R189 says so. -/
def statVal (target code : Nat) : Nat × Flags :=
  let f := (Fmt.ofCode target).getD .fp32
  let r := convert .fp32 .rne 0 (decode f code)
  if (decode f code).isNan then (nan32, Flags.none) else r

/-- The statistics record of a list of FP32 values (R189). -/
def statsOf (op layer kind : Nat) (l : List Nat) : StatsRec × Flags :=
  let fin := l.filter fun v => (v32 v).isFin
  let sq := fin.foldl (fun (a : Ledger × Flags) v =>
    let m := mul32 v v; let b := a.1.add32 m.1; (b.1, (a.2.or m.2).or b.2)) (Ledger.empty, Flags.none)
  ({ layer := layer, kind := kind, sumsq := sq.1.image, amax := maxAbs fin, nonfinite := l.length - fin.length, count := l.length,
     overfull := false, op := op, call := 0 }, sq.2)

/-! ### Stages 3a to 5 over a region -/

/-- Stage 4 (R183): the stored code of a value at (i, j) of the output tensor. -/
def narrow (x : Ctx) (t : TRef) (e : Epi) (isInt : Bool) (i j v : Nat) : Nat × Flags :=
  if e.rawInt isInt then (v, Flags.none) else
  let f := (Fmt.ofCode e.target).getD .fp32
  let rm := (RM.ofCode e.round).getD .rne
  convertCode .fp32 f rm (if rm == .sr then draw x.ident.seed e.stream x.gate.step (logicalIdx t.e i j) else 0) v

/-- A rectangle of a folio's outputs, from its own origin. -/
structure Region where
  r0 : Nat
  c0 : Nat
  h : Nat
  w : Nat
deriving DecidableEq, Repr

/-- What the epilogue leaves: the state, the first fault, statistics records, winners so far, flags by home carrel. -/
structure EpiOut where
  s : State
  fault : Option XFault
  recs : List StatsRec
  winners : List (Nat × Nat × Nat)
  flags : List (Nat × Flags)

/-- A leaf under the epilogue: its rectangle, its home carrel, its totals or values so far, its flags. -/
structure LeafRun where
  g : Region
  home : Nat
  vals : List (List Nat)
  flags : Flags

/-- The values of the lines of a region along the tap's grouped axis, and back. -/
def tapLines (byCol : Bool) (g : Region) (m : List (List Nat)) : List (List Nat) :=
  if byCol then m else (List.range g.w).map fun j => (List.range g.h).map fun i => (m.getD i []).getD j 0

/-- The tensor scale a folio kept of an operand; an image that gives none has 1.0 (R78, R79). -/
def keptScale (k : Option XScale) : Except XFault Nat := match k with | some v => v.get | none => .ok 0x3F800000

/-- Stage 3b over a region: the values passed on, after the ledger adds (R184, R185, R397). -/
def tapRegion (s : State) (c : Nat) (x : Ctx) (f : Folio) (g : Region) (m : List (List Nat)) (unit : Option Nat) :
    Except XFault (State × List (List Nat) × Flags) :=
  match tensor x f.epi.qtensor with
  | none => .error ⟨.eaccess, 0, 0⟩
  | some t =>
    if (effective x t.e).2 then .ok (s, m, Flags.none) else
    let byCol := f.epi.taxis == 1
    let row := f.org.getD 4 0 + g.r0; let col := f.org.getD 5 0 + g.c0
    let ls := tapLines byCol g m
    let idx := List.range ls.length
    let l0 := if byCol then row else col
    let k0 := if byCol then col else row
    match eachOk (fun k => tapLine s x t (l0 + k) k0 (ls.getD k []) (keptScale f.scaleT)) idx,
          tensor x t.e.sgrad with
    | .error e, _ => .error e
    | .ok _, none => .error ⟨.eaccess, 0, 0⟩
    | .ok outs, some sg =>
      let p := (effective x t.e).1
      let ng := ceilDiv t.e.axisLen p.g
      let adds := idx.flatMap fun k => ((outs.map (·.terms)).getD k []).map fun q =>
        ((l0 + k) * ng + q.1, q.2)
      let whole : Extent := ⟨l0, k0, ls.length, if byCol then g.w else g.h⟩
      let s0 := touchOpnd (if t.e.kind = 4 ∨ substituted x t then s else
        touchAt s c t.e.source (whole.ofLines t.e.gaxis) false unit) c x t whole unit
      let r := adds.foldl (fun (acc : Except XFault (State × Flags)) q =>
        match acc with
        | .error e => .error e
        | .ok a => match tapAdd a.1 c sg q.1 q.2 unit with | .error e => .error e | .ok b => .ok (b.1, a.2.or b.2)) (.ok (s0, Flags.none))
      match r with
      | .error e => .error e
      | .ok (s1, fl) =>
        let pl := outs.map (·.pass)
        let m1 := if byCol then pl else (List.range g.h).map fun i => pl.map fun l => l.getD i 0
        .ok (s1, m1, outs.foldl (fun a o => a.or o.flags) fl)

/-- Maps stages 0–3 over the totals of a region. -/
def regionVals (s : State) (x : Ctx) (f : Folio) (g : Region) (tot : List (List Nat)) : Except XFault (List (List Nat) × Flags) :=
  let r := f.org.getD 4 0 + g.r0; let c := f.org.getD 5 0 + g.c0
  match eachOk (fun i => eachOk (fun j => stage03 s x f.epi (f.kind != 0) (r + i) (c + j) ((tot.getD i []).getD j 0))
      (List.range g.w)) (List.range g.h) with
  | .error e => .error e
  | .ok l => .ok (l.map fun q => q.map (·.1), (l.flatten).foldl (fun a q => a.or q.2) Flags.none)

/-- Winners of a region entered among those of the folio (R186). -/
def regionWinners (f : Folio) (g : Region) (m : List (List Nat)) : List (Nat × Nat × Nat) :=
  if f.epi.reduction = 0 then f.winners else
  let r := f.org.getD 4 0 + g.r0; let c := f.org.getD 5 0 + g.c0
  (positions g.h g.w).foldl (fun l q =>
    let v := (m.getD q.1 []).getD q.2 0
    if f.epi.raxis = 0 then winEnter (f.epi.reduction == 1) l (r + q.1) (c + q.2) v
    else winEnter (f.epi.reduction == 1) l (c + q.2) (r + q.1) v) f.winners

/-- Accesses to a folio's preload values of a region (R172). -/
def touchPre (s : State) (c : Nat) (f : Folio) (g : Region) (unit : Option Nat) : State :=
  let r := f.org.getD 4 0 + g.r0; let k := f.org.getD 5 0 + g.c0
  match f.pre with
  | .zero => s
  | .brow v => touchFlat s c v r g.h false unit
  | .bcol v => touchFlat s c v k g.w false unit
  | .res v ro co => touchAt s c v ⟨ro + g.r0, co + g.c0, g.h, g.w⟩ false unit
  | .self => touchAt s c f.c ⟨r, k, g.h, g.w⟩ false unit

/-- Accesses to the scale and bias vectors of a region (R177). -/
def touchAxes (s : State) (c : Nat) (f : Folio) (g : Region) (unit : Option Nat) : State :=
  let r := f.org.getD 4 0 + g.r0; let k := f.org.getD 5 0 + g.c0
  let one (s : State) (axis v : Nat) : State :=
    if axis = 0 then s else if axis = 1 then touchFlat s c v r g.h false unit else touchFlat s c v k g.w false unit
  one (one s f.epi.saxis f.epi.scale) f.epi.baxis f.epi.bias

/-- Stages 0 to 3 of a leaf on its home carrel; stage 3a counts its NaN inputs (R187). -/
def leafStart (s : State) (x : Ctx) (f : Folio) (l : LeafRun) : Except XFault LeafRun :=
  match regionVals s x f l.g l.vals with
  | .error e => .error e
  | .ok (m, fl) =>
    let nanIn := f.epi.reduction != 0 && m.any fun r => r.any fun v => (v32 v).isNan
    .ok { l with vals := m, flags := (l.flags.or fl).or (Flags.when nanIn .NV) }

/-- Stage 3a of a leaf, after its reads of scale and bias: its winners among those so far, and their merge where it asks for one. -/
def leafWinners (c : Nat) (f : Folio) (acc : State × List (Nat × Nat × Nat) × Option XFault) (l : LeafRun) :
    State × List (Nat × Nat × Nat) × Option XFault :=
  if acc.2.2.isSome then acc else
  let win := regionWinners { f with winners := acc.2.1 } l.g l.vals
  let s1 := touchAxes acc.1 c f l.g (some l.home)
  let m := if f.epi.reduction != 0 && f.epi.merge then putWinners s1 c f.epi (win.filter fun w => !(acc.2.1.contains w)) (some l.home) else (s1, none)
  (m.1, win, m.2)

/-- The values of a region made of leaves, and a leaf's part of them. -/
def joinVals (g : Region) (ls : List LeafRun) : List (List Nat) :=
  let at_ (i j : Nat) : Nat :=
    match ls.find? fun l => l.g.r0 ≤ i && i < l.g.r0 + l.g.h && l.g.c0 ≤ j && j < l.g.c0 + l.g.w with
    | some l => (l.vals.getD (i - l.g.r0) []).getD (j - l.g.c0) 0
    | none => 0
  (List.range g.h).map fun i => (List.range g.w).map fun j => at_ (g.r0 + i) (g.c0 + j)
def partVals (g : Region) (m : List (List Nat)) (l : LeafRun) : LeafRun :=
  { l with vals := ((m.drop (l.g.r0 - g.r0)).take l.g.h).map fun r => (r.drop (l.g.c0 - g.c0)).take l.g.w }

/-- Stages 4 and 5 of a leaf on its home carrel: its stored codes, then its statistics record. -/
def leafStore (c : Nat) (x : Ctx) (f : Folio) (t : TRef) (acc : State × List StatsRec × List (Nat × Flags) × Option XFault) (l : LeafRun) :
    State × List StatsRec × List (Nat × Flags) × Option XFault :=
  if acc.2.2.2.isSome then acc else
  let r := f.org.getD 4 0 + l.g.r0; let cl := f.org.getD 5 0 + l.g.c0
  let cells := (positions l.g.h l.g.w).map fun q =>
    (q, narrow x t f.epi (f.kind != 0) (r + q.1) (cl + q.2) ((l.vals.getD q.1 []).getD q.2 0))
  let fl := cells.foldl (fun a q => a.or q.2.2) l.flags
  let w := putItems (touchAt acc.1 c f.c ⟨r, cl, l.g.h, l.g.w⟩ true (some l.home)) c t
    (cells.map fun q => Item.put (r + q.1.1) (cl + q.1.2) q.2.1 false)
  if !f.epi.stats then (w.1, acc.2.1, acc.2.2.1 ++ [(l.home, fl)], w.2) else
  let vs := mapFlags (fun (q : (Nat × Nat) × Nat × Flags) => statVal f.epi.target q.2.1) cells
  let st := statsOf f.id f.epi.layer f.epi.skind vs.1
  (w.1, acc.2.1 ++ [st.1], acc.2.2.1 ++ [(l.home, (fl.or st.2).or vs.2)], w.2)

/-- The epilogue of leaves that share the blocks of stage 3b, or of one leaf, from their totals: every stage of a leaf runs on its own home
carrel (R167, R175); stage 3b of shared blocks on that of the first (log 122). -/
def runEpilogue (s : State) (c : Nat) (x : Ctx) (f : Folio) (g : Region) (leaves : List LeafRun) : EpiOut :=
  let stop (s : State) (e : XFault) : EpiOut := ⟨s, some e, [], f.winners, []⟩
  match tensor x f.c, eachOk (leafStart s x f) leaves with
  | none, _ => stop s ⟨.eaccess, 0, 0⟩
  | _, .error e => stop s e
  | some t, .ok ls =>
    let w := ls.foldl (leafWinners c f) (s, f.winners, none)
    match w.2.2 with
    | some e => stop w.1 e
    | none =>
      match (if f.epi.tap then tapRegion w.1 c x f g (joinVals g ls) (ls.head?.map (·.home)) else .ok (w.1, [], Flags.none)) with
      | .error e => stop w.1 e
      | .ok (s2, m2, fl2) =>
        let ls2 := if f.epi.tap then ls.map (partVals g m2) else ls
        let ls3 := match ls2 with | l :: r => { l with flags := l.flags.or fl2 } :: r | [] => []
        let o := ls3.foldl (leafStore c x f t) (s2, [], [], none)
        match o.2.2.2 with
        | some e => stop o.1 e
        | none => ⟨o.1, none, o.2.1, w.2.1, o.2.2.1⟩

end Sys2Proof.Machine
end

