-- ==== Sys2Proof/Machine/Stream.lean ====
section
/-! DEFINITION. Streams of a running attempt: registers, issue, waiting, windows, hazards and faults (R192–R200, R204–R206, R233–R245). -/

namespace Sys2Proof.Machine

/-! ### Registers (R194, R199, R200) -/

def Stream.reg (t : Stream) (r : Nat) : Nat := if r = 0 then 0 else t.s.getD r 0
def Stream.setReg (t : Stream) (r v : Nat) : Stream := if r = 0 then t else { t with s := t.s.set r (v % 2 ^ 64) }
def Stream.addr (t : Stream) (r : Nat) : Nat := t.a.getD r 0
def Stream.setAddr (t : Stream) (r v : Nat) : Stream := { t with a := t.a.set r (v % 2 ^ 32) }
def Stream.tile (t : Stream) (k : Nat) : Tile := t.tiles.getD k Tile.idle
def Stream.setTile (t : Stream) (k : Nat) (v : Tile) : Stream := { t with tiles := t.tiles.set k v }
def Stream.slot (t : Stream) (k : Nat) : Slot := t.slots.getD k Slot.free
def Stream.setSlot (t : Stream) (k : Nat) (v : Slot) : Stream := { t with slots := t.slots.set k v }

/-- Origins from s[sb] on (R206). -/
def Stream.origins (t : Stream) (sb n : Nat) : List Nat := (List.range n).map fun k => t.reg (sb + k)

/-- A stream at the start of a step (R194). -/
def Stream.start (p : ProgStream) (step idx issue : Nat) : Stream :=
  { pc := 0, s := (0 :: step :: idx :: p.s).take 32, a := p.a, tiles := List.replicate 16 Tile.idle, slots := List.replicate 16 Slot.free,
    window := [], bars := 0, barsDone := 0, ended := false, waiting := false, stopped := false, issue := issue, descs := [] }

def modStream (s : State) (c st : Nat) (f : Stream → Stream) : State :=
  modCtx s c fun x => x.modAtt fun a =>
    match a.streams[st]? with
    | some t => { a with streams := a.streams.set st (f t) }
    | none => a

def modAtt (s : State) (c : Nat) (f : Attempt → Attempt) : State := modCtx s c fun x => x.modAtt f

def getStream (s : State) (c st : Nat) : Option Stream :=
  match getCtx s c with
  | none => none
  | some x => match x.att with | none => none | some a => a.streams[st]?

/-- The word of a stream at an index; none beyond its last word (R197). -/
def wordAt (x : Ctx) (st pc : Nat) : Option Nat :=
  match x.prog with
  | none => none
  | some p => match p.streams[st]? with | some q => q.words[pc]? | none => none

/-! ### Faults (R242–R245) -/

/-- Records the first fault of a stream for the step, stops it, and gives the attempt its first failure (R244, R245). -/
def recordFault (s : State) (c st pc word carrel : Nat) (f : XFault) : State :=
  let t := s.now
  modCtx s c fun x =>
    match x.att with
    | none => x
    | some a =>
      let r : FaultRec := { word := word, pc := pc, stream := st, status := f.status, check := f.check, detail := f.detail, time := t,
                            carrel := carrel, step := x.gate.step }
      { x with faults := if (tget x.faults st).isSome then x.faults else tset x.faults st r,
               att := some { a with status := if a.status == .success then f.status else a.status,
                                    firstFault := if a.status == .success then t else a.firstFault,
                                    streams := match a.streams[st]? with
                                      | some q => a.streams.set st { q with stopped := true, waiting := false }
                                      | none => a.streams } }

/-! ### Flags of work in flight -/

/-- Flags of assignment-set work reach the word of one of its carrels. -/
def raiseWork (s : State) (c : Nat) (x : Ctx) (g : Flags) : State :=
  let k := someCarrel s x
  raiseOn k.2 c k.1 g

/-- Flags of vector work reach the word of a bay vector unit (R267). -/
def raiseVec (s : State) (c : Nat) (x : Ctx) (g : Flags) : State :=
  let k := someCarrel s x
  raiseVuOn k.2 c (bayOfCarrel k.1) g

/-- An execution fault that a logical carrel detected; poison consumed is an event of the transcript (R477). -/
def execFaultOn (s : State) (c carrel st pc word : Nat) (f : XFault) : State :=
  let s0 := recordFault s c st pc word carrel f
  let s1 := if f.status == .epoison then eventRec s0 c Status.epoison.code f.detail else s0
  if f.status == .equire then countEv s1 (pgCarrel (physOf s1 carrel)) 0x109 1 (some c) else s1

/-- An execution fault, detected by a carrel of the assignment set. -/
def execFault (s : State) (c : Nat) (x : Ctx) (st pc word : Nat) (f : XFault) : State :=
  let k := someCarrel s x
  execFaultOn k.2 c k.1 st pc word f

/-- The flags an operation leaves: one that ends with EPOISON raises none (R305). -/
def flagsOf (f : Option XFault) (g : Flags) : Flags :=
  match f with | some e => if e.status == .epoison then Flags.none else g | none => g

/-! ### Issue (R204, R205, R233, R242) -/

/-- What an instruction at issue does: waits, faults, or takes effect and names the next word. -/
inductive Iss where
  | wait
  | fault (f : XFault)
  | done (s : State) (next : Nat)

/-- What issue works on: the state, the context, the attempt, the stream. -/
structure At where
  s : State
  c : Nat
  st : Nat
  x : Ctx
  a : Attempt
  t : Stream
  w : Nat

/-- The stream `st` of context `c` can issue, its issue carrel's clerk running (R597), and its next word spells exactly this instruction (log 5). -/
def issueAt (s : State) (c st : Nat) (h : Hdr) (i : Ins) : Option At :=
  match getCtx s c with
  | none => none
  | some x =>
    if x.ident.st != .running then none else
    match x.att with
    | none => none
    | some a =>
      if a.phase != .program || a.status != .success then none else
      match a.streams[st]? with
      | none => none
      | some t =>
        if t.ended || t.stopped || !coreUp s (.clerk (bayOfCarrel t.issue)) then none else
        match wordAt x st t.pc with
        | none => none
        | some w => if decodeIns w = some (h, i) then some ⟨s, c, st, x, a, t, w⟩ else none

/-- The predicate lets the instruction execute (R204). -/
def predOk (h : Hdr) (t : Stream) : Bool := !h.pe || ((t.reg h.ps != 0) != h.pn)

/-- A stream moves to word `pc`, no longer waiting. -/
def goTo (s : State) (c st pc : Nat) : State := modStream s c st fun t => { t with pc := pc, waiting := false }

/-- A stream waits at its next instruction. -/
def holdAt (s : State) (c st : Nat) : State := modStream s c st fun t => { t with waiting := true }

/-- Settles an instruction that has reached issue. -/
def settle (p : At) : Iss → State
  | .wait => holdAt p.s p.c p.st
  | .fault f => recordFault p.s p.c p.st p.t.pc p.w p.t.issue f
  | .done s n => goTo s p.c p.st n

/-- Issues one instruction of a stream: skipped by its predicate, held by fw, or given to its class (R204, R205). -/
def issue (s : State) (c st : Nat) (h : Hdr) (i : Ins) (body : At → Iss) : State :=
  match issueAt s c st h i with
  | none => s
  | some p =>
    if !predOk h p.t then goTo s c st (p.t.pc + 1)
    else if h.fw && !p.t.window.isEmpty then holdAt s c st
    else settle p (body p)

/-! ### Operands at issue -/

/-- A tensor named by an address register; EHANDLE where its call number is not live (R199). -/
def At.opnd (p : At) (r : Nat) : Except XFault TRef :=
  match tensor p.x (p.t.addr r) with
  | some t => .ok t
  | none => .error ⟨.ehandle, 0, p.t.addr r⟩

/-- A tensor named by call number. -/
def At.call (p : At) (cn : Nat) : Except XFault TRef :=
  match tensor p.x cn with | some t => .ok t | none => .error ⟨.ehandle, 0, cn⟩

def eargF : XFault := ⟨.earg, 0, 0⟩
/-- The first check that fails, with its fault. -/
def firstBad : List (Bool × XFault) → Option XFault
  | [] => none
  | (ok, f) :: r => if ok then firstBad r else some f

/-- An extent check (R207). -/
def inView (t : TRef) (r c nr nc : Nat) : Bool × XFault := (extentOk t.e r c nr nc, ⟨.ebound, 0, t.call⟩)

/-- Finds the operands of address registers in order, then runs the checks on them: the first fault, or none. Which of several
faults comes first is not stated (DESIGN CHOICE, log 161). -/
def checkOpnds (p : At) (cns : List Nat) (k : List TRef → List (Bool × XFault)) : Option XFault :=
  match eachOk p.call cns with
  | .error f => some f
  | .ok l => firstBad (k l)

/-- The operand behind a call number, once it has been found live. -/
def At.ref (p : At) (cn : Nat) : TRef := ⟨cn, (liveEntry p.x cn).getD default⟩

/-- A plain tensor or plain view. -/
def TRef.isPlain (t : TRef) : Bool := t.e.kind == 0 || t.e.kind == 3
/-- FP32, BF16 or FP16. -/
def TRef.isFloat (t : TRef) : Bool := t.isPlain && [9, 10, 11].contains t.e.fmt
def TRef.isFmt (t : TRef) (f : Fmt) : Bool := t.isPlain && t.e.fmt == f.code

/-! ### Windows and hazards (R234–R238) -/

/-- The operation still reads: a folio until its last leaf is finished; every other one reads at issue (log 6). -/
def stillReads (a : Attempt) (o : Op) : Bool :=
  o.folio && a.folios.any fun f => f.id == o.id && f.status == .success && f.leavesDone.length < f.leaves

/-- An earlier operation of the window stands in the way: it writes what this one reads or writes, or still reads what this one writes
(R235). -/
def hazard (a : Attempt) (w : List Op) (reads writes : List Nat) : Bool :=
  w.any fun o => o.writes.any (fun k => reads.contains k || writes.contains k) || (stillReads a o && o.reads.any (fun k => writes.contains k))

/-- The operation can enter the window. What completes at issue enters none, and issues beside a full one (DESIGN CHOICE, log 161). -/
def At.clear (p : At) (reads writes : List Nat) : Bool := p.t.window.length < 32 && !hazard p.a p.t.window reads writes

/-- Enters an operation in the window, with its number and its assignment set. -/
def addOp (s : State) (c st : Nat) (reads writes : List Nat) (folio : Bool) (coll : Option Nat) (set : List Nat) : State :=
  modCtx s c fun x => x.modAtt fun a =>
    let o : Op := ⟨a.opSeq, reads, writes, folio, coll, set⟩
    { a with opSeq := a.opSeq + 1,
             streams := match a.streams[st]? with
               | some t => a.streams.set st { t with window := t.window ++ [o] }
               | none => a.streams }

/-- What a data operation leaves: the state, its first execution fault, its flags and the records it sends. -/
structure Work where
  s : State
  fault : Option XFault
  flags : Flags
  recs : List StatsRec

def sendRecs (s : State) (c : Nat) (l : List StatsRec) : State :=
  if l.isEmpty then s else modAtt s c fun a => { a with records := a.records ++ l }

/-- Runs a data operation that takes effect at issue and stays in flight until OPERATION_COMPLETE (log 6): checks, hazards, work. A
fault in execution ends it (R243) and stops the stream at its word. Its assignment set is the whole grant, for it has no pmax (R333); a MOVE
forms none. -/
def runOp (p : At) (bad : Option XFault) (reads writes : List Nat) (vec : Bool) (work : At → Work) (set : List Nat := p.x.ident.grant) : Iss :=
  if !p.clear reads writes then .wait else
  match bad with
  | some f => .fault f
  | none =>
    let w := work p
    let g := flagsOf w.fault w.flags
    let s1 := sendRecs (if vec then raiseVec w.s p.c p.x g else raiseWork w.s p.c p.x g) p.c w.recs
    match w.fault with
    | some f => .done (execFault s1 p.c p.x p.st p.t.pc p.w f) p.t.pc
    | none => .done (addOp s1 p.c p.st reads writes false none set) (p.t.pc + 1)

end Sys2Proof.Machine
end

