-- ==== Sys2Proof/Machine/Ctrl.lean ====
section
/-! DEFINITION. CTRL instructions, WATCH RUNG, SYNC instructions, and the fall-through fault (R197, R209–R211, R227, R229–R231). -/

namespace Sys2Proof.Machine

abbrev Outc := Host.Outcome State Fault Refusal

/-- The state after an instruction that changes its stream alone and goes on to the next word. -/
def setStream (p : At) (f : Stream → Stream) : Iss := .done (modStream p.s p.c p.st f) (p.t.pc + 1)

/-! ### CTRL -/

/-- Signed 64-bit value. -/
def s64 (v : Nat) : Int := sext 64 v

/-- The ALU (R200): function codes 0–12. -/
def aluFn (fn a b : Nat) : Nat :=
  let sh := b % 64
  let v : Nat := match fn with
    | 0 => a + b
    | 1 => a + 2 ^ 64 - b % 2 ^ 64
    | 2 => a * b
    | 3 => a &&& b
    | 4 => a ||| b
    | 5 => a ^^^ b
    | 6 => a * 2 ^ sh
    | 7 => a / 2 ^ sh
    | 8 => twos 64 (s64 a / 2 ^ sh)
    | 9 => b2n (decide (s64 a < s64 b))
    | 10 => b2n (decide (a < b))
    | 11 => if s64 a ≤ s64 b then a else b
    | _ => if s64 b ≤ s64 a then a else b
  v % 2 ^ 64

/-- The second ALU operand: s[rs2], or imm sign-extended. -/
def aluY (f : AluF) (t : Stream) : Nat := if f.im then twos 64 (sext 32 f.imm) else t.reg f.rs2

/-- Branch conditions 0–6. -/
def brTaken (cond a b : Nat) : Bool :=
  match cond with
  | 0 => a == b
  | 1 => a != b
  | 2 => decide (s64 a < s64 b)
  | 3 => decide (s64 b ≤ s64 a)
  | 4 => decide (a < b)
  | 5 => decide (b ≤ a)
  | _ => true

def execCtrlNop (c st : Nat) (h : Hdr) (s : State) : Outc :=
  .next (issue s c st h .nop fun p => .done p.s (p.t.pc + 1))

def execCtrlLi (c st : Nat) (h : Hdr) (rd : Nat) (rf : Bool) (imm : Nat) (s : State) : Outc :=
  .next (issue s c st h (.li rd rf imm) fun p => setStream p fun t => if rf then t.setAddr rd imm else t.setReg rd imm)

def execCtrlAlu (c st : Nat) (h : Hdr) (f : AluF) (s : State) : Outc :=
  .next (issue s c st h (.alu f) fun p => setStream p fun t => t.setReg f.rd (aluFn f.fn (t.reg f.rs1) (aluY f t)))

/-- Where a branch goes. -/
def brNext (f : BrF) (t : Stream) : Nat := if brTaken f.cond (t.reg f.rs1) (t.reg f.rs2) then f.target else t.pc + 1

def execCtrlBr (c st : Nat) (h : Hdr) (f : BrF) (s : State) : Outc :=
  .next (issue s c st h (.br f) fun p => .done p.s (brNext f p.t))

def execCtrlMova (c st : Nat) (h : Hdr) (ad rs : Nat) (s : State) : Outc :=
  .next (issue s c st h (.mova ad rs) fun p => setStream p fun t => t.setAddr ad (t.reg rs))

/-- Naming the address register asks for no live call number: MOVS uses no tensor (DESIGN CHOICE, log 161). -/
def execCtrlMovs (c st : Nat) (h : Hdr) (rd as : Nat) (s : State) : Outc :=
  .next (issue s c st h (.movs rd as) fun p => setStream p fun t => t.setReg rd (t.addr as))

/-- FLAGS: the issue carrel's word, then its clear (R210). -/
def flagsRead (p : At) (rd : Nat) (clr : Bool) : State :=
  let w := tgetD p.x.flags.carrel p.t.issue 0
  let s1 := modStream p.s p.c p.st fun t => t.setReg rd w
  if clr then modCtx s1 p.c fun x => { x with flags := x.flags.clearCarrel p.t.issue } else s1

def execCtrlFlags (c st : Nat) (h : Hdr) (rd : Nat) (clr : Bool) (s : State) : Outc :=
  .next (issue s c st h (.flags rd clr) fun p => .done (flagsRead p rd clr) (p.t.pc + 1))

/-- TIME: device time, step number or stream index; device time is refused in Verbatim mode (R211). -/
def execCtrlTime (c st : Nat) (h : Hdr) (rd src : Nat) (s : State) : Outc :=
  .next (issue s c st h (.time rd src) fun p =>
    if src = 0 ∧ p.x.verbatim = true then .fault ⟨.everbatim, 0, 0⟩
    else setStream p fun t => t.setReg rd (if src = 0 then p.s.now else if src = 1 then p.x.gate.step else st))

/-- Some slot that the mask names holds a collective that has not ended. -/
def slotsOpen (t : Stream) (ks : List Nat) : Bool := ks.any fun k => (t.slot k).busy && (t.slot k).status.isNone

/-- The status of the lowest-numbered named slot whose collective did not succeed, with what its record names: the id, or an address (R231, R245). -/
def slotFault (t : Stream) (ks : List Nat) : Option XFault :=
  match ks.find? (fun k => (t.slot k).busy && (t.slot k).status != some .success) with
  | none => none
  | some k => match (t.slot k).status with | some st => some ⟨st, 0, (t.slot k).detail⟩ | none => none

def freeSlots (t : Stream) (ks : List Nat) : Stream := ks.foldl (fun t k => t.setSlot k Slot.free) t

/-- Waits on slots as WAITC does; `after` is what the stream becomes then. -/
def waitSlots (p : At) (ks : List Nat) (after : Stream → Stream) : Iss :=
  if slotsOpen p.t ks then .wait
  else match slotFault p.t ks with
    | some f => .fault f
    | none => setStream p fun t => after (freeSlots t ks)

/-- END waits on every busy slot as WAITC does (R229), then ends the stream (R196). -/
def execCtrlEnd (c st : Nat) (h : Hdr) (s : State) : Outc :=
  .next (issue s c st h .endS fun p => waitSlots p (List.range 16) fun t => { t with ended := true })

/-- A stream whose next word lies beyond its last faults with EPC (R197). -/
def fallsThrough (s : State) (c st : Nat) : Option (Ctx × Stream) :=
  match getCtx s c with
  | none => none
  | some x =>
    match x.att with
    | none => none
    | some a =>
      if x.ident.st != .running || a.phase != .program || a.status != .success then none else
      match a.streams[st]? with
      | none => none
      | some t => if t.ended || t.stopped || (wordAt x st t.pc).isSome then none else some (x, t)

def execStreamFallThrough (c st : Nat) (s : State) : Outc :=
  match fallsThrough s c st with
  | none => .next s
  | some (_, t) => .next (recordFault s c st t.pc 0 t.issue ⟨.epc, 0, 0⟩)

/-! ### WATCH -/

/-- RUNG: the rung in force, constant over the step (R227). -/
def execWatchRung (c st : Nat) (h : Hdr) (rd layer : Nat) (s : State) : Outc :=
  .next (issue s c st h (.rung rd layer) fun p =>
    match rungOf p.x layer with
    | none => .fault eargF
    | some r => setStream p fun t => t.setReg rd r)

/-! ### SYNC -/

/-- FENCE: every earlier operation, or every earlier one that writes, has completed. -/
def execSyncFence (c st : Nat) (h : Hdr) (writes : Bool) (s : State) : Outc :=
  .next (issue s c st h (.fence writes) fun p =>
    if p.t.window.any (fun o => !writes || !o.writes.isEmpty) then .wait else .done p.s (p.t.pc + 1))

/-- BAR: reaching it counts once; it completes at BAR_RELEASE (R230). -/
def execSyncBar (c st : Nat) (h : Hdr) (s : State) : Outc :=
  .next (issue s c st h .bar fun p =>
    if p.t.bars = p.t.barsDone then .done (modStream p.s c st fun t => { t with bars := t.bars + 1 }) p.t.pc else .wait)

def maskList (mask : Nat) : List Nat := (List.range 16).filter (bitOf mask)

def execSyncWaitc (c st : Nat) (h : Hdr) (mask : Nat) (s : State) : Outc :=
  .next (issue s c st h (.waitc mask) fun p => waitSlots p (maskList mask) id)

def execSyncWaitt (c st : Nat) (h : Hdr) (mask : Nat) (s : State) : Outc :=
  .next (issue s c st h (.waitt mask) fun p =>
    if (maskList mask).any (fun k => (p.t.tile k).busy) then .wait else .done p.s (p.t.pc + 1))

/-- Every stream has reached its k-th BAR or its END, and every operation issued before has completed (R230). -/
def barMet (a : Attempt) (k : Nat) : Bool :=
  a.streams.all fun t => (t.ended || k ≤ t.bars) && (t.bars > k || t.window.isEmpty)

/-- The BAR that a context's waiting streams stand at. -/
def barNext (a : Attempt) : Option Nat := (a.streams.find? fun t => t.barsDone < t.bars).map fun t => t.barsDone + 1

/-- Lets the streams that stand at their k-th BAR pass it. -/
def passBar (k : Nat) (t : Stream) : Stream :=
  if t.bars = k ∧ t.barsDone + 1 = k then { t with barsDone := k, pc := t.pc + 1, waiting := false } else t

def execBarRelease (c : Nat) (s : State) : Outc :=
  match getCtx s c with
  | none => .next s
  | some x =>
    match x.att with
    | none => .next s
    | some a =>
      if a.phase != .program || a.status != .success then .next s else
      match barNext a with
      | none => .next s
      | some k => if barMet a k then .next (modAtt s c fun a => { a with streams := a.streams.map (passBar k) }) else .next s

end Sys2Proof.Machine
end

