-- ==== Sys2Proof/Machine/Move.lean ====
section
/-! DEFINITION. MOVE: COPY, STAGE, FILL, and the lookahead of waiting streams (R120, R212–R214, R240, R285). -/

namespace Sys2Proof.Machine

/-! ### COPY of plain elements -/

/-- Byte `off` of a stored tensor lies in host memory. -/
def hostByte (x : Ctx) (t : TRef) (off : Nat) : Bool :=
  match placeOf x t off true with | some (.host _) => true | _ => false

/-- An element of a plain tensor or view lies in host memory. -/
def hostElem (x : Ctx) (t : TRef) (i j : Nat) : Bool :=
  match stored x t i j with
  | some (u, a, b) => hostByte x u (a * u.e.step + b * u.e.width / 8)
  | none => false

/-- The elements of a source extent as writes of a destination extent, poison with them (R213, R304); a write of poison
to host memory consumes it, and the copy stops before it (R305, R306). -/
def copyItems (s : State) (x : Ctx) (d u : TRef) (dr dc sr sc nr nc : Nat) : List Item :=
  (positions nr nc).map fun q =>
    match readCode s x u (sr + q.1) (sc + q.2) with
    | some (k, p) =>
      if p && hostElem x d (dr + q.1) (dc + q.2) then Item.cut ⟨.epoison, 0, addrOf x u (sr + q.1) (sc + q.2)⟩
      else Item.put (dr + q.1) (dc + q.2) k p
    | none => Item.stop ⟨.eaccess, 0, addrOf x u (sr + q.1) (sc + q.2)⟩

def copyPlain (p : At) (d u : TRef) (o : List Nat) (nr nc : Nat) : Work :=
  let s1 := touchAt (touchAt p.s p.c u.call ⟨o.getD 2 0, o.getD 3 0, nr, nc⟩ false) p.c d.call ⟨o.getD 0 0, o.getD 1 0, nr, nc⟩ true
  let w := putItems s1 p.c d (copyItems p.s p.x d u (o.getD 0 0) (o.getD 1 0) (o.getD 2 0) (o.getD 3 0) nr nc)
  ⟨w.1, w.2, Flags.none, []⟩

/-! ### COPY of quires (R120, R212) -/

/-- A quire with its records, ready for the quire `n` of line `i` of a destination; `poison` holds the offsets of its poisoned atoms. -/
structure QMove where
  i : Nat
  n : Nat
  b : Bytes
  poison : List Nat
  recs : List (Nat × Bool)     -- record words, with their poison

/-- The marginalia records that go with a quire, each with its poison; a quire tensor without a region has none. They are those its
marg_index names, be it the slot of its place or not (DESIGN CHOICE, log 158). -/
def quireRecs (s : State) (x : Ctx) (u : TRef) (b : Bytes) : Except XFault (List (Nat × Bool)) :=
  match tensor x u.e.marg with
  | none => .ok []
  | some m =>
    eachOk (fun k =>
      let r := qIndex b + k
      match readCode s x m (r / m.e.cols) (r % m.e.cols) with
      | some v => .ok v
      | none => .error ⟨.eaccess, 0, addrOf x m (r / m.e.cols) (r % m.e.cols)⟩) (List.range (min 128 (qCount b)))

/-- Reads a quire of the source for a place of a destination. A COPY gives it that place's slot, in marg_index and CRC; every other move
keeps all 576 bytes (R120). -/
def moveQuire (copy : Bool) (s : State) (x : Ctx) (d u : TRef) (di dn si sn : Nat) : Except XFault QMove :=
  match readQuire s x u si sn with
  | none => .error ⟨.eaccess, 0, u.e.base + quireOff u.e si sn⟩
  | some (b, _) =>
    match quireRecs s x u b with
    | .error f => .error f
    | .ok recs =>
      let slot := slotOf d.e di dn
      let b1 := if !copy || qCount b = 0 || slot = slotOf u.e si sn then b else
        let body := b.take 548 ++ leBytes 4 slot ++ slice b 552 20
        body ++ leBytes 4 (crc32 body)
      .ok ⟨di, dn, b1, poisonAtoms s x u (quireOff u.e si sn) 576, recs⟩

/-- Writes a quire and its records, poison atom by atom (R304); the records' region is accessed as any tensor is. A destination
without a region takes no records, and the quire keeps its count (DESIGN CHOICE, log 158). -/
def putQuire (s : State) (c : Nat) (d : TRef) (q : QMove) : State × Option XFault :=
  match getCtx s c with
  | none => (s, none)
  | some x =>
    match byteUnits x d (quireOff d.e q.i q.n) q.b with
    | none => (s, some ⟨.eaccess, 0, d.e.base + quireOff d.e q.i q.n⟩)
    | some us =>
      let s1 := applyUnits s c us
      let s2 := q.poison.foldl (fun s k => match us[k]? with | some u => setPoison s c u.p true | none => s) s1
      match tensor x d.e.marg with
      | none => (s2, none)
      | some m =>
        let slot := slotOf d.e q.i q.n
        putItems (touchFlat s2 c m.call slot q.recs.length true) c m ((List.range q.recs.length).map fun k =>
          let r := q.recs.getD k (0, false)
          Item.put ((slot + k) / m.e.cols) ((slot + k) % m.e.cols) r.1 r.2)

/-- Runs writes in order up to the first fault. -/
def putInOrder (f : State → α → State × Option XFault) (s : State) : List α → State × Option XFault
  | [] => (s, none)
  | a :: r =>
    let w := f s a
    match w.2 with
    | some _ => w
    | none => putInOrder f w.1 r

/-- Runs the writes of one operation: all of them, or, where one faults, any of those that do not (R243, log 15). -/
def eachPut (f : State → α → State × Option XFault) (s : State) (l : List α) : State × Option XFault :=
  let w := putInOrder f s l
  match w.2 with
  | none => w
  | some e =>
    ((someOf s.fresh.1 l).foldl (fun s a => let v := f s a; if v.2.isNone then v.1 else s) s.fresh.2, some e)

/-- Record `slot` of a quire tensor's marginalia lies in host memory. -/
def hostRec (x : Ctx) (d : TRef) (slot : Nat) : Bool :=
  match tensor x d.e.marg with | some m => hostElem x m (slot / m.e.cols) (slot % m.e.cols) | none => false

/-- Writes a copied quire of source line and quire `so`; poison is not written to host memory: the bytes and records before it
are, and the copy stops there (R306). -/
def copyQuire (p : At) (d u : TRef) (s : State) (m : QMove × Nat × Nat) : State × Option XFault :=
  let q := m.1
  let off := quireOff u.e m.2.1 m.2.2
  if !q.poison.isEmpty && hostByte p.x d (quireOff d.e q.i q.n) then
    let a := poisonAddr p.s p.x u off 576
    (match byteUnits p.x d (quireOff d.e q.i q.n) (q.b.take (a - (u.e.base + off))) with
     | some us => applyUnits s p.c us
     | none => s, some ⟨.epoison, 0, a⟩)
  else if q.recs.any (·.2) && hostRec p.x d (slotOf d.e q.i q.n) then
    let w := putQuire s p.c d { q with recs := q.recs.takeWhile fun r => !r.2 }
    let src := match readQuire p.s p.x u m.2.1 m.2.2 with | some b => qIndex b.1 | none => 0
    (w.1, match w.2 with | some f => some f | none => some ⟨.epoison, 0, poisonRec p.s p.x u.e src q.recs.length⟩)
  else putQuire s p.c d q

def copyQuires (p : At) (d u : TRef) (o : List Nat) (nl nk : Nat) : Work :=
  let E := quireElems (effective p.x u.e).1.f
  let nq := ceilDiv nk E
  let cells := positions nl nq
  match eachOk (fun q =>
      match moveQuire true p.s p.x d u (o.getD 0 0 + q.1) (o.getD 1 0 / E + q.2) (o.getD 2 0 + q.1) (o.getD 3 0 / E + q.2) with
      | .error f => .error f
      | .ok m => .ok (m, o.getD 2 0 + q.1, o.getD 3 0 / E + q.2)) cells with
  | .error f => ⟨p.s, some f, Flags.none, []⟩
  | .ok l =>
    let s0 := touchAt (touchOpnd p.s p.c p.x u ⟨o.getD 2 0, o.getD 3 0, nl, nk⟩ none) p.c d.call ⟨o.getD 0 0, o.getD 1 0, nl, nk⟩ true
    let v := putInOrder (copyQuire p d u) s0 l
    let w := match v.2 with | some e => if e.status == Status.epoison then v else eachPut (copyQuire p d u) s0 l | none => v
    ⟨w.1, w.2, Flags.none, []⟩

/-- Lines and grouped-axis positions inside a quire tensor (R212, R221). -/
def inLines (t : TRef) (l k nl nk : Nat) : Bool × XFault :=
  (l + nl ≤ t.e.lines && k + nk ≤ t.e.axisLen, ⟨.ebound, 0, t.call⟩)

/-- A grouped-axis origin and count fit whole quires (R212, R221). -/
def wholeQuires (t : TRef) (E k nk : Nat) : Bool := k % E == 0 && (nk % E == 0 || k + nk == t.e.axisLen)

def copyChecks (x : Ctx) (o : List Nat) (nr nc : Nat) : List TRef → List (Bool × XFault)
  | [d, u] =>
    let pd := (effective x d.e).1; let pu := (effective x u.e).1
    let E := quireElems pu.f
    if d.e.kind == 1 && u.e.kind == 1 then
      [(pd.fmt == pu.fmt, eargF),
       (wholeQuires d E (o.getD 1 0) nc && wholeQuires u E (o.getD 3 0) nc, eargF),
       inLines d (o.getD 0 0) (o.getD 1 0) nr nc, inLines u (o.getD 2 0) (o.getD 3 0) nr nc]
    else
      [(d.isPlain && u.isPlain && d.e.fmt == u.e.fmt, eargF),
       inView d (o.getD 0 0) (o.getD 1 0) nr nc, inView u (o.getD 2 0) (o.getD 3 0) nr nc]
  | _ => [(false, eargF)]

def copyWork (f : MoveF) (p : At) : Work :=
  let d := p.ref (p.t.addr f.aD); let u := p.ref (p.t.addr f.aS)
  let o := p.t.origins f.sb 4
  if u.e.kind = 1 then copyQuires p d u o (f.rows + 1) (f.cols + 1) else copyPlain p d u o (f.rows + 1) (f.cols + 1)

def execMoveCopy (c st : Nat) (h : Hdr) (f : MoveF) (s : State) : Outc :=
  .next (issue s c st h (.copy f) fun p =>
    let cns := [p.t.addr f.aD, p.t.addr f.aS]
    runOp p (checkOpnds p cns (copyChecks p.x (p.t.origins f.sb 4) (f.rows + 1) (f.cols + 1)))
      [p.t.addr f.aS] [p.t.addr f.aD] false (copyWork f) [])

/-! ### STAGE and lookahead (R214, R240, R329) -/

/-- A staged copy of rows of a tensor. -/
def stageRows (s : State) (c call r n : Nat) : State :=
  modCtx s c fun x => { x with cat := { x.cat with
    staged := if x.cat.staged.contains (call, r, n) then x.cat.staged else x.cat.staged ++ [(call, r, n)] } }

def execMoveStage (c st : Nat) (h : Hdr) (f : MoveF) (s : State) : Outc :=
  .next (issue s c st h (.stage f) fun p =>
    let cn := p.t.addr f.aS
    let r := p.t.reg (f.sb + 2); let k := p.t.reg (f.sb + 3)
    match checkOpnds p [cn] fun l => l.map fun t => inView t r k (f.rows + 1) (f.cols + 1) with
    | some e => .fault e
    | none => .done (stageRows p.s c cn r (f.rows + 1)) (p.t.pc + 1))

/-! ### FILL (R212, R285) -/

def fillItems (dr dc nr nc code : Nat) : List Item := (positions nr nc).map fun q => Item.put (dr + q.1) (dc + q.2) code false

/-- FILL of ledger cells with 0: value and state are cleared. -/
def clearCells (s : State) (c : Nat) (d : TRef) (l : List (Nat × Nat)) : State × Option XFault :=
  match getCtx s c with
  | none => (s, none)
  | some x =>
    match eachOk (fun q => match byteUnits x d (cellOff d.e q.1 q.2) (zeros 40) with
        | none => .error ⟨.eaccess, 0, d.e.base + cellOff d.e q.1 q.2⟩ | some u => .ok u) l with
    | .error f => (s, some f)
    | .ok us =>
      let s1 := applyUnits s c us.flatten
      let ks := l.map fun q => cellKey x d q.1 q.2
      ({ s1 with mem := { s1.mem with cellState := s1.mem.cellState.filter fun e => !ks.contains e.1 } }, none)

def fillWork (f : MoveF) (p : At) : Work :=
  let d := p.ref (p.t.addr f.aD)
  let r := p.t.reg f.sb; let k := p.t.reg (f.sb + 1)
  let s0 := touchAt p.s p.c d.call ⟨r, k, f.rows + 1, f.cols + 1⟩ true
  let w := if d.e.kind = 2 then clearCells s0 p.c d ((positions (f.rows + 1) (f.cols + 1)).map fun q => (r + q.1, k + q.2))
    else putItems s0 p.c d (fillItems r k (f.rows + 1) (f.cols + 1) (p.t.reg f.rv % 2 ^ d.e.width))
  ⟨w.1, w.2, Flags.none, []⟩

def fillChecks (v r k nr nc : Nat) : List TRef → List (Bool × XFault)
  | [d] => [(d.isPlain || (d.e.kind == 2 && v == 0), eargF), inView d r k nr nc]
  | _ => [(false, eargF)]

def execMoveFill (c st : Nat) (h : Hdr) (f : MoveF) (s : State) : Outc :=
  .next (issue s c st h (.fill f) fun p =>
    runOp p (checkOpnds p [p.t.addr f.aD]
        (fillChecks (p.t.reg f.rv) (p.t.reg f.sb) (p.t.reg (f.sb + 1)) (f.rows + 1) (f.cols + 1)))
      [] [p.t.addr f.aD] false (fillWork f) [])

/-! ### Lookahead (R240) -/

/-- The scalar register a word writes. -/
def insWrites : Ins → Option Nat
  | .li rd false _ => some rd
  | .alu f => some f.rd
  | .movs rd _ => some rd
  | .flags rd _ => some rd
  | .time rd _ => some rd
  | .rung rd _ => some rd
  | _ => none
/-- The registers after a word, as far as a look at the word tells. -/
def insAfter (t : Stream) : Ins → Stream
  | .li rd true v => t.setAddr rd v
  | .li rd false v => t.setReg rd v
  | .alu f => t.setReg f.rd (aluFn f.fn (t.reg f.rs1) (aluY f t))
  | .mova ad rs => t.setAddr ad (t.reg rs)
  | .movs rd as => t.setReg rd (t.addr as)
  | _ => t

/-- Scalar and address registers of which a look at the words does not tell the value, after one more word: what FLAGS, TIME and RUNG read,
and what comes from it. -/
def insHides (hs ha : List Nat) : Ins → List Nat × List Nat
  | .flags rd _ | .time rd _ | .rung rd _ => (rd :: hs, ha)
  | .alu f => (if hs.contains f.rs1 || (!f.im && hs.contains f.rs2) then f.rd :: hs else hs, ha)
  | .mova ad rs => (hs, if hs.contains rs then ad :: ha else ha)
  | .movs rd as => (if ha.contains as then rd :: hs else hs, ha)
  | _ => (hs, ha)

/-- The source extents of a word that lookahead stages: address register, first line, lines. Of B of a FOLD the lines are its rows, eight bits
to a row under XPOP, or, where it is grouped along K, its columns; of the source of a QUANT to a tensor grouped along rows they are the positions
along the grouped axis (R221). -/
def insSources (x : Ctx) (t : Stream) : Ins → List (Nat × Nat × Nat)
  | .copy f => [(f.aS, t.reg (f.sb + 2), f.rows + 1)]
  | .fold op f =>
    let byCol := match tensor x (t.addr f.aB) with | some u => quantised u.e && u.e.gaxis | none => false
    [(f.aA, t.reg f.sb, f.msize + 1),
     if op = .xpop then (f.aB, t.reg (f.sb + 2) / 8, (f.ksize + 1) * 4)
     else if byCol then (f.aB, t.reg (f.sb + 3), f.nsize + 1) else (f.aB, t.reg (f.sb + 2), (f.ksize + 1) * 32)]
  | .quant f =>
    let byCol := match tensor x (t.addr f.aD) with | some u => quantised u.e && u.e.gaxis | none => false
    [if byCol then (f.aS, t.reg (f.sb + 3), (f.klen + 1) * 32) else (f.aS, t.reg (f.sb + 2), f.rows + 1)]
  | .deq f => [(f.aS, t.reg (f.sb + 2), f.rows + 1)]
  | .rot _ f => [(f.aS, t.reg (f.sb + 2), f.rows + 1)]
  | _ => []

/-- The registers that hold a word's origins. -/
def insOrigins : Ins → List Nat
  | .copy f => [f.sb + 2, f.sb + 3]
  | .fold _ f => [f.sb, f.sb + 1, f.sb + 2, f.sb + 3]
  | .quant f | .deq f => [f.sb + 2, f.sb + 3]
  | .rot _ f => [f.sb + 2, f.sb + 3]
  | _ => []

/-- Looks at up to `n` words from `pc`, with the registers `t` as the words before leave them; `ws` are the scalar registers that intervening
words write, and `h` those whose values a look does not tell. -/
def lookahead (x : Ctx) (st : Nat) : Nat → Nat → Stream → List Nat → List Nat × List Nat → List (Nat × Nat × Nat)
  | 0, _, _, _, _ => []
  | n + 1, pc, t, ws, h =>
    match wordAt x st pc with
    | none => []
    | some w =>
      match decodeIns w with
      | none => []
      | some (_, i) =>
        match i with
        | .br _ | .endS => []
        | _ =>
          let here := if (insOrigins i).any ws.contains then []
            else ((insSources x t i).filter fun q => !h.2.contains q.1).map fun q => (t.addr q.1, q.2.1, q.2.2)
          here ++ lookahead x st n (pc + 1) (insAfter t i) (ws ++ (insWrites i).toList) (insHides h.1 h.2 i)

/-- What the lookahead of a waiting stream stages: the word it waits at and the 16 that follow. -/
def lookaheadOf (x : Ctx) (st : Nat) (t : Stream) : List (Nat × Nat × Nat) :=
  (lookahead x st 17 t.pc t [] ([], [])).filter fun q => (liveEntry x q.1).isSome

def execLookaheadStage (c st : Nat) (s : State) : Outc :=
  match getCtx s c with
  | none => .next s
  | some x =>
    match x.att with
    | none => .next s
    | some a =>
      match a.streams[st]? with
      | none => .next s
      | some t =>
        if a.phase != .program || !(t.waiting || t.barsDone < t.bars) then .next s else
        .next ((lookaheadOf x st t).foldl (fun s q => stageRows s c q.1 q.2.1 q.2.2) s)

end Sys2Proof.Machine
end

