-- ==== Sys2Proof/Machine/FoldOps.lean ====
section
/-! DEFINITION. FOLD at issue, the arrival of its pieces, load balancing and its completion (R138–R152, R167, R172–R174, R215, R216,
R246, R255, R333–R336, R393–R396). -/

namespace Sys2Proof.Machine

/-! ### Checks at issue (R215) -/

/-- Quantised: a quire tensor or a quantising view. -/
def TRef.quantised (t : TRef) : Bool := Sys2Proof.Machine.quantised t.e
/-- The effective policy of a quantised entry is one R73 and R393 admit; at rung 4 none is used. -/
def policyFits (x : Ctx) (t : TRef) : Bool :=
  let p := effective x t.e
  p.2 || (policyOk x p.1 t.e.zeropts && rungOk x t.e p.1)
/-- The operand's layer stands at rung 4 (R396). -/
def atRung4 (x : Ctx) (t : TRef) : Bool := t.quantised && (effective x t.e).2
/-- The format a FOLD feeds from an operand. -/
def feedFmt (x : Ctx) (t : TRef) : Fmt := if t.quantised then (effective x t.e).1.f else t.fmt
/-- An operand's rotation id (R96). -/
def rotOf (x : Ctx) (t : TRef) : Nat := if t.quantised && (effective x t.e).1.rot then (effective x t.e).1.rotId else 0
def margOf (x : Ctx) (t : TRef) : Bool := t.quantised && (effective x t.e).1.marg

/-- BF16 or FP16, plain (R246). -/
def isWide (t : TRef) : Bool := t.isPlain && (t.e.fmt == 9 || t.e.fmt == 10)
/-- What a rung-4 folio can feed from an operand (R396). -/
def wideSource (x : Ctx) (t : TRef) : Bool :=
  if t.quantised then atRung4 x t && (match tensor x t.e.source with | some u => u.isFloat | none => false) else t.isFloat

/-- The formats of an operation other than dot (R138). -/
def opFmts : FoldOp → List Fmt
  | .l1 | .l2 => [.t2, .int2, .int4, .uint4]
  | .maxp | .minp => [.t2, .int2, .int4, .uint4, .fp4]
  | _ => []

/-- The operand formats an operation admits (R126, R138, R142, R143, R246, R255, R396). -/
def fmtsOk (x : Ctx) (op : FoldOp) (kind : Nat) (a b : TRef) : Bool :=
  a.e.kind != 2 && b.e.kind != 2 &&
  if atRung4 x a || atRung4 x b then op == .dot && kind == 0 && wideSource x a && wideSource x b
  else if isWide a || isWide b then isWide a && isWide b && op == .dot && kind == 0
  else if kind == 2 then op == .dot && a.isFmt .int8 && b.isFmt .int8
  else if op == .xpop then a.isFmt .int8 && b.isFmt .int8
  else (feedFmt x a).narrow && (feedFmt x b).narrow &&
    (op == .dot || (feedFmt x a == feedFmt x b && (opFmts op).contains (feedFmt x a) && !margOf x a && !margOf x b))

/-- The integer rules (R157). -/
def intOk (x : Ctx) (op : FoldOp) (kind : Nat) (a b : TRef) : Bool :=
  kind != 1 || op == .xpop ||
  ([a, b].all fun t => [Fmt.t2, .int2, .int4, .uint4, .int8].contains (feedFmt x t) && rotOf x t == 0 && !margOf x t)

/-- Both operands are consumed along K (R96, R145, R393, R394). -/
def axesOk (x : Ctx) (a b : TRef) (ak bk k : Nat) : Bool :=
  (!a.quantised || !a.e.gaxis) && (!b.quantised || b.e.gaxis) && ak % 32 == 0 && bk % 32 == 0
  && ([a, b].all fun t => !t.quantised || atRung4 x t || rungOk x t.e (effective x t.e).1)
  && !(a.quantised && b.quantised && a.e.layer != 0xFFFF && b.e.layer != 0xFFFF && a.e.layer != b.e.layer)
  && (atRung4 x a || atRung4 x b ||
      (rotOf x a == rotOf x b &&
        (match tget x.pol.rot (rotOf x a) with | some r => ak % r.n == 0 && bk % r.n == 0 && k % r.n == 0 | none => rotOf x a == 0)))

/-- Elements of a tensor. -/
def TRef.size (t : TRef) : Nat := t.e.rows * t.e.cols

/-- What a FOLD names (R146, R174): extents and origins. -/
structure FoldDims where
  m : Nat
  n : Nat
  k : Nat
  ar : Nat
  ak : Nat
  bk : Nat
  bc : Nat
  cr : Nat
  cc : Nat
deriving DecidableEq, Repr

def foldDims (t : Stream) (f : FoldF) : FoldDims :=
  let r (k : Nat) : Nat := t.reg (f.sb + k)
  ⟨f.msize + 1, f.nsize + 1, (f.ksize + 1) * 32, r 0, r 1, r 2, r 3, r 4, r 5⟩

/-- The preload's rules (R172, R217): format by kind, then reach. The output's own contents are held to the formats of the other preload
values (DESIGN CHOICE, log 121: R172 gives formats for bias and residual alone). -/
def preChecks (p : At) (pre : Preload) (kind : Nat) (d : FoldDims) (c : TRef) : List (Bool × XFault) :=
  let fmt (t : TRef) : Bool × XFault := (if kind = 0 then t.isFloat else t.isFmt .int32, eargF)
  match pre with
  | .zero => []
  | .brow v => let t := p.ref v; [fmt t, (d.cr + d.m ≤ t.size, ⟨.ebound, 0, v⟩)]
  | .bcol v => let t := p.ref v; [fmt t, (d.cc + d.n ≤ t.size, ⟨.ebound, 0, v⟩)]
  | .res v r k => let t := p.ref v; [fmt t, inView t r k d.m d.n]
  | .self => [fmt c]

/-- A stage's scale or bias vector (R177). -/
def axisChecks (p : At) (axis v : Nat) (d : FoldDims) : List (Bool × XFault) :=
  if axis = 0 then [] else
  let t := p.ref v
  [(t.isFloat, eargF), ((if axis = 1 then d.cr + d.m else d.cc + d.n) ≤ t.size, ⟨.ebound, 0, v⟩)]

/-- The stage 3a result tensor (R188, R279, R657). -/
def winChecks (p : At) (e : Epi) (c : TRef) : List (Bool × XFault) :=
  if e.reduction = 0 then [] else
  let t := p.ref e.result
  [(t.e.kind == 0 && t.e.fmt == 13 && t.e.rows == 1 && (!e.merge || ((t.e.cls == 1 || t.e.cls == 2) && t.e.base % 8 == 0 && atomicsOk p.s p.x)), eargF),
   (2 * (if e.raxis = 0 then c.e.rows else c.e.cols) ≤ t.e.cols, ⟨.ebound, 0, e.result⟩)]

/-- The stage 3b tensor (R73, R184, R279, R393): its policy is admitted, its cells take atomics, and the folio's extent and origin along its
grouped axis hold whole groups and blocks. -/
def tapChecks (p : At) (e : Epi) (d : FoldDims) : List (Bool × XFault) :=
  if !e.tap then [] else
  let t := p.ref e.qtensor
  let pol := (effective p.x t.e).1
  let byCol := e.taxis == 1
  let n := match rotOf p.x t, tget p.x.pol.rot (rotOf p.x t) with | 0, _ => 1 | _, some r => r.n | _, none => 1
  let o := if byCol then d.cc else d.cr
  let len := if byCol then d.n else d.m
  [(t.quantised && (tensor p.x t.e.source).isSome && (tensor p.x t.e.sgrad).isSome && t.e.gaxis == !byCol, eargF),
   (policyFits p.x t && ((effective p.x t.e).2 || atomicsOk p.s p.x), eargF),
   (o % pol.g == 0 && len % pol.g == 0 && o % n == 0 && len % n == 0, eargF),
   (extentOk t.e d.cr d.cc d.m d.n, ⟨.ebound, 0, e.qtensor⟩)]

/-- The call numbers a tile's configuration names (R215). -/
def tileCalls (t : Tile) : List Nat :=
  (match t.pre with | .brow v => [v] | .bcol v => [v] | .res v _ _ => [v] | _ => [])
  ++ (if t.epi.saxis != 0 then [t.epi.scale] else []) ++ (if t.epi.baxis != 0 then [t.epi.bias] else [])
  ++ (if t.epi.tap then [t.epi.qtensor] else [])
def tileResult (t : Tile) : List Nat := if t.epi.reduction != 0 then [t.epi.result] else []

def slotLoaded (x : Ctx) (slot : Nat) : Bool := slot ≤ 6 || (slot != 7 && (tget x.pol.act slot).isSome)

/-- Every check of R215 in order. -/
def foldChecks (p : At) (op : FoldOp) (f : FoldF) : List TRef → List (Bool × XFault)
  | a :: b :: c :: _ =>
    let d := foldDims p.t f
    let tl := p.t.tile f.tile
    let xp := op == .xpop
    [(fmtsOk p.x op f.kind a b, eargF), (!xp || d.k % 128 == 0, eargF), (axesOk p.x a b d.ak d.bk d.k, eargF)]
    ++ (if xp then [(d.ar + d.m ≤ a.e.rows && d.ak + d.k ≤ 8 * a.e.cols, ⟨.ebound, 0, a.call⟩),
                    (d.bc + d.n ≤ b.e.cols && d.bk + d.k ≤ 8 * b.e.rows, ⟨.ebound, 0, b.call⟩)]
        else [inView a d.ar d.ak d.m d.k, inView b d.bk d.bc d.k d.n])
    ++ [inView c d.cr d.cc d.m d.n, (intOk p.x op f.kind a b, eargF), (c.call != a.call && c.call != b.call, eargF)]
    ++ preChecks p tl.pre f.kind d c
    ++ [(c.isPlain && c.e.fmt == tl.epi.target, eargF), (slotLoaded p.x tl.epi.slot, eargF),
        (!tl.epi.stats || (tget p.x.pol.watch tl.epi.layer).isSome, eargF),
        (tl.epi.target != 13 || (f.kind != 0 && !tl.epi.active), eargF)]
    ++ axisChecks p tl.epi.saxis tl.epi.scale d ++ axisChecks p tl.epi.baxis tl.epi.bias d
    ++ winChecks p tl.epi c ++ tapChecks p tl.epi d
  | _ => [(false, eargF)]

/-! ### Issue (R216) -/

/-- `k` carrels of a grant: a free choice, the `n`-th. -/
def chooseSet (n : Nat) : Nat → List Nat → List Nat
  | 0, _ => []
  | k + 1, l =>
    let c := l.getD (Config.place n k 0 % l.length) 0
    c :: chooseSet n k (l.erase c)

/-- The size of a FOLD's assignment set (R333). -/
def foldP (p : At) (f : FoldF) : Nat := if f.pmax = 0 then p.x.g else min f.pmax p.x.g

/-- The assignment set of a FOLD (R333, R334): the whole grant, or a free choice of P carrels of it. -/
def foldSet (p : At) (f : FoldF) : List Nat :=
  if foldP p f = p.x.g then p.x.ident.grant else chooseSet p.s.free (foldP p f) p.x.ident.grant

/-- The folio reads a tensor scale for an operand: a quantised one in a float folio, or one formed on the fly (R79, R108, R157). -/
def readsScale (x : Ctx) (kind : Nat) (r4 : Bool) (t : TRef) : Bool :=
  t.quantised && !r4 && (kind == 0 || t.e.kind == 4 || substituted x t)

/-- The scale an operand has at the folio's start. -/
def scaleAtStart (p : At) (kind : Nat) (r4 : Bool) (t : TRef) : Option XScale :=
  if readsScale p.x kind r4 t then some (XScale.of (tensorScale p.s p.x t.e)) else none

/-- An operand stands at rung 4, so the folio is fed wide (R396). -/
def foldWide (p : At) (f : FoldF) : Bool := atRung4 p.x (p.ref (p.t.addr f.aA)) || atRung4 p.x (p.ref (p.t.addr f.aB))

/-- The folio a FOLD issues: captured configuration, assignment set, tensor scales and spans (R79, R150, R216, R333, R334). -/
def newFolio (p : At) (op : FoldOp) (f : FoldF) : Folio :=
  let d := foldDims p.t f
  let tl := p.t.tile f.tile
  let P := foldP p f
  let ka := p.t.addr f.aA; let kb := p.t.addr f.aB
  let r4 := foldWide p f
  let L := ceilDiv d.m 64 * ceilDiv d.n 64
  { id := p.a.opSeq, stream := p.st, op := op, kind := f.kind, a := ka, b := kb, c := p.t.addr f.aC,
    org := [d.ar, d.ak, d.bk, d.bc, d.cr, d.cc], m := d.m, n := d.n, k := d.k, p := P,
    q := spanCount p.x.verbatim (ceilDiv d.k 1024) (d.k / chunkWidth op) P L, rung4 := r4, tile := f.tile, pre := tl.pre, epi := tl.epi,
    set := foldSet p f, choice := p.s.free + 1, carrels := [], scaleA := scaleAtStart p f.kind r4 (p.ref ka),
    scaleB := scaleAtStart p f.kind r4 (p.ref kb),
    scaleT := if tl.epi.tap then some (XScale.of (tensorScale p.s p.x (p.ref tl.epi.qtensor).e)) else none, overs := [], partials := [], leavesDone := [], winners := [], word := p.w, pc := p.t.pc, status := .success }

/-- The carrel that first receives a piece: a free choice among the set. -/
def firstCarrel (f : Folio) (leaf span : Nat) : Nat := f.set.getD (Config.place f.choice leaf span % f.set.length) 0

/-- The carrel that runs a piece: the last it was moved to, or the first that received it. -/
def carrelOf (f : Folio) (leaf span : Nat) : Nat :=
  match f.carrels.reverse.find? fun k => k.1 == leaf && k.2.1 == span with
  | some k => k.2.2
  | none => firstCarrel f leaf span

/-- The home carrel of a leaf runs its span 0, which never moves (R167). -/
def homeCarrel (f : Folio) (leaf : Nat) : Nat := firstCarrel f leaf 0

/-- The scale-gradient cells a tile's tap writes. -/
def tapCells (x : Ctx) (t : Tile) : List Nat :=
  if !t.epi.tap then [] else
  match liveEntry x t.epi.qtensor with | some e => if e.sgrad = 0 then [] else [e.sgrad] | none => []

/-- Call numbers a FOLD reads and writes (R235). -/
def foldReads (p : At) (f : FoldF) : List Nat := [p.t.addr f.aA, p.t.addr f.aB] ++ tileCalls (p.t.tile f.tile)
def foldWrites (p : At) (f : FoldF) : List Nat :=
  [p.t.addr f.aC] ++ tileResult (p.t.tile f.tile) ++ tapCells p.x (p.t.tile f.tile)

/-- The state after a FOLD has issued: two free choices are spent, that of its set and that of its pieces' first carrels; the home carrel of
leaf 0 reads the tensor scales (R79). -/
def foldIssued (p : At) (op : FoldOp) (f : FoldF) : State :=
  let n := newFolio p op f
  let one (s : State) (v : Option XScale) (call : Nat) : State :=
    if v.isSome then touchFlat s p.c (p.ref call).e.tscale 0 1 false (some (homeCarrel n 0)) else s
  let s0 := one (one (one { p.s with free := p.s.free + 2 } n.scaleA n.a) n.scaleB n.b) n.scaleT n.epi.qtensor
  let s1 := modStream s0 p.c p.st fun t => t.setTile f.tile { t.tile f.tile with busy := true }
  let s2 := modAtt s1 p.c fun a => { a with folios := a.folios ++ [n] }
  addOp s2 p.c p.st (foldReads p f) (foldWrites p f) true none (foldSet p f)

def issueFold (op : FoldOp) (f : FoldF) (p : At) : Iss :=
  if (p.t.tile f.tile).busy || !p.clear (foldReads p f) (foldWrites p f) then .wait else
  let tl := p.t.tile f.tile
  match checkOpnds p ([p.t.addr f.aA, p.t.addr f.aB, p.t.addr f.aC] ++ tileCalls tl ++ tileResult tl) (foldChecks p op f) with
  | some e => .fault e
  | none => .done (foldIssued p op f) (p.t.pc + 1)

def execFoldDot (c st : Nat) (h : Hdr) (f : FoldF) (s : State) : Outc := .next (issue s c st h (.fold .dot f) (issueFold .dot f))
def execFoldL1 (c st : Nat) (h : Hdr) (f : FoldF) (s : State) : Outc := .next (issue s c st h (.fold .l1 f) (issueFold .l1 f))
def execFoldL2 (c st : Nat) (h : Hdr) (f : FoldF) (s : State) : Outc := .next (issue s c st h (.fold .l2 f) (issueFold .l2 f))
def execFoldMaxp (c st : Nat) (h : Hdr) (f : FoldF) (s : State) : Outc := .next (issue s c st h (.fold .maxp f) (issueFold .maxp f))
def execFoldMinp (c st : Nat) (h : Hdr) (f : FoldF) (s : State) : Outc := .next (issue s c st h (.fold .minp f) (issueFold .minp f))
def execFoldXpop (c st : Nat) (h : Hdr) (f : FoldF) (s : State) : Outc := .next (issue s c st h (.fold .xpop f) (issueFold .xpop f))

/-! ### The arrival of a piece (R163–R169) -/

/-- The real outputs of a leaf (R147, R148). -/
def leafRegion (f : Folio) (leaf : Nat) : Region :=
  let r := leaf / f.leafCols; let c := leaf % f.leafCols
  ⟨64 * r, 64 * c, min 64 (f.m - 64 * r), min 64 (f.n - 64 * c)⟩

/-- How the folio sums (R156, R158, R171). -/
def folioSum (x : Ctx) (f : Folio) : Sum :=
  let t := tensor x f.a
  let n := match t with
    | some t => if f.rung4 then 1 else (match tget x.pol.rot (rotOf x t) with | some r => r.n | none => 1)
    | none => 1
  ⟨f.op, f.kind == 0, x.verbatim, XReal.pow2 (-(Nat.log2 n : Nat))⟩

/-- First and end chunk of a span, and the chunk its lines are read from: the start of a K-block whose marginalia it adds (R165). -/
def spanChunks (x : Ctx) (f : Folio) (span : Nat) : Nat × Nat × Nat :=
  let cpb := 1024 / chunkWidth f.op
  let c0 := spanStart x.verbatim f.blocks f.chunks cpb f.q span
  let c1 := if span + 1 = f.q then f.chunks else spanStart x.verbatim f.blocks f.chunks cpb f.q (span + 1)
  let blk := c0 / cpb * cpb
  (c0, c1, if min (blk + cpb) f.chunks ≤ c1 then blk else c0)

/-- A piece's work: its cells in row-major order, flags, the operands in which its feeders found an overfull block, and its quires. -/
structure PieceOut where
  cells : List Cell
  flags : Flags
  overs : List TRef
  quires : Nat

/-- The access of a piece to an operand: `n` of its lines from `l0`, `len` K positions from `k0` (R270, R325). -/
def touchLines (s : State) (c : Nat) (x : Ctx) (f : Folio) (t : TRef) (isA : Bool) (l0 n k0 len unit : Nat) : State :=
  let g : Extent := if isA || (t.quantised && !f.rung4) then ⟨l0, k0, n, len⟩ else ⟨k0, l0, len, n⟩
  if !t.quantised || !f.rung4 then touchOpnd s c x t g (some unit)
  else if t.e.kind = 4 then touchAt s c t.call (if t.e.gaxis then ⟨l0, k0, n, len⟩ else g) false (some unit)
  else touchAt s c t.e.source g false (some unit)

def touchPiece (s : State) (c : Nat) (x : Ctx) (f : Folio) (leaf span : Nat) : State :=
  match tensor x f.a, tensor x f.b with
  | some a, some b =>
    let g := leafRegion f leaf
    let sp := spanChunks x f span
    let w := if f.op == .xpop then 16 else chunkWidth f.op
    let k (n : Nat) : Nat := if f.op == .xpop then f.org.getD n 0 / 8 else f.org.getD n 0
    let u := carrelOf f leaf span
    let s1 := touchLines s c x f a true (f.org.getD 0 0 + g.r0) g.h (k 1 + sp.2.2 * w) ((sp.2.1 - sp.2.2) * w) u
    touchLines s1 c x f b false (f.org.getD 3 0 + g.c0) g.w (k 2 + sp.2.2 * w) ((sp.2.1 - sp.2.2) * w) u
  | _, _ => s

/-- Quires that `n` lines of an operand bring over a run (R118, R155). -/
def quiresRead (x : Ctx) (f : Folio) (t : TRef) (n k0 len : Nat) : Nat :=
  if t.e.kind != 1 || f.rung4 || substituted x t || len == 0 then 0 else
  let E := quireElems (effective x t.e).1.f
  n * ((k0 + len - 1) / E + 1 - k0 / E)

/-- The lines that a leaf takes of A and of B over chunks `c0` to `c1`. -/
def leafLines (s : State) (x : Ctx) (f : Folio) (a b : TRef) (g : Region) (c0 c1 : Nat) : Except XFault (List FLine × List FLine) :=
  let w := chunkWidth f.op
  let org : Nat → Nat := fun k => f.org.getD k 0
  match eachOk (fun i => feedLine s x f.op f.rung4 true a (org 0 + g.r0 + i) (org 1 + c0 * w) ((c1 - c0) * w) (keptScale f.scaleA)) (List.range g.h),
        eachOk (fun j => feedLine s x f.op f.rung4 false b (org 3 + g.c0 + j) (org 2 + c0 * w) ((c1 - c0) * w) (keptScale f.scaleB)) (List.range g.w) with
  | .error e, _ => .error e
  | _, .error e => .error e
  | .ok la, .ok lb => .ok (la, lb)

/-- A piece reads its lines from chunk `o` on, for the marginalia terms of a K-block that it ends; it consumes, and raises flags for, its own
chunks alone (R131, R165). -/
def pieceWork (s : State) (x : Ctx) (f : Folio) (leaf span : Nat) : Except XFault PieceOut :=
  match tensor x f.a, tensor x f.b with
  | some a, some b =>
    let g := leafRegion f leaf
    let sp := spanChunks x f span
    let o := sp.2.2
    let w := chunkWidth f.op
    let own := (sp.2.1 - sp.1) * w
    let org : Nat → Nat := fun k => f.org.getD k 0
    let wide := leafLines s x f a b g o sp.2.1
    match wide, (if o = sp.1 then wide else leafLines s x f a b g sp.1 sp.2.1) with
    | .error e, _ => .error e
    | _, .error e => .error e
    | .ok (la, lb), .ok (na, nb) =>
      let m := folioSum x f
      let nc := sp.2.1 - o
      let feeds (l : FLine) : List Feed := if f.op == .xpop then [] else (List.range nc).map (feedChunk f.op m.float l)
      let fa := la.map feeds; let fb := lb.map feeds
      let ffl (l : List (List Feed)) : Flags := l.foldl (fun a q => (q.drop (sp.1 - o)).foldl (fun a e => a.or e.flags) a) Flags.none
      let lfl (l : List FLine) : Flags := l.foldl (fun a q => a.or q.flags) Flags.none
      let dl := FLine.plain .int8 [] Flags.none
      let pre : Nat × Nat → Except XFault (Nat × Flags) := fun q =>
        if x.verbatim || span != 0 || f.kind != 0 || f.op == .maxp || f.op == .minp then .ok (0, Flags.none) else
        match preVal s x f (g.r0 + q.1) (g.c0 + q.2) with
        | .error e => .error e
        | .ok v => .ok (v.1.getD 0, v.2)
      match eachOk (fun q =>
          match pre q with
          | .error e => .error e
          | .ok v =>
            let r := m.piece (fa.getD q.1 []) (fb.getD q.2 []) (la.getD q.1 dl) (lb.getD q.2 dl) o sp.1 sp.2.1 f.chunks v.1
            .ok (r.1, r.2.or v.2)) (positions g.h g.w) with
      | .error e => .error e
      | .ok cs =>
        let ov (t : TRef) (l : List FLine) : List TRef := if l.any (fun q => q.overs != 0) then [t] else []
        .ok ⟨cs.map (·.1), (((ffl fa).or (ffl fb)).or ((lfl na).or (lfl nb))).or (cs.foldl (fun z q => z.or q.2) Flags.none),
             ov a na ++ ov b nb,
             quiresRead x f a g.h (org 1 + sp.1 * w) own + quiresRead x f b g.w (org 2 + sp.1 * w) own⟩
  | _, _ => .error ⟨.eaccess, 0, 0⟩

/-- The totals of a leaf from its pieces (R164, R166, R169), with the preload where it enters there. -/
def leafTotals (s : State) (x : Ctx) (f : Folio) (leaf : Nat) : Except XFault (List (List Nat) × Flags) :=
  let g := leafRegion f leaf
  let m := folioSum x f
  let parts : List (List Cell) := (List.range f.q).map fun k =>
    match f.partials.find? (fun p => p.1 == leaf && p.2.1 == k) with | some p => p.2.2 | none => []
  let late := x.verbatim || f.kind != 0 || f.op == .maxp || f.op == .minp
  match eachOk (fun i => eachOk (fun j =>
      match (if late then preVal s x f (g.r0 + i) (g.c0 + j) else .ok (none, Flags.none)) with
      | .error e => .error e
      | .ok v =>
        let r := m.total v.1 (parts.map fun l => l.getD (i * g.w + j) (.word 0))
        .ok (r.1, r.2.or v.2)) (List.range g.w)) (List.range g.h) with
  | .error e => .error e
  | .ok l => .ok (l.map fun q => q.map (·.1), l.flatten.foldl (fun a q => a.or q.2) Flags.none)

/-- The leaves whose outputs one run of the epilogue takes together: one leaf, or the two that share blocks of 128 under stage 3b. -/
def leafGroup (x : Ctx) (f : Folio) (leaf : Nat) : List Nat :=
  let blk := if !f.epi.tap then 0 else
    match tensor x f.epi.qtensor with
    | none => 0
    | some t =>
      let n := match tget x.pol.rot (rotOf x t) with | some r => r.n | none => 0
      max (effective x t.e).1.g n
  if blk ≤ 64 then [leaf] else
  if f.epi.taxis = 1 then
    let c := leaf % f.leafCols
    let first := leaf - c + c / 2 * 2
    if c / 2 * 2 + 1 < f.leafCols then [first, first + 1] else [first]
  else
    let r := leaf / f.leafCols; let c := leaf % f.leafCols
    let first := r / 2 * 2 * f.leafCols + c
    if first + f.leafCols < f.leaves then [first, first + f.leafCols] else [first]

/-- Every span of a leaf has arrived. -/
def leafReady (f : Folio) (leaf : Nat) : Bool :=
  (List.range f.q).all fun k => f.partials.any fun p => p.1 == leaf && p.2.1 == k

/-- The rectangle that a group of leaves covers. -/
def joinLeaves (f : Folio) (ls : List Nat) : Region :=
  match ls.map (leafRegion f) with
  | [g] => g
  | [g, k] => if g.r0 = k.r0 then ⟨g.r0, g.c0, g.h, g.w + k.w⟩ else ⟨g.r0, g.c0, g.h + k.h, g.w⟩
  | _ => ⟨0, 0, 0, 0⟩

def setFolio (s : State) (c : Nat) (f : Folio) : State :=
  modAtt s c fun a => { a with folios := a.folios.map fun g => if g.id == f.id then f else g }

/-- A folio that faults in execution on a carrel: its record, and it stops at this boundary (R243). -/
def failFolio (s : State) (c : Nat) (f : Folio) (carrel : Nat) (e : XFault) : State :=
  execFaultOn (setFolio s c { f with status := e.status }) c carrel f.stream f.pc f.word e

/-- Flags of leaves on their home carrels. -/
def raiseHomes (s : State) (c : Nat) (l : List (Nat × Flags)) : State := l.foldl (fun s q => raiseOn s c q.1 q.2) s

/-- Runs the epilogue of a group of leaves whose pieces have all arrived: each leaf's home carrel combines its partials and runs its epilogue
(R167). -/
def finishLeaves (s : State) (c : Nat) (x : Ctx) (f : Folio) (ls : List Nat) : State :=
  let home := homeCarrel f (ls.headD 0)
  match eachOk (leafTotals s x f) ls with
  | .error e => failFolio s c f home e
  | .ok ts =>
    let runs := (ls.zip ts).map fun q => (⟨leafRegion f q.1, homeCarrel f q.1, q.2.1, q.2.2⟩ : LeafRun)
    let s0 := runs.foldl (fun s l => touchPre s c f l.g (some l.home)) s
    let out := runEpilogue s0 c x f (joinLeaves f ls) runs
    let s2 := sendRecs (raiseHomes out.s c out.flags) c out.recs
    match out.fault with
    | some e => failFolio s2 c f home e
    | none =>
      let f1 := { f with leavesDone := f.leavesDone ++ ls, winners := out.winners }
      if f1.leavesDone.length = f.leaves ∧ f.epi.reduction ≠ 0 ∧ f.epi.merge = false then
        let w := putWinners s2 c f.epi f1.winners (some home)
        match w.2 with
        | some e => failFolio w.1 c f1 home e
        | none => setFolio w.1 c f1
      else setFolio s2 c f1

/-- A folio in flight, with its context. -/
def folioOf (s : State) (c folio : Nat) : Option (Ctx × Folio) :=
  match getCtx s c with
  | none => none
  | some x =>
    match x.att with
    | none => none
    | some a => match a.folios.find? (·.id == folio) with | some f => some (x, f) | none => none

/-- The piece can arrive: it is one of the folio's and has not arrived, and the folio has not faulted. -/
def pieceOpen (f : Folio) (leaf span : Nat) : Bool :=
  f.status == .success && leaf < f.leaves && span < f.q && !(f.partials.any fun p => p.1 == leaf && p.2.1 == span)

/-- The overfull event of a tensor: its call number and layer (R106). -/
def overRec (op : Nat) (t : TRef) : StatsRec :=
  { layer := t.e.layer, kind := 0, sumsq := Ledger.empty.image, amax := 0, nonfinite := 0, count := 0, overfull := true, op := op, call := t.call }

/-- The overfull events that go to the watch: those of tensors that name a layer (R106). -/
def overRecs (op : Nat) (l : List TRef) : List StatsRec := (l.filter (·.e.layer != 0xFFFF)).map (overRec op)

/-- The overfull events of tensors that name no layer count on the cataloguer's page (R382). -/
def countOver (s : State) (c : Nat) (l : List TRef) : State :=
  countEv s pgCataloguer 0x103 (l.filter (·.e.layer == 0xFFFF)).length (some c)

/-- The overfull events of an operation. One operation reports one event for each tensor it quantises, however many blocks and pieces find
it overfull, so that the number of events is the same for every folding (R107; DESIGN CHOICE, log 123). -/
def reportOver (s : State) (c op : Nat) (l : List TRef) : State := countOver (sendRecs s c (overRecs op l)) c l

/-- The tensors among `l` that the folio has not reported yet. -/
def newOvers (f : Folio) (l : List TRef) : List TRef := l.filter fun t => !f.overs.contains t.call

/-- A piece reaches its home carrel (R167); its flags stay with the carrel that ran it (R70, R159). -/
def pieceArrives (s : State) (c : Nat) (x : Ctx) (f : Folio) (leaf span : Nat) : State :=
  let k := carrelOf f leaf span
  match pieceWork s x f leaf span with
  | .error e => failFolio s c f k e
  | .ok r =>
    let news := newOvers f r.overs
    let f1 := { f with partials := f.partials ++ [(leaf, span, r.cells)], overs := f.overs ++ news.map (·.call) }
    let s0 := setFolio (touchPiece s c x f leaf span) c f1
    let page := pgCarrel (physOf s0 k)
    let sp := spanChunks x f span
    let s1 := countEv (countEv (raiseOn s0 c k r.flags) page 0x107 (sp.2.1 - sp.1) (some c)) page 0x108 r.quires (some c)
    let s2 := reportOver s1 c f.id news
    let ls := leafGroup x f leaf
    if ls.all (leafReady f1) then finishLeaves s2 c x f1 ls else s2

def execPiecePartialArrival (c folio leaf span : Nat) (s : State) : Outc :=
  match folioOf s c folio with
  | none => .next s
  | some (x, f) => if pieceOpen f leaf span then .next (pieceArrives s c x f leaf span) else .next s

/-! ### Load balancing (R335, R336) -/

/-- The pieces that a carrel has left, in the order it runs them: by leaf, then span. A piece arrives at once when it starts, so one that has
not arrived has not started (log 6). -/
def queued (f : Folio) (k : Nat) : List (Nat × Nat) :=
  (positions f.leaves f.q).filter fun p => pieceOpen f p.1 p.2 && carrelOf f p.1 p.2 == k

/-- Chunks a carrel still has to do. -/
def workLeft (x : Ctx) (f : Folio) (k : Nat) : Nat := ((queued f k).map fun p => (spanChunks x f p.2).2.1 - (spanChunks x f p.2).1).sum

/-- The carrel of the set with the most work queued, the lowest-numbered among equals. -/
def busiest (x : Ctx) (f : Folio) : Option Nat :=
  f.set.foldl (fun b k => match b with
    | none => some k
    | some j => if workLeft x f j < workLeft x f k || (workLeft x f j == workLeft x f k && k < j) then some k else b) none

/-- The piece a carrel gives up: the last it would run, unless that covers span 0. -/
def givenUp (f : Folio) (k : Nat) : Option (Nat × Nat) := (queued f k).reverse.find? fun p => p.2 != 0

/-- Load balancing is in force: on by policy and no metered timing. -/
def balanceOn (x : Ctx) : Bool :=
  !x.cat.balanceOff && !(match x.att with | some a => a.meteredOn | none => false)

def execLoadBalanceSteal (c folio thief : Nat) (s : State) : Outc :=
  match folioOf s c folio with
  | none => .next s
  | some (x, f) =>
    if !balanceOn x || !f.set.contains thief || !(queued f thief).isEmpty then .next s else
    match (busiest x f).bind (givenUp f) with
    | none => .next s
    | some p =>
      .next (countEv (setFolio s c { f with carrels := f.carrels ++ [(p.1, p.2, thief)] }) (pgCarrel (physOf s thief)) 0x10B 1 (some c))

/-! ### Completion (R216, R234, R244) -/

/-- Records of an operation that have not arrived. -/
def recsOpen (a : Attempt) (op : Nat) : Bool := a.records.any (·.op == op)

/-- An operation leaves its stream's window. -/
def dropOp (s : State) (c st op : Nat) : State :=
  modStream s c st fun t => { t with window := t.window.filter fun o => o.id != op }

/-- Everything of the folio has been delivered, or it has faulted. -/
def folioDone (a : Attempt) (f : Folio) : Bool :=
  (f.status != .success || f.leavesDone.length == f.leaves) && !recsOpen a f.id

/-- A folio leaves its tile and its stream's window. -/
def folioLeaves (s : State) (c : Nat) (f : Folio) : State :=
  let s1 := modStream s c f.stream fun t => t.setTile f.tile { t.tile f.tile with busy := false }
  dropOp (modAtt s1 c fun a => { a with folios := a.folios.filter fun g => g.id != f.id }) c f.stream f.id

def execFoldComplete (c folio : Nat) (s : State) : Outc :=
  match folioOf s c folio with
  | none => .next s
  | some (x, f) =>
    match x.att with
    | none => .next s
    | some a => if folioDone a f then .next (folioLeaves s c f) else .next s

/-- The operation that OPERATION_COMPLETE ends: in the window, no folio, its records delivered, its collective ended (R229, R234). -/
def opDone (x : Ctx) (a : Attempt) (o : Op) : Bool :=
  !o.folio && !recsOpen a o.id &&
  match o.coll with
  | none => true
  | some id => (match x.colls.find? (·.id == id) with | some k => k.ended.isSome | none => true)

def execOperationComplete (c st op : Nat) (s : State) : Outc :=
  match getCtx s c with
  | none => .next s
  | some x =>
    match x.att with
    | none => .next s
    | some a =>
      match a.streams[st]? with
      | none => .next s
      | some t =>
        match t.window.find? (·.id == op) with
        | none => .next s
        | some o => if opDone x a o then .next (dropOp s c st op) else .next s

end Sys2Proof.Machine
end

