-- ==== Sys2Proof/Machine/Tile.lean ====
section
/-! DEFINITION. PRE and EPI: the configuration of a tile's next folio (R217–R219, R237). -/

namespace Sys2Proof.Machine

/-- Sets a tile's configuration once it is idle (R237). -/
def configTile (p : At) (k : Nat) (f : Tile → Tile) : Iss :=
  if (p.t.tile k).busy then .wait else setStream p fun t => t.setTile k (f (t.tile k))

/-- The preload a PRE names, taken at its issue (R219). -/
def preOf (op : PreOp) (f : PreF) (t : Stream) : Preload :=
  match op with
  | .zero => .zero
  | .brow => .brow (t.addr f.aP)
  | .bcol => .bcol (t.addr f.aP)
  | .res => .res (t.addr f.aP) (t.reg f.sp) (t.reg (f.sp + 1))
  | .self => .self

def issuePre (op : PreOp) (f : PreF) (p : At) : Iss := configTile p f.tile fun k => { k with pre := preOf op f p.t }

def execPreZero (c st : Nat) (h : Hdr) (f : PreF) (s : State) : Outc := .next (issue s c st h (.pre .zero f) (issuePre .zero f))
def execPreBrow (c st : Nat) (h : Hdr) (f : PreF) (s : State) : Outc := .next (issue s c st h (.pre .brow f) (issuePre .brow f))
def execPreBcol (c st : Nat) (h : Hdr) (f : PreF) (s : State) : Outc := .next (issue s c st h (.pre .bcol f) (issuePre .bcol f))
def execPreRes (c st : Nat) (h : Hdr) (f : PreF) (s : State) : Outc := .next (issue s c st h (.pre .res f) (issuePre .res f))
def execPreSelf (c st : Nat) (h : Hdr) (f : PreF) (s : State) : Outc := .next (issue s c st h (.pre .self f) (issuePre .self f))

/-- The stages EPI.ARITH names: scale, bias, activation, narrowing (R219). -/
def arithEpi (f : EpiArithF) (t : Stream) (e : Epi) : Epi :=
  { e with saxis := f.saxis, scale := if f.saxis = 0 then 0 else t.addr f.scale, baxis := f.baxis,
           bias := if f.baxis = 0 then 0 else t.addr f.bias, slot := f.slot, target := f.target, round := f.round, stream := f.stream }

def execEpiArith (c st : Nat) (h : Hdr) (f : EpiArithF) (s : State) : Outc :=
  .next (issue s c st h (.epiArith f) fun p => configTile p f.tile fun k => { k with epi := arithEpi f p.t k.epi })

/-- The stages EPI.TAP names: winner, tap, statistics (R219). -/
def tapEpi (f : EpiTapF) (t : Stream) (e : Epi) : Epi :=
  { e with reduction := f.reduction, raxis := f.raxis, merge := f.merge, result := if f.reduction = 0 then 0 else t.addr f.result,
           tap := f.tap, qtensor := if f.tap then t.addr f.qtensor else 0, taxis := f.taxis, stats := f.stats, skind := f.skind,
           layer := f.layer }

def execEpiTap (c st : Nat) (h : Hdr) (f : EpiTapF) (s : State) : Outc :=
  .next (issue s c st h (.epiTap f) fun p => configTile p f.tile fun k => { k with epi := tapEpi f p.t k.epi })

def execEpiReset (c st : Nat) (h : Hdr) (tile : Nat) (s : State) : Outc :=
  .next (issue s c st h (.epiReset tile) fun p => configTile p tile fun k => { k with epi := Epi.default })

end Sys2Proof.Machine
end

