-- ==== Sys2Proof/Machine/RotQnt.lean ====
section
/-! DEFINITION. ROT and QNT (R220–R222, R397). -/

namespace Sys2Proof.Machine

/-- Columns of a ROT or QNT. -/
def rotCols (f : RotF) : Nat := (f.klen + 1) * 32

/-! ### ROT (R220) -/

def rotChecks (x : Ctx) (f : RotF) (o : List Nat) : List TRef → List (Bool × XFault)
  | [d, u] =>
    let n := match tget x.pol.rot f.rot with | some r => r.n | none => 0
    let fmt (t : TRef) : Bool := t.isFmt .fp32 || t.isFmt .bf16
    [(fmt d && fmt u && n != 0 && o.getD 1 0 % n == 0 && o.getD 3 0 % n == 0 && (rotCols f) % n == 0, eargF),
     inView d (o.getD 0 0) (o.getD 1 0) (f.rows + 1) (rotCols f), inView u (o.getD 2 0) (o.getD 3 0) (f.rows + 1) (rotCols f)]
  | _ => [(false, eargF)]

/-- One row rotated, as items of the destination. -/
def rotRow (s : State) (x : Ctx) (inv : Bool) (e : RotEntry) (d u : TRef) (o : List Nat) (n i : Nat) : List Item × Flags :=
  match readLine32 s x u (fun k => (o.getD 2 0 + i, o.getD 3 0 + k)) 0 n with
  | .error f => ([.stop f], Flags.none)
  | .ok (l, fl) =>
    let r := if inv then unrotateLine e (o.getD 1 0) l else rotateLine e (o.getD 3 0) l
    let q := mapFlags (fun c => convertCode .fp32 d.fmt .rne 0 c) r.1
    ((List.range q.1.length).map fun k => .put (o.getD 0 0 + i) (o.getD 1 0 + k) (q.1.getD k 0) false, (fl.or r.2).or q.2)

def rotWork (inv : Bool) (f : RotF) (p : At) : Work :=
  let d := p.ref (p.t.addr f.aD); let u := p.ref (p.t.addr f.aS)
  let o := p.t.origins f.sb 4
  match tget p.x.pol.rot f.rot with
  | none => ⟨p.s, some eargF, Flags.none, []⟩
  | some e =>
    let rows := (List.range (f.rows + 1)).map (rotRow p.s p.x inv e d u o (rotCols f))
    let s0 := touchAt (touchAt p.s p.c u.call ⟨o.getD 2 0, o.getD 3 0, f.rows + 1, rotCols f⟩ false) p.c d.call
      ⟨o.getD 0 0, o.getD 1 0, f.rows + 1, rotCols f⟩ true
    let w := putItems s0 p.c d (rows.flatMap (·.1))
    ⟨w.1, w.2, rows.foldl (fun a r => a.or r.2) Flags.none, []⟩

def issueRot (inv : Bool) (f : RotF) (p : At) : Iss :=
  runOp p (checkOpnds p [p.t.addr f.aD, p.t.addr f.aS] (rotChecks p.x f (p.t.origins f.sb 4)))
    [p.t.addr f.aS] [p.t.addr f.aD] false (rotWork inv f)

def execRotFwd (c st : Nat) (h : Hdr) (f : RotF) (s : State) : Outc := .next (issue s c st h (.rot false f) (issueRot false f))
def execRotInv (c st : Nat) (h : Hdr) (f : RotF) (s : State) : Outc := .next (issue s c st h (.rot true f) (issueRot true f))

/-! ### QUANT (R221) -/

/-- Lines and axis positions of a plain tensor in the orientation of a quire tensor. -/
def inLinesOf (g : Bool) (t : TRef) (l k nl nk : Nat) : Bool × XFault :=
  if g then inView t k l nk nl else inView t l k nl nk

def quantChecks (x : Ctx) (f : RotF) (o : List Nat) : List TRef → List (Bool × XFault)
  | [d, u] =>
    let p := (effective x d.e).1
    let E := quireElems p.f
    [(d.e.kind == 1 && u.isFloat, eargF),
     (policyFits x d, eargF),
     (wholeQuires d E (o.getD 1 0) (rotCols f) && o.getD 1 0 == o.getD 3 0, eargF),
     inLines d (o.getD 0 0) (o.getD 1 0) (f.rows + 1) (rotCols f),
     inLinesOf d.e.gaxis u (o.getD 2 0) (o.getD 3 0) (f.rows + 1) (rotCols f)]
  | _ => [(false, eargF)]

/-- The quires of one line of a QUANT, and whether a block was overfull. -/
def quantLineOut (s : State) (x : Ctx) (d u : TRef) (p : Policy) (st dl sl k0 len : Nat) : Except XFault (List QMove × Flags × Bool) :=
  match quantRun s x d.e p u (fun k => linePos d.e.gaxis sl k) dl k0 len st with
  | .error f => .error f
  | .ok (_, q) =>
    let E := quireElems p.f
    let n0 := k0 / E
    .ok ((List.range (ceilDiv len E)).map fun n =>
      let r := formQuire d.e p q dl n0 n
      ⟨dl, n0 + n, r.1, [], r.2.map fun w => (w, false)⟩, q.flags, !q.overfull.isEmpty)

/-- The accesses of a QUANT: source, scales and zero points, tensor scale, quires. -/
def quantTouch (f : RotF) (p : At) (d u : TRef) (o : List Nat) (pol : Policy) : State :=
  let n := f.rows + 1
  let s1 := touchAt p.s p.c u.call (Extent.ofLines d.e.gaxis ⟨o.getD 2 0, o.getD 3 0, n, rotCols f⟩) false
  let g : Extent := ⟨o.getD 0 0, o.getD 1 0, n, rotCols f⟩
  touchAt (touchFlat (touchLearned s1 p.c d.e pol g none) p.c d.e.tscale 0 1 false) p.c d.call g true

def quantWork (f : RotF) (p : At) : Work :=
  let d := p.ref (p.t.addr f.aD); let u := p.ref (p.t.addr f.aS)
  let o := p.t.origins f.sb 4
  let pol := effective p.x d.e
  if pol.2 then ⟨p.s, none, Flags.none, []⟩ else
  match tensorScale p.s p.x d.e with
  | .error e => ⟨p.s, some e, Flags.none, []⟩
  | .ok st =>
  let s0 := quantTouch f p d u o pol.1
  let ls := (List.range (f.rows + 1)).map fun i =>
    quantLineOut p.s p.x d u pol.1 st (o.getD 0 0 + i) (o.getD 2 0 + i) (o.getD 1 0) (rotCols f)
  let items : List (Except XFault QMove) := ls.flatMap fun | .error e => [.error e] | .ok q => q.1.map .ok
  let w := eachPut (fun s q => match q with | .error e => (s, some e) | .ok q => putQuire s p.c d q) s0 items
  let overs := if (oks ls).any (·.2.2) then [d] else []
  let s1 := modCtx (countOver w.1 p.c overs) p.c fun x =>
    match tget x.pol.imageRung d.idx, rungOf x d.e.layer with
    | some _, some r => { x with pol := { x.pol with imageRung := tset x.pol.imageRung d.idx r } }
    | _, _ => x
  ⟨s1, w.2, (oks ls).foldl (fun a q => a.or q.2.1) Flags.none, overRecs p.a.opSeq overs⟩

def execQntQuant (c st : Nat) (h : Hdr) (f : RotF) (s : State) : Outc :=
  .next (issue s c st h (.quant f) fun p =>
    runOp p (checkOpnds p [p.t.addr f.aD, p.t.addr f.aS] (quantChecks p.x f (p.t.origins f.sb 4)))
      [p.t.addr f.aS] [p.t.addr f.aD] false (quantWork f))

/-! ### DEQ (R222) -/

def deqChecks (x : Ctx) (f : RotF) (o : List Nat) : List TRef → List (Bool × XFault)
  | [d, u] =>
    let src := match tensor x u.e.source with | some t => t.isFloat | none => false
    [(u.e.kind == 1 && (d.isFmt .fp32 || d.isFmt .bf16) && o.getD 1 0 % 32 == 0 && o.getD 3 0 % 32 == 0, eargF),
     (!(effective x u.e).2 || src, eargF), (policyFits x u, eargF),
     inLinesOf u.e.gaxis d (o.getD 0 0) (o.getD 1 0) (f.rows + 1) (rotCols f),
     inLines u (o.getD 2 0) (o.getD 3 0) (f.rows + 1) (rotCols f)]
  | _ => [(false, eargF)]

/-- The values of one line of a DEQ, in FP32. At rung 4 they are the source's, also beyond the source's own view (DESIGN CHOICE, log 162). -/
def deqLine (s : State) (x : Ctx) (u : TRef) (line k0 n : Nat) : Except XFault (List Nat × Flags) :=
  let pol := effective x u.e
  if pol.2 then
    match tensor x u.e.source with
    | none => .error ⟨.eaccess, 0, 0⟩
    | some t => readLine32 s x t (fun k => linePos u.e.gaxis line (k0 + k)) 0 n
  else
    match tensorScale s x u.e, quireRun s x u pol.1 line k0 n with
    | .error f, _ => .error f
    | _, .error f => .error f
    | .ok st, .ok (a0, q) =>
      let l := lineOfRun pol.1 st a0 k0 n q
      .ok (mapFlags (margVal l) (List.range n))

def deqRow (s : State) (x : Ctx) (d u : TRef) (o : List Nat) (n i : Nat) : List Item × Flags :=
  match deqLine s x u (o.getD 2 0 + i) (o.getD 3 0) n with
  | .error f => ([.stop f], Flags.none)
  | .ok (l, fl) =>
    let q := mapFlags (fun c => convertCode .fp32 d.fmt .rne 0 c) l
    ((List.range n).map fun k =>
      let ij := linePos u.e.gaxis (o.getD 0 0 + i) (o.getD 1 0 + k)
      .put ij.1 ij.2 (q.1.getD k 0) false, fl.or q.2)

def deqWork (f : RotF) (p : At) : Work :=
  let d := p.ref (p.t.addr f.aD); let u := p.ref (p.t.addr f.aS)
  let o := p.t.origins f.sb 4
  let rows := (List.range (f.rows + 1)).map (deqRow p.s p.x d u o (rotCols f))
  let from_ : Extent := ⟨o.getD 2 0, o.getD 3 0, f.rows + 1, rotCols f⟩
  let s1 := if (effective p.x u.e).2 then touchAt p.s p.c u.e.source (from_.ofLines u.e.gaxis) false
    else touchFlat (touchOpnd p.s p.c p.x u from_ none) p.c u.e.tscale 0 1 false
  let s2 := touchAt s1 p.c d.call (Extent.ofLines u.e.gaxis ⟨o.getD 0 0, o.getD 1 0, f.rows + 1, rotCols f⟩) true
  let w := putItems s2 p.c d (rows.flatMap (·.1))
  ⟨w.1, w.2, rows.foldl (fun a r => a.or r.2) Flags.none, []⟩

def execQntDeq (c st : Nat) (h : Hdr) (f : RotF) (s : State) : Outc :=
  .next (issue s c st h (.deq f) fun p =>
    runOp p (checkOpnds p [p.t.addr f.aD, p.t.addr f.aS] (deqChecks p.x f (p.t.origins f.sb 4)))
      [p.t.addr f.aS] [p.t.addr f.aD] false (deqWork f))

end Sys2Proof.Machine
end

