-- ==== Sys2Proof/Machine/Red.lean ====
section
/-! DEFINITION. Annex atomics and RED (R189, R223–R225, R281–R285, R658). -/

namespace Sys2Proof.Machine

/-! ### Atomics (R281–R285) -/

/-- A tensor an atomic may act on: cached or pinned, named by its own call number (R281, R658). -/
def annexTensor (t : TRef) : Bool := t.e.cls == 1 || t.e.cls == 2

/-- The annex die that is home to byte `off` of a tensor; a ledger cell's is that of its group's first line (R275, R276). -/
def dieOf (x : Ctx) (t : TRef) (off : Nat) : Nat :=
  match placeOf x t off false with
  | some (.phys pa) =>
    (match annexOf pa with | some d => d | none => homeDie (homeOf (homeKey x (t.e.kind == 2) (t.e.base + off) (off % t.e.step) pa)))
  | _ => 0

/-- Counts an atomic on its die and for its context (R612). -/
def countAtomic (s : State) (c : Nat) (x : Ctx) (t : TRef) (off source : Nat) : State :=
  countEv (countEv s (pgAnnex (dieOf x t off)) source 1 (some c)) (pgCtx c) 0x106 1 (some c)

/-- Byte offset of the integer cell of `w` bits at an element; none where it is not naturally aligned (R281). -/
def intCell (t : TRef) (row col w : Nat) : Option Nat :=
  let off := row * t.e.step + col * t.e.width / 8
  if t.e.kind == 0 && (w == 32 || w == 64) && (t.e.base + off) % (w / 8) == 0 && row < t.e.rows && col < t.e.cols then some off else none

/-- A cell that an integer atomic acts on: its tensor, offset and old value; or why the atomic is refused or fails (R281, R305). -/
def atomCell (s : State) (x : Ctx) (cn row col w : Nat) : Except XFault (TRef × Nat × Nat) :=
  match tensor x cn with
  | none => .error ⟨.ehandle, 0, cn⟩
  | some t =>
    if !annexTensor t || !atomicsOk s x then .error ⟨.earg, 0, 0⟩ else
    match intCell t row col w with
    | none => .error ⟨.earg, 0, 0⟩
    | some off =>
      match readBytes s x t off (w / 8) with
      | none => .error ⟨.eaccess, 0, t.e.base + off⟩
      | some b => if anyPoison s x t off (w / 8) then .error ⟨.epoison, 0, poisonAddr s x t off (w / 8)⟩ else .ok (t, off, leNat b)

/-- The answer to an engine's atomic that is refused or fails; poison consumed is an event of the transcript (R477). -/
def atomicFails (s : State) (c : Nat) (f : XFault) : State :=
  let s1 := if f.status == .epoison then eventRec s c Status.epoison.code f.detail else s
  s1.emit (.atomic c f.status none)

/-- An integer atomic: `f` gives the new value, and the old cell is returned (R282; log 124 for the operations that return it on request). -/
def intAtomic (s : State) (c cn row col w : Nat) (f : Nat → Nat) : State :=
  match getCtx s c with
  | none => s
  | some x =>
    match atomCell s x cn row col w with
    | .error e => atomicFails s c e
    | .ok (t, off, old) =>
      match byteUnits x t off (leBytes (w / 8) (f old)) with
      | none => atomicFails s c ⟨.eaccess, 0, t.e.base + off⟩
      | some us =>
        let s1 := touchAt s c cn ⟨row, col, 1, ceilDiv w t.e.width⟩ true
        (countAtomic (applyUnits s1 c us) c x t off 0x103).emit (.atomic c .success (some old))

def minmax (signed mx : Bool) (w a b : Nat) : Nat :=
  let lt := if signed then decide (sext w a < sext w b) else decide (a < b)
  if lt == mx then b else a

def execAnnexIntAdd (c cn row col width value : Nat) (s : State) : Outc :=
  .next (intAtomic s c cn row col width fun o => (o + value) % 2 ^ width)
def execAnnexIntMinmax (c cn row col width : Nat) (signed max : Bool) (value : Nat) (s : State) : Outc :=
  .next (intAtomic s c cn row col width fun o => minmax signed max width o (value % 2 ^ width))
def execAnnexCas (c cn row col width expected value : Nat) (s : State) : Outc :=
  .next (intAtomic s c cn row col width fun o => if o = expected % 2 ^ width then value % 2 ^ width else o)

/-- A ledger atomic on a cell; none where the target is refused, a fault where its cell is poisoned or unreachable. -/
def ledgerCell (s : State) (c : Nat) (x : Ctx) (t : TRef) (i j : Nat) (f : Ledger → Ledger × Flags) : Except XFault (State × Flags) :=
  if frozenCells x t.call then .ok (s, Flags.none) else
  match readCell s x t i j with
  | none => .error ⟨.eaccess, 0, t.e.base + cellOff t.e i j⟩
  | some (_, true) => .error ⟨.epoison, 0, poisonAddr s x t (cellOff t.e i j) 40⟩
  | some (l, false) =>
    let r := f l
    match writeCell (touchAt s c t.call ⟨i, j, 1, 1⟩ true) c t i j r.1 with
    | none => .error ⟨.eaccess, 0, t.e.base + cellOff t.e i j⟩
    | some s1 => .ok (countAtomic s1 c x t (cellOff t.e i j) 0x104, r.2)

/-- The tensor a ledger or float atomic names, with its cell inside; or why it is refused (R281). -/
def cellTarget (s : State) (x : Ctx) (cn row col : Nat) (kind : Entry → Bool) : Except XFault TRef :=
  match tensor x cn with
  | none => .error ⟨.ehandle, 0, cn⟩
  | some t => if kind t.e && annexTensor t && atomicsOk s x && row < t.e.rows && col < t.e.cols then .ok t else .error ⟨.earg, 0, 0⟩

/-- An engine's atomic on a cell: its flags reach a carrel of the grant (R284), and its acknowledgement carries no value (R282). -/
def engineAtomic (s : State) (c cn row col : Nat) (kind : Entry → Bool) (op : Ctx → TRef → Except XFault (State × Flags)) : State :=
  match getCtx s c with
  | none => s
  | some x =>
    match cellTarget s x cn row col kind with
    | .error e => atomicFails s c e
    | .ok t =>
      match op x t with
      | .error e => atomicFails s c e
      | .ok (s1, fl) => (raiseWork s1 c x fl).emit (.atomic c .success none)

def ledgerAtomic (s : State) (c cn row col : Nat) (f : Ledger → Ledger × Flags) : State :=
  engineAtomic s c cn row col (·.kind == 2) fun x t => ledgerCell s c x t row col f

def execAnnexLedgerAdd (c cn row col term : Nat) (s : State) : Outc := .next (ledgerAtomic s c cn row col fun l => l.add32 term)
def execAnnexLedgerCombine (c cn row col : Nat) (image : Bytes) (s : State) : Outc :=
  .next (ledgerAtomic s c cn row col fun l => (l.combine (Ledger.ofImage image), Flags.none))

/-- Float add on an element of a plain FP32 tensor (R282). -/
def floatCell (s : State) (c : Nat) (x : Ctx) (t : TRef) (i j v : Nat) : Except XFault (State × Flags) :=
  match readCode s x t i j with
  | none => .error ⟨.eaccess, 0, addrOf x t i j⟩
  | some (_, true) => .error ⟨.epoison, 0, addrOf x t i j⟩
  | some (o, false) =>
    let r := add32 o v
    let w := putItems (touchAt s c t.call ⟨i, j, 1, 1⟩ true) c t [.put i j r.1 false]
    match w.2 with
    | some f => .error f
    | none => .ok (countAtomic w.1 c x t (i * t.e.step + 4 * j) 0x105, r.2)

/-- Float add is refused in Verbatim mode (R225, R282). -/
def execAnnexFloatAdd (c cn row col term : Nat) (s : State) : Outc :=
  .next (engineAtomic s c cn row col (fun e => e.kind == 0 && e.fmt == 11) fun x t =>
    if x.verbatim then .error ⟨.everbatim, 0, 0⟩ else floatCell s c x t row col term)

/-! ### RED to a plain tensor (R223, R224, R658) -/

/-- The result of one line of FP32 values. -/
def redLine (op : RedOp) (l : List Nat) : Nat × Flags :=
  let led (f : Nat → Nat × Flags) : Nat × Flags :=
    let r := l.foldl (fun (a : Ledger × Flags) v => let q := f v; let b := a.1.add32 q.1; (b.1, (a.2.or q.2).or b.2))
      (Ledger.empty, Flags.none)
    let o := r.1.round32
    (o.1, r.2.or o.2)
  match op with
  | .sum => led fun v => (v, Flags.none)
  | .sumsq => led fun v => mul32 v v
  | .amax => if l.any (fun v => (v32 v).isNan) then (nan32, Flags.NV) else (extreme32 true (l.map abs32), Flags.none)
  | .min => if l.any (fun v => (v32 v).isNan) then (nan32, Flags.NV) else (extreme32 false l, Flags.none)
  | _ => if l.any (fun v => (v32 v).isNan) then (nan32, Flags.NV) else (extreme32 true l, Flags.none)

/-- One result of a RED: the k-th row or column of the source. -/
def redItem (s : State) (x : Ctx) (op : RedOp) (u : TRef) (axis : Nat) (o : List Nat) (nr nc k : Nat) : Item × Flags :=
  let pos : Nat → Nat × Nat := fun n => if axis = 0 then (o.getD 0 0 + k, o.getD 1 0 + n) else (o.getD 0 0 + n, o.getD 1 0 + k)
  match readLine32 s x u pos 0 (if axis = 0 then nc else nr) with
  | .error f => (.stop f, Flags.none)
  | .ok (l, fl) =>
    let r := redLine op l
    (if axis = 0 then .put (o.getD 2 0 + k) (o.getD 3 0) r.1 false else .put (o.getD 2 0) (o.getD 3 0 + k) r.1 false, fl.or r.2)

def redChecks (f : RedF) (o : List Nat) : List TRef → List (Bool × XFault)
  | [d, u] =>
    let n := if f.axis = 0 then (f.rows + 1, 1) else (1, f.cols + 1)
    [(u.isFloat && d.isFmt .fp32, eargF), inView u (o.getD 0 0) (o.getD 1 0) (f.rows + 1) (f.cols + 1),
     inView d (o.getD 2 0) (o.getD 3 0) n.1 n.2]
  | _ => [(false, eargF)]

def redWork (op : RedOp) (f : RedF) (p : At) : Work :=
  let d := p.ref (p.t.addr f.aD); let u := p.ref (p.t.addr f.aS)
  let o := p.t.origins f.sb 4
  let n := if f.axis = 0 then f.rows + 1 else f.cols + 1
  let items := (List.range n).map (redItem p.s p.x op u f.axis o (f.rows + 1) (f.cols + 1))
  let to_ : Extent := if f.axis = 0 then ⟨o.getD 2 0, o.getD 3 0, n, 1⟩ else ⟨o.getD 2 0, o.getD 3 0, 1, n⟩
  let s0 := touchAt (touchAt p.s p.c u.call ⟨o.getD 0 0, o.getD 1 0, f.rows + 1, f.cols + 1⟩ false) p.c d.call to_ true
  let w := putItems s0 p.c d (items.map (·.1))
  ⟨w.1, w.2, items.foldl (fun a q => a.or q.2) Flags.none, []⟩

def issueRed (op : RedOp) (f : RedF) (p : At) : Iss :=
  runOp p (checkOpnds p [p.t.addr f.aD, p.t.addr f.aS] (redChecks f (p.t.origins f.sb 4)))
    [p.t.addr f.aS] [p.t.addr f.aD] false (redWork op f)

def execRedSum (c st : Nat) (h : Hdr) (f : RedF) (s : State) : Outc := .next (issue s c st h (.red .sum f) (issueRed .sum f))
def execRedSumsq (c st : Nat) (h : Hdr) (f : RedF) (s : State) : Outc := .next (issue s c st h (.red .sumsq f) (issueRed .sumsq f))
def execRedMax (c st : Nat) (h : Hdr) (f : RedF) (s : State) : Outc := .next (issue s c st h (.red .max f) (issueRed .max f))
def execRedMin (c st : Nat) (h : Hdr) (f : RedF) (s : State) : Outc := .next (issue s c st h (.red .min f) (issueRed .min f))
def execRedAmax (c st : Nat) (h : Hdr) (f : RedF) (s : State) : Outc := .next (issue s c st h (.red .amax f) (issueRed .amax f))

/-! ### STATS (R189) -/

def statsWork (f : RedF) (p : At) : Work :=
  let u := p.ref (p.t.addr f.aS)
  let r := p.t.reg f.sb; let k := p.t.reg (f.sb + 1)
  match readLine32 p.s p.x u (fun n => (r + n / (f.cols + 1), k + n % (f.cols + 1))) 0 ((f.rows + 1) * (f.cols + 1)) with
  | .error e => ⟨p.s, some e, Flags.none, []⟩
  | .ok (l, fl) =>
    let q := statsOf p.a.opSeq f.layer f.skind l
    ⟨touchAt p.s p.c u.call ⟨r, k, f.rows + 1, f.cols + 1⟩ false, none, fl.or q.2, [q.1]⟩

def execRedStats (c st : Nat) (h : Hdr) (f : RedF) (s : State) : Outc :=
  .next (issue s c st h (.red .stats f) fun p =>
    runOp p (checkOpnds p [p.t.addr f.aS] fun l => l.flatMap fun u =>
        [(u.isFloat && (tget p.x.pol.watch f.layer).isSome, eargF), inView u (p.t.reg f.sb) (p.t.reg (f.sb + 1)) (f.rows + 1) (f.cols + 1)])
      [p.t.addr f.aS] [] false (statsWork f))

/-! ### LADD and FADD (R225, R658) -/

/-- Adds each source element to its cell, in row-major order, up to the first fault. -/
def addWork (p : At) (u : TRef) (o : List Nat) (nr nc : Nat)
    (add : State → Nat → Nat → Nat → Except XFault (State × Flags)) : Work :=
  let step (w : Work) (q : Nat × Nat) : Work :=
    if w.fault.isSome then w else
    match plainCodes p.s p.x u (fun _ => (o.getD 0 0 + q.1, o.getD 1 0 + q.2)) 0 1 with
    | .error f => { w with fault := some f }
    | .ok l =>
      match add w.s (o.getD 2 0 + q.1) (o.getD 3 0 + q.2) (l.headD 0) with
      | .error f => { w with fault := some f }
      | .ok (s1, fl) => { w with s := s1, flags := w.flags.or fl }
  (positions nr nc).foldl step ⟨touchAt p.s p.c u.call ⟨o.getD 0 0, o.getD 1 0, nr, nc⟩ false, none, Flags.none, []⟩

def addChecks (ledger : Bool) (s : State) (x : Ctx) (f : RedF) (o : List Nat) : List TRef → List (Bool × XFault)
  | [d, u] =>
    [(u.isFmt .fp32 && annexTensor d && atomicsOk s x && (if ledger then d.e.kind == 2 else d.e.kind == 0 && d.e.fmt == 11), eargF),
     inView u (o.getD 0 0) (o.getD 1 0) (f.rows + 1) (f.cols + 1), inView d (o.getD 2 0) (o.getD 3 0) (f.rows + 1) (f.cols + 1)]
  | _ => [(false, eargF)]

def execRedLadd (c st : Nat) (h : Hdr) (f : RedF) (s : State) : Outc :=
  .next (issue s c st h (.red .ladd f) fun p =>
    let d := p.ref (p.t.addr f.aD); let u := p.ref (p.t.addr f.aS)
    runOp p (checkOpnds p [p.t.addr f.aD, p.t.addr f.aS] (addChecks true p.s p.x f (p.t.origins f.sb 4)))
      [p.t.addr f.aS] [p.t.addr f.aD] false fun p =>
        addWork p u (p.t.origins f.sb 4) (f.rows + 1) (f.cols + 1) fun s i j v => ledgerCell s c p.x d i j fun l => l.add32 v)

def execRedFadd (c st : Nat) (h : Hdr) (f : RedF) (s : State) : Outc :=
  .next (issue s c st h (.red .fadd f) fun p =>
    let d := p.ref (p.t.addr f.aD); let u := p.ref (p.t.addr f.aS)
    let bad := if p.x.verbatim then some ⟨.everbatim, 0, 0⟩
      else checkOpnds p [p.t.addr f.aD, p.t.addr f.aS] (addChecks false p.s p.x f (p.t.origins f.sb 4))
    runOp p bad [p.t.addr f.aS] [p.t.addr f.aD] false fun p =>
        addWork p u (p.t.origins f.sb 4) (f.rows + 1) (f.cols + 1) fun s i j v => floatCell s c p.x d i j v)

end Sys2Proof.Machine
end

