-- ==== Sys2Proof/Machine/Vec.lean ====
section
/-! DEFINITION. VEC on the bay vector units: elementwise work, SPLIT and MERGE (R226, R250–R267, R659). -/

namespace Sys2Proof.Machine

/-- Arithmetic precision (R226). -/
def precFmt : Nat → Fmt | 1 => .fp64 | 2 => .bf16 | _ => .fp32

/-- Formats that convert exactly to a precision, judged by pair (R226). -/
def exactTo : Fmt → List Fmt
  | .fp64 => [.fp64, .fp32, .bf16, .fp16, .e4m3, .e5m2, .int8, .int32]
  | .bf16 => [.bf16, .e4m3, .e5m2]
  | _ => [.fp32, .bf16, .fp16, .e4m3, .e5m2, .int8]

/-! ### One element (R263–R266) -/

/-- MAX and MIN: −0 ranks below +0 (R264). -/
def vecMaxMin (mx : Bool) (a b : XReal) : XReal :=
  if a.isNan || b.isNan then .nan
  else if XReal.lt a b then (if mx then b else a)
  else if XReal.lt b a then (if mx then a else b)
  else if a.isZero && a.isNeg != b.isNeg then (if mx == a.isNeg then b else a)
  else a

/-- The exact result of an op, and the OF of R265. -/
def vecExact (op : VecOp) (a b z : XReal) : XReal × Flags :=
  match op with
  | .add => (a.add b, Flags.none)
  | .sub => (a.sub b, Flags.none)
  | .mul => (a.mul b, Flags.none)
  | .fma => ((a.mul b).add z, Flags.none)
  | .max => (vecMaxMin true a b, Flags.none)
  | .min => (vecMaxMin false a b, Flags.none)
  | .exp => (expX a, Flags.none)
  | .rcp => (XReal.div .one a, Flags.when a.isZero .OF)
  | .rsqrt => (if a.isZero then .inf a.isNeg else XReal.div .one (sqrtX a), Flags.when a.isZero .OF)
  | _ => (a, Flags.none)

/-- One result in the destination format: rounded once where it equals the precision, else through the precision (R263). -/
def vecElem (op : VecOp) (prec dest : Fmt) (rm : RM) (d : Nat) (a b z : XReal) : Nat × Flags :=
  let e := vecExact op a b z
  if op == .cvt || prec == dest then let r := convert dest rm d e.1; (r.1, r.2.or e.2)
  else
    let q := convert prec .rne 0 e.1
    let r := convert dest rm d (decode prec q.1)
    (r.1, (q.2.or r.2).or e.2)

/-! ### Operands -/

/-- An element's value and the flags of consuming it. -/
def valAt (s : State) (x : Ctx) (t : TRef) (i j : Nat) : Except XFault (XReal × Flags) :=
  match readCode s x t i j with
  | none => .error ⟨.eaccess, 0, addrOf x t i j⟩
  | some (_, true) => .error ⟨.epoison, 0, addrOf x t i j⟩
  | some (c, false) => .ok (decode t.fmt c, consumeFlags t.fmt c)

/-- The op takes a second operand. -/
def vecBinary : VecOp → Bool | .add | .sub | .mul | .fma | .max | .min => true | _ => false

/-- Y at an element (R226): full, per column, per row, or the scalar. -/
def vecY (p : At) (op : VecOp) (f : VecF) (i j : Nat) : Except XFault (XReal × Flags) :=
  if !vecBinary op then .ok (.zero, Flags.none) else
  let t := p.ref (p.t.addr f.aY)
  match f.bmode with
  | 0 => valAt p.s p.x t i j
  | 1 => valAt p.s p.x t 0 j
  | 2 => valAt p.s p.x t i 0
  | _ =>
    let v := p.t.reg f.ys
    let g : Fmt := if f.prec = 1 then .fp64 else .fp32
    .ok (decode g v, consumeFlags g v)

def vecItem (p : At) (op : VecOp) (f : VecF) (d : TRef) (i j : Nat) : Item × Flags :=
  match valAt p.s p.x (p.ref (p.t.addr f.aX)) i j, vecY p op f i j,
        (if op == .fma then valAt p.s p.x (p.ref (p.t.addr f.aZ)) i j else .ok (.zero, Flags.none)) with
  | .error e, _, _ => (.stop e, Flags.none)
  | _, .error e, _ => (.stop e, Flags.none)
  | _, _, .error e => (.stop e, Flags.none)
  | .ok a, .ok b, .ok z =>
    let rm := (RM.ofCode f.round).getD .rne
    let dr := if rm == .sr then draw p.x.ident.seed f.stream p.x.gate.step (logicalIdx d.e i j) else 0
    let r := vecElem op (precFmt f.prec) d.fmt rm dr a.1 b.1 z.1
    (.put i j r.1 false, ((a.2.or b.2).or z.2).or r.2)

/-- The call numbers an op reads. -/
def vecReads (p : At) (op : VecOp) (f : VecF) : List Nat :=
  [p.t.addr f.aX] ++ (if vecBinary op && f.bmode != 3 then [p.t.addr f.aY] else []) ++ (if op == .fma then [p.t.addr f.aZ] else [])

def cvtFmts : List Fmt := [.fp64, .fp32, .bf16, .fp16, .e4m3, .e5m2, .int8, .int32]

/-- The checks of R226: a scalar Y is FP32 under BF16 precision, and FP32 is no exact source of BF16 (log 78). -/
def vecChecks (p : At) (op : VecOp) (f : VecF) : List TRef → List (Bool × XFault)
  | d :: l =>
    let r := p.t.reg f.sb; let k := p.t.reg (f.sb + 1)
    let nr := f.rows + 1; let nc := f.cols + 1
    let okFmt (t : TRef) : Bool := t.isPlain && (if op == .cvt then cvtFmts else exactTo (precFmt f.prec)).contains t.fmt
    let y := p.t.addr f.aY
    let ext (n : Nat) (t : TRef) : Bool × XFault :=
      if n == 1 && vecBinary op && f.bmode == 1 then inView t 0 k 1 nc
      else if n == 1 && vecBinary op && f.bmode == 2 then inView t r 0 nr 1
      else inView t r k nr nc
    [(!(vecBinary op && f.bmode == 3 && f.prec == 2), eargF), (d.isPlain && (op != .cvt || (cvtFmts.contains d.fmt && d.fmt != .int32)), eargF), (l.all okFmt, eargF), inView d r k nr nc]
    ++ (List.range l.length).map fun n => ext n (l.getD n ⟨y, default⟩)
  | [] => [(false, eargF)]

/-- The accesses of an op to its operands. -/
def vecTouch (p : At) (op : VecOp) (f : VecF) : State :=
  let r := p.t.reg f.sb; let k := p.t.reg (f.sb + 1)
  let nr := f.rows + 1; let nc := f.cols + 1
  let y : Extent := if f.bmode = 1 then ⟨0, k, 1, nc⟩ else if f.bmode = 2 then ⟨r, 0, nr, 1⟩ else ⟨r, k, nr, nc⟩
  let s1 := touchAt p.s p.c (p.t.addr f.aX) ⟨r, k, nr, nc⟩ false
  let s2 := if vecBinary op && f.bmode != 3 then touchAt s1 p.c (p.t.addr f.aY) y false else s1
  if op == .fma then touchAt s2 p.c (p.t.addr f.aZ) ⟨r, k, nr, nc⟩ false else s2

def vecWork (op : VecOp) (f : VecF) (p : At) : Work :=
  let d := p.ref (p.t.addr f.aD)
  let r := p.t.reg f.sb; let k := p.t.reg (f.sb + 1)
  let items := (positions (f.rows + 1) (f.cols + 1)).map fun q => vecItem p op f d (r + q.1) (k + q.2)
  let w := putItems (touchAt (vecTouch p op f) p.c d.call ⟨r, k, f.rows + 1, f.cols + 1⟩ true) p.c d (items.map (·.1))
  ⟨w.1, w.2, items.foldl (fun a q => a.or q.2) Flags.none, []⟩

def issueVec (op : VecOp) (f : VecF) (p : At) : Iss :=
  runOp p (checkOpnds p (p.t.addr f.aD :: vecReads p op f) (vecChecks p op f)) (vecReads p op f) [p.t.addr f.aD] true (vecWork op f)

def execVecAdd (c st : Nat) (h : Hdr) (f : VecF) (s : State) : Outc := .next (issue s c st h (.vec .add f) (issueVec .add f))
def execVecSub (c st : Nat) (h : Hdr) (f : VecF) (s : State) : Outc := .next (issue s c st h (.vec .sub f) (issueVec .sub f))
def execVecMul (c st : Nat) (h : Hdr) (f : VecF) (s : State) : Outc := .next (issue s c st h (.vec .mul f) (issueVec .mul f))
def execVecFma (c st : Nat) (h : Hdr) (f : VecF) (s : State) : Outc := .next (issue s c st h (.vec .fma f) (issueVec .fma f))
def execVecMax (c st : Nat) (h : Hdr) (f : VecF) (s : State) : Outc := .next (issue s c st h (.vec .max f) (issueVec .max f))
def execVecMin (c st : Nat) (h : Hdr) (f : VecF) (s : State) : Outc := .next (issue s c st h (.vec .min f) (issueVec .min f))
def execVecCvt (c st : Nat) (h : Hdr) (f : VecF) (s : State) : Outc := .next (issue s c st h (.vec .cvt f) (issueVec .cvt f))
def execVecExp (c st : Nat) (h : Hdr) (f : VecF) (s : State) : Outc := .next (issue s c st h (.vec .exp f) (issueVec .exp f))
def execVecRcp (c st : Nat) (h : Hdr) (f : VecF) (s : State) : Outc := .next (issue s c st h (.vec .rcp f) (issueVec .rcp f))
def execVecRsqrt (c st : Nat) (h : Hdr) (f : VecF) (s : State) : Outc := .next (issue s c st h (.vec .rsqrt f) (issueVec .rsqrt f))

/-! ### SPLIT (R250–R254) -/

/-- The digits d_0 to d_D of y, the least significant first cut (R253). -/
def digits : Nat → Int → List Int
  | 0, y => [y]
  | n + 1, y =>
    let b := y % 256
    let d := if 128 ≤ b then b - 256 else b
    digits n ((y - d) / 256) ++ [d]

/-- One line of a SPLIT: the scale's FP64 code, the digits of each element, the flags (R252, R253). -/
def splitLine (slices : Nat) (l : List XReal) : Nat × List (List Int) × Flags :=
  let nv := Flags.when (l.any XReal.isNan) .NV
  let none_ := l.map fun _ => List.replicate slices (0 : Int)
  if l.any (fun v => !v.isFin) then (0x7FF8000000000000, none_, nv)
  else
    match (l.filter fun v => !v.isZero).map XReal.ilog2 with
    | [] => (0x3FF0000000000000, none_, nv)
    | e :: r =>
      let E := r.foldl max e
      let w := (roundTo .fp64 (XReal.pow2 E)).1
      let q := mapFlags (fun v =>
        let y := roundInt .rne 0 (v.scale (5 - E + 8 * ((slices : Int) - 1)))
        (digits (slices - 1) y.1, Flags.when y.2 .NX)) l
      (w, q.1, nv.or q.2)

/-- SPLIT's and MERGE's control word (R250). -/
def ctlSlices (w : Nat) : Nat := w % 8
def ctlOk (split : Bool) (w : Nat) : Bool := w / 32 == 0 && w % 8 != 0 && (split || w / 8 == 0)

def splitChecks (p : At) (f : VecF) : List TRef → List (Bool × XFault)
  | [d, u, y] =>
    let w := p.t.reg f.ys
    let n := ctlSlices w
    let r := p.t.reg f.sb; let k := p.t.reg (f.sb + 1)
    let nr := f.rows + 1; let nc := f.cols + 1
    let ax := bitOf w 3
    [(ctlOk true w, eargF), (u.isFmt (if f.prec = 1 then .fp64 else .fp32) && d.isFmt .int8 && y.isFmt .fp64, eargF),
     ((if ax then nr else nc) % 32 == 0, eargF), inView u r k nr nc,
     (if ax then inView d 0 0 (n * nr) nc else inView d 0 0 nr (n * nc)),
     (if ax then inView y 0 k 1 nc else inView y r 0 nr 1)]
  | _ => [(false, eargF)]

def splitWork (f : VecF) (p : At) : Work :=
  let d := p.ref (p.t.addr f.aD); let u := p.ref (p.t.addr f.aX); let y := p.ref (p.t.addr f.aY)
  let w := p.t.reg f.ys
  let n := ctlSlices w
  let r := p.t.reg f.sb; let k := p.t.reg (f.sb + 1)
  let nr := f.rows + 1; let nc := f.cols + 1
  let ax := bitOf w 3
  let blk : Nat → Nat := fun i => if bitOf w 4 then n - 1 - i else i
  let line (l : Nat) : List Item × List Item × Flags :=
    match eachOk (fun e => valAt p.s p.x u (if ax then r + e else r + l) (if ax then k + l else k + e))
        (List.range (if ax then nr else nc)) with
    | .error e => ([.stop e], [.stop e], Flags.none)
    | .ok vs =>
      let q := splitLine n (vs.map (·.1))
      ((List.range vs.length).flatMap fun e => (List.range n).map fun i =>
          let c := twos 8 ((q.2.1.getD e []).getD i 0)
          if ax then .put (blk i * nr + e) l c false else .put l (blk i * nc + e) c false,
       [if ax then .put 0 (k + l) q.1 false else .put (r + l) 0 q.1 false], q.2.2)
  let ls := (List.range (if ax then nc else nr)).map line
  let s1 := touchAt p.s p.c u.call ⟨r, k, nr, nc⟩ false
  let s2 := touchAt s1 p.c d.call (if ax then ⟨0, 0, n * nr, nc⟩ else ⟨0, 0, nr, n * nc⟩) true
  let s3 := touchAt s2 p.c y.call (if ax then ⟨0, k, 1, nc⟩ else ⟨r, 0, nr, 1⟩) true
  let w1 := putItems s3 p.c d (ls.flatMap (·.1))
  let w := if w1.2.isSome then w1 else putItems w1.1 p.c y (ls.flatMap (·.2.1))
  ⟨w.1, w.2, ls.foldl (fun a q => a.or q.2.2) Flags.none, []⟩

def execVecSplit (c st : Nat) (h : Hdr) (f : VecF) (s : State) : Outc :=
  .next (issue s c st h (.vec .split f) fun p =>
    runOp p (checkOpnds p [p.t.addr f.aD, p.t.addr f.aX, p.t.addr f.aY] (splitChecks p f))
      [p.t.addr f.aX] [p.t.addr f.aD, p.t.addr f.aY] true (splitWork f))

/-! ### MERGE (R258–R260, R659) -/

/-- z of an output: the sum of S_d · 256^(D − d). -/
def mergeZ (l : List Int) : Int := l.foldl (fun a v => a * 256 + v) 0

/-- The merged result (R258, R260, R659). -/
def mergeElem (dest : Fmt) (rm : RM) (dr : Nat) (l : List Int) (wr wc : XReal) : Nat × Flags :=
  let z := mergeZ l
  if wr.isNan || wc.isNan then (dest.nanCode, Flags.NV)
  else if z = 0 && wr.isFin && wc.isFin then (0, Flags.none)
  else convert dest rm dr ((((XReal.ofInt z).mul wr).mul wc).scale (-10 - 8 * ((l.length : Int) - 1)))

def mergeChecks (p : At) (f : VecF) : List TRef → List (Bool × XFault)
  | [d, u, y, z] =>
    let w := p.t.reg f.ys
    let r := p.t.reg f.sb; let k := p.t.reg (f.sb + 1)
    let nr := f.rows + 1; let nc := f.cols + 1
    [(ctlOk false w, eargF), (u.isFmt .int32 && y.isFmt .fp64 && z.isFmt .fp64 && (d.isFmt .fp64 || d.isFmt .fp32), eargF),
     inView d r k nr nc, inView u 0 0 nr (ctlSlices w * nc), inView y r 0 nr 1, inView z 0 k 1 nc]
  | _ => [(false, eargF)]

def mergeItem (p : At) (f : VecF) (d : TRef) (i j : Nat) : Item × Flags :=
  let u := p.ref (p.t.addr f.aX)
  let r := p.t.reg f.sb; let k := p.t.reg (f.sb + 1)
  let n := ctlSlices (p.t.reg f.ys)
  match plainCodes p.s p.x u (fun q => (i, q * (f.cols + 1) + j)) 0 n, valAt p.s p.x (p.ref (p.t.addr f.aY)) (r + i) 0,
        valAt p.s p.x (p.ref (p.t.addr f.aZ)) 0 (k + j) with
  | .error e, _, _ => (.stop e, Flags.none)
  | _, .error e, _ => (.stop e, Flags.none)
  | _, _, .error e => (.stop e, Flags.none)
  | .ok l, .ok wr, .ok wc =>
    let rm := (RM.ofCode f.round).getD .rne
    let dr := if rm == .sr then draw p.x.ident.seed f.stream p.x.gate.step (logicalIdx d.e (r + i) (k + j)) else 0
    let q := mergeElem d.fmt rm dr (l.map (sext 32)) wr.1 wc.1
    (.put (r + i) (k + j) q.1 false, q.2)

def mergeWork (f : VecF) (p : At) : Work :=
  let d := p.ref (p.t.addr f.aD)
  let items := (positions (f.rows + 1) (f.cols + 1)).map fun q => mergeItem p f d q.1 q.2
  let r := p.t.reg f.sb; let k := p.t.reg (f.sb + 1)
  let nr := f.rows + 1; let nc := f.cols + 1
  let s1 := touchAt p.s p.c (p.t.addr f.aX) ⟨0, 0, nr, ctlSlices (p.t.reg f.ys) * nc⟩ false
  let s2 := touchAt (touchAt s1 p.c (p.t.addr f.aY) ⟨r, 0, nr, 1⟩ false) p.c (p.t.addr f.aZ) ⟨0, k, 1, nc⟩ false
  let w := putItems (touchAt s2 p.c d.call ⟨r, k, nr, nc⟩ true) p.c d (items.map (·.1))
  ⟨w.1, w.2, items.foldl (fun a q => a.or q.2) Flags.none, []⟩

def execVecMerge (c st : Nat) (h : Hdr) (f : VecF) (s : State) : Outc :=
  .next (issue s c st h (.vec .merge f) fun p =>
    let cns := [p.t.addr f.aD, p.t.addr f.aX, p.t.addr f.aY, p.t.addr f.aZ]
    runOp p (checkOpnds p cns (mergeChecks p f)) (cns.drop 1) (cns.take 1) true (mergeWork f))

end Sys2Proof.Machine
end

