-- ==== Sys2Proof/Machine/NumWatch.lean ====
section
/-! DEFINITION. The numeric watch: records, blocks, alerts, rung decisions, averages (R378–R392, R398, R661). -/

namespace Sys2Proof.Machine

/-! ### What an entry collects (R382, R384) -/

def accOf (l : List WatchAcc) (entry kind : Nat) : WatchAcc :=
  (l.find? fun a => a.entry == entry && a.kind == kind).getD ⟨entry, kind, Ledger.empty, 0, 0, 0, false⟩

def putAcc (l : List WatchAcc) (a : WatchAcc) : List WatchAcc :=
  if l.any fun b => b.entry == a.entry && b.kind == a.kind then
    l.map fun b => if b.entry == a.entry && b.kind == a.kind then a else b
  else l ++ [a]

/-- A record or overfull event enters its entry. -/
def addStats (l : List WatchAcc) (r : StatsRec) : List WatchAcc :=
  if r.overfull then putAcc l { accOf l r.layer 0 with overfull := true } else
  let a := accOf l r.layer r.kind
  putAcc l { a with sumsq := a.sumsq.combine (Ledger.ofImage r.sumsq), amax := max a.amax r.amax,
                    nonfinite := (a.nonfinite + r.nonfinite) % 2 ^ 32, count := (a.count + r.count) % 2 ^ 32 }

/-- A record that arrives after the member's contribution has been formed sets late bits only (R384). -/
def lateStats (a : Attempt) (r : StatsRec) : Attempt :=
  if r.overfull then { a with lateOvf := insertN a.lateOvf r.layer }
  else if r.nonfinite = 0 ∧ (Ledger.ofImage r.sumsq).state = false then a
  else if r.kind = 0 then { a with lateOut := insertN a.lateOut r.layer } else { a with lateGrad := insertN a.lateGrad r.layer }

/-- The n-th record on its way reaches its entry. -/
def takeStats (n : Nat) (a : Attempt) : Attempt :=
  match a.records[n]? with
  | none => a
  | some r =>
    let b := { a with records := a.records.eraseIdx n }
    if a.contributed then lateStats b r else { b with acc := addStats b.acc r }

def execStatsRecordArrival (c n : Nat) (s : State) : Outc := .next (modAtt s c (takeStats n))

/-! ### The watch block (R383) -/

/-- One 64-byte item. -/
def watchItem (w : Watch) (entry kind : Nat) (a : WatchAcc) : Bytes :=
  a.sumsq.image ++ leBytes 4 a.amax ++ leBytes 4 a.nonfinite ++ leBytes 4 a.count ++ leBytes 2 entry ++ leBytes 1 kind
  ++ leBytes 1 (b2n (kind == 0 && a.overfull) + 2 * b2n (if kind = 0 then w.lateNfOut else w.lateNfGrad) + 4 * b2n (kind == 0 && w.lateOvf))

/-- The block of a member: every defined entry in ascending id, output first. -/
def watchBlock (x : Ctx) (l : List WatchAcc) : Bytes :=
  x.pol.watch.flatMap fun p => watchItem p.2 p.1 0 (accOf l p.1 0) ++ watchItem p.2 p.1 1 (accOf l p.1 1)

/-- The block of a member that contributes nothing. -/
def zeroBlock (x : Ctx) : Bytes :=
  x.pol.watch.flatMap fun p =>
    zeros 60 ++ leBytes 2 p.1 ++ zeros 2 ++ zeros 60 ++ leBytes 2 p.1 ++ leBytes 1 1 ++ zeros 1

/-- Two items of one entry and kind combine. -/
def combineItem (p q : Bytes) : Bytes :=
  ((Ledger.ofImage (p.take 48)).combine (Ledger.ofImage (q.take 48))).image ++ leBytes 4 (max (fld p 48 4) (fld q 48 4))
  ++ leBytes 4 ((fld p 52 4 + fld q 52 4) % 2 ^ 32) ++ leBytes 4 ((fld p 56 4 + fld q 56 4) % 2 ^ 32)
  ++ slice p 60 3 ++ leBytes 1 (fld p 63 1 ||| fld q 63 1)

/-- Blocks combine position by position; `n` items. -/
def combineBlocks : Nat → Bytes → Bytes → Bytes
  | 0, _, _ => []
  | n + 1, p, q => combineItem (p.take 64) (q.take 64) ++ combineBlocks n (p.drop 64) (q.drop 64)

/-- The item of the i-th defined entry. -/
def itemAt (block : Bytes) (i kind : Nat) : Bytes := slice block (128 * i + 64 * kind) 64

/-- The policy of an entry for a kind: 0 log, 1 promote, 2 skip. -/
def Watch.polOf (w : Watch) (kind : Nat) : Nat := if kind = 0 then w.polOut else w.polGrad

/-- The ws bit of a member's own block (R385). -/
def ownWs (x : Ctx) (block : Bytes) : Bool :=
  (List.range x.pol.watch.length).any fun i =>
    match x.pol.watch[i]? with
    | none => false
    | some p => [0, 1].any fun kind =>
        let b := itemAt block i kind
        p.2.polOf kind == 2 && (fld b 52 4 != 0 || (Ledger.ofImage (b.take 48)).state || bitOf (fld b 63 1) 1)

/-! ### Alerts (R386, R387) -/

structure Alerts where
  nonfinite : Bool
  late : Bool        -- the non-finite alert rests on the late bit alone
  overfull : Bool
  lateOvf : Bool     -- the overfull alert rests on the late bit alone
  jump : Bool
  norm : Nat
  count : Nat
deriving DecidableEq, Repr

def Watch.avgOf (w : Watch) (kind : Nat) : Nat := if kind = 0 then w.avgOut else w.avgGrad
def Watch.smpOf (w : Watch) (kind : Nat) : Nat := if kind = 0 then w.smpOut else w.smpGrad

/-- The norm of an item: FP32, unscaled by the attempt's exponent for gradients. -/
def itemNorm (kind : Nat) (eUsed : Int) (S : Nat) : Nat :=
  let n := (roundTo .fp32 (sqrtX (v32 S))).1
  if kind = 0 then n else (roundTo .fp32 ((v32 n).scale (-eUsed))).1

def alertsOf (w : Watch) (kind : Nat) (eUsed : Int) (b : Bytes) : Alerts :=
  let l := Ledger.ofImage (b.take 48)
  let S := l.round32.1
  let n := itemNorm kind eUsed S
  let bits := fld b 63 1
  let now := fld b 52 4 != 0 || l.state || (v32 S).isInf
  let nf := now || bitOf bits 1
  let a := w.avgOf kind
  let count := fld b 56 4
  let far := XReal.lt (v32 (mul32 w.factorOf a).1) (v32 n) || XReal.lt (v32 (mul32 w.factorOf n).1) (v32 a)
  { nonfinite := nf, late := nf && !now, overfull := kind == 0 && (bitOf bits 0 || bitOf bits 2),
    lateOvf := kind == 0 && !bitOf bits 0 && bitOf bits 2,
    jump := !nf && count != 0 && w.warmOf ≤ w.smpOf kind && XReal.lt .zero (v32 a) && far, norm := n, count := count }

def Alerts.number (a : Alerts) : Nat := b2n a.nonfinite + b2n a.overfull + b2n a.jump

/-- ws of the result: a non-finite or jump alert under the skip policy (R388). -/
def skips (w : Watch) (o g : Alerts) : Bool :=
  (w.polOut == 2 && (o.nonfinite || o.jump)) || (w.polGrad == 2 && (g.nonfinite || g.jump))

/-! ### Decisions (R389, R390, R392) -/

/-- The new average of a kind after a commit. -/
def newAvg (w : Watch) (kind : Nat) (a : Alerts) : Option Nat :=
  if a.count = 0 ∨ a.nonfinite = true then none else
  some (if w.smpOf kind = 0 then a.norm else (add32 (w.avgOf kind) (mul32 w.alphaOf (sub32 a.norm (w.avgOf kind)).1).1).1)

/-- What an attempt at step `s` decides for one entry. -/
def decideRung (s entry : Nat) (w : Watch) (o g : Alerts) : RungDecision :=
  let p := b2n ((w.polOut != 0 && (o.nonfinite || o.jump)) || (w.polGrad != 0 && (g.nonfinite || g.jump)))
  let r1 := min (w.rung + p) w.ceiling
  let r2 := if o.overfull then min (max r1 3) w.ceiling else r1
  let n := o.number + g.number
  let clean := min 65535 (w.clean + 1)
  let down := n == 0 && w.floor < w.rung && w.demoteOf ≤ clean && w.lastChange + w.demoteOf ≤ s
  { entry := entry, old := w.rung, promoted := r2, demoted := if down then w.rung - 1 else r2, alerts := n, overfull := b2n o.overfull,
    avgOut := newAvg w 0 o, avgGrad := newAvg w 1 g }

/-- The transcript records of one entry's alerts (R398, R479). -/
def alertRecs (d : RungDecision) (o g : Alerts) : List (Nat × Nat × Nat × Nat × Nat) :=
  let rec1 (kind : Nat) (a : Alerts) : List (Nat × Nat × Nat × Nat × Nat) :=
    (if a.nonfinite then [(d.entry, kind, if a.late then 3 else 0, d.old, d.promoted)] else [])
    ++ (if a.jump then [(d.entry, kind, 1, d.old, d.promoted)] else [])
    ++ (if a.overfull then [(d.entry, kind, if a.lateOvf then 3 else 2, d.old, d.promoted)] else [])
  rec1 0 o ++ rec1 1 g

/-- Everything phase C decides from a reduced block: the entries' decisions, the alert records, and whether ws is set. -/
def watchDecide (x : Ctx) (eUsed : Int) (block : Bytes) : List RungDecision × List (Nat × Nat × Nat × Nat × Nat) × Bool :=
  let l := (List.range x.pol.watch.length).filterMap fun i =>
    (x.pol.watch[i]?).map fun p =>
      let o := alertsOf p.2 0 eUsed (itemAt block i 0); let g := alertsOf p.2 1 eUsed (itemAt block i 1)
      let d := decideRung x.gate.step p.1 p.2 o g
      (d, alertRecs d o g, skips p.2 o g)
  (l.map (·.1), l.flatMap (·.2.1), l.any (·.2.2))

def sat32 (n : Nat) : Nat := min n (2 ^ 32 - 1)

/-- Late bits set during an attempt become pending, and those it carried are cleared (R384). -/
def lateBits (a : Attempt) (entry : Nat) (w : Watch) : Watch :=
  { w with lateNfOut := a.lateOut.contains entry, lateNfGrad := a.lateGrad.contains entry, lateOvf := a.lateOvf.contains entry }

/-- An entry after a commit of step `s` (R389, R390, R392, R661). -/
def commitEntry (s : Nat) (d : RungDecision) (w : Watch) : Watch :=
  let up := d.old < d.promoted
  let down := d.demoted < d.promoted
  { w with rung := d.demoted, clean := if d.alerts != 0 || down then 0 else min 65535 (w.clean + 1),
           lastChange := if up || down then s else w.lastChange,
           promotions := sat32 (w.promotions + b2n up), demotions := sat32 (w.demotions + b2n down),
           alerts := sat32 (w.alerts + d.alerts), overfull := sat32 (w.overfull + d.overfull),
           avgOut := d.avgOut.getD w.avgOut, avgGrad := d.avgGrad.getD w.avgGrad,
           smpOut := if d.avgOut.isSome then min 255 (w.smpOut + 1) else w.smpOut,
           smpGrad := if d.avgGrad.isSome then min 255 (w.smpGrad + 1) else w.smpGrad }

/-- An entry after a skip: promotions and counters alone (R372, R661). -/
def skipEntry (s : Nat) (d : RungDecision) (w : Watch) : Watch :=
  let up := d.old < d.promoted
  { w with rung := d.promoted, lastChange := if up then s else w.lastChange, promotions := sat32 (w.promotions + b2n up),
           alerts := sat32 (w.alerts + d.alerts), overfull := sat32 (w.overfull + d.overfull) }

/-- Every entry after a commit or a skip. -/
def applyWatch (f : Nat → RungDecision → Watch → Watch) (s : Nat) (a : Attempt) (t : Tab Watch) : Tab Watch :=
  t.map fun p =>
    let w := match a.rungs.find? (·.entry == p.1) with | some d => f s d p.2 | none => p.2
    (p.1, lateBits a p.1 w)

/-- The rung an entry will have at the next step if the attempt commits (R111, R365). -/
def rungNext (a : Attempt) (x : Ctx) (layer : Nat) : Option Nat :=
  match a.rungs.find? (·.entry == layer) with
  | some d => some d.demoted
  | none => rungOf x layer

end Sys2Proof.Machine
end

