-- ==== Sys2Proof/Machine/Ring.lean ====
section
/-! DEFINITION. Stored bytes of tensors, batch digests, the transcript ring, and replay against a reference (R477–R487, R501). -/

namespace Sys2Proof.Machine

/-! ### Stored bytes (R479, R501) -/

/-- Packs element codes of `w` bits into bytes (R32). -/
def packRow (w : Nat) (l : List Nat) : Bytes := if w < 8 then packCodes w l else l.flatMap (leBytes (w / 8))

/-- A run of columns of a row, as stored bytes, with its poisoned offsets; none where a byte cannot be read. -/
def plainRow (s : State) (x : Ctx) (t : TRef) (i : Nat) : Option (Bytes × Bool) :=
  let l := (List.range t.e.cols).map (readCode s x t i)
  if l.any Option.isNone then none else
  let k := l.filterMap id
  some (packRow t.e.width (k.map (·.1)), k.any (·.2))

/-- One line of a tensor as its stored bytes, without pitch padding: whole quires, 48-byte images, packed elements. -/
def storedLine (s : State) (x : Ctx) (t : TRef) (i : Nat) : Option (Bytes × Bool) :=
  match t.e.kind with
  | 1 => let n := ceilDiv t.e.axisLen (quireElems (effective x t.e).1.f) * 576
         (readBytes s x t (i * t.e.step) n).map fun b => (b, anyPoison s x t (i * t.e.step) n)
  | 2 =>
    let l := (List.range t.e.cols).map fun j => readCell s x t i j
    if l.any Option.isNone then none else
    let k := l.filterMap id
    some (k.flatMap (fun q => q.1.image), k.any (·.2))
  | _ => plainRow s x t i

/-- A tensor's stored bytes in logical row order. -/
def storedBytes (s : State) (x : Ctx) (t : TRef) : Bytes :=
  (List.range t.e.lines).flatMap fun i => match storedLine s x t i with | some l => l.1 | none => []

/-- The codes of a plain tensor in row-major order. -/
def flatCodes (s : State) (x : Ctx) (t : TRef) : List Nat :=
  (positions t.e.rows t.e.cols).filterMap fun q => (readCode s x t q.1 q.2).map (·.1)

/-- The batch records of an admission (R477, R479 type 0x02). -/
def batchRecs (s : State) (x : Ctx) : List TRec :=
  match tensor x x.pol.mode.batches with
  | none => []
  | some b =>
    (flatCodes s x b).filterMap fun cn =>
      match tensor x cn with
      | none => none
      | some t =>
        let d := storedBytes s x t
        some ⟨2, true, leBytes 4 cn ++ zeros 4 ++ leBytes 8 d.length ++ sha384 d⟩

/-- The batch tensors and the list of them are read (R325). -/
def touchBatches (s : State) (c : Nat) (x : Ctx) : State :=
  match tensor x x.pol.mode.batches with
  | none => s
  | some b => (flatCodes s x b).foldl (fun s k => touchAll s c k false) (touchAll s c b.call false)

/-! ### The ring (R481, R482) -/

/-- Bytes of a plain tensor by byte offset. -/
def ringRead (s : State) (x : Ctx) (t : TRef) (off n : Nat) : Nat :=
  match readBytes s x t off n with | some b => leNat b | none => 0

def ringSize (t : TRef) : Nat := 4 * t.e.rows * t.e.cols

/-- Where a record of `n` bytes goes, given the read and write offsets; none while its bytes are not consumed. -/
def ringPlace (size r w n : Nat) : Option Nat :=
  let r := if r < 64 then 64 else r
  if w + n ≤ size then (if r ≤ w then some w else if w + n < r then some w else none)
  else if r ≤ w ∧ 64 + n < r then some 64 else none

/-- Writes the oldest staged record, then the write offset. -/
def ringPut (s : State) (c : Nat) (x : Ctx) (t : TRef) (b : Bytes) : Option State :=
  match ringPlace (ringSize t) (ringRead s x t 8 8) x.tr.ringOff b.length with
  | none => none
  | some o =>
    let w := o + b.length
    match byteUnits x t o b, byteUnits x t 0 (leBytes 8 w) with
    | some u, some v =>
      let s0 := touchFlat (touchFlat s c t.call (o / 4) (ceilDiv b.length 4) true) c t.call 0 2 true
      let s1 := applyUnits (applyUnits s0 c u) c v
      some (modCtx s1 c fun x => { x with tr := { x.tr with staging := x.tr.staging.drop 1, ringOff := w } })
    | _, _ => none

def ringWrite (c : Nat) : Nat → State → State
  | 0, s => s
  | n + 1, s =>
    match getCtx s c with
    | none => s
    | some x =>
      match x.tr.staging, tensor x x.pol.mode.ring with
      | b :: _, some t => (match ringPut s c x t b with | some s1 => ringWrite c n s1 | none => s)
      | _, _ => s

/-- The records of an ORPHANED context stay staged (R560). -/
def execTranscriptRingWrite (c : Nat) (s : State) : Outc :=
  match getCtx s c with
  | none => .next s
  | some x => if x.ident.st = .orphaned then .next s else .next (ringWrite c x.tr.staging.length s)

/-- Staging admits an attempt: at least 512 KiB of its 1 MiB is free (R482). -/
def stagingAdmits (x : Ctx) : Bool := stagedBytes x ≤ 524288

/-! ### The reference (R484–R487) -/

/-- The records from offset `o` to `w`, the ring wrapping where a record would cross its end. -/
def ringRecs (s : State) (x : Ctx) (t : TRef) (w : Nat) : Nat → Nat → List Bytes
  | 0, _ => []
  | gas + 1, o =>
    if o = w then [] else
    let n := if o + 2 ≤ ringSize t then ringRead s x t o 2 else 0
    if n < 48 ∨ ringSize t < o + n then (if o = 64 then [] else ringRecs s x t w gas 64)
    else match readBytes s x t o n with
      | none => []
      | some b => b :: ringRecs s x t w gas (o + n)

/-- Header fields of a record (R478). -/
def recType (b : Bytes) : Nat := fld b 2 1
def recLocal (b : Bytes) : Bool := bitOf (fld b 3 1) 0
def recAttempt (b : Bytes) : Nat := fld b 10 6
def recSeq (b : Bytes) : Nat := fld b 16 8

/-- A watch redefinition (R479): a global record that no attempt forms. -/
def recRedefines (b : Bytes) : Bool := recType b == 5 && fld b 51 1 == 5

/-- The comparable stream of a list of records: batch and global records of the attempts that did not fail (R484). -/
def comparable (l : List Bytes) : List Bytes :=
  l.filter fun b => (recType b == 2 || !recLocal b) && !recRedefines b &&
    l.any fun r => recType r == 3 && !recLocal r && recAttempt r == recAttempt b

/-- The reference's comparable stream. -/
def refStream (s : State) (x : Ctx) : List Bytes :=
  match tensor x x.pol.mode.reference with
  | none => []
  | some t =>
    let r := ringRead s x t 8 8
    comparable (ringRecs s x t (ringRead s x t 0 8) (ringSize t / 48 + 2) (if r < 64 then 64 else r))

/-- The first byte at which two records differ, beside attempt, seq, time and chain. -/
def firstDiff (a b : Bytes) : Option Nat :=
  (List.range (max a.length b.length)).find? fun k => (k < 10 || 48 ≤ k) && a[k]? != b[k]?

/-- Compares records with the reference from a position on (R486). -/
def compareRecs : List (Nat × Bytes) → List Bytes → Option Divergence
  | [], _ => none
  | (q, b) :: _, [] => some ⟨q, 0, recType b, 0xFFFF⟩
  | (q, b) :: r, e :: es =>
    match firstDiff b e with
    | some k => some ⟨q, recSeq e, recType b, k⟩
    | none => compareRecs r es

/-- Compares what an attempt that did not fail has recorded; the first divergence stands. -/
def compareNow (s : State) (c : Nat) : State :=
  modCtx s c fun x =>
    if x.pol.mode.replay && x.divergence.isNone then
      { x with divergence := compareRecs x.tr.attemptRecs ((refStream s x).drop x.tr.refPos) }
    else x

/-- An attempt that did not fail has ended: its records are compared and the position moves past them; a member that has reached the
end of its reference leaves replay (R484, R487). -/
def replayEnd (s : State) (c : Nat) : State :=
  let s1 := compareNow s c
  match getCtx s1 c with
  | none => s1
  | some x =>
    if !x.pol.mode.replay then s1 else
    let pos := x.tr.refPos + x.tr.attemptRecs.length
    let s2 := setCtx s1 c { x with tr := { x.tr with refPos := pos } }
    if x.divergence.isNone && (refStream s x).length ≤ pos then
      eventRec (modCtx s2 c fun x => { x with pol := { x.pol with mode := { x.pol.mode with replay := false } } }) c 0 0
    else s2

/-- The logical contributions that the reference excluded from a collective of the attempt under way (R485). -/
def refExcluded (s : State) (x : Ctx) (desc seq : Nat) : List Nat :=
  let l := (refStream s x).drop x.tr.refPos
  let att := l.takeWhile fun b => recType b != 3
  att.filterMap fun b =>
    if recType b == 4 && fld b 48 2 == desc && fld b 50 2 == seq && fld b 56 1 ≤ 1 then some (fld b 52 4) else none

end Sys2Proof.Machine
end

