-- ==== Sys2Proof/Machine/CollNum.lean ====
section
/-! DEFINITION. The arithmetic of collectives: partition, throughput order, exact protocol, extremes, winners (R413–R418). -/

namespace Sys2Proof.Machine

/-! ### Notices (R409) -/

/-- A notice as it is sent (R409). -/
def noticeBytes (n : Notice) : Bytes :=
  leBytes 8 n.id ++ leBytes 4 n.epoch ++ leBytes 2 n.rank ++ leBytes 1 (b2n n.fl + 2 * b2n n.un) ++ zeros 1 ++ leBytes 8 n.time ++ leBytes 8 n.digest

/-- A notice as it is received; none where its length or a reserved field is wrong. -/
def noticeOf (b : Bytes) : Option Notice :=
  if b.length != 32 || 4 ≤ fld b 14 1 || fld b 15 1 != 0 then none else
  some { id := fld b 0 8, epoch := fld b 8 4, rank := fld b 12 2, fl := bitOf (fld b 14 1) 0, un := bitOf (fld b 14 1) 1, time := fld b 16 8,
         digest := fld b 24 8 }

/-! ### Partition (R413) -/

/-- The first element that rank `r` of `m` owns of `n`. -/
def ownLo (n m r : Nat) : Nat := n * r / m
/-- The rank that owns element `e`. -/
def ownerOf (n m e : Nat) : Nat := ((e + 1) * m - 1) / n

/-- One logical contribution that enters a collective: its FP32 codes, or winner words, or raw units. -/
structure Contribution where
  k : Nat
  rank : Nat
  carried : Bool
  codes : List Nat
  poisoned : List Nat
deriving DecidableEq, Repr

/-- Codes of elements with a flag set that this member raises. -/
abbrev Vec := List Nat × Flags

/-! ### Transit narrowing (R415) -/

/-- What a narrowing draws with: the seed, the step, and the round code. -/
structure Narrow where
  transit : Nat
  rm : RM
  seed : Nat
  step : Nat
deriving DecidableEq, Repr

def narrowDraw (w : Narrow) (i : Nat) : Nat := if w.rm == .sr then draw w.seed 0xFFF0 w.step i else 0

/-- Bytes of a whole block: a last block with fewer elements is filled up with zeros (log 147). -/
def blockBytes (w : Nat) (l : List Nat) : Bytes := fit (32 * w) (l.flatMap (leBytes w))

/-- The element format of a block-coded transit. -/
def blockFmt (transit : Nat) : Fmt := if transit = 2 then .int8 else .e5m2

/-- One block of consecutive destination elements from index `i` on as it is sent, and the flags of its narrowing. -/
def codeBlock (w : Narrow) (i : Nat) (l : List Nat) : Bytes × Flags :=
  let at_ := (List.range l.length).map fun k => (i + k, l.getD k 0)
  match w.transit with
  | 0 => (blockBytes 4 l, Flags.none)
  | 1 => let r := mapFlags (fun q => convertCode .fp32 .bf16 w.rm (narrowDraw w q.1) q.2) at_
         (blockBytes 2 r.1, r.2)
  | t =>
    if l.any fun v => !(v32 v).isFin then (0xFF :: blockBytes 4 l, Flags.none) else
    let f := blockFmt t
    let a := maxAbs l
    let sc := if (v32 a).isZero then (scaleOne .e8m0, Flags.none) else scaleFor .e8m0 (boundM f) (v32 a)
    let r := mapFlags (fun q => convert f w.rm (narrowDraw w q.1) ((v32 q.2).div (scaleVal .e8m0 sc.1))) at_
    (leBytes 1 sc.1 ++ blockBytes 1 r.1, r.2.or sc.2)

/-- The FP32 codes of the first `n` elements of a block as it is received; its scale byte 0xFF is no scale. -/
def uncodeBlock (transit n : Nat) (b : Bytes) : Vec :=
  match transit with
  | 0 => ((List.range n).map fun k => fld b (4 * k) 4, Flags.none)
  | 1 => mapFlags (fun k => convertCode .bf16 .fp32 .rne 0 (fld b (2 * k) 2)) (List.range n)
  | t =>
    if fld b 0 1 = 0xFF then ((List.range n).map fun k => fld b (1 + 4 * k) 4, Flags.none)
    else mapFlags (fun k => roundTo .fp32 ((decode (blockFmt t) (fld b (1 + k) 1)).mul (scaleVal .e8m0 (fld b 0 1)))) (List.range n)

/-- One block of consecutive destination elements from index `i` on, narrowed and decoded. -/
def narrowBlock (w : Narrow) (i : Nat) (l : List Nat) : Vec :=
  let c := codeBlock w i l
  let d := uncodeBlock w.transit l.length c.1
  (d.1, c.2.or d.2)

/-- The blocks of 32 of a vector whose destinations are segments of the given lengths, the first at position `o`: position in the vector, index
in the destination, length. -/
def cutBlocks : List Nat → Nat → List (Nat × Nat × Nat)
  | [], _ => []
  | n :: ns, o => ((List.range (ceilDiv n 32)).map fun b => (o + 32 * b, 32 * b, min 32 (n - 32 * b))) ++ cutBlocks ns (o + n)

/-- Narrows each block: its position, and its codes with flags. -/
def narrowBlocks (w : Narrow) (segs : List Nat) (l : List Nat) : List (Nat × Vec) :=
  (cutBlocks segs 0).map fun b => (b.1, narrowBlock w b.2.1 ((l.drop b.1).take b.2.2))

/-- The blocks of a vector as they are sent. -/
def codeBlocks (w : Narrow) (segs : List Nat) (l : List Nat) : List (Nat × Bytes) :=
  (cutBlocks segs 0).map fun b => (b.1, (codeBlock w b.2.1 ((l.drop b.1).take b.2.2)).1)

def narrowVec (w : Narrow) (segs : List Nat) (l : List Nat) : Vec :=
  let bs := narrowBlocks w segs l
  (bs.flatMap (·.2.1), bs.foldl (fun a b => a.or b.2.2) Flags.none)

/-! ### Throughput order (R414) -/

def addVec (a : Vec) (l : List Nat) : Vec :=
  let r := mapFlags (fun q : Nat × Nat => add32 q.1 q.2) (List.zip a.1 l)
  (r.1, a.2.or r.2)

/-- A member's partial: its rows in ascending order, then the carried ones. -/
def memberPartial (rows : List (List Nat)) : Vec :=
  match rows with | [] => ([], Flags.none) | r :: rs => rs.foldl addVec (r, Flags.none)

/-- A partial on its way: the coordinate of the member that holds it, and its value. -/
abbrev Part := Nat × List Nat

/-- The member `me` raises the flags of what it performs. -/
def mine (me coord : Nat) (f : Flags) : Flags := Flags.when (me == coord) f

/-- Inserts by coordinate. -/
def insertPart (p : Part) : List Part → List Part
  | [] => [p]
  | q :: r => if p.1 < q.1 then p :: q :: r else q :: insertPart p r

/-- Adds the partials of one line of an axis, each narrowed first; the first member of the line adds (log 14). -/
def addLine (w : Narrow) (segs : List Nat) (me : Nat) (l : List Part) : Part × Flags :=
  match l with
  | [] => ((0, []), Flags.none)
  | [p] => (p, Flags.none)
  | p :: ps =>
    let a := narrowVec w segs p.2
    let r := ps.foldl (fun (acc : Vec) q =>
      let b := narrowVec w segs q.2
      let t := addVec (acc.1, Flags.none) b.1
      (t.1, (acc.2.or (mine me q.1 b.2)).or (mine me p.1 t.2))) (a.1, mine me p.1 a.2)
    ((p.1, r.1), r.2)

/-- Adds along the axis at bit `sh` of the coordinate; `n` lines at most. A partial stands at its first member, whose lower coordinates no longer
count: partials of one line are those that agree in the higher ones. -/
def addAxis (w : Narrow) (segs : List Nat) (me sh : Nat) : Nat → List Part → List Part × Flags
  | 0, l => (l, Flags.none)
  | n + 1, l =>
    match l with
    | [] => ([], Flags.none)
    | p :: _ =>
      let key : Part → Nat := fun q => q.1 / 2 ^ (sh + 4)
      let same := l.filter fun q => key q == key p
      let rest := l.filter fun q => key q != key p
      let a := addLine w segs me same
      let b := addAxis w segs me sh n rest
      (insertPart a.1 b.1, a.2.or b.2)

/-- The sum of the partials of all included members over axes 0 to 3. -/
def addAxes (w : Narrow) (segs : List Nat) (me : Nat) (l : List Part) : Vec :=
  let r := [0, 4, 8, 12].foldl (fun (acc : List Part × Flags) sh =>
    let q := addAxis w segs me sh acc.1.length acc.1
    (q.1, acc.2.or q.2)) (l, Flags.none)
  match r.1 with | p :: _ => (p.2, r.2) | [] => ([], r.2)

/-- Where the partial that stands at `me` goes along one axis: to the first member of its line, where that is another (R414). -/
def axisSend (me sh : Nat) (l : List Part) : Option (Nat × List Nat) :=
  match l.find? fun q => q.1 == me with
  | none => none
  | some p =>
    match l.find? fun q => q.1 / 2 ^ (sh + 4) == p.1 / 2 ^ (sh + 4) with
    | some q => if q.1 = me then none else some (q.1, p.2)
    | none => none

/-- The partial that this member sends, and the member that adds it. -/
def partialSend (w : Narrow) (segs : List Nat) (me : Nat) (l : List Part) : Option (Nat × List Nat) :=
  ([0, 4, 8, 12].foldl (fun (acc : List Part × Option (Nat × List Nat)) sh =>
    ((addAxis w segs me sh acc.1.length acc.1).1, acc.2 <|> axisSend me sh acc.1)) (l, none)).2

/-- What every sum needs: group size and rank, coordinates by rank, destination format, mean, count. -/
structure SumCtx where
  m : Nat
  me : Nat
  coords : List Nat
  dfmt : Fmt
  mean : Bool
  count : Nat
  scatter : Bool
deriving DecidableEq, Repr

/-- Destination segments: the parts of a reduce-scatter, else the whole vector. -/
def SumCtx.segs (q : SumCtx) (n : Nat) : List Nat :=
  if q.scatter then (List.range q.m).map fun r => ownLo n q.m (r + 1) - ownLo n q.m r else [n]

/-- The flags of the elements this member owns. -/
def ownFlags (q : SumCtx) (n : Nat) (l : List Flags) : Flags :=
  (List.range n).foldl (fun a e => if ownerOf n q.m e = q.me then a.or (l.getD e Flags.none) else a) Flags.none

/-- The partials of the members that take part, each with the flags this member raises for its own. -/
def partialsOf (q : SumCtx) (l : List Contribution) : List (Nat × List Nat × Flags) :=
  ((List.range q.m).filter fun r => l.any (·.rank == r)).map fun r =>
    let p := memberPartial (((l.filter fun c => c.rank == r && !c.carried) ++ (l.filter fun c => c.rank == r && c.carried)).map (·.codes))
    (q.coords.getD r 0, p.1, Flags.when (r == q.me) p.2)

/-- The partials in ascending order of coordinate. -/
def inOrder (l : List (Nat × List Nat × Flags)) : List Part := (l.map fun p => (p.1, p.2.1)).foldl (fun a p => insertPart p a) []

/-- A throughput sum (R414): delivered codes in the destination format, and the flags this member raises. -/
def sumThroughput (q : SumCtx) (w : Narrow) (n : Nat) (l : List Contribution) : Vec :=
  let parts := partialsOf q l
  let sum := addAxes w (q.segs n) (q.coords.getD q.me 0) (inOrder parts)
  let divd := if q.mean then mapFlags (fun v => div32 v (roundTo .fp32 (.ofNat q.count)).1) sum.1 else (sum.1, Flags.none)
  let nar := narrowBlocks w (q.segs n) divd.1
  let out := (nar.flatMap (·.2.1)).map fun v => convertCode .fp32 q.dfmt .rne 0 v
  let owner := ownFlags q n ((List.range n).map fun e =>
    ((if q.mean then (div32 (sum.1.getD e 0) (roundTo .fp32 (.ofNat q.count)).1).2 else Flags.none).or
      (out.getD e (0, Flags.none)).2))
  -- the owner of a block's first element narrows it (log 125)
  let narF := nar.foldl (fun a b => a.or (Flags.when (ownerOf n q.m b.1 == q.me) b.2.2)) Flags.none
  (out.map (·.1), (((parts.foldl (fun a p => a.or p.2.2) Flags.none).or sum.2).or owner).or narF)

/-- The coded blocks of the final values whose first elements this member owns (R413, R414). -/
def ownBlocks (q : SumCtx) (w : Narrow) (n : Nat) (l : List Contribution) : List (Nat × Bytes) :=
  let sum := (addAxes w (q.segs n) (q.coords.getD q.me 0) (inOrder (partialsOf q l))).1
  let divd := if q.mean then sum.map fun v => (div32 v (roundTo .fp32 (.ofNat q.count)).1).1 else sum
  (codeBlocks w (q.segs n) divd).filter fun b => ownerOf n q.m b.1 == q.me

/-! ### The exact protocol (R416) -/

/-- The largest exponent of the finite non-zero elements of a block. -/
def blockMax (rows : List (List Nat)) : Option Int :=
  (rows.flatten.filter fun v => (v32 v).isFin && !(v32 v).isZero).foldl (fun (a : Option Int) v =>
    let e := (v32 v).ilog2
    match a with | none => some e | some b => some (max b e)) none

/-- One element aligned: its lane, its state code and its flags. -/
def alignExact (emax : Int) (v : Nat) : Int × Nat × Flags :=
  match v32 v with
  | .nan => (0, 3, Flags.NV)
  | .inf s => (0, if s then 2 else 1, Flags.none)
  | x => let r := roundInt .rne 0 (x.scale (40 - emax)); (r.1, 0, Flags.when r.2 .NX)

/-- The final value of a lane. -/
def roundLane (q : SumCtx) (emax : Int) (S : Int) (st : Nat) : Nat × Flags :=
  if st = 3 then (q.dfmt.nanCode, Flags.NV)
  else if st = 1 then convert q.dfmt .rne 0 (.inf false)
  else if st = 2 then convert q.dfmt .rne 0 (.inf true)
  else if S = 0 then (0, Flags.none)
  else
    let v := XReal.ofScaled S (emax - 40)
    convert q.dfmt .rne 0 (if q.mean then v.div (.ofNat q.count) else v)

/-- Column `e` of the rows. -/
def columnOf (l : List Contribution) (e : Nat) : List (Nat × Nat) := l.map fun c => (c.rank, c.codes.getD e 0)

/-- An exact sum: delivered codes and the flags of this member: the alignments of its own rows and the rounding of what it owns. -/
def sumExact (q : SumCtx) (n : Nat) (l : List Contribution) : Vec :=
  let maxes := (List.range (ceilDiv n 32)).map fun b => blockMax (l.map fun c => (c.codes.drop (32 * b)).take 32)
  let out := (List.range n).map fun e =>
    let emax := (maxes.getD (e / 32) none).getD 0
    let al := (columnOf l e).map fun p => (p.1, alignExact emax p.2)
    let S := al.foldl (fun (a : Int) p => a + p.2.1) 0
    let st := al.foldl (fun a p => a ||| p.2.2.1) 0
    let r := roundLane q emax S st
    let own := al.foldl (fun a p => if p.1 = q.me then a.or p.2.2.2 else a) Flags.none
    (r.1, own, r.2)
  (out.map (·.1), (out.foldl (fun a p => a.or p.2.1) Flags.none).or (ownFlags q n (out.map (·.2.2))))

/-! ### Lanes between members (R417) -/

/-- The smallest width in which a lane fits as a two's-complement value. -/
def laneWidth (v : Int) : Nat :=
  let m : Nat := if v < 0 then (-v - 1).toNat else v.toNat
  if m = 0 then 1 else Nat.log2 m + 2

/-- A block of 32 lanes with its state codes, width-trimmed. -/
def trimBlock (lanes : List Int) (states : List Nat) : Bytes :=
  let w := lanes.foldl (fun a v => max a (laneWidth v)) 1
  let st := states.any (· != 0)
  leBytes 1 (w - 1 + b2n st * 64)
  ++ (if st then leBytes 8 ((List.range 32).foldl (fun a i => a + states.getD i 0 % 4 * 2 ^ (2 * i)) 0) else [])
  ++ leBytes (4 * w) ((List.range 32).foldl (fun a i => a + twos w (lanes.getD i 0) * 2 ^ (w * i)) 0)

/-- Lanes and state codes of a block that has been received; none where bit 7 is set or the length is wrong. -/
def untrimBlock (b : Bytes) : Option (List Int × List Nat) :=
  let h := fld b 0 1
  let w := h % 64 + 1
  let st := bitOf h 6
  let o := if st then 9 else 1
  if 128 ≤ h || b.length != o + 4 * w then none else
  let n := fld b o (4 * w)
  some ((List.range 32).map fun i => sext w (n / 2 ^ (w * i) % 2 ^ w),
        (List.range 32).map fun i => if st then fld b 1 8 / 2 ^ (2 * i) % 4 else 0)

/-- A block's exponent in the maximum phase: 16-bit two's complement, −32,768 where there is none (R416). -/
def maxCode (e : Option Int) : Bytes := leBytes 2 (twos 16 (e.getD (-32768)))

/-- What a member sends in the maximum phase: two bytes for each block of its own rows. -/
def ownMaxima (me n : Nat) (l : List Contribution) : Bytes :=
  (List.range (ceilDiv n 32)).flatMap fun b =>
    maxCode (blockMax ((l.filter (·.rank == me)).map fun c => (c.codes.drop (32 * b)).take 32))

/-- The blocks a member sends: the lanes of its own rows, aligned under the block's maximum exponent, to each other rank that owns elements of
the block: block, rank, bytes. -/
def ownLanes (q : SumCtx) (n : Nat) (l : List Contribution) : List (Nat × Nat × Bytes) :=
  let mine := l.filter (·.rank == q.me)
  (List.range (ceilDiv n 32)).flatMap fun b =>
    let emax := (blockMax (l.map fun c => (c.codes.drop (32 * b)).take 32)).getD 0
    let al (e : Nat) : List (Int × Nat) := mine.map fun c => let r := alignExact emax (c.codes.getD (32 * b + e) 0); (r.1, r.2.1)
    let bytes := trimBlock ((List.range 32).map fun e => (al e).foldl (fun a p => a + p.1) 0)
      ((List.range 32).map fun e => (al e).foldl (fun a p => a ||| p.2) 0)
    let lo := 32 * b; let hi := min n (lo + 32)
    ((List.range q.m).filter fun r => r != q.me && ownLo n q.m r < hi && lo < ownLo n q.m (r + 1) && ownLo n q.m r < ownLo n q.m (r + 1)).map
      fun r => (b, r, bytes)

/-! ### Extremes and winners (R418) -/

/-- Contributions in ascending logical order. -/
def insertC (c : Contribution) : List Contribution → List Contribution
  | [] => [c]
  | d :: r => if c.k < d.k then c :: d :: r else d :: insertC c r
def sortC (l : List Contribution) : List Contribution := l.foldl (fun a c => insertC c a) []

/-- The extreme of a column: the value of the lowest logical contribution among equals; a NaN outranks all. -/
def extremeCol (mx : Bool) (l : List Nat) : Nat × Flags :=
  if l.any fun v => (v32 v).isNan then (nan32, Flags.NV) else
  match l with
  | [] => (0, Flags.none)
  | v :: r => (r.foldl (fun a b => if (if mx then XReal.lt (v32 a) (v32 b) else XReal.lt (v32 b) (v32 a)) then b else a) v, Flags.none)

def sumExtreme (q : SumCtx) (mx : Bool) (n : Nat) (l : List Contribution) : Vec :=
  let s := sortC l
  let out := (List.range n).map fun e => extremeCol mx (s.map fun c => c.codes.getD e 0)
  (out.map (·.1), ownFlags q n (out.map (·.2)))

/-- Argmax over winner records: each record is an index word and a value word (R186, R187). -/
def sumArgmax (q : SumCtx) (n : Nat) (l : List Contribution) : Vec :=
  let s := sortC l
  let win (e : Nat) : Nat × Nat :=
    match s.map fun c => (c.codes.getD (2 * e) 0, c.codes.getD (2 * e + 1) 0) with
    | [] => (0, 0)
    | w :: r => r.foldl (fun a b => if outranks true b a then b else a) w
  let ws := (List.range n).map win
  (ws.flatMap (fun w => [w.1, winValue w.2]), ownFlags q n (ws.map fun w => Flags.when (v32 w.2).isNan Flags.NV))

end Sys2Proof.Machine
end

