-- ==== Sys2Proof/Machine/CollOps.lean ====
section
/-! DEFINITION. COLL, and the life of a collective on a member: notices, verdicts, data and results, deferral, epochs
(R228, R229, R400–R431, R655, R662). -/

namespace Sys2Proof.Machine

/-! ### Members and ids (R400–R407) -/

/-- A descriptor with its group and this device's rank in it. -/
structure Member where
  di : Nat
  d : Desc
  g : GroupRec
  me : Nat
deriving DecidableEq, Repr

/-- This device's coordinate: its own, or of a reserve the failed member's that it has adopted (R401, R515). -/
def ownCoord (s : State) : Nat := match s.fabric.adopted with | some x => x | none => s.host.address.getD 0 % 2 ^ 16

def memberOf (s : State) (x : Ctx) (di : Nat) : Option Member :=
  match tget x.pol.descs di with
  | none => none
  | some d =>
    match tget x.pol.grps d.group with
    | none => none
    | some g =>
      match (List.range g.members.length).find? (fun r => (g.members.getD r (0, 0)).1 == ownCoord s) with
      | none => none
      | some r => some ⟨di, d, g, r⟩

def Member.m (k : Member) : Nat := k.g.members.length
def Member.coord (k : Member) (r : Nat) : Nat := (k.g.members.getD r (0, 0)).1
def Member.cOf (k : Member) (r : Nat) : Nat := (k.g.members.getD r (0, 0)).2
/-- The first logical contribution of a rank (R402). -/
def Member.base (k : Member) (r : Nat) : Nat := ((k.g.members.take r).map (·.2)).sum
/-- The numbers of a rank's contributions. -/
def Member.numbers (k : Member) (r : Nat) : List Nat := (List.range (k.cOf r)).map (k.base r + ·)

/-- The collective id (R407). -/
def collId (x : Ctx) (di seq : Nat) : Nat := di * 2 ^ 52 + seq * 2 ^ 36 + x.gate.attempt % 2 ^ 36
def idDesc (id : Nat) : Nat := id / 2 ^ 52
def idSeq (id : Nat) : Nat := id / 2 ^ 36 % 2 ^ 16
def isVote (id : Nat) : Bool := idSeq id == 0xFFFF
/-- The id belongs to the context's running attempt. -/
def idNow (x : Ctx) (id : Nat) : Bool := id % 2 ^ 36 == x.gate.attempt % 2 ^ 36

/-- The group digest (R403). -/
def digestOf (x : Ctx) (k : Member) : Nat :=
  leNat ((sha384 (k.g.toBytes k.d.group ++ if k.d.op = 6 then x.pol.watch.flatMap (fun w => w.2.host) else [])).take 8)

/-- The vote is named by the norm descriptor and has no data (R426). -/
def isNorm (k : Member) (id : Nat) : Bool := k.d.op == 6 && !isVote id

/-! ### The collectives of a context -/

def Coll.new (x : Ctx) (id : Nat) : Coll :=
  { id := id, epoch := x.gate.epoch, issued := none, notices := [], verdict := none, bodies := [], own := [], result := none,
    delivered := false, ended := none, ss := Ledger.empty, nf := false, count := 0, consumed := [], norm := none }

def getColl (x : Ctx) (id : Nat) : Option Coll := x.colls.find? fun k => k.id == id && k.epoch == x.gate.epoch
def collOr (x : Ctx) (id : Nat) : Coll := (getColl x id).getD (Coll.new x id)
def setColl (x : Ctx) (k : Coll) : Ctx :=
  { x with colls := (x.colls.filter fun q => !(q.id == k.id && q.epoch == k.epoch)) ++ [k] }
def modColl (s : State) (c id : Nat) (f : Coll → Coll) : State := modCtx s c fun x => setColl x (f (collOr x id))

/-- The hub whose engine gathers a collective and counts it: a free choice for each descriptor and sequence. The engine of a port's hub does
the share that the port carries (R20, R21). -/
def hubOf (id : Nat) : Nat := Config.collHub (id / 2 ^ 36) % 4

/-- Counts at the collective engine of a collective. -/
def countColl (s : State) (c id src n : Nat) : State := countEv s (pgColl (hubOf id)) src n (some c)

/-- Counts carried contributions that are dropped, each at its collective's engine. -/
def countDrops (s : State) (c : Nat) (l : List Carried) : State :=
  l.foldl (fun s y => countColl s c (y.desc * 2 ^ 52 + y.seq * 2 ^ 36) 0x104 1) s

/-- Flags of the collective engine: the issue carrel of the stream that issued the COLL, else the lowest carrel of the grant (R655). -/
def collFlags (s : State) (c : Nat) (x : Ctx) (k : Coll) (fl : Flags) : State :=
  let l := match k.issued, x.att with
    | some q, some a => (match a.streams[q.1]? with | some t => t.issue | none => x.ident.grant.headD 0)
    | _, _ => x.ident.grant.headD 0
  raiseOn s c l fl

/-- Ends a collective with a status, on its slot too (R229); `detail` is what a fault record of it names (R245). -/
def endCollAt (s : State) (c id : Nat) (st : Status) (detail : Nat) : State :=
  match getCtx s c with
  | none => s
  | some x =>
    let k := collOr x id
    if k.ended.isSome then s else
    let s0 := setCtx s c (setColl x { k with ended := some st })
    let s1 := if st == .epoison then eventRec s0 c st.code detail else s0
    let s2 := match k.issued with
      | some q => if idNow x id then modStream s1 c q.1 fun t => t.setSlot q.2.1 { t.slot q.2.1 with status := some st, detail := detail } else s1
      | none => s1
    if st == .ecollTimeout then countColl s2 c id 0x101 1 else if st == .success then countColl s2 c id 0x100 1 else s2

/-- Ends a collective with a status whose fault record names the collective. -/
def endColl (s : State) (c id : Nat) (st : Status) : State := endCollAt s c id st id

/-! ### Units that a collective copies -/

/-- A quire with its records as one number: 576 bytes, 128 record words, a bit for each poisoned atom and record, and, for a quire of a tensor
grouped along its rows, one more than the place of the row in it. -/
def unitOf (q : QMove) (place : Nat) : Nat × Bool :=
  let bad := (q.poison.map fun k => 2 ^ (k / 64)).sum + ((List.range q.recs.length).map fun k => b2n (q.recs.getD k (0, false)).2 * 2 ^ (9 + k)).sum
  (leNat (fit 576 q.b ++ fit 512 (q.recs.flatMap fun r => leBytes 4 r.1)) + 2 ^ 8704 * bad + 2 ^ 8841 * place, bad != 0)

def unitBad (v : Nat) : Nat := v / 2 ^ 8704 % 2 ^ 137
def unitPlace (v : Nat) : Nat := v / 2 ^ 8841
/-- A unit whose value the manual does not state: its bytes are free (log 127). -/
def unstated : Nat := 2 ^ 9000

/-- The quire `n` of a line with its records. -/
def quireUnit (s : State) (x : Ctx) (t : TRef) (i n place : Nat) : Option (Nat × Bool) :=
  match moveQuire false s x t t i n i n with
  | .error _ => none
  | .ok q => some (unitOf q place)

/-- Elements of a quire of a quire tensor. -/
def TRef.E (x : Ctx) (t : TRef) : Nat := quireElems (effective x t.e).1.f

/-- Units of one row, a poisoned element or cell as 0: element codes, 48-byte images, or quires: those of the row's line, or, of a tensor grouped
along its rows, of each column the one that holds the row. -/
def rowUnits (s : State) (x : Ctx) (t : TRef) (i : Nat) : List (Option (Nat × Bool)) :=
  match t.e.kind with
  | 1 =>
    if t.e.gaxis then (List.range t.e.cols).map fun j => quireUnit s x t j (i / t.E x) (1 + i % t.E x)
    else (List.range (ceilDiv t.e.cols (t.E x))).map fun n => quireUnit s x t i n 0
  | 2 => (List.range t.e.cols).map fun j => (readCell s x t i j).map fun q => (if q.2 then 0 else leNat q.1.image, q.2)
  | _ => (List.range t.e.cols).map fun j => (readCode s x t i j).map fun q => (if q.2 then 0 else q.1, q.2)

/-- Units in a row. -/
def unitCols (x : Ctx) (t : TRef) : Nat :=
  if t.e.kind = 1 ∧ !t.e.gaxis then ceilDiv t.e.cols (t.E x) else t.e.cols

/-- Writes one unit. A quire keeps all its 576 bytes (R120, R419); its records go to the slot of the place it is written to (log 126). Atoms
and records that were poisoned are written so; where a unit came out of a poisoned choice, all of it (R422). `i` is the row, or of a quire tensor
grouped along its rows the quire of column `j`. -/
def putUnit (s : State) (c : Nat) (x : Ctx) (t : TRef) (i j v : Nat) (poison : Bool) : State × Option XFault :=
  match t.e.kind with
  | 1 =>
    let b := leBytes 576 (v % 2 ^ 4608)
    let q := if t.e.gaxis then (j, i) else (i, j)
    let bad := unitBad v
    putQuire s c t ⟨q.1, q.2, b, ((List.range 9).filter fun k => bitOf bad k || (poison && bad == 0)).map (64 * ·),
      (List.range (min 128 (qCount b))).map fun k => (v / 2 ^ (4608 + 32 * k) % 2 ^ 32, bitOf bad (9 + k))⟩
  | 2 =>
    match writeCell s c t i j (Ledger.ofImage (leBytes 48 v)) with
    | none => (s, some ⟨.eaccess, 0, t.e.base + cellOff t.e i j⟩)
    | some s1 =>
      (if poison then [cellOff t.e i j, cellOff t.e i j + 39].foldl (fun s o =>
        match placeOf x t o true with | some p => setPoison s c p true | none => s) s1 else s1, none)
  | _ => putItems s c t [.put i j v poison]

/-- The quire of a column that rows of units make up: nothing where all its rows are unused; a quire where they are its rows, each in its place;
else not stated. -/
def joinRows (l : List (Nat × Nat)) : Nat :=
  let v := (l.headD (0, 0)).2 % 2 ^ 8841
  if l.all fun q => q.2 == 0 then 0
  else if l.all fun q => unitPlace q.2 == 1 + q.1 && q.2 % 2 ^ 8841 == v then v else unstated

/-- The units that rows of units are in a destination, with the poisoned ones. The quires of a quire tensor grouped along its rows hold parts of many
rows: a whole quire is copied where its rows come together in their places; where they do not, or where source and destination are grouped along
different axes, the manual states no result (DESIGN CHOICE, log 127). -/
def fitUnits (x : Ctx) (t : TRef) (codes poisoned : List Nat) : List Nat × List Nat :=
  if t.e.kind ≠ 1 then (codes, poisoned) else
  let w := codes.length / max 1 t.e.rows
  if t.e.gaxis then
    let row (j n : Nat) : List (Nat × Nat) := ((List.range (t.E x)).filter fun r => n * t.E x + r < t.e.rows).map fun r =>
      (r, if w = t.e.cols then codes.getD ((n * t.E x + r) * w + j) 0 else unstated)
    let units := (positions (ceilDiv t.e.rows (t.E x)) t.e.cols).map fun q => joinRows (row q.2 q.1)
    (units, (List.range units.length).filter fun k =>
      poisoned.any fun p => p / max 1 w / t.E x == k / max 1 t.e.cols && (w != t.e.cols || p % w == k % t.e.cols))
  else if codes.any fun v => unitPlace v != 0 && v != unstated then
    let units := (positions t.e.rows (unitCols x t)).map fun q => if ((codes.drop (q.1 * w)).take w).all (· == 0) then 0 else unstated
    (units, (List.range units.length).filter fun k => poisoned.any fun p => p / max 1 w == k / max 1 (unitCols x t))
  else (codes, poisoned)

/-- Writes units in row-major order; those the manual does not state take free bytes. -/
def putUnits (s : State) (c : Nat) (x : Ctx) (t : TRef) (codes : List Nat) (poisoned : List Nat) : State × Option XFault :=
  let w := unitCols x t
  if t.e.kind = 1 ∨ t.e.kind = 2 then
    let u := fitUnits x t codes poisoned
    let n := s.fresh
    let s1 := if u.1.contains unstated then n.2 else s
    eachPut (fun s k => putUnit s c x t (k / w) (k % w) (let v := u.1.getD k 0; if v = unstated then (Config.freeUnit n.1 k).toNat else v)
      (u.2.contains k)) s1 (List.range u.1.length)
  else putItems s c t ((List.range codes.length).map fun k => .put (k / w) (k % w) (codes.getD k 0) (poisoned.contains k))

/-- Tensors of equal formats (R408). A quantising view has no stored bytes, and no format that another tensor's equals. -/
def sameUnits (x : Ctx) (a b : TRef) : Bool :=
  (a.isPlain && b.isPlain && a.e.fmt == b.e.fmt) || (a.e.kind == 2 && b.e.kind == 2)
  || (a.e.kind == 1 && b.e.kind == 1 && (effective x a.e).1.fmt == (effective x b.e).1.fmt)

/-! ### Shapes (R408) -/

/-- First expert held by a rank, and the number it holds (R427). -/
def expertLo (E m r : Nat) : Nat := ceilDiv (r * E) m
def expertsOf (E m r : Nat) : Nat := expertLo E m (r + 1) - expertLo E m r

/-- The further tensors of a token op: call number and format. -/
def tokenCalls (d : Desc) : List (Nat × Fmt) :=
  if d.op = 7 then [(d.route, .int32), (d.slotmap, .int32)]
  else if d.op = 8 then [(d.route, .int32), (d.weight, .fp32), (d.slotmap, .int32)] else []

/-- Rows and columns of source and destination, and the formats' rule. -/
def shapeOf (x : Ctx) (k : Member) (u t : TRef) : (Nat × Nat) × (Nat × Nat) × Bool :=
  let c := k.cOf k.me; let n := u.e.cols
  let sumF := u.isFloat && t.isPlain && t.e.fmt == k.d.dfmt
  let redF := if k.d.redop ≤ 1 then sumF else if k.d.redop = 4 then u.isFmt .int32 && t.isFmt .int32 && n % 2 == 0
    else u.isFmt .fp32 && t.isFmt .fp32
  let eq := sameUnits x u t
  let er := expertsOf k.d.experts k.m k.me * k.d.cap
  match k.d.op with
  | 0 => ((c, n), (1, n), redF)
  | 6 => ((c, n), (1, n), sumF)
  | 1 => ((c, n), (1, ownLo n k.m (k.me + 1) - ownLo n k.m k.me), redF)
  | 2 => ((c, n), (k.g.total, n), eq)
  | 3 => ((1, n), (1, n), eq)
  | 4 => ((k.m, n), (k.m, n), eq)
  | 7 => ((c * k.d.tokens, n), (er, n), eq)
  | 8 => ((er, n), (c * k.d.tokens, n), eq)
  | _ => ((0, 0), (0, 0), true)

/-- The shapes, then the formats, in the order R408 names them (log 40). -/
def collChecks (x : Ctx) (k : Member) : List TRef → List (Bool × XFault)
  | u :: t :: more =>
    let sh := shapeOf x k u t
    let src := k.d.op != 3 || k.me == k.d.root
    let toks := tokenCalls k.d
    [(!src || (u.e.rows == sh.1.1 && u.e.cols == sh.1.2), ⟨.ebound, 0, u.call⟩),
        (t.e.rows == sh.2.1.1 && t.e.cols == (if src then sh.2.1.2 else t.e.cols), ⟨.ebound, 0, t.call⟩)]
    ++ (more.map fun q => (q.e.rows == k.cOf k.me * k.d.tokens && q.e.cols == k.d.slots, (⟨.ebound, 0, q.call⟩ : XFault)))
    ++ [(sh.2.2, eargF)]
    ++ ((List.zip more toks).map fun q => (q.1.isFmt q.2.2, eargF))
  | _ => []

/-! ### The member's own contributions -/

/-- Units with their poisoned positions; none where one cannot be read. -/
def gather (l : List (Option (Nat × Bool))) : Option (List Nat × List Nat) :=
  if l.any Option.isNone then none else
  let v := l.filterMap id
  some (v.map (·.1), (List.range v.length).filter fun k => (v.getD k (0, false)).2)

/-- FP32 codes of a source row; a poisoned element stands as 0 and its result is poisoned (R422). The member that converts a NaN raises NV for
it when the sum is formed (`convFlags`). -/
def toFp32 (f : Fmt) (l : List Nat) : List Nat := l.map fun v => (convertCode f .fp32 .rne 0 v).1

/-- The first address of a tensor whose translation is refused. -/
def refusedAt (x : Ctx) (t : TRef) : Option Nat := ((List.range t.e.span).find? fun k => (placeOf x t k false).isNone).map (t.e.base + ·)

/-- What the member puts into the collective: contribution, codes, poisoned positions (R402, R408, R427). -/
def ownBodies (s : State) (x : Ctx) (k : Member) (u : TRef) : Option (List (Nat × List Nat × List Nat)) :=
  let b := k.base k.me
  let one (n : Nat) (l : List (Option (Nat × Bool))) : Option (Nat × List Nat × List Nat) := (gather l).map fun q => (n, q.1, q.2)
  let all (l : List (Option (Nat × List Nat × List Nat))) : Option (List (Nat × List Nat × List Nat)) :=
    if l.any Option.isNone then none else some (l.filterMap id)
  match k.d.op with
  | 3 => if k.me = k.d.root then all [one b (rowUnits s x u 0)] else some []
  | 4 | 8 => all [one b ((List.range u.e.rows).flatMap (rowUnits s x u))]
  | 5 => some []
  | 7 =>
    match tensor x k.d.route with
    | none => none
    | some r => all ((List.range (k.cOf k.me)).map fun j =>
        let ts := (List.range k.d.tokens).map (j * k.d.tokens + ·)
        one (b + j) (ts.flatMap (rowUnits s x r) ++ ts.flatMap (rowUnits s x u)))
  | 2 => all ((List.range (k.cOf k.me)).map fun j => one (b + j) (rowUnits s x u j))
  | _ =>
    (all ((List.range (k.cOf k.me)).map fun j => one (b + j) (rowUnits s x u j))).map fun l =>
      if u.isFloat then l.map fun q => (q.1, toFp32 u.fmt q.2.1, q.2.2) else l

/-- A message to every other member, of the engine that gathers the collective. -/
def toOthers (s : State) (x : Ctx) (k : Member) (kind id : Nat) (b : Bytes) : State :=
  ((List.range k.m).filter (· != k.me)).foldl (fun s r => post s x.ident.job (k.coord r) kind id b (hubOf id)) s

/-- The sums and means: their data goes as lanes or coded blocks, never as rows. -/
def Member.sums (k : Member) : Bool := [0, 1, 6].contains k.d.op && k.d.redop ≤ 1
/-- The message kind of a collective's data (R438). -/
def Member.dataKind (k : Member) : Nat := if k.d.op = 7 ∨ k.d.op = 8 then 6 else 5

/-- The body of rows as they go to the other members: epoch, contribution, whether it is carried, its poisoned places, its units (log 147). -/
def rowBody (epoch n : Nat) (carried : Bool) (codes poisoned : List Nat) : Bytes :=
  leBytes 4 epoch ++ leBytes 4 n ++ leBytes 1 (b2n carried) ++ leBytes 4 poisoned.length ++ poisoned.flatMap (leBytes 4)
  ++ codes.flatMap fun v => let l := Nat.log2 v / 8 + 1; leBytes 2 l ++ leBytes l v

/-- A row of this member enters a collective: recorded for the other members, and sent to them where the collective does not sum. -/
def sendRow (s : State) (x : Ctx) (k : Member) (q : Coll) (n : Nat) (carried : Bool) (codes poisoned : List Nat) : State :=
  (if k.sums then s else toOthers s x k k.dataKind q.id (rowBody q.epoch n carried codes poisoned)).emit
    (.collMsg ⟨q.id, q.epoch, k.me, .rows n carried codes poisoned⟩)

/-- Sends the member's rows and its carried rows to the others (R421, R431). -/
def sendBodies (s : State) (x : Ctx) (k : Member) (q : Coll) : State :=
  let s1 := q.own.foldl (fun s o => sendRow s x k q o.1 false o.2.1 o.2.2) s
  (x.gate.carry.filter fun y => y.desc == k.di && y.seq == idSeq q.id && !y.fresh && !y.used).foldl
    (fun s y => sendRow s x k q y.contribution true y.row y.poison) s1

/-! ### Notices (R409, R410) -/

def addNotice (q : Coll) (n : Notice) : Coll := if q.notices.any (·.rank == n.rank) then q else { q with notices := q.notices ++ [n] }

/-- The member's notice goes to the root, rank 0, as a message of kind 4. -/
def sendNotice (s : State) (c : Nat) (k : Member) (n : Notice) : State :=
  if k.me = 0 then modColl s c n.id (addNotice · n) else
  match getCtx s c with
  | none => s
  | some x => (post s x.ident.job (k.coord 0) 4 n.id (noticeBytes n) (hubOf n.id)).emit (.notice (k.coord 0) (noticeBytes n))

def noticeFor (s : State) (x : Ctx) (k : Member) (id : Nat) (fl un : Bool) : Notice :=
  { id := id, epoch := x.gate.epoch, rank := k.me, fl := fl, un := un, time := s.now, digest := digestOf x k }

/-! ### The norm contribution (R360, R361, R424) -/

/-- The loss tensor's state: none where it is poisoned; a loss that cannot be read counts as non-finite (log 14). -/
def lossState (s : State) (x : Ctx) (j : Job) : Option Bool :=
  if j.loss = 0 then some false else
  match tensor x j.loss with
  | none => some true
  | some t =>
    match readCode s x t 0 0 with
    | none => some true
    | some (_, true) => none
    | some (v, false) => some (!(v32 v).isFin)

/-- The scale-gradient cells of every sg group, as images. -/
def sgCells (s : State) (x : Ctx) : List Bytes :=
  x.pol.groups.flatMap fun g =>
    if !g.2.sg then [] else
    match tensor x g.2.grad with
    | none => []
    | some t => (positions t.e.rows t.e.cols).map fun q => ((readCell s x t q.1 q.2).map (·.1.image)).getD Ledger.empty.image

/-- What a member captures at its notice; ss and count join when the data phase has ended. -/
def captureItem (s : State) (x : Ctx) (a : Attempt) (fl lossBad : Bool) : NormItem :=
  let b := watchBlock x a.acc
  { ss := Ledger.empty.image, fl := fl, nf := lossBad, ws := ownWs x b, count := 0, block := b, cells := sgCells s x }

/-! ### Deferral (R420) -/

/-- Bytes of a context's carry region. -/
def carryBytes (x : Ctx) : Nat := (x.gate.carry.map fun y => 4 * y.row.length).sum
def carryFrames (x : Ctx) : Nat := ceilDiv (carryBytes x) frameBytes

/-- Volume regions held against the quota: two slots where the policy keeps them, a snapshot, and a partner's two slots (R492, R495,
R500). -/
def volFrames (x : Ctx) : Nat :=
  ceilDiv x.vols.sized frameBytes * ((if x.pol.vol.copy then 2 else 0) + (if x.vols.target = 1 then 2 else 0))
  + (if x.vols.snapshot.isSome then x.vols.snapFrames else 0)

/-- HBM frames counted against the quota (R420, R492, R495, R566). -/
def usedFrames (s : State) (c : Nat) (x : Ctx) : Nat := heldFrames s c + carryFrames x + volFrames x

/-- The members are told that a deferral of this member did not fit and is dropped, so that all of them record it (R420, R477; log 131). -/
def tellDropped (s : State) (x : Ctx) (k : Member) (id n : Nat) : State :=
  (toOthers s x k 5 id (rowBody x.gate.epoch n true [] [])).emit (.collMsg ⟨id, x.gate.epoch, k.me, .rows n true [] []⟩)

/-- A deferral of the running attempt did not fit. -/
def Gate.noRoom (g : Gate) (di seq n : Nat) : Gate :=
  { g with owed := g.owed.map fun y => if y.desc = di ∧ y.seq = seq ∧ y.contribution = n ∧ y.fresh = true then { y with lost := true } else y }

/-- None of the member's deferrals fits. -/
def dropOwn (s : State) (c : Nat) (x : Ctx) (k : Member) (id : Nat) (l : List Nat) : State :=
  l.foldl (fun s n => tellDropped s x k id n)
    (setCtx s c { x with gate := l.foldl (fun g n => g.noRoom k.di (idSeq id) n) x.gate })

/-- Defers or drops the member's rows of a collective whose verdict excluded it: all of them where the source does not fit; a row whose earlier
deferral under the descriptor no commit has spent is dropped (R376). Poison goes with a row (R304). The watch block goes with the first row, so
that it is combined once (R424). -/
def deferOwn (s : State) (c : Nat) (k : Member) (id : Nat) : State :=
  match getCtx s c with
  | none => s
  | some x =>
    let q := collOr x id
    if !k.d.carry then countColl s c id 0x104 q.own.length else
    let it := match x.att with | some a => if k.d.op = 6 then a.item else none | none => none
    let rec_ (q : (Nat × List Nat × List Nat) × Nat) : Carried :=
      let o := q.1
      { desc := k.di, seq := idSeq id, contribution := o.1, fl := (it.map (·.fl)).getD false,
        nf := (it.map (·.nf)).getD false, ws := (it.map (·.ws)).getD false, lossBad := (it.map (·.nf)).getD false,
        block := if q.2 = 0 then (it.map (·.block)).getD (zeroBlock x) else zeroBlock x, row := o.2.1, poison := o.2.2, fresh := true, used := false }
    let new := q.own.filter fun o => !x.gate.carry.any fun z => z.desc == k.di && z.contribution == o.1
    let x1 := { x with gate := { x.gate with carry := x.gate.carry ++ new.zipIdx.map rec_ } }
    if x.ident.frames < usedFrames s c x1 then countColl (dropOwn s c x k id (new.map (·.1))) c id 0x104 q.own.length else
    countColl (countColl (setCtx s c x1) c id 0x104 (q.own.length - new.length)) c id 0x103 new.length

/-! ### Verdicts (R410, R412) -/

/-- The members a verdict leaves out. -/
def excludedRanks (k : Member) (v : Verdict) : List Nat := (List.range k.m).filter fun r => !v.included.contains r

/-- The outcome at a moment, if the root issues its verdict then (R410, R485). -/
def verdictNow (k : Member) (q : Coll) (t : Nat) (refOut : Option (List Nat)) : Option Verdict :=
  let left (r : Nat) : Bool := match refOut with | some l => (k.numbers r).any l.contains | none => false
  let want := (List.range k.m).filter fun r => !left r
  let n := q.notices.filter fun p => !left p.rank
  match n with
  | [] => none
  | n0 :: _ =>
    let T := n.foldl (fun a p => min a p.time) n0.time
    let differ := q.notices.any fun p => p.digest != n0.digest
    let orFl := n.any (·.fl)
    let late := k.d.late && !isVote q.id
    let failing := (k.d.op == 6 || isVote q.id) && orFl
    let have_ := want.filter fun r => n.any (·.rank == r)
    let full := have_.length == want.length
    let due := T + k.d.deadlineNs ≤ t
    if !(differ || failing || full || due) then none else
    let inc := if refOut.isSome then have_ else (List.range k.m).filter fun r => n.any (·.rank == r)
    let all := inc.length == k.m
    let out : VOutcome := if differ then .group else if failing then .failed
      else if all then .go else if late && !inc.isEmpty && (refOut.isNone || full) then .partialGo else .timeout
    let ex := ((List.range k.m).filter fun r => !inc.contains r).map k.cOf
    some { id := q.id, epoch := q.epoch, outcome := out, fl := orFl, un := n.any (·.un), included := inc,
           deferred := if out == .partialGo && k.d.carry then ex.sum else 0,
           dropped := if out == .partialGo && !k.d.carry then ex.sum else 0 }

/-- The job's deferrals that a partial verdict adds: the numbers of the excluded members, but for those that an earlier deferral under the
descriptor still holds (R420). -/
def oweNew (l : List Owed) (k : Member) (v : Verdict) : List Owed :=
  if v.outcome != .partialGo || !k.d.carry then [] else
  (((excludedRanks k v).flatMap k.numbers).filter fun n => !l.any fun y => y.desc == k.di && y.contribution == n).map
    fun n => ⟨k.di, idSeq v.id, n, true, false, false⟩

def oweVerdict (k : Member) (v : Verdict) (x : Ctx) : Ctx := { x with gate := { x.gate with owed := x.gate.owed ++ oweNew x.gate.owed k v } }

/-- What an abort does on a member that the collective is under way on, whatever its verdict was (R430). -/
def takeAbort (s : State) (c : Nat) (x : Ctx) (q : Coll) (v : Verdict) : State :=
  if q.ended.isSome then s else endColl (setCtx s c (setColl x { q with verdict := some v, result := none })) c v.id .eepoch

def failedNorm : NormResult := ⟨true, false, false, Ledger.empty, 0, false, []⟩

/-- A verdict takes effect on a member. -/
def takeVerdict (s : State) (c : Nat) (v : Verdict) : State :=
  match getCtx s c with
  | none => s
  | some x =>
    match memberOf s x (idDesc v.id) with
    | none => s
    | some k =>
      let q := collOr x v.id
      if q.verdict.isSome then (if v.outcome == .abort && !isVote v.id then takeAbort s c x q v else s) else
      let s1 := setCtx s c (setColl (oweVerdict k v x) { q with verdict := some v, norm := if v.outcome == .failed && isNorm k v.id then some failedNorm else q.norm })
      if isVote v.id then s1 else
      match v.outcome with
      | .group => endColl s1 c v.id .ecollGroup
      | .timeout => endColl s1 c v.id .ecollTimeout
      | .abort => endColl s1 c v.id .eepoch
      | .failed => endColl s1 c v.id .success
      | _ =>
        if k.d.op = 5 then endColl s1 c v.id .success
        else if v.included.contains k.me then sendBodies s1 x k q
        else if q.issued.isSome then deferOwn s1 c k v.id else s1

/-- Older epochs are discarded and counted, higher ones held (R431). -/
def epochGate (s : State) (c id epoch : Nat) (now hold : Ctx → State) : State :=
  match getCtx s c with
  | none => s
  | some x =>
    if epoch < x.gate.epoch then countColl s c id 0x102 1
    else if x.gate.epoch < epoch then hold x
    else now x

/-- A notice reaches the root. -/
def noticeIn (s : State) (c : Nat) (n : Notice) : State :=
  epochGate s c n.id n.epoch
    (fun x => match memberOf s x (idDesc n.id) with
      | some k => if k.me = 0 then setCtx s c (setColl x (addNotice (collOr x n.id) n)) else s
      | none => s)
    (fun x => setCtx s c { x with heldNotices := x.heldNotices ++ [n] })

def execCollNoticeReceive (c : Nat) (n : Notice) (s : State) : Outc := .next (noticeIn s c n)

/-- A verdict reaches a member. -/
def verdictIn (s : State) (c : Nat) (v : Verdict) : State :=
  epochGate s c v.id v.epoch (fun _ => takeVerdict s c v)
    (fun x => setCtx s c { x with heldVerdicts := x.heldVerdicts ++ [v] })

/-- A data message takes effect: a carried contribution without a row says that its deferral did not fit. -/
def takeMessage (x : Ctx) (m : CollMsg) : Ctx :=
  let keep : Ctx := let q := collOr x m.id
    setColl x (if q.bodies.contains m then q else { q with bodies := q.bodies ++ [m] })
  match m.body with
  | .rows n true [] _ => { x with gate := x.gate.noRoom (idDesc m.id) (idSeq m.id) n }
  | _ => keep

/-- A data message reaches a member. -/
def messageIn (s : State) (c : Nat) (m : CollMsg) : State :=
  epochGate s c m.id m.epoch (fun x => setCtx s c (takeMessage x m))
    (fun x => setCtx s c { x with heldMsgs := x.heldMsgs ++ [m] })

def execCollMessageReceive (c : Nat) (m : CollMsg) (s : State) : Outc := .next (messageIn s c m)

/-- Verdict and abort as messages of kind 4; byte 15, 0 in a notice, tells them apart (log 147). -/
def verdictBytes (k : Member) (v : Verdict) : Bytes :=
  let out : Nat := match v.outcome with | .group => 0 | .failed => 1 | .go => 2 | .partialGo => 3 | .timeout => 4 | .abort => 5
  leBytes 8 v.id ++ leBytes 4 v.epoch ++ leBytes 1 out ++ zeros 1 ++ leBytes 1 (b2n v.fl + 2 * b2n v.un) ++ leBytes 1 1 ++ leBytes 4 v.deferred
  ++ leBytes 4 v.dropped ++ leBytes (ceilDiv k.m 8) ((v.included.map fun r => 2 ^ r).sum)
def abortBytes (id epoch : Nat) : Bytes := leBytes 8 id ++ leBytes 4 epoch ++ zeros 3 ++ leBytes 1 2

/-- The root floods its verdict to every member (R410). -/
def floodVerdict (s : State) (x : Ctx) (k : Member) (v : Verdict) : State := (toOthers s x k 4 v.id (verdictBytes k v)).emit (.verdict v)

/-- An epoch abort at the root is flooded, and ends the collective everywhere (R430). -/
def abortColl (s : State) (c id : Nat) : State :=
  match getCtx s c with
  | none => s
  | some x =>
    match memberOf s x (idDesc id) with
    | none => s
    | some k =>
      let q := collOr x id
      if k.me != 0 then (post s x.ident.job (k.coord 0) 4 id (abortBytes id x.gate.epoch) (hubOf id)).emit (.abortMsg id x.gate.epoch) else
      if q.ended.isSome then s else
      let v : Verdict := { id := id, epoch := x.gate.epoch, outcome := .abort, fl := false, un := false, included := [], deferred := 0, dropped := 0 }
      takeAbort (floodVerdict s x k v) c x q v

/-- An epoch abort reaches the root. -/
def abortIn (s : State) (c id epoch : Nat) : State :=
  epochGate s c id epoch (fun x => match memberOf s x (idDesc id) with | some k => if k.me = 0 then abortColl s c id else s | none => s)
    fun x => setCtx s c { x with heldAborts := x.heldAborts ++ [(id, epoch)] }

/-- After a change of epoch, what was held is taken again: this epoch's messages take effect, later ones stay held (R431). -/
def releaseHeld (s : State) (c : Nat) : State :=
  match getCtx s c with
  | none => s
  | some x =>
    let s0 := setCtx s c { x with heldNotices := [], heldVerdicts := [], heldMsgs := [], heldAborts := [] }
    let s1 := x.heldNotices.foldl (fun s n => noticeIn s c n) s0
    let s2 := x.heldVerdicts.foldl (fun s v => verdictIn s c v) s1
    let s3 := x.heldMsgs.foldl (fun s m => messageIn s c m) s2
    x.heldAborts.foldl (fun s a => abortIn s c a.1 a.2) s3

/-! ### PAUSE (R545) -/

def opPause : Nat := 0x08

/-- Completes the PAUSEs that wait: with success where the context is PAUSED, otherwise the context has ended another way (log 20). -/
def completePauses (s : State) (c : Nat) : State :=
  match getCtx s c with
  | none => s
  | some x =>
    let st : Status := if x.ident.st == .paused then .success else .eaborted
    (x.cmds.filter fun k => k.started && k.opcode == opPause).foldl (fun s k => complete s k.q k.cid st 0) s

/-! ### RESHARD (R430, R550) -/

/-- A collective of the member's epoch that is under way here: issued and not ended, or in the data or control phase of a go verdict. -/
def Coll.running (q : Coll) : Bool :=
  q.ended.isNone && !isVote q.id
  && (q.issued.isSome || (match q.verdict with | some v => v.outcome == .go || v.outcome == .partialGo | none => false))

/-- RESHARD waits for the RUN_STEP, phase G included, and a complete one for every collective of the old epoch (R430). -/
def reshardWaits (x : Ctx) (abort : Bool) : Bool :=
  x.run.isSome || x.att.isSome || (!abort && x.colls.any fun q => q.epoch == x.gate.epoch && q.running)

/-- A contribution record before it is formed: descriptor, sequence, logical contribution, action (R479). -/
abbrev CRec := Nat × Nat × Nat × Nat

def crecLt (a b : CRec) : Bool :=
  a.1 < b.1 || (a.1 == b.1 && (a.2.1 < b.2.1 || (a.2.1 == b.2.1 && a.2.2.1 < b.2.2.1)))
def insertCRec (r : CRec) : List CRec → List CRec
  | [] => [r]
  | a :: l => if crecLt r a then r :: a :: l else a :: insertCRec r l

/-- Contribution records in ascending order of descriptor, sequence and logical contribution (R480). -/
def formCRecs (l : List CRec) : List TRec :=
  (l.foldl (fun acc r => insertCRec r acc) []).map fun r =>
    ⟨4, false, leBytes 2 r.1 ++ leBytes 2 r.2.1 ++ leBytes 4 r.2.2.1 ++ leBytes 1 r.2.2.2 ++ zeros 7⟩

/-- The drops of a RESHARD: the job's carry set, which every member knows (R430, R477). -/
def reshardRecs (x : Ctx) : List TRec := formCRecs (x.gate.owed.map fun y => (y.desc, y.seq, y.contribution, 1))

/-- Drops every carried contribution, counting and recording each, raises the epoch, and leaves the context PAUSED. -/
def reshardNow (s : State) (c : Nat) : State :=
  match getCtx s c with
  | none => s
  | some x =>
    match x.reshard with
    | none => s
    | some r =>
      if reshardWaits x r.2.2 then s else
      let e := (x.gate.epoch + 1) % 2 ^ 32
      let y := { x with reshard := none, gate := { x.gate with epoch := e, carry := [], owed := [] },
                        ident := { x.ident with reshardOpen := true,
                                                st := if x.ident.st = .running ∨ x.ident.st = .ready then .paused else x.ident.st } }
      let s1 := (reshardRecs x).foldl (fun s r => addRec s c r) (countDrops (setCtx s c y) c x.gate.carry)
      completePauses (complete (releaseHeld s1 c) r.1 r.2.1 .success e) c

/-! ### Verdicts and aborts as they come (R410, R412, R430) -/

def execCollVerdict (c id t : Nat) (s : State) : Outc :=
  let s := s.at t
  match getCtx s c with
  | none => .next s
  | some x =>
    match memberOf s x (idDesc id), getColl x id with
    | some k, some q =>
      if k.me != 0 || q.verdict.isSome then .next s else
      let ref := if x.pol.mode.replay && k.d.late then some (refExcluded s x (idDesc id) (idSeq id)) else none
      match verdictNow k q s.now ref with
      | none => .next s
      | some v => .next (reshardNow (takeVerdict (floodVerdict s x k v) c v) c)
    | _, _ => .next s

def execCollVerdictReceive (c : Nat) (v : Verdict) (s : State) : Outc := .next (reshardNow (verdictIn s c v) c)

def execEpochAbort (c id epoch : Nat) (s : State) : Outc := .next (reshardNow (abortIn s c id epoch) c)

/-! ### Token exchange (R427–R429) -/

/-- The expert of a routing word; none for an unused or invalid slot. -/
def expertOf (E v : Nat) : Option Nat := let i := sext 32 v; if 0 ≤ i ∧ i < (E : Int) then some i.toNat else none
def routeInvalid (E v : Nat) : Bool := (expertOf E v).isNone && sext 32 v != -1

/-- Every assignment in logical order: contribution, token, slot, expert. -/
def assignments (d : Desc) (l : List Contribution) : List (Nat × Nat × Nat × Nat) :=
  (sortC l).flatMap fun c =>
    (positions d.tokens d.slots).filterMap fun q =>
      (expertOf d.experts (c.codes.getD (q.1 * d.slots + q.2) 0xFFFFFFFF)).map fun e => (c.k, q.1, q.2, e)

/-- Places assignments in their experts' blocks up to the capacity: the assignment and its row, kept ones first come. -/
def placeTokens (cap : Nat) : List (Nat × Nat × Nat × Nat) → Tab Nat → List ((Nat × Nat × Nat × Nat) × Option Nat)
  | [], _ => []
  | a :: r, t =>
    let n := tgetD t a.2.2.2 0
    (a, if n < cap then some n else none) :: placeTokens cap r (tset t a.2.2.2 (n + 1))

/-- A routing word is poisoned: it reaches every row of every expert and every slot map, since the place of each assignment depends on those
before it (R422; DESIGN CHOICE, log 127). -/
def routesBad (k : Member) (l : List Contribution) : Bool := l.any fun c => c.poisoned.any (· < k.d.tokens * k.d.slots)

/-- The destination units of a dispatch on this member, with poisoned positions. -/
def dispatchResult (k : Member) (l : List Contribution) (w : Nat) : List Nat × List Nat :=
  let pl := placeTokens k.d.cap (assignments k.d l) []
  let lo := expertLo k.d.experts k.m k.me
  let rows := (positions (expertsOf k.d.experts k.m k.me) k.d.cap).map fun q =>
    match pl.find? (fun p => p.1.2.2.2 == lo + q.1 && p.2 == some q.2) with
    | none => (List.replicate w 0, List.replicate w false)
    | some p =>
      match l.find? (fun (c : Contribution) => c.k == p.1.1) with
      | none => (List.replicate w 0, List.replicate w false)
      | some c =>
        let o := k.d.tokens * k.d.slots + p.1.2.1 * w
        ((List.range w).map fun j => c.codes.getD (o + j) 0, (List.range w).map fun j => c.poisoned.contains (o + j))
  let fl := rows.flatMap (·.2)
  (rows.flatMap (·.1), (List.range fl.length).filter fun n => fl.getD n false || routesBad k l)

/-- The member's slot map: a row index, or −1 (R428). -/
def slotMap (k : Member) (l : List Contribution) : List Nat :=
  let pl := placeTokens k.d.cap (assignments k.d l) []
  (k.numbers k.me).flatMap fun n => (positions k.d.tokens k.d.slots).map fun q =>
    match pl.find? (fun p => p.1.1 == n && p.1.2.1 == q.1 && p.1.2.2.1 == q.2) with
    | some (_, some r) => r
    | _ => 0xFFFFFFFF

/-- The token tensors of a combine that this member reads: a word that cannot be read ends its COLL (R241). -/
def tokenFault (s : State) (x : Ctx) (k : Member) : Option XFault :=
  firstError ((tokenCalls k.d).flatMap fun q =>
    match tensor x q.1 with
    | none => []
    | some t => (positions t.e.rows t.e.cols).map fun p =>
        match readCode s x t p.1 p.2 with | some v => (.ok v : Except XFault (Nat × Bool)) | none => .error ⟨.eaccess, 0, addrOf x t p.1 p.2⟩)

/-- One output element of a combine (R429): code in the destination format, flags, poison. A poisoned word of a token tensor reaches the row. -/
def combineElem (s : State) (x : Ctx) (k : Member) (l : List Contribution) (f : Fmt) (w row col : Nat) : Nat × Flags × Bool :=
  let tens (cn : Nat) (j : Nat) : Nat × Bool := match tensor x cn with | some t => (readCode s x t row j).getD (0, false) | none => (0, false)
  let r := (List.range k.d.slots).foldl (fun (a : Nat × Flags × Bool) j =>
    let e := expertOf k.d.experts (tens k.d.route j).1
    let i := sext 32 (tens k.d.slotmap j).1
    if (tens k.d.route j).2 || (tens k.d.slotmap j).2 then (a.1, a.2.1, true) else
    match e with
    | none => a
    | some e =>
      if i < 0 then a else
      let h := e * k.m / k.d.experts
      match l.find? (fun (c : Contribution) => c.rank == h) with
      | none => a
      | some c =>
        let o := ((e - expertLo k.d.experts k.m h) * k.d.cap + i.toNat) * w + col
        let wt := tens k.d.weight j
        let p := roundTo .fp32 ((v32 wt.1).mul (decode f (c.codes.getD o 0)))
        let t := add32 a.1 p.1
        (t.1, ((a.2.1.or (consumeFlags f (c.codes.getD o 0))).or p.2).or t.2, a.2.2 || c.poisoned.contains o || wt.2)) (0, Flags.none, false)
  let q := convertCode .fp32 f .rne 0 r.1
  (q.1, r.2.1.or q.2, r.2.2)

def combineResult (s : State) (x : Ctx) (k : Member) (l : List Contribution) (t : TRef) : List Nat × List Nat × Flags :=
  let out := (positions (k.cOf k.me * k.d.tokens) t.e.cols).map fun q => combineElem s x k l t.fmt t.e.cols q.1 q.2
  (out.map (·.1), (List.range out.length).filter (fun n => (out.getD n (0, Flags.none, false)).2.2), out.foldl (fun a q => a.or q.2.1) Flags.none)

/-! ### The data phase (R411–R424) -/

/-- Bodies of one rank, as contributions. -/
def bodiesOf (q : Coll) (r : Nat) : List Contribution :=
  q.bodies.filterMap fun b => match b.body with
    | .rows n ca cs ps => if b.rank = r ∧ !(ca && cs.isEmpty) then some ⟨n, r, ca, cs, ps⟩ else none
    | .control _ => none

/-- The contributions a rank must have sent. -/
def needed (k : Member) (r : Nat) : List Nat :=
  match k.d.op with
  | 3 => if r = k.d.root then [k.base r] else []
  | 4 | 8 => [k.base r]
  | 5 => []
  | _ => k.numbers r

/-- Everything that enters the collective, once it is all there. -/
def contributions (x : Ctx) (k : Member) (q : Coll) (v : Verdict) : Option (List Contribution) :=
  let mine := (q.own.map fun o => (⟨o.1, k.me, false, o.2.1, o.2.2⟩ : Contribution))
    ++ (x.gate.carry.filter fun y => y.desc == k.di && y.seq == idSeq q.id && !y.fresh && !y.used).map
        fun y => ⟨y.contribution, k.me, true, y.row, y.poison⟩
  let rows := v.included.map fun r => (r, if r = k.me then mine else bodiesOf q r)
  if rows.all (fun p => (needed k p.1).all fun n => p.2.any fun (c : Contribution) => c.k == n && !c.carried) then some (rows.flatMap (·.2)) else none

def sumCtx (k : Member) (count : Nat) : SumCtx :=
  { m := k.m, me := k.me, coords := (List.range k.m).map k.coord, dfmt := (Fmt.ofCode k.d.dfmt).getD .fp32, mean := k.d.redop == 1,
    count := count, scatter := k.d.op == 1 }

/-- The narrowing of a descriptor's transit. -/
def narrowOf (x : Ctx) (k : Member) : Narrow := ⟨k.d.transit, (RM.ofCode k.d.round).getD .rne, x.ident.seed, x.gate.step⟩

/-- The delivered vector of a reducing collective, whole (R413–R418). -/
def reduceAll (x : Ctx) (k : Member) (n : Nat) (l : List Contribution) : Vec :=
  let q := sumCtx k l.length
  match k.d.redop with
  | 2 => sumExtreme q true n l
  | 3 => sumExtreme q false n l
  | 4 => sumArgmax q n l
  | _ =>
    if k.d.transit = 4 ∨ x.verbatim = true then sumExact q n l
    else sumThroughput q (narrowOf x k) n l

/-- What a collective delivers on a member: units and poisoned positions of its destination, the whole reduced vector, flags. -/
structure Delivery where
  codes : List Nat
  poisoned : List Nat
  whole : List Nat
  n : Nat
  flags : Flags
deriving DecidableEq, Repr

/-- What the contributions deliver; the manual states no result for a combine of quires or ledger cells (log 127). -/
def deliveryOf (s : State) (x : Ctx) (k : Member) (q : Coll) (l : List Contribution) : Delivery :=
  let width := match l with | c :: _ => c.codes.length | [] => 0
  let copy (cs : List Contribution) : Delivery :=
    let codes := cs.flatMap (·.codes)
    let ps := cs.flatMap fun c => (List.range c.codes.length).map fun i => c.poisoned.contains i
    ⟨codes, (List.range ps.length).filter (fun i => ps.getD i false), [], 0, Flags.none⟩
  match k.d.op with
  | 2 | 3 => copy (sortC l)
  | 4 =>
    let w := width / k.m
    copy ((sortC l).map fun c => { c with codes := (c.codes.drop (k.me * w)).take w,
                                          poisoned := (c.poisoned.filter fun i => i / w == k.me).map (· % w) })
  | 7 =>
    let w := (width - k.d.tokens * k.d.slots) / k.d.tokens
    let r := dispatchResult k l w
    ⟨r.1, r.2, [], 0, Flags.none⟩
  | 8 =>
    match q.issued with
    | none => ⟨[], [], [], 0, Flags.none⟩
    | some i => match tensor x i.2.2.2.2 with
      | none => ⟨[], [], [], 0, Flags.none⟩
      | some t =>
        if t.isPlain then (let r := combineResult s x k l t; ⟨r.1, r.2.1, [], 0, r.2.2⟩) else
        let n := t.e.rows * unitCols x t
        ⟨List.replicate n unstated, if l.any fun c => !c.poisoned.isEmpty then List.range n else [], [], 0, Flags.none⟩
  | _ =>
    let n := if k.d.redop = 4 then width / 2 else width
    let r := reduceAll x k n l
    let per := if k.d.redop = 4 then 2 else 1
    let bad := (List.range r.1.length).filter fun e => l.any fun c => (List.range per).any fun j => c.poisoned.contains (e / per * per + j)
    if k.d.op = 1 then
      let a := ownLo n k.m k.me; let b := ownLo n k.m (k.me + 1)
      ⟨(r.1.drop a).take (b - a), (bad.filter fun e => a ≤ e && e < b).map (· - a), r.1, n, r.2⟩
    else ⟨r.1, bad, r.1, n, r.2⟩

/-- The NV of the NaNs that the member's conversion of its own rows to FP32 consumed (R42, R414); in the exact protocol the alignment raises it. -/
def convFlags (x : Ctx) (k : Member) (q : Coll) : Flags :=
  match q.issued with
  | none => Flags.none
  | some i =>
    match tensor x i.2.2.2.1 with
    | none => Flags.none
    | some u => Flags.when (k.d.redop ≤ 1 && u.isFloat && u.fmt != .fp32 && q.own.any fun o => o.2.1.any fun v => (v32 v).isNan) .NV

/-- The member's share of the norm in a normed collective: ledger, non-finite, count (R423), and the flags of its products and sums (R63). -/
def normShare (k : Member) (d : Delivery) : Ledger × Bool × Nat × Flags :=
  let f := (Fmt.ofCode k.d.dfmt).getD .fp32
  let a := ownLo d.n k.m k.me; let b := ownLo d.n k.m (k.me + 1)
  let vs := ((d.whole.drop a).take (b - a)).map fun v => (convertCode f .fp32 .rne 0 v).1
  let r := vs.foldl (fun (l : Ledger × Flags) v => let p := mul32 v v; let t := l.1.add32 p.1; (t.1, (l.2.or p.2).or t.2)) (Ledger.empty, Flags.none)
  (r.1, vs.any fun v => !(v32 v).isFin, b - a, r.2)

/-- Writes the delivered units into the destination of an issued COLL that has not ended; a write that faults is its fault (R241). -/
def deliver (s : State) (c : Nat) (x : Ctx) (q : Coll) (codes poisoned : List Nat) : State × Option XFault :=
  match q.issued with
  | none => (s, none)
  | some i =>
    if q.ended.isSome then (s, none) else
    match tensor x i.2.2.2.2 with
    | none => (s, none)
    | some t => putUnits (touchAll s c t.call true) c x t codes poisoned

/-- A member whose rows enter the collective has sent poison: of its source, or of a contribution it carried (R422). -/
def sentPoison (x : Ctx) (k : Member) (q : Coll) (v : Option Verdict) : Bool :=
  (match v with | some v => v.included.contains k.me | none => false)
  && (q.own.any (fun o => !o.2.2.isEmpty) || x.gate.carry.any fun y => y.desc == k.di && y.seq == idSeq q.id && y.used && !y.poison.isEmpty)

/-- The device virtual address of a unit of a tensor: of an element, a cell or a quire (R245). -/
def unitAddr (x : Ctx) (t : TRef) (i j : Nat) : Nat :=
  if t.e.kind = 1 then t.e.base + (if t.e.gaxis then quireOff t.e j i else quireOff t.e i j)
  else if t.e.kind = 2 then t.e.base + cellOff t.e i j
  else addrOf x t i j

/-- What the fault record of a delivered collective names: the address of the write that faulted, or of the first poisoned unit, of the
member's own source where it sent one, else of its destination (R245; log 38). -/
def deliveredAt (x : Ctx) (q : Coll) (poisoned : List Nat) (f : Option XFault) : Nat :=
  match f, q.issued with
  | some e, _ => e.detail
  | none, none => q.id
  | none, some i =>
    match q.own.find? (fun o => !o.2.2.isEmpty), tensor x i.2.2.2.1, tensor x i.2.2.2.2 with
    | some o, some u, _ => unitAddr x u o.1 (o.2.2.headD 0)
    | _, _, some t => let k := poisoned.headD 0; unitAddr x t (k / unitCols x t) (k % unitCols x t)
    | _, _, none => q.id

/-- The status a delivered collective ends with (R241, R422). -/
def deliveredStatus (sent : Bool) (poisoned : List Nat) (f : Option XFault) : Status :=
  match f with | some e => e.status | none => if sent || !poisoned.isEmpty then .epoison else .success

/-- Data of a sum for one rank, as a message of kind 5 of the engine that gathers the collective. -/
def toRank (s : State) (x : Ctx) (k : Member) (id r : Nat) (b : Bytes) (lanes : Nat) : State :=
  post s x.ident.job (k.coord r) 5 id b (hubOf id) lanes

def sumToRank (s : State) (x : Ctx) (k : Member) (id r : Nat) (b : Bytes) : State := (toRank s x k id r b 0).emit (.sumData id r b)
def sumToOthers (s : State) (x : Ctx) (k : Member) (id : Nat) (b : Bytes) : State :=
  ((List.range k.m).filter (· != k.me)).foldl (fun s r => sumToRank s x k id r b) s

/-- Blocks with their positions. -/
def placedBlocks (l : List (Nat × Bytes)) : Bytes := l.flatMap fun b => leBytes 4 b.1 ++ b.2

/-- The lanes of an exact sum go to the ranks that own their elements, their bytes counted as they leave (R417, R612). -/
def sendLanes (s : State) (x : Ctx) (k : Member) (id : Nat) (l : List (Nat × Nat × Bytes)) : State :=
  ((List.range k.m).filter (· != k.me)).foldl (fun s r =>
    let bs := l.filter fun b => b.2.1 == r
    if bs.isEmpty then s else
    bs.foldl (fun s b => s.emit (.lanes id b.1 b.2.1 b.2.2)) (toRank s x k id r (placedBlocks (bs.map fun b => (b.1, b.2.2))) (bs.map (·.2.2.length)).sum)) s

/-- The maximum phase, and the lanes of the member's own rows (R416, R417). -/
def sendExact (s : State) (x : Ctx) (k : Member) (id n : Nat) (l : List Contribution) : State :=
  sendLanes (sumToOthers s x k id (ownMaxima k.me n l)) x k id (ownLanes (sumCtx k l.length) n l)

/-- The member's partial goes, in coded blocks, to the member that adds it (R414, R415). -/
def sendPartial (s : State) (x : Ctx) (k : Member) (id n : Nat) (l : List Contribution) : State :=
  let g := sumCtx k l.length
  match partialSend (narrowOf x k) (g.segs n) (k.coord k.me) (inOrder (partialsOf g l)) with
  | none => s
  | some p =>
    match (List.range k.m).find? fun r => k.coord r == p.1 with
    | some r => sumToRank s x k id r (placedBlocks (codeBlocks (narrowOf x k) (g.segs n) p.2))
    | none => s

/-- The final values of the elements this member owns go to every other member: in coded blocks, or under the exact protocol as they are (R413,
R414). A reduce-scatter keeps them. -/
def sendResult (s : State) (x : Ctx) (k : Member) (id n : Nat) (exact : Bool) (l : List Contribution) (codes : List Nat) : State :=
  if k.d.op = 1 then s else
  let g := sumCtx k l.length
  let a := ownLo n k.m k.me
  sumToOthers s x k id (if exact then leBytes 4 a ++ packRow g.dfmt.width ((codes.drop a).take (ownLo n k.m (k.me + 1) - a))
    else placedBlocks (ownBlocks g (narrowOf x k) n l))

/-- What a member sends of a sum in the data phase; one the verdict excludes sends the elements it owns alone (R412). -/
def sendSum (s : State) (x : Ctx) (k : Member) (q : Coll) (v : Verdict) (l : List Contribution) (d : Delivery) : State :=
  if !k.sums then s else
  let exact := k.d.transit == 4 || x.verbatim
  let s1 := if !v.included.contains k.me then s else if exact then sendExact s x k q.id d.n l else sendPartial s x k q.id d.n l
  sendResult s1 x k q.id d.n exact l d.whole

/-- Counts of a dispatch on this member's own tokens (R428). -/
def countTokens (s : State) (c id : Nat) (k : Member) (l : List Contribution) : State :=
  let own := l.filter fun q => q.rank == k.me
  let pl := (placeTokens k.d.cap (assignments k.d l) []).filter fun p => own.any fun q => q.k == p.1.1
  countEv (countEv s (pgToken (hubOf id)) 0x100 (pl.filter (·.2.isSome)).length (some c)) (pgToken (hubOf id)) 0x101
    (pl.filter (·.2.isNone)).length (some c)

/-- Counts the invalid ids of this member's routing words: those it sent with a dispatch, or those a combine reads (R427). -/
def countRoutes (s : State) (c id : Nat) (x : Ctx) (k : Member) (l : List Contribution) : State :=
  let words := if k.d.op = 7 then (l.filter fun q => q.rank == k.me).flatMap fun q => q.codes.take (k.d.tokens * k.d.slots)
    else match tensor x k.d.route with
      | some t => (positions t.e.rows t.e.cols).filterMap fun p => (readCode s x t p.1 p.2).map (·.1)
      | none => []
  countEv s (pgToken (hubOf id)) 0x102 (words.filter (routeInvalid k.d.experts)).length (some c)

/-- A token op's own part: its counts, the slot map of a dispatch, and the tensors a combine reads (R427–R429). -/
def tokenPart (s : State) (c : Nat) (x : Ctx) (k : Member) (q : Coll) (l : List Contribution) : State × Option XFault :=
  if k.d.op = 7 then
    let s1 := countRoutes (countTokens s c q.id k l) c q.id x k l
    match q.ended, tensor x k.d.slotmap with
    | none, some t => putItems (touchAll s1 c t.call true) c t ((List.range (slotMap k l).length).map fun n =>
        .put (n / k.d.slots) (n % k.d.slots) ((slotMap k l).getD n 0) (routesBad k l))
    | _, _ => (s1, none)
  else if k.d.op = 8 then
    ((tokenCalls k.d).foldl (fun s p => touchAll s c p.1 false) (countRoutes s c q.id x k l), tokenFault s x k)
  else (s, none)

/-- The control item a member sends once the data phase has ended (R424): its own share of the norm in the attempt the collective
belongs to, which an excluded member may not have admitted yet (R412, R423), and what it captured. -/
def controlItem (x : Ctx) (k : Member) (v : Verdict) : NormItem :=
  let cs := x.colls.filter fun q => q.epoch == x.gate.epoch && q.id % 2 ^ 36 == v.id % 2 ^ 36 && !isVote q.id
  let ss := cs.foldl (fun (l : Ledger) q => l.combine q.ss) Ledger.empty
  let n := (cs.map (·.count)).sum
  let nf := cs.any (·.nf)
  let carried := if v.included.contains k.me then x.gate.carry.filter (fun y => y.desc == k.di && y.used) else []
  let own := if v.included.contains k.me then (match x.att with | some a => a.item | none => none) else none
  let items := x.pol.watch.length * 2
  let b0 := match own with | some i => i.block | none => zeroBlock x
  { ss := ss.image, fl := carried.any (·.fl), nf := nf || (own.map (·.nf)).getD false || carried.any (fun y => y.nf || y.lossBad),
    ws := (own.map (·.ws)).getD false || carried.any (·.ws), count := n,
    block := carried.foldl (fun b y => if y.block.length = b.length then combineBlocks items b y.block else b) b0,
    cells := match own with | some i => i.cells | none => [] }

/-- A control item as it goes to the other members (R424; log 147). -/
def itemBody (i : NormItem) : Bytes :=
  leBytes 1 (b2n i.fl + 2 * b2n i.nf + 4 * b2n i.ws) ++ leBytes 8 i.count ++ i.ss ++ leBytes 4 i.block.length ++ i.block ++ i.cells.flatten

/-- The data phase has delivered on this member. -/
def dataDone (s : State) (c : Nat) (x : Ctx) (k : Member) (q : Coll) (v : Verdict) (l : List Contribution) : State :=
  let d := deliveryOf s x k q l
  let normed := k.d.norm || k.d.op == 6
  let sh := if normed then normShare k d else (Ledger.empty, false, 0, Flags.none)
  let used := (l.filter (·.carried)).map (·.k)
  let q0 := { q with delivered := true, result := some (d.codes, d.poisoned), ss := sh.1, nf := sh.2.1,
                     count := sh.2.2.1, consumed := used }
  let mark : Carried → Carried := fun y =>
    if y.desc == k.di && y.seq == idSeq q.id && !y.fresh && v.included.contains k.me then { y with used := true } else y
  let take : Owed → Owed := fun y => if y.desc == k.di && y.seq == idSeq q.id && !y.fresh && used.contains y.contribution then { y with used := true } else y
  let x0 := { x with gate := { x.gate with carry := x.gate.carry.map mark, owed := x.gate.owed.map take } }
  let u := tokenPart (sendSum (setCtx s c (setColl x0 q0)) x k q v l d) c x k q l
  let w := match u.2 with | some e => (u.1, some e) | none => deliver u.1 c x q d.codes d.poisoned
  let s1 := modColl w.1 c q.id fun y => { y with fault := w.2.map fun e => (e.status, e.detail) }
  let conv := Flags.when (v.included.contains k.me) (convFlags x k q)
  let st := deliveredStatus (sentPoison x0 k q (some v)) d.poisoned w.2
  -- a COLL that consumed poison raises no flag (R305)
  let s2 := if st == .epoison then s1 else collFlags s1 c x q ((d.flags.or sh.2.2.2).or conv)
  if k.d.op = 6 then
    match getCtx s2 c with
    | none => s2
    | some y =>
      let i := controlItem y k v
      (toOthers s2 y k 5 q.id (itemBody i)).emit (.collMsg ⟨q.id, q.epoch, k.me, .control i⟩)
  else endCollAt s2 c q.id st (deliveredAt x0 q d.poisoned w.2)

/-- The data phase of a go verdict ends on this member, also where its own COLL timed out before the verdict came (R412, R662). -/
def execCollDataPhaseDone (c id : Nat) (s : State) : Outc :=
  match getCtx s c with
  | none => .next s
  | some x =>
    match memberOf s x (idDesc id), getColl x id with
    | some k, some q =>
      match q.verdict with
      | none => .next s
      | some v =>
        if q.delivered || isVote id || !(v.outcome == .go || v.outcome == .partialGo) then .next s else
        match contributions x k q v with
        | none => .next s
        | some l => .next (reshardNow (dataDone s c x k q v l) c)
    | _, _ => .next s

/-! ### The control phase (R424, R425) -/

/-- Elements of the norm set (R352, R425): the gradients of norm groups; scale-gradient cells travel in the control phase (log 14). -/
def normSet (x : Ctx) : Nat :=
  (x.pol.groups.map fun g => if g.2.norm && !g.2.sg then (match tensor x g.2.grad with | some t => t.size | none => 0) else 0).sum

/-- Control items of the group by rank, once every member's is there. -/
def controlItems (x : Ctx) (k : Member) (q : Coll) (v : Verdict) : Option (List NormItem) :=
  let l := (List.range k.m).map fun r =>
    if r = k.me then some (controlItem x k v) else
    (q.bodies.filterMap fun b => match b.body with | .control i => if b.rank = r then some i else none | _ => none).head?
  if l.any Option.isNone then none else some (l.filterMap id)

/-- What writing the combined cells has done: the state, whether a norm group's cell holds a state bit, the cells passed, the first write that was
refused. -/
structure CellsDone where
  s : State
  bad : Bool
  n : Nat
  fault : Option (Status × Nat)

/-- One combined cell, written to its place. -/
def putOneCell (c : Nat) (items : List NormItem) (norm : Bool) (t : TRef) (acc : CellsDone) (p : Nat × Nat) : CellsDone :=
  let l := items.foldl (fun (l : Ledger) i => match i.cells[acc.n]? with | some b => l.combine (Ledger.ofImage b) | none => l) Ledger.empty
  let s1 := touchAt acc.s c t.call ⟨p.1, p.2, 1, 1⟩ true
  match writeCell s1 c t p.1 p.2 l with
  | some s2 => ⟨s2, acc.bad || (norm && l.state), acc.n + 1, acc.fault⟩
  | none => ⟨s1, acc.bad || (norm && l.state), acc.n + 1, acc.fault <|> some (.eaccess, t.e.base + cellOff t.e p.1 p.2)⟩

/-- The combined cells, written to every member's tensors. -/
def putCells (s : State) (c : Nat) (x : Ctx) (items : List NormItem) : CellsDone :=
  x.pol.groups.foldl (fun acc g =>
    if !g.2.sg then acc else
    match tensor x g.2.grad with
    | none => acc
    | some t => (positions t.e.rows t.e.cols).foldl (putOneCell c items g.2.norm t) acc) ⟨s, false, 0, none⟩

/-- How a norm-reduce ends once its control phase has: by the fault of a write, else by the poison it met (R241, R422). -/
def normEnds (x : Ctx) (k : Member) (q : Coll) (v : Verdict) (cells : Option (Status × Nat)) : Status × Nat :=
  match q.fault <|> cells with
  | some f => f
  | none =>
    let bad := match q.result with | some r => r.2 | none => []
    (deliveredStatus (sentPoison x k q (some v)) bad none, deliveredAt x q bad none)

/-- The norm-reduce result every member reads. -/
def normResult (x : Ctx) (q : Coll) (v : Verdict) (k : Member) (items : List NormItem) (cellBad : Bool) : NormResult :=
  let n := (items.map (·.count)).sum
  let ok := n == normSet x
  { fl := items.any (·.fl) || !ok, nf := items.any (·.nf) || cellBad, ws := items.any (·.ws),
    ss := items.foldl (fun (l : Ledger) i => l.combine (Ledger.ofImage i.ss)) Ledger.empty,
    contrib := (v.included.map k.cOf).sum + q.consumed.length, enorm := !ok,
    block := items.foldl (fun b i => if i.block.length = b.length then combineBlocks (2 * x.pol.watch.length) b i.block else b) (zeroBlock x) }

def execNormControlPhase (c : Nat) (s : State) : Outc :=
  match getCtx s c with
  | none => .next s
  | some x =>
    match x.pol.job with
    | none => .next s
    | some j =>
      let id := collId x j.normDesc 0
      match memberOf s x j.normDesc, getColl x id with
      | some k, some q =>
        match q.verdict with
        | none => .next s
        | some v =>
          if k.d.op != 6 || !q.delivered || q.norm.isSome then .next s else
          match controlItems x k q v with
          | none => .next s
          | some items =>
            let w := putCells s c x items
            let s1 := modColl w.s c id fun q => { q with norm := some (normResult x q v k items w.bad) }
            let e := normEnds x k q v w.fault
            .next (reshardNow (endCollAt s1 c id e.1 e.2) c)
      | _, _ => .next s

/-! ### COLL at issue (R228, R362, R406, R408, R409, R412) -/

/-- The COLL's checks that need no tensor. -/
def collBad (p : At) (op : CollOp) (f : CollF) : Option XFault :=
  let norm := op == .normReduce
  let jd := match p.x.pol.job with | some j => some j.normDesc | none => none
  match memberOf p.s p.x f.desc with
  | none => some eargF
  | some k =>
    firstBad [(k.d.op == op.code, eargF),
      (!(List.range p.a.streams.length).any fun n => n != p.st && (match p.a.streams[n]? with | some t => t.descs.contains f.desc | none => false), eargF),
      (!norm || (p.x.edition != 1 && jd == some f.desc && !p.a.normIssued), eargF),
      (!(p.t.slot f.slot).busy, ⟨.eslot, 0, 0⟩)]

/-- Call numbers a COLL reads and writes: those of its address registers; the tensors a descriptor names are not tracked (R235). -/
def collReads (k : Member) (f : CollF) (t : Stream) : List Nat := if k.d.op = 5 then [] else [t.addr f.aS]
def collWrites (k : Member) (f : CollF) (t : Stream) : List Nat := if k.d.op = 5 then [] else [t.addr f.aD]

/-- The state after a COLL has been handed to the engines: slot busy, source read, notice sent or the held outcome taken. -/
def collIssued (p : At) (f : CollF) (k : Member) (own : List (Nat × List Nat × List Nat)) (item : Option NormItem) : State :=
  let seq := (p.t.descs.filter (· == f.desc)).length
  let id := collId p.x f.desc seq
  let q := collOr p.x id
  let q1 := { q with issued := some (p.st, f.slot, p.s.now, p.t.addr f.aS, p.t.addr f.aD), own := own }
  let s1 := setCtx p.s p.c (setColl p.x q1)
  let at_ := if q.ended = some .epoison then deliveredAt p.x q1 (match q.result with | some r => r.2 | none => []) none else id
  let s2 := modStream s1 p.c p.st fun t => { t.setSlot f.slot ⟨true, id, q.ended, at_⟩ with descs := t.descs ++ [f.desc] }
  let s3 := modAtt s2 p.c fun a =>
    match item with
    | some i => { a with normIssued := true, contributed := true, item := some i }
    | none => a
  let s4 := addOp s3 p.c p.st (collReads k f p.t) (collWrites k f p.t) false (some id) []
  match q.verdict with
  | none => sendNotice s4 p.c k (noticeFor p.s p.x k id false false)
  | some v =>
    let s5 := if v.outcome == .partialGo && !v.included.contains k.me then deferOwn s4 p.c k id else s4
    match q.result with
    | some r =>
      let w := deliver s5 p.c p.x { q1 with ended := none } r.1 r.2
      let s6 := match w.2 with
        | some e => if k.d.op = 6 ∧ q.norm.isNone then modColl w.1 p.c id fun y => { y with fault := some (e.status, e.detail) }
                    else modStream w.1 p.c p.st fun t => t.setSlot f.slot ⟨true, id, some e.status, e.detail⟩
        | none => w.1
      if q.ended.isSome || k.d.op = 6 && q.norm.isNone then s6
      else endCollAt s6 p.c id (deliveredStatus (sentPoison p.x k q1 q.verdict) r.2 w.2) (deliveredAt p.x q1 r.2 w.2)
    | none => s5

/-- What a COLL reads at its issue: its source, the routing words of a dispatch, and of a norm-reduce the loss and the scale-gradient cells (R325). -/
def touchIssue (p : At) (k : Member) (u : TRef) (s : State) : State :=
  let s1 := touchAll s p.c u.call false
  if k.d.op = 7 then touchAll s1 p.c k.d.route false
  else if k.d.op ≠ 6 then s1 else
  let s2 := match p.x.pol.job with | some j => touchAt s1 p.c j.loss ⟨0, 0, 1, 1⟩ false | none => s1
  p.x.pol.groups.foldl (fun s g => if g.2.sg then touchAll s p.c g.2.grad false else s) s2

def issueColl (op : CollOp) (f : CollF) (p : At) : Iss :=
  match collBad p op f, memberOf p.s p.x f.desc with
  | some e, _ => .fault e
  | none, none => .fault eargF
  | none, some k =>
    let rd := collReads k f p.t; let wr := collWrites k f p.t
    let quiet := op != .normReduce || p.a.streams.all fun t => t.window.isEmpty
    if !p.clear rd wr || !quiet then .wait else
    let toks := (tokenCalls k.d).map (·.1)
    let calls := if k.d.op = 5 then [] else [p.t.addr f.aS, p.t.addr f.aD] ++ toks
    match checkOpnds p calls (collChecks p.x k) with
    | some e => .fault e
    | none =>
      let item : Except XFault (Option NormItem) :=
        if op != .normReduce then .ok none else
        match p.x.pol.job with
        | none => .ok none
        | some j =>
          match lossState p.s p.x j with
          | none => .error ⟨.epoison, 0, match tensor p.x j.loss with | some t => t.e.base | none => 0⟩
          | some b => .ok (some (captureItem p.s p.x p.a false b))
      match item with
      | .error e => .done (execFault p.s p.c p.x p.st p.t.pc p.w e) p.t.pc
      | .ok it =>
        let u := p.ref (p.t.addr f.aS)
        match (if k.d.op = 5 then some [] else ownBodies p.s p.x k u) with
        | none =>
          let at_ := (u :: (tensor p.x k.d.route).toList).findSome? fun t => refusedAt p.x (storedExtent p.x t t.e.whole).1
          .done (execFault p.s p.c p.x p.st p.t.pc p.w ⟨.eaccess, 0, at_.getD u.e.base⟩) p.t.pc
        | some own => .done (if k.d.op = 5 then collIssued p f k own it else touchIssue p k u (collIssued p f k own it)) (p.t.pc + 1)

def execCollAllReduce (c st : Nat) (h : Hdr) (f : CollF) (s : State) : Outc :=
  .next (issue s c st h (.coll .allReduce f) (issueColl .allReduce f))
def execCollReduceScatter (c st : Nat) (h : Hdr) (f : CollF) (s : State) : Outc :=
  .next (issue s c st h (.coll .reduceScatter f) (issueColl .reduceScatter f))
def execCollAllGather (c st : Nat) (h : Hdr) (f : CollF) (s : State) : Outc :=
  .next (issue s c st h (.coll .allGather f) (issueColl .allGather f))
def execCollBroadcast (c st : Nat) (h : Hdr) (f : CollF) (s : State) : Outc :=
  .next (issue s c st h (.coll .broadcast f) (issueColl .broadcast f))
def execCollAllToAll (c st : Nat) (h : Hdr) (f : CollF) (s : State) : Outc :=
  .next (issue s c st h (.coll .allToAll f) (issueColl .allToAll f))
def execCollBarrier (c st : Nat) (h : Hdr) (f : CollF) (s : State) : Outc :=
  .next (issue s c st h (.coll .barrier f) (issueColl .barrier f))
def execCollNormReduce (c st : Nat) (h : Hdr) (f : CollF) (s : State) : Outc :=
  .next (issue s c st h (.coll .normReduce f) (issueColl .normReduce f))
def execCollTokenDispatch (c st : Nat) (h : Hdr) (f : CollF) (s : State) : Outc :=
  .next (issue s c st h (.coll .tokenDispatch f) (issueColl .tokenDispatch f))
def execCollTokenCombine (c st : Nat) (h : Hdr) (f : CollF) (s : State) : Outc :=
  .next (issue s c st h (.coll .tokenCombine f) (issueColl .tokenCombine f))

/-- The device sends the member's norm contribution itself, with fl set and no gradient data (R362): the attempt has failed before its
COLL, or its program has ended without one. -/
def selfContribution (s : State) (c : Nat) (x : Ctx) (_a : Attempt) (k : Member) : State :=
  let id := collId x k.di 0
  let s1 := modAtt s c fun a => { a with contributed := true, item := some (captureItem s x a true false) }
  if (match getColl x id with | some q => q.verdict.isSome | none => false) then s1
  else sendNotice s1 c k (noticeFor s x k id true false)

def execNormContributionSelf (c t : Nat) (s : State) : Outc :=
  let s := s.at t
  match getCtx s c with
  | none => .next s
  | some x =>
    match x.att, x.pol.job with
    | some a, some j =>
      if x.edition = 1 ∨ a.contributed ∨ a.status = .success then .next s else
      match memberOf s x j.normDesc with
      | none => .next s
      | some k => if k.d.op = 6 then .next (selfContribution s c x a k) else .next s
    | _, _ => .next s

end Sys2Proof.Machine
end

