-- ==== Sys2Proof/Machine/Volume.lean ====
section
/-! DEFINITION. Member volumes: what they hold, shards, context image, colophon, and writing them back (R488, R501–R512). -/

namespace Sys2Proof.Machine

/-! ### What a volume holds (R488) -/

def addNew (l : List Nat) (k : Nat) : List Nat := if k = 0 || l.contains k then l else l ++ [k]

/-- The image tensors of a group. -/
def Group.images (g : Group) : List Nat := [g.image0, g.image1]

/-- Tensors a rollback restores: masters, moments, scale masters, scale tensors, images with their records (R368). -/
def rollbackCalls (x : Ctx) : List Nat :=
  x.pol.groups.foldl (fun l g =>
    let l1 := [g.2.master, g.2.m, g.2.v, g.2.image0, g.2.image1].foldl addNew l
    g.2.images.foldl (fun l i => match tensor x i with
      | some t => [t.e.scales, t.e.masters, t.e.marg].foldl addNew l
      | none => l) l1) []

/-- Call numbers an entry refers to. -/
def Entry.refs (e : Entry) : List Nat :=
  [e.source, e.tscale, e.scales, e.masters, e.zeropts, e.sgrad, e.marg].filter (· != 0)

/-- The learned state's tensors: what groups name, and what their images name. -/
def learnedCalls (x : Ctx) : List Nat :=
  x.pol.groups.foldl (fun l g =>
    let l1 := [g.2.master, g.2.m, g.2.v, g.2.lr, g.2.image0, g.2.image1].foldl addNew l
    g.2.images.foldl (fun l i => match tensor x i with
      | some t => [t.e.scales, t.e.masters, t.e.zeropts, t.e.tscale, t.e.marg].foldl addNew l
      | none => l) l1) []

/-- The volume policy's extras. -/
def extraCalls (s : State) (x : Ctx) : List Nat :=
  match tensor x x.pol.vol.extras with | some t => flatCodes s x t | none => []

def volumeCalls (s : State) (x : Ctx) : List Nat := (extraCalls s x).foldl addNew (learnedCalls x)

/-- The entries of those tensors and of everything they refer to, `n` references deep. -/
def withRefs (x : Ctx) : Nat → List Nat → List Nat
  | 0, l => l
  | n + 1, l => withRefs x n (l.foldl (fun a k => match tensor x k with | some t => t.e.refs.foldl addNew a | none => a) l)

/-- The 64 KiB pages under a volume's tensors, each once (R495). -/
def volPages (s : State) (x : Ctx) : List Nat :=
  (volumeCalls s x).foldl (fun l k => match tensor x k with
    | some t =>
      if t.e.kind ≤ 2 ∧ t.e.cls ≠ 3 then
        (List.range ((t.e.base + t.e.span - 1) / frameBytes + 1 - t.e.base / frameBytes)).foldl (fun l j => insertN l (t.e.base / frameBytes + j)) l
      else l
    | none => l) []

/-! ### Stored bytes with their poison -/

/-- Bytes of a tensor by offset; a byte of a poisoned atom, or one that cannot be read, is 0. -/
def bytesAt (s : State) (x : Ctx) (t : TRef) (off n : Nat) : List (Byte × Bool) :=
  (List.range n).map fun k =>
    match placeOf x t (off + k) false with
    | none => (0, false)
    | some p => if poisonedAt s x p then (0, true) else (peek s x p, false)

/-- The policy a quire tensor's stored quires were formed under: an image's recorded rung, else the rung in force (R395). -/
def storedPolicy (x : Ctx) (t : TRef) : Policy :=
  match tget x.pol.imageRung t.idx, tget x.pol.watch t.e.layer with
  | some r, some w => if t.e.layer = 0xFFFF then t.e.policy else policyAt t.e.policy w r
  | _, _ => (effective x t.e).1

/-- Stored bytes of a line, without pitch padding; nothing is stored behind a view. -/
def lineLen (x : Ctx) (t : TRef) : Nat :=
  match t.e.kind with
  | 0 => ceilDiv (t.e.cols * t.e.width) 8
  | 1 => ceilDiv t.e.axisLen (quireElems (storedPolicy x t).f) * 576
  | 2 => t.e.cols * 48
  | _ => 0

def lineData (s : State) (x : Ctx) (t : TRef) (i : Nat) : List (Byte × Bool) :=
  if t.e.kind = 2 then
    (List.range t.e.cols).flatMap fun j =>
      bytesAt s x t (cellOff t.e i j) 40
      ++ (BitVec.ofNat 8 (tgetD s.mem.cellState (cellKey x t i j) 0), false) :: List.replicate 7 (0, false)
  else bytesAt s x t (i * t.e.step) (lineLen x t)

def tensorData (s : State) (x : Ctx) (t : TRef) : List (Byte × Bool) := (List.range t.e.lines).flatMap (lineData s x t)

/-! ### Shards (R501) -/

def shardMax : Nat := 0x4000000

/-- Bytes of a unit, and logical units in one. -/
def unitBytes (t : TRef) : Nat := match t.e.kind with | 1 => 576 | 2 => 48 | _ => if t.e.width < 8 then 1 else t.e.width / 8
def unitLogical (t : TRef) : Nat := if t.e.kind = 0 ∧ t.e.width < 8 then 8 / t.e.width else 1

/-- The logical element that unit `k` of a tensor's stored bytes begins with: lines are in turn, and a line of a quire tensor grouped along
rows is a column (R207, R504). -/
def unitFirst (x : Ctx) (t : TRef) (k : Nat) : Nat :=
  match t.e.kind with
  | 1 =>
    let E := quireElems (storedPolicy x t).f
    let n := ceilDiv t.e.axisLen E
    if t.e.gaxis then k % n * E * t.e.cols + k / n else k / n * t.e.cols + k % n * E
  | 2 => k
  | _ => if t.e.width < 8 then (let n := ceilDiv (t.e.cols * t.e.width) 8; k / n * t.e.cols + k % n * (8 / t.e.width)) else k

/-- Cuts a run of bytes in shards of whole units; `first` is the logical number of a unit. -/
def makeShards (call kind : Nat) (first : Nat → Nat) (unit logical : Nat) (l : List (Byte × Bool)) : List VShard :=
  let n := shardMax / unit * unit
  let parts := blocksOf n (l.length / n + 1) l
  (List.range parts.length).map fun k =>
    let b := parts.getD k []
    { call := call, kind := kind, part := k, first := first (k * (n / unit)), units := b.length / unit * logical,
      bytes := b.map (·.1), poison := (List.range b.length).filter fun i => (b.getD i (0, false)).2 }

def cleanBytes (b : Bytes) : List (Byte × Bool) := b.map (·, false)

/-! ### The context image (R502) -/

/-- A 16-byte-aligned record. -/
def imageRec (type idx : Nat) (body : Bytes) : Bytes :=
  leBytes 2 type ++ zeros 2 ++ leBytes 4 body.length ++ leBytes 8 idx ++ body ++ zeros ((16 - body.length % 16) % 16)

def tabRecs (type : Nat) (f : Nat → α → Bytes) (t : Tab α) : Bytes := t.flatMap fun p => imageRec type p.1 (f p.1 p.2)

/-- What MAP was given for a page: loc and peer. Where the device has placed it is no part of a volume (R330, R488). -/
def Leaf.target (l : Leaf) : Nat × Nat := if l.shelved then (0, 0) else (l.loc, l.peer)

/-- Joins a page to the runs before it that continue into it: first page, pages, loc, w, peer. -/
def joinRun (l : List (Nat × Nat × Nat × Bool × Nat)) (p : Nat × Leaf) : List (Nat × Nat × Nat × Bool × Nat) :=
  match l with
  | (v, n, loc, w, peer) :: r =>
    if v + n = p.1 ∧ loc = p.2.target.1 ∧ w = p.2.w ∧ peer = p.2.target.2 then (v, n + 1, loc, w, peer) :: r
    else (p.1, 1, p.2.target.1, p.2.w, p.2.target.2) :: l
  | [] => [(p.1, 1, p.2.target.1, p.2.w, p.2.target.2)]

/-- The mapped ranges of a context, rising. -/
def mapRuns (x : Ctx) : List (Nat × Nat × Nat × Bool × Nat) := (x.maps.foldl joinRun []).reverse

def rungCode (r : Nat) : Bytes := leBytes 1 r ++ zeros 3

/-- Carried contributions in ascending logical number. -/
def insertCarried (y : Carried) : List Carried → List Carried
  | [] => [y]
  | z :: r => if y.contribution < z.contribution then y :: z :: r else z :: insertCarried y r
def sortCarried (l : List Carried) : List Carried := l.foldl (fun a y => insertCarried y a) []

/-- The contributions in force between attempts: this member's own, with their rows. -/
def ownCarried (x : Ctx) : List Carried := x.gate.carry.filter fun y => !y.fresh

/-- Those of the other members, of which this one holds the numbers alone: no bits, no block, no rows (R465; log 131). -/
def otherCarried (x : Ctx) : List Carried :=
  ((x.gate.owed.filter fun y => !y.fresh && !y.lost).filter fun y =>
    !(ownCarried x).any fun z => z.desc == y.desc && z.seq == y.seq && z.contribution == y.contribution).map fun y =>
      ⟨y.desc, y.seq, y.contribution, false, false, false, false, [], [], [], false, false⟩

/-- The job's carry set as a volume holds it; of equal numbers the own ones first. -/
def carrySet (x : Ctx) : List Carried := sortCarried (ownCarried x ++ otherCarried x)

/-- Records by rising index. -/
def insertRec (p : Nat × Bytes) : List (Nat × Bytes) → List (Nat × Bytes)
  | [] => [p]
  | q :: r => if p.1 < q.1 then p :: q :: r else q :: insertRec p r
def sortRecs (l : List (Nat × Bytes)) : List (Nat × Bytes) := l.foldl (fun a p => insertRec p a) []

def carriedRec (y : Carried) : Bytes :=
  imageRec 16 y.contribution (leBytes 2 y.desc ++ leBytes 2 y.seq ++ leBytes 4 y.contribution
    ++ leBytes 1 (b2n y.fl + 2 * b2n y.nf + 4 * b2n y.ws) ++ leBytes 1 (b2n y.lossBad) ++ zeros 6 ++ y.block)

def contextImage (s : State) (x : Ctx) : Bytes :=
  (match x.pol.job with | some j => imageRec 1 0 j.toBytes | none => [])
  ++ tabRecs 2 (fun _ g => g.toBytes) x.pol.groups
  ++ tabRecs 3 (fun _ w => w.toBytes) x.pol.watch
  ++ tabRecs 4 (fun k r => r.toBytes k) x.pol.rot
  ++ tabRecs 5 (fun _ b => b) x.pol.act
  ++ tabRecs 6 (fun _ d => d.toBytes) x.pol.descs
  ++ tabRecs 7 (fun k g => g.toBytes k) x.pol.grps
  ++ imageRec 8 0 x.pol.mode.toBytes
  ++ imageRec 9 0 x.pol.vol.toBytes
  ++ ((withRefs x 4 (volumeCalls s x)).foldl insertN []).flatMap (fun k => match tensor x k with
      | some t => imageRec 10 k t.e.host
      | none => [])
  ++ (mapRuns x).flatMap (fun r => imageRec 11 (r.1 * frameBytes)
      (leBytes 8 (r.1 * frameBytes) ++ leBytes 8 (r.2.1 * frameBytes) ++ leBytes 1 r.2.2.1 ++ leBytes 1 (b2n r.2.2.2.1)
       ++ leBytes 2 r.2.2.2.2 ++ zeros 4))
  ++ imageRec 12 0 (leBytes 1 (twos 8 x.gate.exp) ++ zeros 1 ++ leBytes 2 x.gate.clean ++ leBytes 2 x.gate.consec ++ zeros 2
      ++ leBytes 8 x.gate.skips)
  ++ imageRec 13 0 (leBytes 8 x.ident.seed)
  ++ (sortRecs (x.pol.imageRung.map fun p =>
      let cn := callNo (tgetD x.cat.tags p.1 0) p.1
      (cn, imageRec 14 cn (leBytes 4 cn ++ rungCode p.2)))).flatMap (·.2)
  ++ (match x.prog with | some p => imageRec 15 0 p.container | none => [])
  ++ (carrySet x).flatMap carriedRec

/-! ### The colophon (R503, R504) -/

/-- This member of the job's norm group. -/
def jobMember (s : State) (x : Ctx) : Option Member :=
  match x.pol.job with | some j => memberOf s x j.normDesc | none => none

def VShard.entry (v : VShard) : Bytes :=
  leBytes 4 v.call ++ leBytes 1 v.kind ++ leBytes 1 (b2n (!v.poison.isEmpty)) ++ leBytes 2 v.part ++ leBytes 8 v.first
  ++ leBytes 8 v.units ++ leBytes 8 v.bytes.length ++ sha384 v.bytes

def Volume.body (v : Volume) : Bytes := v.header ++ v.shards.flatMap VShard.entry
def Volume.colophon (v : Volume) : Bytes := v.body ++ v.mac
/-- The colophon, then the shards. -/
def Volume.toBytes (v : Volume) : Bytes := v.colophon ++ v.shards.flatMap (·.bytes)
def Volume.size (v : Volume) : Nat := 304 + 80 * v.shards.length + (v.shards.map (·.bytes.length)).sum
def Volume.poisoned (v : Volume) : Bool := v.shards.any fun h => !h.poison.isEmpty
def Volume.step (v : Volume) : Nat := fld v.header 24 6

/-- The header of a volume of kind `kind` (0 drain, 1 CHECKPOINT, 2 PREEMPT). -/
def volHeader (s : State) (x : Ctx) (kind : Nat) (l : List VShard) : Bytes :=
  let k := jobMember s x
  leBytes 4 0x4C565A54 ++ leBytes 2 1 ++ leBytes 1 kind
  ++ leBytes 1 (b2n x.verbatim + 2 * b2n (l.any fun h => !h.poison.isEmpty))
  ++ leBytes 8 x.ident.patron ++ leBytes 4 x.ident.job ++ leBytes 4 x.gate.epoch ++ leBytes 6 x.gate.step ++ zeros 2
  ++ leBytes 8 x.gate.attempt ++ leBytes 8 x.tr.seq ++ x.tr.chain
  ++ leBytes 4 (match k with | some k => k.me | none => 0) ++ leBytes 4 (match k with | some k => k.base k.me | none => 0)
  ++ leBytes 2 (match k with | some k => k.cOf k.me | none => 0) ++ zeros 2
  ++ leBytes 4 (match k with | some k => k.g.total | none => 0)
  ++ leBytes 8 s.now ++ leBytes 16 x.gate.cursor ++ leBytes 4 l.length ++ leBytes 4 (s.host.address.getD 0) ++ zeros 144

/-- Seals a header and shards under the volume key. -/
def sealVolume (x : Ctx) (h : Bytes) (l : List VShard) : Volume :=
  { header := h, shards := l, mac := hmac384 (x.ident.volKey.getD []) (h ++ l.flatMap VShard.entry) }

/-- A carried row's stored bytes; a poisoned element's are 0. -/
def carriedData (y : Carried) : List (Byte × Bool) :=
  (List.range y.row.length).flatMap fun k =>
    let p := y.poison.contains k
    (leBytes 4 (if p then 0 else y.row.getD k 0)).map (·, p)

/-- The shards of a context now. -/
def volShards (s : State) (x : Ctx) : List VShard :=
  makeShards 0 0 id 1 1 (cleanBytes (contextImage s x))
  ++ (volumeCalls s x).flatMap (fun k => match tensor x k with
      | some t => makeShards k 1 (unitFirst x t) (unitBytes t) (unitLogical t) (tensorData s x t)
      | none => [])
  ++ (carrySet x).flatMap fun y => makeShards 0 2 (fun _ => y.contribution) 4 1 (carriedData y)

/-- Bytes of the member volume of a context's state as it stands. -/
def volSize (s : State) (x : Ctx) : Nat := let l := volShards s x; 304 + 80 * l.length + (l.map (·.bytes.length)).sum

/-- The member volume of a context's state as it stands. -/
def formVolume (s : State) (x : Ctx) (kind : Nat) : Volume :=
  let l := volShards s x
  sealVolume x (volHeader s x kind l) l

/-- A volume's tensors are read as it is formed (R325). -/
def touchVolume (s : State) (c : Nat) (x : Ctx) : State := (volumeCalls s x).foldl (fun s k => touchAll s c k false) s

/-- A kept volume written out under another kind. -/
def Volume.asKind (v : Volume) (x : Ctx) (kind : Nat) : Volume :=
  sealVolume x (v.header.take 6 ++ leBytes 1 kind ++ v.header.drop 7) v.shards

/-- The step of the newest commit whose copy is due: while phase G runs, the one before it. -/
def copiedStep (x : Ctx) : Nat :=
  match x.att with
  | some a => if a.phase = .copy then (x.gate.step + 2 ^ 48 - 1) % 2 ^ 48 else x.gate.step
  | none => x.gate.step

/-- The slot that holds the newest commit. One left from before a takeover, or from before the policy gave up its slots, does not (R507, R508). -/
def newestSlot (x : Ctx) : Option (Nat × Volume) :=
  [(0, x.vols.slot0), (1, x.vols.slot1)].findSome? fun p => match p.2.vol with
    | some v => if v.step = x.gate.step ∨ v.step = copiedStep x then some (p.1, v) else none
    | none => none

/-- The slot or snapshot that holds a step. -/
def volumeOf (x : Ctx) (step : Nat) : Option Volume :=
  [x.vols.slot0.vol, x.vols.slot1.vol, x.vols.snapshot].findSome? fun v =>
    match v with | some v => if v.step = step then some v else none | none => none

/-! ### Writing a volume's tensors back -/

/-- Writes a cell's 48-byte image. -/
def putImage (s : State) (c : Nat) (x : Ctx) (t : TRef) (i j : Nat) (b : List (Byte × Bool)) : State :=
  if b.length < 48 then s else
  let s1 := (writeCell s c t i j (Ledger.ofImage (b.map (·.1)))).getD s
  (List.range 40).foldl (fun s k => if (b.getD k (0, false)).2 then
      (match placeOf x t (cellOff t.e i j + k) true with | some p => setPoison s c p true | none => s) else s) s1

/-- Writes stored bytes at an offset of a tensor. -/
def putRun (s : State) (c : Nat) (x : Ctx) (t : TRef) (off : Nat) (l : List (Byte × Bool)) : State :=
  match byteUnits x t off (l.map (·.1)) with
  | none => s
  | some us =>
    let s1 := applyUnits s c us
    (List.zip us l).foldl (fun s q => if q.2.2 then setPoison s c q.1.p true else s) s1

/-- Writes one line's stored bytes, marking those that carry poison (R304). -/
def putLine (s : State) (c : Nat) (x : Ctx) (t : TRef) (i : Nat) (l : List (Byte × Bool)) : State :=
  if t.e.kind = 2 then (List.range t.e.cols).foldl (fun s j => putImage s c x t i j ((l.drop (48 * j)).take 48)) s
  else putRun s c x t (i * t.e.step) l

/-- Writes a tensor's stored bytes back, line by line. -/
def putTensor (s : State) (c : Nat) (x : Ctx) (t : TRef) (l : List (Byte × Bool)) : State :=
  let n := lineLen x t
  (List.range t.e.lines).foldl (fun s i => putLine s c x t i ((l.drop (i * n)).take n)) (touchAll s c t.call true)

/-- The stored bytes a volume holds of a tensor. -/
def Volume.data (v : Volume) (call : Nat) : List (Byte × Bool) :=
  (v.shards.filter fun h => h.kind == 1 && h.call == call).flatMap fun h =>
    (List.range h.bytes.length).map fun k => (h.bytes.getD k 0, h.poison.contains k)

/-- Writes the named tensors back from a volume; a tensor the volume does not hold is left alone. -/
def restoreTensors (s : State) (c : Nat) (v : Volume) (calls : List Nat) : State :=
  calls.foldl (fun s k =>
    match getCtx s c with
    | none => s
    | some x =>
      match tensor x k with
      | none => s
      | some t => let l := v.data k; if l.isEmpty then s else putTensor (touchAll s c k true) c x t l) s

/-! ### Reading a context image -/

/-- The records of an image: type, index, body; none where one is malformed. -/
def imageRecs : Nat → Bytes → Option (List (Nat × Nat × Bytes))
  | 0, b => if b.isEmpty then some [] else none
  | n + 1, b =>
    if b.isEmpty then some [] else
    let len := fld b 4 4
    let all := 16 + ceilDiv len 16 * 16
    if b.length < all ∨ fld b 2 2 != 0 then none else
    (imageRecs n (b.drop all)).map fun r => (fld b 0 2, fld b 8 8, slice b 16 len) :: r

def Volume.image (v : Volume) : Bytes := (v.shards.filter (·.kind == 0)).flatMap (·.bytes)
def Volume.recs (v : Volume) : Option (List (Nat × Nat × Bytes)) := imageRecs (v.image.length / 16) v.image

/-- Records of a type. -/
def recsOf (l : List (Nat × Nat × Bytes)) (type : Nat) : List (Nat × Bytes) :=
  l.filterMap fun r => if r.1 = type then some (r.2.1, r.2.2) else none

/-- A table of records, none where one does not read. -/
def tabOf (f : Bytes → Option α) (l : List (Nat × Bytes)) : Option (Tab α) :=
  if l.all fun r => (f r.2).isSome then some (l.foldl (fun t r => match f r.2 with | some v => tset t r.1 v | none => t) []) else none

def groupRecOf (b : Bytes) : Option GroupRec :=
  let n := fld b 2 2 + 1
  if b.length = 16 + 4 * n then some ⟨fld b 4 4, memberPairs n (b.drop 16)⟩ else none

def rotRecOf (b : Bytes) : Option RotEntry := if b.length = 16 then some ⟨fld b 2 1, fld b 8 8⟩ else none

/-- The kind 2 shards of a volume, those of one contribution together: each begins with part 0. -/
def rowGroups : List VShard → List (List VShard)
  | [] => []
  | h :: r => match rowGroups r with
    | [] => [[h]]
    | g :: l => if (g.headD default).part = 0 then [h] :: g :: l else (h :: g) :: l

/-- The carried contributions of a volume, with their rows; of equal numbers the first are those that have rows. -/
def carriedOf (v : Volume) (l : List (Nat × Nat × Bytes)) : List Carried :=
  let rs := recsOf l 16
  let rows := rowGroups (v.shards.filter (·.kind == 2))
  (List.range rs.length).map fun k =>
    let b := (rs.getD k (0, [])).2
    let con := fld b 4 4
    let before := ((rs.take k).filter fun r => fld r.2 4 4 == con).length
    let parts := (rows.filter fun g => (g.headD default).first == con).getD before []
    let row := parts.flatMap (·.bytes)
    let bad := parts.flatMap fun h => h.poison.map (· + h.part * shardMax)
    { desc := fld b 0 2, seq := fld b 2 2, contribution := con, fl := bitOf (fld b 8 1) 0, nf := bitOf (fld b 8 1) 1,
      ws := bitOf (fld b 8 1) 2, lossBad := fld b 9 1 != 0, block := b.drop 16,
      row := (blocksOf 4 (row.length / 4) row).map leNat, poison := (bad.map (· / 4)).eraseDups, fresh := false, used := false }

/-- Group counts t of a volume. -/
def restoreCounts (l : List (Nat × Nat × Bytes)) (t : Tab Group) : Tab Group :=
  t.map fun p => match (recsOf l 2).find? (·.1 == p.1) with | some r => (p.1, { p.2 with t := fld r.2 48 8 }) | none => p

/-- Recorded image rungs of a volume. -/
def restoreRungs (l : List (Nat × Nat × Bytes)) : Tab Nat :=
  (recsOf l 14).foldl (fun t r => tset t (callIdx r.1) (fld r.2 4 1)) []

/-! ### Rollback (R368) -/

/-- Restores what phase D changes from a volume; poison it meets is carried and makes the context FAULTED (R506, R555). -/
def rollbackFrom (s : State) (c : Nat) (x : Ctx) (v : Volume) : State :=
  let calls := rollbackCalls x
  let l := (v.recs).getD []
  -- the recorded rungs come first: they say how the images' quires lie
  let s1 := modCtx s c fun x => { x with pol := { x.pol with groups := restoreCounts l x.pol.groups, imageRung := restoreRungs l } }
  let s2 := restoreTensors s1 c v calls
  let bad := v.shards.any fun h => h.kind == 1 && calls.contains h.call && !h.poison.isEmpty
  if bad then modCtx s2 c fun x => x.setSt .faulted else s2

/-- The rollback of a running attempt: from the slot or snapshot that holds its step; without one it cannot complete (R555). -/
def rollback (s : State) (c : Nat) : State :=
  match getCtx s c with
  | none => s
  | some x =>
    match volumeOf x x.gate.step with
    | some v => rollbackFrom s c x v
    | none => modCtx s c fun x => x.setSt .faulted

end Sys2Proof.Machine
end

