-- ==== Sys2Proof/Machine/Optim.lean ====
section
/-! DEFINITION. Phase D: the fused optimisers, moments, compact masters, and re-forming scale tensors and images (R84, R85, R364–R366). -/

namespace Sys2Proof.Machine

/-! ### FP32 operations that gather their flags (R267) -/

/-- A code with the flags raised on the way to it. -/
abbrev FV := Nat × Flags

def FV.of (c : Nat) : FV := (c, Flags.none)
def FV.bin (op : Nat → Nat → Nat × Flags) (a b : FV) : FV := let r := op a.1 b.1; (r.1, (a.2.or b.2).or r.2)
def fAdd : FV → FV → FV := FV.bin add32
def fSub : FV → FV → FV := FV.bin sub32
def fMul : FV → FV → FV := FV.bin mul32
def fDiv : FV → FV → FV := FV.bin div32
def fSqrt (a : FV) : FV := let r := roundTo .fp32 (sqrtX (v32 a.1)); (r.1, a.2.or r.2)
def one32 : Nat := 0x3F800000
/-- +1, −1, +0 for a zero of either sign, the canonical NaN for a NaN (R365). -/
def fSign (a : FV) : FV :=
  let v := v32 a.1
  (if v.isNan then nan32 else if v.isZero then 0 else if v.isNeg then 0xBF800000 else one32, a.2)

/-! ### Bias corrections (R365) -/

def mul64 (a b : Nat) : Nat × Flags := roundTo .fp64 ((decode .fp64 a).mul (decode .fp64 b))

/-- b^t: t from its most significant bit, squaring before each multiplication; `n` bits are left. -/
def powGo (b t : Nat) : Nat → FV → FV
  | 0, r => r
  | n + 1, r =>
    let q := FV.bin mul64 r r
    powGo b t n (if bitOf t n then FV.bin mul64 q (FV.of b) else q)

/-- 1 − b^t in FP64, rounded to FP32. -/
def biasCorr (b t : Nat) : FV :=
  let p := powGo (convertCode .fp32 .fp64 .rne 0 b).1 t (Nat.log2 t + 1) (FV.of 0x3FF0000000000000)
  let d := roundTo .fp64 (XReal.one.sub (decode .fp64 p.1))
  let c := convertCode .fp64 .fp32 .rne 0 d.1
  (c.1, (p.2.or d.2).or c.2)

/-! ### One element (R364) -/

/-- What a group's update holds fixed: hyperparameters, 1 − b1, 1 − b2, the learning rate, c1 and c2. -/
structure Hyper where
  b1 : FV
  b2 : FV
  n1 : FV
  n2 : FV
  eps : FV
  wd : FV
  lr : FV
  c1 : FV
  c2 : FV

def hyperOf (g : Group) (lr t : Nat) : Hyper :=
  { b1 := FV.of g.b1, b2 := FV.of g.b2, n1 := fSub (FV.of one32) (FV.of g.b1), n2 := fSub (FV.of one32) (FV.of g.b2),
    eps := FV.of g.eps, wd := FV.of g.wd, lr := FV.of lr,
    c1 := if g.opt = 1 then biasCorr g.b1 t else FV.of one32, c2 := if g.opt = 1 then biasCorr g.b2 t else FV.of one32 }

def adamM (h : Hyper) (m g : FV) : FV := fAdd (fMul h.b1 m) (fMul h.n1 g)
def adamV (h : Hyper) (v g : FV) : FV := fAdd (fMul h.b2 v) (fMul h.n2 (fMul g g))
/-- `m` and `v` are the new stored values. -/
def adamW (h : Hyper) (w m v : FV) : FV :=
  let d := fDiv (fDiv m h.c1) (fAdd (fSqrt (fDiv v h.c2)) h.eps)
  fSub w (fMul h.lr (fAdd d (fMul h.wd w)))
def lionW (h : Hyper) (w m g : FV) : FV :=
  let u := fSign (fAdd (fMul h.b1 m) (fMul h.n1 g))
  fSub w (fMul h.lr (fAdd u (fMul h.wd w)))
def lionM (h : Hyper) (m g : FV) : FV := fAdd (fMul h.b2 m) (fMul h.n2 g)
def sgdM (h : Hyper) (w m g : FV) : FV := fAdd (fMul h.b1 m) (fAdd g (fMul h.wd w))
def sgdW (h : Hyper) (w m : FV) : FV := fSub w (fMul h.lr m)
def sgdPlain (h : Hyper) (w g : FV) : FV := fSub w (fMul h.lr (fAdd g (fMul h.wd w)))

/-! ### Reading and storing tensors -/

/-- Elements of a plain tensor as FP32 codes, row-major. -/
def readAll32 (s : State) (x : Ctx) (t : TRef) : Except XFault (List FV) :=
  eachOk (fun k => match flatCode s x t.call k with
    | .error f => .error f
    | .ok (u, c) => .ok (convertCode u.fmt .fp32 .rne 0 c)) (List.range t.size)

/-- Ledger cells rounded by R47, row-major. -/
def readCells32 (s : State) (x : Ctx) (t : TRef) : Except XFault (List FV) :=
  eachOk (fun q => match readCell s x t q.1 q.2 with
    | none => .error ⟨.eaccess, 0, t.e.base + cellOff t.e q.1 q.2⟩
    | some (_, true) => .error ⟨.epoison, 0, poisonAddr s x t (cellOff t.e q.1 q.2) 40⟩
    | some (l, false) => .ok l.round32) (positions t.e.rows t.e.cols)

/-- Row-major order of values held line by line. -/
def fromLines (t : TRef) (l : List (List FV)) : List FV :=
  (positions t.e.rows t.e.cols).map fun q => if t.e.gaxis then (l.getD q.2 []).getD q.1 (0, Flags.none) else (l.getD q.1 []).getD q.2 (0, Flags.none)

/-- A quire of a moment as the update consumes it: a quire that does not meet the layout is refused (R117) by the checks of R118. -/
def momentQuire (s : State) (x : Ctx) (t : TRef) (i n : Nat) : QRead := feedQuire s x t t.e.policy i n

/-- The values of a stored moment (R74). -/
def readMoment (s : State) (x : Ctx) (t : TRef) : Except XFault (List FV) :=
  match tensorScale s x t.e with
  | .error f => .error f
  | .ok st =>
    match eachOk (fun i => match quireRunBy (momentQuire s x t i) t.e.policy 0 t.e.axisLen with
      | .error f => .error f
      | .ok (a0, q) => .ok ((List.range t.e.axisLen).map (margVal (lineOfRun t.e.policy st a0 0 t.e.axisLen q)))) (List.range t.e.lines) with
    | .error f => .error f
    | .ok l => .ok (fromLines t l)

/-- What storing a moment leaves: the state, the stored values, flags, whether a group took the NaN scale code, a fault. -/
structure Stored where
  s : State
  vals : List FV
  flags : Flags
  nanScale : Bool
  fault : Option XFault

/-- Quantises a moment with dynamic scales and stores it (R365). -/
def storeMoment (s : State) (c : Nat) (x : Ctx) (t : TRef) (stream : Nat) (vals : List FV) : Stored :=
  let p := { t.e.policy with stream := stream }
  match tensorScale s x t.e with
  | .error f => ⟨s, [], Flags.none, false, some f⟩
  | .ok st =>
    let q : QCtx := ⟨p, st, none, x.ident.seed, x.gate.step⟩
    let src := vals.map (·.1)
    let lines := (List.range t.e.lines).map fun i =>
      quantLine q 0 (fun k => let ij := linePos t.e.gaxis i k; logicalIdx t.e ij.1 ij.2) none
        ((List.range t.e.axisLen).map fun k => let ij := linePos t.e.gaxis i k; src.getD (logicalIdx t.e ij.1 ij.2) 0)
    let E := quireElems p.f
    let qs := (List.range lines.length).flatMap fun i =>
      match lines[i]? with
      | none => []
      | some l => (List.range (ceilDiv t.e.axisLen E)).map fun n =>
          (⟨i, n, (formQuire t.e p l i 0 n).1, [], []⟩ : QMove)
    let w := eachPut (fun s m => putQuire s c t m) (touchAll s c t.call true) qs
    let back := lines.map fun l => (List.range t.e.axisLen).map (margVal (lineOfRun p st 0 0 t.e.axisLen l))
    { s := w.1, vals := fromLines t back, flags := lines.foldl (fun a l => a.or l.flags) Flags.none,
      nanScale := lines.any fun l => l.scales.any fun k => (scaleVal p.sf k).isNan, fault := w.2 }

/-- The new master codes: BF16 by SR on stream 0xFFF2, FP32 as they are (R365). -/
def masterCode (x : Ctx) (mfmt k : Nat) (v : FV) : Nat × Flags :=
  if mfmt = 1 then let r := convertCode .fp32 .bf16 .sr (draw x.ident.seed 0xFFF2 x.gate.step k) v.1; (r.1, v.2.or r.2) else v

/-! ### A group (R364–R366) -/

/-- The running result of phase D. -/
structure Upd where
  s : State
  flags : Flags
  un : Bool
  fault : Option XFault

def flagsOfAll (l : List FV) : Flags := l.foldl (fun a v => a.or v.2) Flags.none

/-- Writes the new masters. -/
def putMasters (u : Upd) (c : Nat) (x : Ctx) (t : TRef) (mfmt : Nat) (w : List FV) : Upd :=
  let codes := (List.range w.length).map fun k => masterCode x mfmt k (w.getD k (0, Flags.none))
  let f : Fmt := if mfmt = 1 then .bf16 else .fp32
  let p := putItems (touchAll u.s c t.call true) c t ((List.range codes.length).map fun k => .put (k / t.e.cols) (k % t.e.cols) (codes.getD k (0, Flags.none)).1 false)
  { s := p.1, flags := u.flags.or (flagsOfAll codes),
    un := u.un || codes.any (fun v => !(decode f v.1).isFin), fault := p.2 }

/-- Stores a moment and goes on with the stored values. -/
def withMoment (u : Upd) (c : Nat) (x : Ctx) (t : TRef) (stream : Nat) (vals : List FV) (k : Upd → List FV → Upd) : Upd :=
  let q := storeMoment u.s c x t stream vals
  let u1 : Upd := ⟨q.s, (u.flags.or (flagsOfAll vals)).or q.flags, u.un || q.nanScale, q.fault⟩
  if q.fault.isSome then u1 else k u1 q.vals

def zip3 (f : FV → FV → FV → FV) : List FV → List FV → List FV → List FV
  | a :: as, b :: bs, d :: ds => f a b d :: zip3 f as bs ds
  | _, _, _ => []

/-- The tensors and values a group's update works on. -/
structure GroupIn where
  tw : TRef
  tm : Option TRef
  tv : Option TRef
  w : List FV
  g : List FV
  m : List FV
  v : List FV

/-- Reads a group: masters, gradient times f, moments. -/
def readGroup (s : State) (x : Ctx) (g : Group) (f : Nat) : Except XFault GroupIn :=
  match tensor x g.master, tensor x g.grad with
  | some tw, some tg =>
    let tm := if g.m = 0 then none else tensor x g.m
    let tv := if g.v = 0 then none else tensor x g.v
    match readAll32 s x tw, (if g.sg then readCells32 s x tg else readAll32 s x tg),
          (match tm with | some t => readMoment s x t | none => .ok []), (match tv with | some t => readMoment s x t | none => .ok []) with
    | .ok w, .ok gr, .ok m, .ok v => .ok ⟨tw, tm, tv, w, gr.map fun a => fMul a (FV.of f), m, v⟩
    | .error e, _, _, _ | _, .error e, _, _ | _, _, .error e, _ | _, _, _, .error e => .error e
  | _, _ => .error ⟨.ehandle, 0, g.master⟩

/-- The accesses of reading a group: its masters, its gradient and its moments (R325). -/
def touchGroup (s : State) (c : Nat) (g : Group) : State :=
  [g.master, g.grad, g.m, g.v].foldl (fun s cn => if cn = 0 then s else touchAll s c cn false) s

/-- Updates one group; `g.t` is already the new count. -/
def updateGroup (c f : Nat) (lr : Nat) (u : Upd) (g : Group) : Upd :=
  if g.opt = 0 ∨ u.fault.isSome = true then u else
  match getCtx u.s c with
  | none => u
  | some x =>
    match readGroup u.s x g f with
    | .error e => { u with fault := some e }
    | .ok i =>
      let h := hyperOf g lr g.t
      let u := { u with s := touchGroup u.s c g }
      match g.opt, i.tm, i.tv with
      | 1, some tm, some tv =>
        withMoment u c x tm 0xFFF1 (List.zipWith (adamM h) i.m i.g) fun u1 m =>
          withMoment u1 c x tv tv.e.policy.stream (List.zipWith (adamV h) i.v i.g) fun u2 v =>
            putMasters u2 c x i.tw g.mfmt (zip3 (adamW h) i.w m v)
      | 2, some tm, _ =>
        let w := zip3 (lionW h) i.w i.m i.g
        withMoment (putMasters u c x i.tw g.mfmt w) c x tm 0xFFF1 (List.zipWith (lionM h) i.m i.g) fun u1 _ => u1
      | 3, some tm, _ =>
        withMoment u c x tm 0xFFF1 (zip3 (sgdM h) i.w i.m i.g) fun u1 m => putMasters u1 c x i.tw g.mfmt (List.zipWith (sgdW h) i.w m)
      | 3, none, _ => putMasters u c x i.tw g.mfmt (List.zipWith (sgdPlain h) i.w i.g)
      | _, _, _ => u

/-! ### Re-forming scale tensors (R84) -/

/-- Live learned entries whose masters a group updates. -/
def learnedEntries (x : Ctx) : List Entry :=
  (x.cat.live.map (·.2)).filter fun e =>
    (e.kind == 1 || e.kind == 4) && e.policy.learned && e.masters != 0 && x.pol.groups.any fun g => g.2.master == e.masters

/-- A master held to the range of the scale format. -/
def holdMaster (sf : Fmt) (c : Nat) : XReal :=
  let v := v32 c
  let lo : XReal := if sf == .e4m3 then .pow2 (-9) else .pow2 (-127)
  let hi : XReal := if sf == .e4m3 then .ofNat 448 else .pow2 127
  if v.isNan then .nan else if XReal.lt v lo then lo else if XReal.lt hi v then hi else v

def reformScales (c : Nat) (u : Upd) (e : Entry) : Upd :=
  if u.fault.isSome then u else
  match getCtx u.s c with
  | none => u
  | some x =>
    match tensor x e.masters, tensor x e.scales with
    | some tm, some ts =>
      match readAll32 u.s x tm with
      | .error f => { u with fault := some f }
      | .ok l =>
        let rm := (RM.ofCode e.policy.round).getD .rne
        let codes := (List.range l.length).map fun k =>
          convert e.policy.sf rm (draw x.ident.seed 0xFFF3 x.gate.step k) (holdMaster e.policy.sf (l.getD k (0, Flags.none)).1)
        let p := putItems (touchAll (touchAll u.s c tm.call false) c ts.call true) c ts ((List.range codes.length).map fun k => .put (k / ts.e.cols) (k % ts.e.cols) (codes.getD k (0, Flags.none)).1 false)
        { u with s := p.1, flags := u.flags.or (flagsOfAll codes), fault := p.2 }
    | _, _ => u

/-! ### Re-forming images (R85, R365, R397) -/

/-- An image's policy and rung at the next step boundary; none at rung 4. -/
def imagePolicy (x : Ctx) (a : Attempt) (e : Entry) : Option (Policy × Nat) :=
  match tget x.pol.watch e.layer with
  | none => some (e.policy, 0)
  | some w =>
    if e.layer = 0xFFFF then some (e.policy, 0) else
    match rungNext a x e.layer with
    | none => some (e.policy, 0)
    | some r => if r = 4 then none else some (policyAt e.policy w r, r)

/-- Re-forms one line. -/
def reformLine (c : Nat) (x : Ctx) (t src : TRef) (p : Policy) (st : Nat) (acc : Upd × Bool) (i : Nat) : Upd × Bool :=
  if acc.1.fault.isSome then acc else
  match quantLineOut acc.1.s x t src p st i i 0 t.e.axisLen with
  | .error f => ({ acc.1 with fault := some f }, acc.2)
  | .ok (qs, fl, ov) =>
    let w := eachPut (fun s q => putQuire s c t q) acc.1.s qs
    ({ acc.1 with s := w.1, flags := acc.1.flags.or fl, fault := w.2 }, acc.2 || ov)

/-- The accesses of re-forming an image: its source, learned scales and zero points, tensor scale, and its quires (R325). -/
def reformTouch (s : State) (c : Nat) (t src : TRef) (p : Policy) : State :=
  touchAll (touchFlat (touchLearned (touchAll s c src.call false) c t.e p t.e.whole none) c t.e.tscale 0 1 false) c t.call true

/-- Re-forms the image of call number `cn`. It reports one overfull event, however many of its blocks are overfull (R106, R107; log 123). -/
def reformImage (c : Nat) (a : Attempt) (u : Upd) (cn : Nat) : Upd :=
  if u.fault.isSome ∨ cn = 0 then u else
  match getCtx u.s c with
  | none => u
  | some x =>
    match tensor x cn with
    | none => { u with fault := some ⟨.ehandle, 0, cn⟩ }
    | some t =>
      match imagePolicy x a t.e, tensor x t.e.source with
      | some (p, r), some src =>
        if !rungOk x t.e p then { u with fault := some eargF } else
        match tensorScale u.s x t.e with
        | .error f => { u with fault := some f }
        | .ok st =>
        let q := (List.range t.e.lines).foldl (reformLine c x t src p st) ({ u with s := reformTouch u.s c t src p }, false)
        let layer := t.e.layer
        let s1 := modCtx q.1.s c fun x =>
          { x with pol := { x.pol with imageRung := tset x.pol.imageRung t.idx r } }
        let s2 := if !q.2 then s1 else if layer = 0xFFFF then countEv s1 pgCataloguer 0x103 1 (some c)
          else modAtt s1 c fun a => lateStats a (overRec 0 t)
        { q.1 with s := s2 }
      | _, _ => u

/-! ### Phase D -/

/-- The learning rate of every group, read at the start of the phase. -/
def lrsOf (s : State) (x : Ctx) : Except XFault (List (Nat × Nat)) :=
  eachOk (fun g => match flatCode s x g.2.lr 0 with | .error f => .error f | .ok q => .ok (g.1, q.2)) x.pol.groups

/-- Increments the counts of the groups that update. -/
def nextCounts (t : Tab Group) : Tab Group := t.map fun g => if g.2.opt = 0 then g else (g.1, { g.2 with t := g.2.t + 1 })

/-- The committed bytes of scale tensors that the update re-forms and no volume holds, kept for a rollback (R368). -/
def savedScales (s : State) (x : Ctx) : List (Nat × List (Byte × Bool)) :=
  let held := volumeCalls s x
  (((learnedEntries x).map (·.scales)).foldl addNew []).filterMap fun cn =>
    if held.contains cn then none else (tensor x cn).map fun t => (cn, tensorData s x t)

def runUpdate (s : State) (c : Nat) (a : Attempt) (f : Nat) : Upd :=
  let s0 := modCtx s c fun x => { x with pol := { x.pol with groups := nextCounts x.pol.groups } }
  match getCtx s0 c with
  | none => ⟨s, Flags.none, false, none⟩
  | some x =>
    match lrsOf s0 x with
    | .error e => ⟨s0, Flags.none, false, some e⟩
    | .ok lrs =>
      let sl := x.pol.groups.foldl (fun s g => touchFlat s c g.2.lr 0 1 false) s0
      let u0 : Upd := ⟨sl, Flags.none, lrs.any (fun l => !(v32 l.2).isFin), none⟩
      let u1 := x.pol.groups.foldl (fun u g => updateGroup c f (tgetD lrs g.1 0) u g.2) u0
      let u2 := (learnedEntries x).foldl (reformScales c) u1
      (x.pol.groups.flatMap fun g => g.2.images).foldl (reformImage c a) u2

/-- An attempt fails with a code unless it has one. -/
def Attempt.fail (a : Attempt) (st : Status) (t : Nat) : Attempt :=
  if a.status == .success then { a with status := st, firstFault := t } else a

/-- Phase D as a whole: its writes and flags, then the vote is due. -/
def updatePhase (s : State) (c : Nat) (x : Ctx) (a : Attempt) (f : Nat) : State :=
  let u := runUpdate s c a f
  let s1 := raiseVec u.s c x u.flags
  let s2 := match u.fault with
    | some e => if e.status == .epoison then eventRec s1 c e.status.code e.detail else s1
    | none => s1
  modAtt s2 c fun b =>
    let b1 := { b with phase := .vote, updated := true, saved := savedScales s x, un := u.un }
    match u.fault with | some e => b1.fail e.status s.now | none => b1

def execOptimiserUpdate (c : Nat) (s : State) : Outc :=
  if !coreUp s .circulation then .next s else
  match getCtx s c with
  | none => .next s
  | some x =>
    match x.att with
    | none => .next s
    | some a =>
      match a.phase, a.decision with
      | .update, some d => .next (updatePhase s c x a d.f)
      | _, _ => .next s

end Sys2Proof.Machine
end

