-- ==== Sys2Proof/Machine/RunStep.lean ====
section
/-! DEFINITION. Ends of attempts and of RUN_STEP, and what waits on them: PAUSE, RESHARD, CHECKPOINT and PREEMPT (R372, R373, R430,
R474, R480, R507, R508, R544, R545, R550). -/

namespace Sys2Proof.Machine

def opRunStep : Nat := 0x07
def opCheckpoint : Nat := 0x0A
def opPreempt : Nat := 0x0C

/-! ### Buffer lists (R536) -/

/-- The entries of a buffer list: address and length. -/
def readList (s : State) (x : Ctx) (addr n : Nat) : List (Nat × Nat × Bool) :=
  (List.range n).map fun k =>
    let b := readVa s x (addr + 16 * k) 16
    (fld b 0 8, fld b 8 4, zeroAt b 12 4)

/-- Every length is a non-zero multiple of 4 KiB and the reserved bytes are 0. -/
def listOk (l : List (Nat × Nat × Bool)) : Bool := l.all fun e => e.2.1 != 0 && e.2.1 % 4096 == 0 && e.2.2
def listBytes (l : List (Nat × Nat × Bool)) : Nat := (l.map (·.2.1)).sum
def listMapped (x : Ctx) (l : List (Nat × Nat × Bool)) (write : Bool) : Bool := l.all fun e => bufferOk x e.1 e.2.1 write

/-- The address of byte `off` of the buffers in list order. -/
def listAddr : List (Nat × Nat × Bool) → Nat → Option Nat
  | [], _ => none
  | e :: r, off => if off < e.2.1 then some (e.1 + off) else listAddr r (off - e.2.1)

/-- Writes bytes from offset `off` of the buffers: one access to each buffer. -/
def writeList (c : Nat) : List (Nat × Nat × Bool) → Nat → Bytes → State → State
  | [], _, _, s => s
  | e :: r, off, b, s =>
    if b.isEmpty then s
    else if e.2.1 ≤ off then writeList c r (off - e.2.1) b s
    else writeList c r 0 (b.drop (e.2.1 - off)) (writeVa s c (e.1 + off) (b.take (e.2.1 - off)))

/-- A list of `n` entries and the buffers it names are read. -/
def readBuffers (s : State) (c addr n : Nat) (l : List (Nat × Nat × Bool)) : State :=
  l.foldl (fun s e => readBuffer s c e.1 e.2.1) (readBuffer s c addr (16 * n))

/-- Reads `n` bytes from offset `off` of the buffers. -/
def listRead (s : State) (x : Ctx) (l : List (Nat × Nat × Bool)) (off : Nat) : Nat → Bytes
  | 0 => []
  | n + 1 => (match listAddr l off with | some a => (readVa s x a 1).headD 0 | none => 0) :: listRead s x l (off + 1) n

/-! ### CHECKPOINT and PREEMPT (R507, R508) -/

/-- Adds to the readers of a second-copy slot. -/
def slotReaders (f : Nat → Nat) (n : Nat) (v : Vols) : Vols :=
  if n = 0 then { v with slot0 := { v.slot0 with readers := f v.slot0.readers } }
  else { v with slot1 := { v.slot1 with readers := f v.slot1.readers } }

/-- A long command ends: its reader leaves the slot, its entry is written, and a pre-empted context is PAUSED. -/
def endLong (s : State) (c : Nat) (st : Status) (result : Nat) : State :=
  match getCtx s c with
  | none => s
  | some x =>
    match x.long with
    | none => s
    | some l =>
      let y := { x with long := none, vols := match l.slot with | some n => slotReaders (· - 1) n x.vols | none => x.vols }
      let z := if l.opcode = opPreempt ∧ y.ident.st = .checkpointing then y.setSt .paused else y
      completePauses (complete (setCtx s c z) l.q l.cid st result) c

/-- What the command writes: the newest commit's slot, the snapshot where no slot is filled, or the state as it stands (log 21). -/
def longVolume (s : State) (x : Ctx) (kind : Nat) : Volume × Option Nat :=
  match newestSlot x with
  | some p => (p.2.asKind x kind, some p.1)
  | none => match x.vols.snapshot with
    | some v => (v.asKind x kind, none)
    | none => (formVolume s x kind, none)

/-- A CHECKPOINT or PREEMPT takes its volume; its buffers must hold it whole. -/
def captureLong (s : State) (c : Nat) : State :=
  match getCtx s c with
  | none => s
  | some x =>
    match x.long with
    | none => s
    | some l =>
      if l.vol.isSome ∨ (l.opcode = opPreempt ∧ (x.att.isSome = true ∨ x.run.isSome = true)) then s else
      let v := longVolume s x (if l.opcode = opPreempt then 2 else 1)
      let buf := readList s x l.list l.entries
      let s0 := if v.2.isNone ∧ x.vols.snapshot.isNone then touchVolume s c x else s
      let x := (getCtx s0 c).getD x
      let y := { x with long := some { l with vol := some v.1, slot := v.2 },
                        vols := match v.2 with | some n => slotReaders (· + 1) n x.vols | none => x.vols }
      let s1 := setCtx s0 c y
      if listBytes buf < v.1.size then endLong s1 c .ebound 0 else s1

/-- Writes the next `n` bytes of a volume from byte `p` of its writing order on: what they hold of the shards, then of the colophon. -/
def writeVolume (s : State) (c : Nat) (l : List (Nat × Nat × Bool)) (v : Volume) (p n : Nat) : State :=
  let col := v.colophon.length
  let body := v.shards.flatMap (·.bytes)
  writeList c l (p - body.length) ((v.colophon.take (p + n - body.length)).drop (p - body.length))
    (writeList c l (col + p) (slice body p n) s)

/-- A slice of a CHECKPOINT or PREEMPT: `units` more bytes; after the last it completes (R505–R508). -/
def longSlice (s : State) (c units : Nat) : State :=
  match getCtx s c with
  | none => s
  | some x =>
    match x.long with
    | none => s
    | some l =>
      match l.vol with
      | none => captureLong s c
      | some v =>
        let n := min units (v.size - l.pos)
        let s1 := writeVolume s c (readList s x l.list l.entries) v l.pos n
        let s2 := modCtx s1 c fun x => { x with long := some { l with pos := l.pos + n } }
        if l.pos + n = v.size then
          let s3 := if v.poisoned then eventRec s2 c Status.epoison.code 0 else s2
          endLong s3 c (if v.poisoned then .epoison else .success) v.size
        else s2

/-! ### The end of a RUN_STEP (R544) -/

/-- RUN_STEP completes; the context is READY at its count, PAUSED otherwise, and what waited for it goes on. -/
def endRun (s : State) (c : Nat) (st : Status) : State :=
  match getCtx s c with
  | none => s
  | some x =>
    match x.run with
    | none => s
    | some r =>
      let next : CtxSt := if st = .success ∧ r.pause = false ∧ r.ending = none then .ready else .paused
      let y := { x with run := none, ident := { x.ident with st := if x.ident.st = .running then next else x.ident.st } }
      let s1 := complete (setCtx s c y) r.q r.cid st (x.gate.step % 2 ^ 48)
      let s2 := if x.ident.st = .running ∧ next = .ready then s1 else completePauses s1 c
      captureLong (reshardNow s2 c) c

/-! ### The report (R373) -/

/-- The verdicts of the running attempt's collectives. -/
def attemptColls (x : Ctx) : List Coll := x.colls.filter fun q => idNow x q.id && q.epoch == x.gate.epoch && !isVote q.id

def sumOver (f : Verdict → Nat) (l : List Coll) : Nat := (l.map fun q => match q.verdict with | some v => f v | none => 0).sum

/-- The norm-reduce's result on this member. -/
def normOf (x : Ctx) : Option NormResult :=
  match x.pol.job with
  | none => none
  | some j => match getColl x (collId x j.normDesc 0) with | some q => q.norm | none => none

/-- The step number of the attempt that ends: its commit has advanced the count. -/
def endedStep (x : Ctx) (outcome : Nat) : Nat := if outcome = 0 then (x.gate.step + 2 ^ 48 - 1) % 2 ^ 48 else x.gate.step

/-- A halving or doubling was held at its bound (R359). -/
def heldAtBound (x : Ctx) (a : Attempt) (outcome : Nat) : Bool :=
  let dyn := match x.pol.job with | some j => j.dyn && j.edition != 1 | none => false
  dyn && ((outcome == 1 && a.eUsed == -24) || (outcome == 0 && a.eUsed == 40 && x.gate.clean == 0))

/-- The report. Its counts come from the verdicts, which every member holds alike: beside those of the attempt, the deferrals that its commit
dropped (R373, R421; log 131). -/
def reportOf (x : Ctx) (a : Attempt) (outcome : Nat) (st : Status) : Report :=
  let l := attemptColls x
  let d := a.decision
  let def_ := sumOver (·.deferred) l
  { step := endedStep x outcome, outcome := outcome, eUsed := a.eUsed, eNext := x.gate.exp, bound := heldAtBound x a outcome,
    clean := x.gate.clean % 2 ^ 16, consec := min x.gate.consec 0xFFFF, skips := x.gate.skips % 2 ^ 64,
    ss := match d with | some d => d.q | none => 0, norm := match d with | some d => d.u32 | none => 0,
    clipf := match d with | some d => d.k32 | none => 0, status := st.code,
    contrib := match normOf x with | some r => r.contrib | none => 0,
    deferred := def_,
    dropped := sumOver (·.dropped) l + (if outcome = 0 then (a.lost.filter (·.2.2.2 == 1)).length else def_) }

/-- The report's words, as elements of the report tensor. -/
def writeReport (s : State) (c : Nat) (x : Ctx) (r : Report) : State :=
  match x.pol.job with
  | none => s
  | some j =>
    match tensor x j.report with
    | none => s
    | some t =>
      let b := r.toBytes
      if t.e.kind = 0 ∧ t.e.fmt = 13 ∧ t.size = 16 then
        (putItems (touchAll s c t.call true) c t ((List.range 16).map fun k => .put (k / t.e.cols) (k % t.e.cols) (fld b (4 * k) 4) false)).1
      else s

/-! ### The attempt's global records (R477, R479, R480) -/

/-- What one collective of the attempt says of logical contributions: deferred, dropped, absent, consumed. -/
def collCRecs (s : State) (x : Ctx) (outcome : Nat) (q : Coll) : List CRec :=
  match memberOf s x (idDesc q.id), q.verdict with
  | some k, some v =>
    let one (n a : Nat) : CRec := (idDesc q.id, idSeq q.id, n, a)
    let ex := if v.outcome != .partialGo then [] else (excludedRanks k v).flatMap fun r =>
      (k.numbers r).flatMap fun n =>
        let act := if k.d.carry && x.gate.owed.any (fun y => (outcome == 0 || y.fresh) && !y.lost && y.desc == k.di && y.seq == idSeq q.id && y.contribution == n) then 0 else 1
        one n act :: (if act == 0 && outcome != 0 then [one n 1] else [])
    ex ++ q.consumed.map fun n => one n 2
  | _, _ => []

def contributionRecs (s : State) (x : Ctx) (a : Attempt) (outcome : Nat) : List TRec :=
  formCRecs ((attemptColls x).flatMap (collCRecs s x outcome) ++ a.lost)

/-- The watch records: every entry's alerts, then its demotion if the attempt commits. -/
def watchTRecs (a : Attempt) (outcome : Nat) : List TRec :=
  let one (r : Nat × Nat × Nat × Nat × Nat) : TRec :=
    ⟨5, false, leBytes 2 r.1 ++ leBytes 1 r.2.1 ++ leBytes 1 r.2.2.1 ++ leBytes 1 r.2.2.2.1 ++ leBytes 1 r.2.2.2.2 ++ zeros 10⟩
  a.rungs.flatMap fun d =>
    (a.watchRecs.filter (·.1 == d.entry)).map one
    ++ if outcome = 0 ∧ d.demoted < d.promoted then [one (d.entry, 0, 4, d.old, d.demoted)] else []

/-- Records of an attempt's end: global for outcomes 0 to 3, one local report otherwise. -/
def endRecs (s : State) (x : Ctx) (a : Attempt) (r : Report) : List TRec :=
  if r.outcome ≤ 3 then
    contributionRecs s x a r.outcome ++ watchTRecs a r.outcome ++ [⟨3, false, ({ r with status := 0 } : Report).toBytes⟩]
  else [⟨3, true, r.toBytes⟩]

/-- The end of an attempt finds room in the 1 MiB staging buffer for its global records, or waits (R481, R482). -/
def stagingHolds (s : State) (x : Ctx) (a : Attempt) (outcome : Nat) : Bool :=
  x.pol.mode.ring == 0 || stagedBytes x + ((endRecs s x a (reportOf x a outcome .success)).map (48 + ·.body.length)).sum ≤ 1048576

/-- Beats of the last refresh window counted that lie past the attempt's end. -/
def pastEnd (s : State) (a : Attempt) : Nat := match a.held.refresh with | some b => b + 9 - max b (s.now / 40) | none => 0

/-- The meter record (R474). -/
def meterOf (s : State) (a : Attempt) : Meter :=
  let m := a.meter
  { m with beats := s.now / 40 - a.start / 40, refresh := m.refresh - pastEnd s a, valid := a.meteredOn && !m.crash && !m.clock && !m.shared }

/-! ### The end of an attempt (R372–R376) -/

/-- The code of the attempt on this member: of its faults the earliest, and of equal times the lowest stream (R244). -/
def ownStatus (x : Ctx) (a : Attempt) : Status :=
  if a.status = .success ∨ a.status = .eaborted ∨ a.status = .enorm then a.status else
  match x.faults.find? (fun f => f.2.time == a.firstFault) with | some f => f.2.status | none => a.status

/-- After an attempt that did not commit, what it consumed is in force again and what it deferred is dropped (R376). -/
def keepCarry (l : List Carried) : List Carried := (l.filter fun y => !y.fresh).map fun y => { y with used := false }

/-- The same of the job's deferrals. -/
def keepOwed (l : List Owed) : List Owed := (l.filter fun y => !y.fresh).map fun y => { y with used := false }

/-- Takes RUN_STEP on after an attempt (R544). -/
def continueRun (s : State) (c outcome : Nat) (st : Status) (diverged : Bool) : State :=
  match getCtx s c with
  | none => s
  | some x =>
    match x.run, x.pol.job with
    | some r, some j =>
      let limit := match j.limitOf with | some n => n ≤ x.gate.consec | none => false
      if r.ending = some .eaborted then endRun s c .eaborted
      else if diverged then endRun s c .ediverge
      else if 4 ≤ outcome then endRun s c st
      else if r.ending.isSome then endRun s c (r.ending.getD .success)
      else if st ≠ .success then endRun s c st
      else if outcome ≠ 0 ∧ limit = true then endRun s c .eskiplimit
      else if r.count ≠ 0xFFFFFFFF ∧ r.count ≤ r.commits then endRun s c .success
      else if r.pause then endRun s c .success
      else s
    | some _, none => endRun s c .eaborted
    | none, _ => s

/-- The records, report and meter of an attempt that ends. -/
def recordEnd (s : State) (c : Nat) (x : Ctx) (a : Attempt) (r : Report) : State :=
  let s1 := writeReport (flushFlags s c) c x r
  let s2 := (endRecs s x a r).foldl (fun s t => addRecAt s c r.step t) s1
  let m := meterOf s a
  let s3 := addRec s2 c ⟨8, true, m.toBytes⟩
  let blk := match normOf x with | some n => n.block | none => watchBlock x a.acc
  let s4 := modCtx s3 c fun y => { y with report := some r, meter := some m, block := blk }
  if r.outcome ≤ 3 then replayEnd s4 c else s4

/-- This attempt's records met the first divergence from the reference. -/
def divergedNow (x : Ctx) : Bool :=
  match x.divergence with | some d => x.tr.attemptRecs.any fun r => r.1 == d.seq | none => false

/-- An attempt ends with an outcome and its status on this member: report, transcript, carry set, then what `last` still does, progress entry,
RUN_STEP. -/
def finishWith (last : State → State) (s : State) (c outcome : Nat) (st : Status) : State :=
  match getCtx s c with
  | none => s
  | some x =>
    match x.att with
    | none => s
    | some a =>
      let r := reportOf x a outcome st
      let s1 := recordEnd s c x a r
      let div := match getCtx s1 c with | some y => divergedNow y | none => false
      let s2 := last <| countDrops (modCtx s1 c fun y =>
        { y with att := none, tr := { y.tr with attemptRecs := [] },
                 gate := { y.gate with carry := if outcome = 0 then y.gate.carry else keepCarry y.gate.carry,
                                       owed := if outcome = 0 then y.gate.owed else keepOwed y.gate.owed } })
        c (if outcome = 0 then [] else x.gate.carry.filter (·.fresh))
      let s3 := match x.run with
        | some q => if q.prog then postEntry s2 q.q { cid := q.cid, status := .success, progress := true, queue := queueNum q.q,
                                                      sqhead := (match getQueue s2 q.q with | some v => v.head | none => 0),
                                                      result := r.step % 2 ^ 48 + outcome * 2 ^ 48 } else s2
        | none => s2
      continueRun s3 c outcome st div

def finishAttempt (s : State) (c outcome : Nat) (st : Status) : State := finishWith id s c outcome st

end Sys2Proof.Machine
end

