-- ==== Sys2Proof/Machine/StepGate.lean ====
section
/-! DEFINITION. The phases of a step: admission, end of the program, decision, vote, seal, skip, second copy and drain (R17, R181, R196,
R244, R327, R328, R332, R346–R377, R463, R482, R491–R500, R662). -/

namespace Sys2Proof.Machine

/-! ### The step boundary (R16, R181, R327, R328, R332, R336, R463, R547) -/

/-- How many granules each carrel of a list holds. -/
def granulesOn (x : Ctx) (k : Nat) : Nat := (x.cat.scratch.map fun t => (t.2.owners.filter (· == k)).length).sum

/-- The carrel of a grant with the fewest granules, the lowest among equals. -/
def fewest (count : Nat → Nat) : List Nat → Nat
  | [] => 0
  | k :: r => r.foldl (fun b j => if count j < count b then j else b) k

/-- The next carrel of a grant after one that is withdrawn. -/
def nextCarrel (grant : List Nat) (k : Nat) : Nat := (grant.find? (k < ·)).getD (grant.headD 0)

/-- Where a granule goes whose carrel has left the grant: to the next carrel where it was withdrawn, else to the one that holds fewest. -/
def granuleTo (s : State) (grant : List Nat) (held : Tab Nat) (o : Nat) : Nat :=
  if !carrelIn s o then nextCarrel grant o else fewest (fun k => tgetD held k 0) grant

/-- A granule that cannot be read is poisoned in its new place (R327, R328): 64 lines of 64 bytes. -/
def poisonGranule (t : Scratch) (g : Nat) : Scratch :=
  { t with poison := (List.range 64).foldl (fun l k => insertN l (64 * g + k)) t.poison }

/-- A granule is copied to its new place; whether it can be read is the n-th free value. -/
def copyGranule (n : Nat) (t : Scratch) (g : Nat) : Scratch := if Config.granuleReads n then t else poisonGranule t g

/-- Deals the granules of a tensor from granule `g` on: `held` counts what each carrel holds, `n` numbers the copies. -/
def moveGranules (s : State) (grant : List Nat) : Nat → List Nat → Scratch × Tab Nat × Nat → Scratch × Tab Nat × Nat
  | _, [], a => a
  | g, o :: r, (t, held, n) =>
    if grant.contains o then moveGranules s grant (g + 1) r (t, held, n) else
    let k := granuleTo s grant held o
    moveGranules s grant (g + 1) r (copyGranule n { t with owners := t.owners.set g k } g, tset held k (tgetD held k 0 + 1), n + 1)

/-- A context's scratch granules after its grant has changed, and the number of the next free value. -/
def rehome (s : State) (x : Ctx) (grant : List Nat) : Tab Scratch × Nat :=
  let q := x.cat.scratch.foldl (fun (acc : Tab Scratch × Tab Nat × Nat) t =>
    let m := moveGranules s grant 0 t.2.owners (t.2, acc.2.1, acc.2.2)
    (acc.1 ++ [(t.1, m.1)], m.2.1, m.2.2))
    ([], grant.map fun k => (k, granulesOn x k), s.free)
  (q.1, q.2.2)

/-- Waiting activation tables take effect. -/
def applyTables (t : Tab Bytes) (l : Tab (Option Bytes)) : Tab Bytes :=
  l.foldl (fun t p => match p.2 with | some b => tset t p.1 b | none => tdel t p.1) t

/-- A context's quotas and way mask from a step boundary on. -/
def Ident.quotas (q : Ident) : Ident :=
  let m := { q with wayMask := q.maskNext.getD q.wayMask, maskNext := none }
  match q.quotaNext with
  | some (n, w, wt, fr) => { m with carrels := n, ways := w, weight := wt, frames := fr, quotaNext := none }
  | none => m

/-- The carrels of a context from a step boundary on, those of a quarantined bay included. -/
def Ident.carrelsNext (q : Ident) : List Nat := q.grantNext.getD (q.lent.foldl insertN q.grant)

/-- What takes effect at a step boundary of a context. -/
def boundary (s : State) (x : Ctx) : Ctx :=
  let all := x.ident.carrelsNext
  let grant := all.filter (carrelIn s)
  { x with
    ident := { x.ident.quotas with grant := grant, grantNext := none, lent := all.filter (onlyQuarantined s) },
    cat := { x.cat with scratch := (rehome s x grant).1,
                        balanceOff := match x.cat.schedNext with | some p => p.1 | none => x.cat.balanceOff,
                        reshelveOff := match x.cat.schedNext with | some p => p.2 | none => x.cat.reshelveOff, schedNext := none },
    prog := match x.progNext with | some p => some p | none => x.prog, progNext := none,
    tr := match x.pol.modeNext with
      | some m => if m.ring = x.pol.mode.ring then x.tr else { x.tr with ringOff := 64 }
      | none => x.tr,
    pol := { x.pol with act := applyTables x.pol.act x.pol.actNext, actNext := [], mode := x.pol.modeNext.getD x.pol.mode, modeNext := none } }

/-- A step boundary of a context: its granules have been copied, and the cached lines in ways that leave its mask written back and
invalidated (R280). -/
def atStepBoundary (s : State) (c : Nat) (x : Ctx) : State :=
  let y := boundary s x
  let s1 := setCtx { s with free := (rehome s x y.ident.grant).2 } c y
  if s.host.partition then flushLines s1 fun l => l.tag == c && !bitOf y.ident.wayMask l.way else s1

/-! ### Admission (R350, R353, R482, R491–R495) -/

/-- The member's buddy: in its range, the next higher x0, cyclically (R496). -/
def buddyOf (k : Member) (r : Nat) : Option Nat :=
  let co := k.coord r
  let d := (List.range 15).find? fun i => (List.range k.m).any fun j => k.coord j == co / 16 * 16 + (co % 16 + i + 1) % 16
  match d with
  | none => none
  | some i => (List.range k.m).find? fun j => k.coord j == co / 16 * 16 + (co % 16 + i + 1) % 16

/-- The drain target of an admission: 1 buddy, 2 file store, 3 none; no value where target 1 lacks a buddy (R491). Whether the policy keeps
slots to drain is no condition of the rule. -/
def drainTarget (s : State) (x : Ctx) : Option Nat :=
  let all := match jobMember s x with | some k => (List.range k.m).all fun r => (buddyOf k r).isSome | none => false
  let big := match jobMember s x with | some k => 64 ≤ k.m | none => false
  if x.pol.vol.target = 1 then (if all then some 1 else none)
  else if x.pol.vol.target = 2 then some 2
  else if x.pol.vol.target = 3 then some 3
  else if all && big then some 1
  else if x.pol.vol.area ≠ 0 then some 2 else some 3

/-- A serve job's norm_desc names a defined barrier (R350). -/
def serveOk (x : Ctx) (j : Job) : Bool :=
  j.edition != 1 || (match tget x.pol.descs j.normDesc with | some d => d.op == 5 | none => false)

/-- Another patron runs an attempt now (R469). -/
def othersRun (s : State) (x : Ctx) : Bool := s.ctxs.any fun p => p.2.ident.patron != x.ident.patron && p.2.att.isSome

/-- An attempt of another patron is no longer alone, metered or not (R474). -/
def markShared (s : State) (x : Ctx) : State :=
  { s with ctxs := s.ctxs.map fun p =>
      if p.2.ident.patron = x.ident.patron then p else (p.1, p.2.modAtt fun a => { a with meter := { a.meter with shared := true } }) }

/-- The streams of the attempt, each with an issue carrel of the cataloguer's choice (R194, R195). -/
def startStreams (step : Nat) : List ProgStream → Nat → State → List Nat → List Stream × State
  | [], _, s, _ => ([], s)
  | p :: r, n, s, grant =>
    let k := chooseFrom s grant
    let q := startStreams step r (n + 1) k.2 grant
    (Stream.start p step n k.1 :: q.1, q.2)

def newAttempt (s : State) (x : Ctx) (streams : List Stream) (alone : Bool) (st : Status) : Attempt :=
  { phase := .program, start := s.now, eUsed := x.gate.exp, status := st, firstFault := s.now, streams := streams, opSeq := 0, folios := [],
    records := [], contributed := false, normIssued := false, item := none, acc := [], lateOut := [], lateGrad := [], lateOvf := [],
    decision := none, rungs := [], watchRecs := [], lost := [], updated := false, saved := [], un := false, voted := false, vote := none,
    voteTime := 0, meteredOn := x.pol.mode.metered && alone, meter := { Meter.zero with shared := !alone, crash := s.fw.live.isSome }, held := ⟨none, [], []⟩ }

/-- Writes 2^e into the loss-scale tensor and clears the scale-gradient cells (R353, R356). -/
def phaseAWrites (s : State) (c : Nat) (x : Ctx) (j : Job) : State :=
  if j.edition = 1 then s else
  let s1 := match tensor x j.ls with
    | some t => (putItems (touchAt s c t.call ⟨0, 0, 1, 1⟩ true) c t [.put 0 0 (roundTo .fp32 (.pow2 x.gate.exp)).1 false]).1
    | none => s
  x.pol.groups.foldl (fun s g =>
    if !g.2.sg then s else
    match tensor x g.2.grad with
    | none => s
    | some t => (positions t.e.rows t.e.cols).foldl (fun s q => (writeCell s c t q.1 q.2 Ledger.empty).getD s) (touchAll s c t.call true)) s1

/-- What an admission settles: the drain target, the size of the second-copy region, the frames of a snapshot that is due. -/
structure Admission where
  target : Nat
  sized : Nat
  snap : Option Nat
deriving DecidableEq, Repr

/-- The frames that an admission charges beyond those held (R492, R495). -/
def Admission.frames (x : Ctx) (v : Admission) : Nat := (if x.pol.vol.copy then 2 * ceilDiv v.sized frameBytes else 0) + v.snap.getD 0

/-- What an admission finds before it changes anything, or the code that ends the RUN_STEP. The region is sized anew after a SET_POLICY, or
where the volume has outgrown it (R492, log 148). -/
def admission (s : State) (c : Nat) (x : Ctx) (j : Job) : Except Status Admission :=
  if !serveOk x j then .error .earg else
  match drainTarget s x with
  | none => .error .earg
  | some tg =>
    let size := volSize s x
    let due := !(match x.vols.slot0.vol, x.vols.slot1.vol with
      | some a, some b => a.step == x.gate.step || b.step == x.gate.step
      | some a, none => a.step == x.gate.step
      | none, some b => b.step == x.gate.step
      | none, none => false)
    let v : Admission := ⟨tg, if x.vols.resize ∨ x.vols.sized < size then size else x.vols.sized,
      if due then some (volPages s x).length else none⟩
    if x.ident.frames < heldFrames s c + carryFrames x + v.frames x then .error .elimit else .ok v

/-- Under metered timing the conservator returns to the clock set at an admission (R475). -/
def toSet (s : State) : State := { s with control := { s.control with drops := [], climb := if coreAlive s .conservator then 16 else s.control.climb } }

/-- Phase A once it is certain: the attempt counter, the attempt, its writes and batch records. -/
def admitAttempt (s : State) (c : Nat) (x : Ctx) (j : Job) (v : Admission) : State :=
  let alone := !othersRun s x
  let buddyFull := v.target = 1 && x.ident.frames < heldFrames s c + carryFrames x + v.frames x + 2 * ceilDiv v.sized frameBytes
  let g := { x.gate with attempt := x.gate.attempt + 1, ranStep := true }
  let k := startStreams x.gate.step (match x.prog with | some p => p.streams | none => []) 0 s x.ident.grant
  let w := { x.vols with sized := v.sized, target := v.target, resize := false, snapFrames := v.snap.getD 0,
                         snapshot := if v.snap.isSome then some (formVolume s x 0) else none }
  let y := { x with gate := g, faults := [], vols := w, att := some (newAttempt s x k.1 alone (if buddyFull then .elimit else .success)) }
  let z := { y with colls := y.colls.filter fun q => q.epoch == y.gate.epoch && idNow y q.id,
                    tr := { y.tr with attemptRecs := [] } }
  let s0 := setCtx k.2 c z
  let s1 := phaseAWrites (markShared (if v.snap.isSome then touchVolume s0 c x else s0) z) c z j
  let s2 := touchBatches (countEv s1 (pgCtx c) 0x100 1 (some c)) c z
  (batchRecs s1 z).foldl (fun s r => addRec s c r) (if x.pol.mode.metered && alone then toSet s2 else s2)

/-- A RUN_STEP whose next attempt can be admitted. -/
def canAdmit (x : Ctx) : Bool :=
  x.ident.st == .running && x.att.isNone && stagingAdmits x && (match x.run with | some r => !r.pause && r.ending.isNone | none => false)

def execStepAdmit (c t : Nat) (s : State) : Outc :=
  let s := s.at t
  if !coreUp s .circulation then .next s else
  match getCtx s c with
  | none => .next s
  | some x =>
    match canAdmit x, x.pol.job with
    | true, some j =>
      let y := boundary s x
      let s1 := atStepBoundary s c x
      if y.ident.grant.isEmpty then .next (endRun (setCtx s1 c (y.setSt .faulted)) c .eaborted) else
      match admission s1 c y j with
      | .error e => .next (endRun s1 c e)
      | .ok v => .next (admitAttempt s1 c y j v)
    | _, _ => .next s

/-! ### The end of the program phase (R196, R244, R362) -/

/-- Nothing of the program is in flight. -/
def quietProgram (a : Attempt) : Bool := a.streams.all (fun t => t.window.isEmpty) && a.records.isEmpty

def execProgramPhaseFail (c : Nat) (s : State) : Outc :=
  .next (modAtt s c fun a =>
    if a.phase == .program && a.status != .success && quietProgram a then { a with phase := .decide } else a)

/-- The phase ends when every stream has ended and nothing is in flight; without its norm-reduce the attempt fails (R362). -/
def endProgram (needNorm : Bool) (now : Nat) (a : Attempt) : Attempt :=
  if a.phase == .program && a.status == .success && a.streams.all (·.ended) && quietProgram a then
    let b := { a with phase := .decide }
    if needNorm && !a.normIssued then b.fail .enorm now else b
  else a

def execProgramPhaseEnd (c : Nat) (s : State) : Outc :=
  match getCtx s c with
  | none => .next s
  | some x => .next (modAtt s c (endProgram (x.edition != 1) s.now))

/-! ### Phase C (R350, R360, R363) -/

def qnan64 : Nat := 0x7FF8000000000000

/-- The decision from the reduced result: a pure function of ss, the bits, e and clip. -/
def decideFrom (r : NormResult) (watchSkip : Bool) (e : Int) (clip : Nat) : Decision :=
  if r.nf || r.ss.state then ⟨1, if r.ss.state then qnan64 else 0, 0, 0, 0⟩
  else if r.ws || watchSkip then ⟨2, 0, 0, 0, 0⟩
  else
    let q := (r.ss.round .fp64).1
    let n := decode .fp64 (roundTo .fp64 (sqrtX (decode .fp64 q))).1
    let u := n.scale (-e)
    let k := if clip = 0 ∨ u.le (v32 clip) = true then 0x3FF0000000000000 else (roundTo .fp64 ((v32 clip).div u)).1
    let u32 := (roundTo .fp32 u).1
    let k32 := (roundTo .fp32 (decode .fp64 k)).1
    ⟨0, q, u32, k32, (roundTo .fp32 ((v32 k32).scale (-e))).1⟩

/-- A decision that does not fail takes effect: a skip waits for its row, a commit goes on to the update, or to the vote where the
member itself has failed since it contributed (R367). -/
def takeDecision (s : State) (c : Nat) (x : Ctx) (a : Attempt) (j : Job) (r : NormResult) : State :=
  let w := watchDecide x a.eUsed r.block
  let d := decideFrom r w.2.2 a.eUsed j.clip
  let ph : Phase := if d.outcome ≠ 0 then .decide else if a.status == .success then .update else .vote
  modAtt s c fun a => { a with decision := some d, rungs := w.1, watchRecs := w.2.1, phase := ph }

/-- The code of an attempt that the norm-reduce failed. -/
def failCode (own : Status) (other : Status) : Status := if own = .success then other else own

def execGateDecide (c : Nat) (s : State) : Outc :=
  if !coreUp s .circulation then .next s else
  match getCtx s c with
  | none => .next s
  | some x =>
    match x.att, x.pol.job with
    | some a, some j =>
      if a.phase != .decide || a.decision.isSome then .next s else
      let own := ownStatus x a
      if j.edition = 1 then
        .next (modAtt s c fun a => { a with decision := some ⟨if own = .success then 0 else 4, 0, 0, 0, 0⟩, phase := .vote })
      else
      match memberOf s x j.normDesc with
      | none => .next (finishAttempt s c 4 (failCode own .enorm))
      | some _ =>
        match getColl x (collId x j.normDesc 0) with
        | none => .next s
        | some q =>
          match q.norm, q.ended with
          | some r, _ =>
            if r.fl then .next (finishAttempt s c 4 (failCode own (if r.enorm then .enorm else .ecommit)))
            else .next (takeDecision s c x a j r)
          | none, some st => if st = .success then .next s else .next (finishAttempt s c 4 (failCode own st))
          | none, none => .next s
    | _, _ => .next s

/-! ### Phase E (R367–R369, R426) -/

def voteId (x : Ctx) (j : Job) : Nat := collId x j.normDesc 0xFFFF

/-- The slot that holds step `n`. -/
def slotOfStep (x : Ctx) (n : Nat) : Option VSlot :=
  [x.vols.slot0, x.vols.slot1].find? fun v => v.vol.isSome && v.step == n

/-- The drain that the vote waits for is still under way; one of a poisoned volume never completes (R369, R506). -/
def voteWaits (x : Ctx) : Bool :=
  match slotOfStep x x.gate.step with | some v => !v.drained && !(match v.vol with | some w => w.poisoned | none => false) | none => false
def slotPoisoned (x : Ctx) : Bool :=
  match slotOfStep x x.gate.step with | some v => !v.drained && (match v.vol with | some w => w.poisoned | none => false) | none => false

/-- Casts fl and un. -/
def castVote (s : State) (c : Nat) (x : Ctx) (a : Attempt) (j : Job) (k : Member) : State :=
  let bad := slotPoisoned x
  let s1 := modAtt s c fun a => let b := { a with voted := true, voteTime := s.now }; if bad then b.fail .epoison s.now else b
  let id := voteId x j
  if (match getColl x id with | some q => q.verdict.isSome | none => false) then s1
  else sendNotice s1 c k (noticeFor s x k id (a.status != .success || bad) (a.un && j.edition != 1))

def execCommitVote (c t : Nat) (s : State) : Outc :=
  let s := s.at t
  if !coreUp s .circulation then .next s else
  match getCtx s c with
  | none => .next s
  | some x =>
    match x.att, x.pol.job with
    | some a, some j =>
      if a.phase != .vote || a.voted || voteWaits x then .next s else
      match memberOf s x j.normDesc with
      | none => .next (finishAttempt s c 4 (failCode (ownStatus x a) .enorm))
      | some k => .next (castVote s c x a j k)
    | _, _ => .next s

/-- A rollback: what phase D changed is restored, if it had begun (R354, R368). -/
def rollBack (s : State) (c : Nat) (a : Attempt) : State :=
  if !a.updated then s else
  a.saved.foldl (fun s p =>
    match getCtx s c with
    | none => s
    | some x => match tensor x p.1 with | some t => putTensor s c x t p.2 | none => s) (rollback s c)

/-- The outcome of a failed vote: nothing was updated in a serve job whose gate failed (log 22). -/
def failOutcome (j : Job) (v : VOutcome) : Nat := if j.edition = 1 ∧ v = .failed then 4 else 5

/-- The vote's result takes effect (R367). A passed vote with un set is past what an event can abandon (R374): phase `skip`. -/
def voteTakes (s : State) (c : Nat) (x : Ctx) (a : Attempt) (j : Job) (v : Verdict) : State :=
  let own := ownStatus x a
  let fail (st : Status) : State := finishAttempt (rollBack s c a) c (failOutcome j v.outcome) st
  match v.outcome with
  | .go | .partialGo =>
    if v.un && j.edition != 1 then
      modAtt (rollBack s c a) c fun a => { a with vote := some v.outcome, decision := a.decision.map fun d => { d with outcome := 3 }, phase := .skip }
    else modAtt s c fun a => { a with vote := some v.outcome, phase := .seal }
  | .failed => fail (failCode own .ecommit)
  | .timeout => fail .ecollTimeout
  | .group => fail .ecollGroup
  | .abort => fail .eepoch

/-- The verdict of the vote on this member: the root's own, or the one that arrives. -/
def voteVerdict (s : State) (x : Ctx) (j : Job) (v : Verdict) : Option Verdict :=
  match getColl x (voteId x j) with
  | some q => match q.verdict with
    | some w => some w
    | none => match memberOf s x j.normDesc with | some k => if k.me = 0 then none else some v | none => none
  | none => match memberOf s x j.normDesc with | some k => if k.me = 0 then none else some v | none => none

/-- A verdict that arrives before this member's vote is held until it votes (R412). -/
def holdVote (s : State) (c : Nat) (x : Ctx) (v : Verdict) : State :=
  match memberOf s x (idDesc v.id) with
  | some k => if k.me = 0 then s else takeVerdict s c v
  | none => s

def execVoteResult (c : Nat) (v : Verdict) (s : State) : Outc :=
  .next (epochGate s c v.id v.epoch
    (fun x => match x.att, x.pol.job with
      | some a, some j =>
        if a.phase != .vote || v.id != voteId x j then holdVote s c x v else
        match voteVerdict s x j v with
        | none => s
        | some w => if a.voted || !(w.outcome == .go) then voteTakes s c x a j w else holdVote s c x v
      | _, _ => holdVote s c x v)
    (fun x => setCtx s c { x with heldVerdicts := x.heldVerdicts ++ [v] }))

/-- A member that has no verdict by its own time, the deadline and 100 ms more ends its COLL, or the vote (R662). -/
def pastVerdict (k : Member) (since now : Nat) : Bool := since + k.d.deadlineNs + 100000000 ≤ now

/-- When this member issued a COLL, or sent its own norm contribution (R362). -/
def issueTime (x : Ctx) (k : Member) (id : Nat) : Option Nat :=
  match (collOr x id).issued, x.att with
  | some i, _ => some i.2.2.1
  | none, some a => if idNow x id ∧ k.d.op = 6 ∧ a.contributed = true then some a.firstFault else none
  | none, none => none

def execCollNoVerdictTimeout (c id t : Nat) (s : State) : Outc :=
  let s := s.at t
  match getCtx s c with
  | none => .next s
  | some x =>
    match memberOf s x (idDesc id) with
    | none => .next s
    | some k =>
      if isVote id then
        match x.att, x.pol.job with
        | some a, some j =>
          if a.phase == .vote && a.voted && id == voteId x j && (collOr x id).verdict.isNone && pastVerdict k a.voteTime s.now then
            .next (finishAttempt (rollBack s c a) c 5 .ecollTimeout)
          else .next s
        | _, _ => .next s
      else
        let q := collOr x id
        match issueTime x k id with
        | none => .next s
        | some n =>
          if q.verdict.isNone && q.ended.isNone && pastVerdict k n s.now then .next (reshardNow (endColl s c id .ecollTimeout) c) else .next s

/-! ### Phase F (R358, R370, R376, R421) -/

/-- The loss-scale state after a commit. -/
def commitScale (j : Job) (g : Gate) : Gate :=
  if j.edition = 1 then g else
  if j.growthOf ≤ g.clean + 1 then { g with clean := 0, exp := if j.dyn then min (g.exp + 1) 40 else g.exp } else { g with clean := g.clean + 1 }

/-- The carry set after a commit: what was consumed is spent, what was not consumed is dropped, what was deferred is in force. -/
def commitCarry (l : List Carried) : List Carried := (l.filter (·.fresh)).map fun y => { y with fresh := false }

/-- The job's deferrals after a commit. -/
def commitOwed (l : List Owed) : List Owed := (l.filter fun y => y.fresh && !y.lost).map fun y => { y with fresh := false }

/-- What a commit finds of a deferral that it did not consume: absent, where the member that owes it was included in its collective and did
not send it, so that its COLL was never issued or its source did not fit; else dropped (R420, R421; log 131). -/
def owedAction (s : State) (x : Ctx) (y : Owed) : Nat :=
  match memberOf s x y.desc, getColl x (collId x y.desc y.seq) with
  | some k, some q => (match q.verdict with
    | some v => if (v.outcome == .go || v.outcome == .partialGo) && v.included.any (fun r => (k.numbers r).contains y.contribution) then 3 else 1
    | none => 1)
  | _, _ => 1

/-- Serve: the alerts of the member's own records, which change no rung (R350). -/
def serveWatch (x : Ctx) (a : Attempt) : List RungDecision × List (Nat × Nat × Nat × Nat × Nat) :=
  let w := watchDecide x a.eUsed (watchBlock x a.acc)
  (w.1.map fun d => { d with promoted := d.old, demoted := d.old }, w.2.1.map fun r => (r.1, r.2.1, r.2.2.1, r.2.2.2.1, r.2.2.2.1))

def sealed (m : State) (x : Ctx) (a : Attempt) (j : Job) (r : Run) : Ctx :=
  let s := x.gate.step
  let w := if j.edition = 1 then serveWatch x a else (a.rungs, a.watchRecs)
  let b := { a with rungs := w.1, watchRecs := w.2, phase := .copy,
                    lost := (x.gate.owed.filter fun y => !y.fresh && !y.used).map fun y => (y.desc, y.seq, y.contribution, owedAction m x y) }
  let g := commitScale j x.gate
  { x with att := some b, run := some { r with commits := r.commits + 1 },
           gate := { g with step := (s + 1) % 2 ^ 48, cursor := (r.base + r.commits) % 2 ^ 128, consec := 0,
                            carry := commitCarry x.gate.carry, owed := commitOwed x.gate.owed },
           pol := { x.pol with watch := applyWatch commitEntry s b x.pol.watch },
           vols := { x.vols with snapshot := none } }

def execStepSeal (c t : Nat) (s : State) : Outc :=
  let s := s.at t
  if !coreUp s .circulation then .next s else
  match getCtx s c with
  | none => .next s
  | some x =>
    match x.att, x.pol.job, x.run with
    | some a, some j, some r =>
      if a.phase != .seal then .next s else
      let y := sealed s x a j r
      .next (countDrops (countEv (setCtx (journalWrite s (.published c y.gate y.pol.watch)) c y) (pgCtx c) 0x101 1 (some c)) c (x.gate.carry.filter fun y => !y.fresh && !y.used))
    | _, _, _ => .next s

/-! ### The skip (R358, R372) -/

def skipScale (j : Job) (outcome : Nat) (g : Gate) : Gate :=
  let h := { g with consec := g.consec + 1, skips := g.skips + 1 }
  if outcome ≠ 1 then h else { h with clean := 0, exp := if j.dyn then max (g.exp - 1) (-24) else g.exp }

def skipped (x : Ctx) (a : Attempt) (j : Job) (outcome : Nat) : Ctx :=
  { x with gate := skipScale j outcome x.gate, pol := { x.pol with watch := applyWatch skipEntry x.gate.step a x.pol.watch } }

def execStepSkip (c t : Nat) (s : State) : Outc :=
  let s := s.at t
  if !coreUp s .circulation then .next s else
  match getCtx s c with
  | none => .next s
  | some x =>
    match x.att, x.pol.job with
    | some a, some j =>
      match a.decision with
      | some d =>
        if !(a.phase == .decide || a.phase == .skip) ∨ d.outcome = 0 ∨ 3 < d.outcome ∨ stagingHolds s (skipped x a j d.outcome) a d.outcome = false then .next s
        else .next (finishAttempt (countEv (setCtx s c (skipped x a j d.outcome)) (pgCtx c) 0x102 1 (some c)) c d.outcome (ownStatus x a))
      | none => .next s
    | _, _ => .next s

/-! ### Phase G and the drain (R493–R500, R506) -/

def getSlot (x : Ctx) (n : Nat) : VSlot := if n = 0 then x.vols.slot0 else x.vols.slot1
def putSlot (x : Ctx) (n : Nat) (v : VSlot) : Ctx :=
  { x with vols := if n = 0 then { x.vols with slot0 := v } else { x.vols with slot1 := v } }

/-- The commit's copy into slot k mod 2. -/
def copyOut (s : State) (c : Nat) : State :=
  match getCtx s c with
  | none => s
  | some x =>
    let n := endedStep x 0 % 2
    let v := formVolume s x 0
    let s1 := modCtx (touchVolume s c x) c fun x => putSlot x n ⟨some v, x.gate.step, x.vols.target == 3 && !v.poisoned, false, 0, x.vols.target⟩
    if v.poisoned then eventRec s1 c Status.epoison.code 0 else s1

/-- Phase G waits for the slot's drain and readers (R494). -/
def copyReady (x : Ctx) : Bool :=
  let v := getSlot x (endedStep x 0 % 2)
  v.vol.isNone || (v.drained && v.readers == 0)

def execSecondCopy (c t : Nat) (s : State) : Outc :=
  let s := s.at t
  if !coreUp s .circulation then .next s else
  match getCtx s c with
  | none => .next s
  | some x =>
    match x.att with
    | none => .next s
    | some a =>
      if a.phase != .copy || !stagingHolds s x a 0 then .next s
      else if !x.pol.vol.copy then .next (finishAttempt s c 0 .success)
      else if !copyReady x then .next s
      -- the volume holds the chain and the next number as the commit's own records leave them (R483)
      else .next (finishWith (copyOut · c) s c 0 .success)

/-- Writes a volume in its slot image of the drain area: shards, then the colophon, then the step it holds (R498). -/
def areaWrite (s : State) (c : Nat) (x : Ctx) (slot : Nat) (v : Volume) : State :=
  match tensor x x.pol.vol.area with
  | none => s
  | some t =>
    let at_ := 64 + slot * x.vols.sized
    let col := v.colophon
    match byteUnits x t (at_ + col.length) (v.shards.flatMap (·.bytes)), byteUnits x t at_ col, byteUnits x t 0 (leBytes 8 v.step) with
    | some a, some b, some k => applyUnits (applyUnits (applyUnits (touchAll s c t.call true) c a) c b) c k
    | _, _, _ => s

/-- The buddy's coordinate. -/
def buddyCoord (s : State) (x : Ctx) : Nat :=
  match jobMember s x with
  | some k => match buddyOf k k.me with | some r => k.coord r | none => 0
  | none => 0

/-- An axis-0 port is up to the buddy (R497). -/
def buddyPort (s : State) (co : Nat) : Bool := s.fabric.ports.any fun p => p.2.st == .up && p.2.partner == co

/-- A drain to the buddy: the shards as messages of kind 7, each with its number, then the colophon as number 0xFFFF (R497, R501; log 146). -/
def drainOut (s : State) (x : Ctx) (w : Volume) : State :=
  let dst := buddyCoord s x
  let s1 := w.shards.zipIdx.foldl (fun s h => post s x.ident.job dst 7 w.step (leBytes 4 h.2 ++ h.1.bytes)) s
  (post s1 x.ident.job dst 7 w.step (leBytes 4 0xFFFF ++ w.colophon)).emit (.volume dst w.step (w.shards.map (·.bytes)) w.colophon)

/-- The slot's drain can begin: the buddy is reached over a port that is up; one through host buffers waits while the context is orphaned
(R497, R560). -/
def drainReady (s : State) (x : Ctx) (v : VSlot) : Bool :=
  !v.drained && !v.draining && (v.target != 1 || buddyPort s (buddyCoord s x)) && (v.target != 2 || x.ident.st != .orphaned) && v.target != 3

def execDrainStart (c slot : Nat) (s : State) : Outc :=
  match getCtx s c with
  | none => .next s
  | some x =>
    let v := getSlot x slot
    match v.vol with
    | none => .next s
    | some w =>
      if w.poisoned || !drainReady s x v then .next s else
      let s1 := setCtx s c (putSlot x slot { v with draining := true })
      .next (if v.target = 1 then drainOut s1 x w else areaWrite s1 c x slot w)

/-- The step the host has acknowledged as durable (R498). -/
def areaAcked (s : State) (x : Ctx) : Nat :=
  match tensor x x.pol.vol.area with
  | none => 0
  | some t => match readBytes s x t 8 8 with | some b => leNat b | none => 0

/-- The drain of a slot has completed (R499). -/
def drainDone (s : State) (x : Ctx) (v : VSlot) (ack : Bool) : Bool :=
  v.draining && (if v.target = 1 then ack else x.ident.st != .orphaned && decide (v.step ≤ areaAcked s x))

def execDrainComplete (c slot : Nat) (buddyAck : Bool) (s : State) : Outc :=
  match getCtx s c with
  | none => .next s
  | some x =>
    let v := getSlot x slot
    if drainDone s x v buddyAck then .next (setCtx s c (putSlot x slot { v with drained := true, draining := false })) else .next s

/-- Whether a colophon fits the shards received under the volume key, and nothing is poisoned (R499, R503, R506). -/
def colophonOk (key colophon : Bytes) (parts : List (Nat × Bytes)) : Bool :=
  let n := fld colophon 104 4
  let body := colophon.take (256 + 80 * n)
  colophon.length == 304 + 80 * n && fld colophon 0 4 == 0x4C565A54 && fld colophon 4 2 == 1
  && hmac384 key body == colophon.drop (256 + 80 * n) && !bitOf (fld colophon 7 1) 1
  && (List.range n).all fun k =>
      match parts.find? (·.1 == k) with
      | some p => sha384 p.2 == slice colophon (256 + 80 * k + 32) 48
      | none => n == 0

/-- The partial volume a buddy receives; its first message begins it anew. -/
def partialOf (s : State) (c rank part : Nat) : Partner :=
  match s.fabric.partners.find? (fun p => p.ctx == c && p.rank == rank && !p.complete) with
  | some p => if part = 0 then { p with data := [] } else p
  | none => ⟨c, rank, 0, [], false⟩

/-- Of a partner's complete volumes the newest stays beside one that comes, or begins to: a buddy holds two slots (R500). -/
def keepNewest (c rank step : Nat) (l : List Partner) : List Partner :=
  let mine := l.filter fun p => p.ctx == c && p.rank == rank && p.complete
  let top := mine.foldl (fun a p => max a p.step) 0
  l.filter fun p => !(p.ctx == c && p.rank == rank) || (p.complete && p.step == top && p.step != step)

def setPartner (s : State) (c : Nat) (rank : Nat) (p : Partner) : State :=
  let l := keepNewest c rank (2 ^ 48) (s.fabric.partners.filter fun q => !(q.ctx == c && q.rank == rank && !q.complete)) ++ [p]
  { s with fabric := { s.fabric with partners := l } }

/-- The acknowledgement of a drained volume, to the member whose it is (R499; log 146). -/
def drainAck (s : State) (c rank step : Nat) : State :=
  let s1 := match getCtx s c with
    | some x => match jobMember s x with
      | some k => post s x.ident.job (k.coord rank) 3 step (leBytes 8 step ++ leBytes 1 Status.success.code)
      | none => s
    | none => s
  s1.emit (.drainAck c rank step)

/-- The colophon completes the volume when it and every digest hold. -/
def drainColophon (s : State) (c rank : Nat) (key : Bytes) (p : Partner) (data : Bytes) : State :=
  if colophonOk key data p.data then
    let step := fld data 24 6
    let l := keepNewest c rank step s.fabric.partners ++ [⟨c, rank, step, (0xFFFF, data) :: p.data, true⟩]
    drainAck { s with fabric := { s.fabric with partners := l } } c rank step
  else s

def execDrainReceive (c : Nat) (rank part : Nat) (colophon : Bool) (data : Bytes) (s : State) : Outc :=
  match getCtx s c with
  | none => .next s
  | some x =>
    if colophon then
      match s.fabric.partners.find? (fun p => p.ctx == c && p.rank == rank && !p.complete) with
      | some p => .next (drainColophon s c rank (x.ident.volKey.getD []) p data)
      | none => .next s
    else
      let p := partialOf s c rank part
      .next (setPartner s c rank { p with data := (p.data.filter (·.1 != part)) ++ [(part, data)] })

/-! ### The pre-emption deadline (R508) -/

def execPreemptDeadline (c t : Nat) (s : State) : Outc :=
  let s := s.at t
  match getCtx s c with
  | none => .next s
  | some x =>
    match x.long with
    | none => .next s
    | some l => if l.opcode = opPreempt ∧ l.deadline ≤ s.now then .next (endLong s c .edeadline 0) else .next s

end Sys2Proof.Machine
end

