-- ==== Sys2Proof/Machine/HostCmd.lean ====
section
/-! DEFINITION. How host commands are taken: functions and privileges, checks in order, acceptance, completion (R523, R526–R538, R547, R548, R553). -/

namespace Sys2Proof.Machine

/-! ### Functions (R523, R548) -/

/-- Functions of port 1 begin here in two-host mode; its physical function is the first (log 23). -/
def port1Fn : Nat := 128
def isPf (s : State) (fn : Nat) : Bool := fn == 0 || (s.host.twoHost && fn == port1Fn)
/-- The port that presents a function. -/
def fnPort (s : State) (fn : Nat) : Nat := if s.host.twoHost then (if port1Fn ≤ fn then 1 else 0) else s.host.active
/-- Both functions belong to one port. -/
def samePort (s : State) (a b : Nat) : Bool := !s.host.twoHost || (decide (port1Fn ≤ a) == decide (port1Fn ≤ b))

/-- The circulation core serves host queues. -/
def serving (s : State) : Bool := s.running && coreUp s .circulation

/-! ### Commands that run on (R534, R535, R556) -/

def opSetPolicy : Nat := 0x0E
def opQuery : Nat := 0x0F

/-- A started command holds its queue, but for RUN_STEP and CHECKPOINT (R534). -/
def queueHeld (s : State) (q : QRef) : Bool := (cmdsOf s q).any fun k => k.q == q && k.opcode != opRunStep && k.opcode != opCheckpoint

/-- LOAD_PROGRAM or RESTORE. -/
def Sliced.loads (w : Sliced) : Bool := match w with | .load .. | .restore .. => true | _ => false
/-- A LOAD_PROGRAM or a RESTORE runs (R535). -/
def loadRuns (x : Ctx) : Bool := x.cmds.any fun k => k.work.any Sliced.loads
/-- A command that runs in slices and has not taken effect yet. -/
def slicedRuns (x : Ctx) : Bool := x.cmds.any fun k => k.work.isSome
/-- While a LOAD_PROGRAM or a RESTORE runs, every other command of the context but QUERY and FENCE ends with ESTATE (R535). -/
def loadBars (x : Ctx) (opcode : Nat) : Bool := loadRuns x && opcode != opQuery && opcode != opFence

/-! ### Taking a command (R534, R538) -/

/-- A check that fails completes the command with its code and result; it has no side effect. -/
def refuse (s : State) (sub : Sub) (e : Status) (result : Nat := 0) : State := complete s sub.q sub.cid e result
def done (s : State) (sub : Sub) (result : Nat := 0) : State := complete s sub.q sub.cid .success result

/-- A command of a context queue: it waits while an earlier one holds the queue (R534); it is refused on an admin queue, with a reserved field
that is not 0, and in a state that does not allow it; then come its own checks, in the order of R538, with the code and result they give; an
accepted command is a record of the transcript (R477), and then acts. -/
def ctxCmdR (s : State) (sub : Sub) (opcode : Nat) (body : Bytes) (legal : Ctx → Bool) (check : Nat → Ctx → Option (Status × Nat))
    (act : State → Nat → Ctx → State) (clean : Bool := true) : State :=
  if !serving s || (getQueue s sub.q).isNone || queueHeld s sub.q then s else
  match sub.q with
  | .admin _ => refuse s sub .earg
  | .ctx c _ =>
    match getCtx s c with
    | none => s
    | some x =>
      if !clean then refuse s sub .earg else
      if !legal x || loadBars x opcode then refuse s sub .estate else
      match check c x with
      | some e => refuse s sub e.1 e.2
      | none =>
        let s1 := cmdRec s c opcode sub body
        match getCtx s1 c with
        | some y => act s1 c y
        | none => s1

/-- A command whose refusals carry no result. -/
def ctxCmd (s : State) (sub : Sub) (opcode : Nat) (body : Bytes) (legal : Ctx → Bool) (check : Nat → Ctx → Option Status)
    (act : State → Nat → Ctx → State) (clean : Bool := true) : State :=
  ctxCmdR s sub opcode body legal (fun c x => (check c x).map (·, 0)) act clean

/-- A device virtual address has bits [63:48] at 0 (R291). -/
def vaOk (va : Nat) : Bool := va < 2 ^ 48

/-- A command of an admin queue; `fn` is its function. -/
def adminCmd (s : State) (sub : Sub) (act : State → Nat → State) : State :=
  if !serving s || (getQueue s sub.q).isNone || queueHeld s sub.q then s else
  match sub.q with
  | .admin fn => act s fn
  | .ctx _ _ => refuse s sub .earg

/-- The first check that fails. -/
def firstOf : List (Bool × Status) → Option Status
  | [] => none
  | (ok, e) :: r => if ok then firstOf r else some e

/-- One of the exclusive commands of R535 runs beside a RUN_STEP. -/
def longRuns (x : Ctx) : Bool := x.long.isSome || x.reshard.isSome
/-- One of them, or a RUN_STEP, runs: no RUN_STEP, LOAD_PROGRAM or RESTORE can start. -/
def exclusiveRuns (x : Ctx) : Bool := longRuns x || x.run.isSome || loadRuns x

/-- The context's state is one of these (R553). -/
def Ctx.inState (x : Ctx) (l : List CtxSt) : Bool := l.contains x.ident.st

/-! ### Bodies of descriptors (R539) -/

/-- SET_POLICY's body. -/
def setBody (sel : Nat) (del : Bool) (f : SetF) : Bytes :=
  leBytes 2 sel ++ leBytes 1 (b2n del) ++ zeros 1 ++ leBytes 4 f.index ++ leBytes 8 f.record ++ leBytes 4 f.length ++ leBytes 2 f.target

/-- QUERY's body. -/
def queryBody (subject : Nat) (f : QueryF) : Bytes :=
  leBytes 2 subject ++ leBytes 1 (b2n f.clear) ++ zeros 1 ++ leBytes 4 f.index ++ leBytes 8 f.buffer ++ leBytes 4 f.length ++ leBytes 2 f.ctx

end Sys2Proof.Machine
end

