-- ==== Sys2Proof/Machine/Policy.lean ====
section
/-! DEFINITION. SET_POLICY on a context queue: records, their checks, what they change, and deletes (R91, R92, R180, R336, R347–R352,
R380, R381, R400, R401, R404, R405, R462, R463, R489, R490, R547, R550). -/

namespace Sys2Proof.Machine

/-! ### Tensors a record may name -/

/-- A live plain tensor of a format and number of elements; `lax` lets a tensor that a volume does not hold pass (R509, log 25). -/
def plainOf (x : Ctx) (cn fmt n : Nat) (lax : Bool := false) : Bool :=
  match tensor x cn with | some t => t.e.kind == 0 && t.e.fmt == fmt && t.size == n | none => lax
/-- A live plain INT32 tensor of `lo` to `hi` elements. -/
def int32Of (x : Ctx) (cn lo hi : Nat) (lax : Bool := false) : Bool :=
  match tensor x cn with | some t => t.e.kind == 0 && t.e.fmt == 13 && lo ≤ t.size && t.size ≤ hi | none => lax
/-- A live host-class plain INT32 tensor of `lo` to `hi` bytes. -/
def hostOf (x : Ctx) (cn lo hi : Nat) (lax : Bool := false) : Bool :=
  match tensor x cn with
  | some t => t.e.kind == 0 && t.e.cls == 4 && t.e.fmt == 13 && lo ≤ 4 * t.size && 4 * t.size ≤ hi
  | none => lax

def fin32 (c : Nat) : Bool := (v32 c).isFin
/-- A finite value of at least 0. -/
def nonNeg (c : Nat) : Bool := fin32 c && !((v32 c).isNeg && !(v32 c).isZero)

/-! ### Job record (R347–R349) -/

/-- Formats the edition admits for a layer-bound tensor at rung 0. -/
def editionFmts (ed : Nat) : List Nat :=
  if ed = 0 then [2, 3, 4, 5, 6, 7] else if ed = 1 then [0, 1, 2, 3, 4, 5, 6] else []

/-- A layer-bound quantised entry fits an edition. -/
def entryFits (ed : Nat) (e : Entry) : Bool :=
  !(e.kind == 1 || e.kind == 4) || e.layer == 0xFFFF || (editionFmts ed).contains e.policy.fmt

/-- A watch entry fits an edition (R380). -/
def watchFits (ed : Nat) (w : Watch) : Bool :=
  if ed = 2 then w.floor == 4 else if ed = 1 then w.floor == w.ceiling && w.polOut == 0 && w.polGrad == 0 else true

def jobOk (x : Ctx) (j : Job) (lax : Bool := false) : Bool :=
  (j.initExp == -128 || (-24 ≤ j.initExp && j.initExp ≤ 40)) && posOrZero j.clip && j.groups ≤ 4096
  && plainOf x j.ls 11 1 lax && (j.loss == 0 || plainOf x j.loss 11 1 lax) && plainOf x j.report 13 16 lax
  && !(j.edition == 1 && (j.groups != 0 || j.dyn))
  && (x.cat.live.all fun e => entryFits j.edition e.2)

/-! ### Parameter groups (R351, R352) -/

/-- In [0, 1). -/
def unit01 (c : Nat) : Bool := nonNeg c && XReal.lt (v32 c) .one

/-- A moment's tensor: quires of a format under R351's policy, in the master's shape. -/
def momentOk (x : Ctx) (cn : Nat) (m : Entry) (fmt round : Nat) : Bool :=
  match tensor x cn with
  | some t =>
    let p := t.e.policy
    t.e.kind == 1 && p.fmt == fmt && p.gsize == 0 && !p.sfmt && p.round == round && p.stream == 0 && !p.learned && !p.rot && !p.marg
    && t.e.rows == m.rows && t.e.cols == m.cols
  | none => false

def imageOk (x : Ctx) (cn master : Nat) : Bool :=
  cn == 0 || (match tensor x cn with | some t => t.e.kind == 1 && t.e.source == master | none => false)

/-- Elements of the norm set, a group's new record included. -/
def normElements (x : Ctx) (t : Tab Group) : Nat :=
  (t.map fun g => if g.2.norm then (match tensor x g.2.grad with | some u => u.size | none => 0) else 0).sum

def groupOk (x : Ctx) (idx : Nat) (g : Group) : Bool :=
  match tensor x g.master, tensor x g.grad with
  | some m, some gr =>
    m.e.kind == 0 && m.e.fmt == (if g.mfmt = 1 then 9 else 11)
    && (!g.sg || x.cat.live.any fun e => e.2.masters == g.master && e.2.sgrad == g.grad)
    && (if g.sg then gr.e.kind == 2 else gr.e.kind == 0 && gr.e.fmt == 11)
    && gr.e.rows == m.e.rows && gr.e.cols == m.e.cols
    && (if g.m = 0 then g.opt == 3 else momentOk x g.m m.e 5 2)
    && (if g.opt = 1 then momentOk x g.v m.e 6 0 else g.v == 0)
    && plainOf x g.lr 11 1 && imageOk x g.image0 g.master && imageOk x g.image1 g.master
    && unit01 g.b1 && unit01 g.b2 && (g.opt != 3 || g.b2 == 0) && nonNeg g.eps && (g.opt == 1 || g.eps == 0) && fin32 g.wd
    && x.pol.groups.all (fun h => h.1 == idx || [g.master, g.m, g.v].all fun k => k == 0 || ! [h.2.master, h.2.m, h.2.v].contains k)
    && normElements x (tset x.pol.groups idx g) ≤ 2 ^ 41
  | _, _ => false

/-! ### Watch entries (R380, R381) -/

def watchOk (x : Ctx) (w : Watch) : Bool :=
  w.floor ≤ w.ceiling && w.floor ≤ w.init && w.init ≤ w.ceiling && w.ceiling != 2
  && (w.factor == 0 || (fin32 w.factor && XReal.lt .one (v32 w.factor)))
  && (w.alpha == 0 || (fin32 w.alpha && XReal.lt .zero (v32 w.alpha) && XReal.le (v32 w.alpha) .one))
  && (w.rotId == 0 || (tget x.pol.rot w.rotId).isSome)
  && (match x.pol.job with | some j => watchFits j.edition w | none => true)

/-- A redefinition keeps the device fields and holds the rung to the new floor and ceiling. -/
def redefine (step : Nat) (old w : Watch) : Watch :=
  let r := max w.floor (min old.rung w.ceiling)
  { old with polOut := w.polOut, polGrad := w.polGrad, floor := w.floor, f8 := w.f8, ceiling := w.ceiling, init := w.init,
             demote := w.demote, factor := w.factor, alpha := w.alpha, rotId := w.rotId, warm := w.warm, rung := r,
             lastChange := if r = old.rung then old.lastChange else step }

/-- Call numbers of the images of the parameter groups (R351). -/
def imageCalls (x : Ctx) : List Nat := (x.pol.groups.flatMap fun g => [g.2.image0, g.2.image1]).filter (· != 0)

/-- Every image of a group has a recorded rung; one that nothing has formed yet counts as formed at the rung in force when its group
and its watch entry are both defined (R395; log 39). -/
def markImages (x : Ctx) : Ctx :=
  let l := imageCalls x
  let old := x.pol.imageRung.filter fun r => l.any fun cn => callIdx cn == r.1
  let mark (t : Tab Nat) (cn : Nat) : Tab Nat :=
    match tget t (callIdx cn), tensor x cn with
    | none, some u => match rungOf x u.e.layer with | some r => tset t (callIdx cn) r | none => t
    | _, _ => t
  { x with pol := { x.pol with imageRung := l.foldl mark old } }

def setWatch (s : State) (c : Nat) (x : Ctx) (idx : Nat) (w : Watch) : State :=
  match tget x.pol.watch idx with
  | none => setCtx s c (markImages { x with pol := { x.pol with watch := tset x.pol.watch idx { w with rung := w.init, lastChange := x.gate.step } } })
  | some o =>
    let n := redefine x.gate.step o w
    let s1 := setCtx s c { x with pol := { x.pol with watch := tset x.pol.watch idx n } }
    if n.rung = o.rung then s1 else
    addRec s1 c ⟨5, false, leBytes 2 idx ++ leBytes 1 0 ++ leBytes 1 5 ++ leBytes 1 o.rung ++ leBytes 1 n.rung ++ zeros 10⟩

/-! ### Rotations and activation tables (R91, R92, R180) -/

def rotRecOk (idx : Nat) (b : Bytes) : Bool :=
  fld b 0 2 == idx && 1 ≤ idx && idx ≤ 4095 && fld b 2 1 ≤ 2 && zeroAt b 3 5

def rising32 : List Nat → Bool
  | a :: b :: r => XReal.lt (v32 a) (v32 b) && rising32 (b :: r)
  | _ => true

/-- The checks of R180. -/
def actOk (b : Bytes) : Bool :=
  let n := fld b 0 1
  let d := fld b 1 1
  let bp := (List.range (n - 1)).map fun i => fld b (20 + 4 * i) 4
  let seg (i k : Nat) : Nat := fld b (272 + 20 * i + 4 * k) 4
  1 ≤ n && n ≤ 64 && d ≤ 3 && zeroAt b 2 2 && zeroAt b 12 4 && zeroAt b 16 4
  && bp.all fin32 && rising32 bp && zeroAt b (20 + 4 * (n - 1)) (4 * (64 - n))
  && (List.range n).all (fun i => (List.range 5).all fun k => fin32 (seg i k) && (k ≤ d + 1 || seg i k == 0))
  && zeroAt b (272 + 20 * n) (20 * (64 - n))

/-! ### Groups and descriptors (R400, R401, R404, R405) -/

def noDup : List Nat → Bool
  | [] => true
  | a :: r => !r.contains a && noDup r

/-- A coordinate lies on the fabric, which is every context's granted group (log 24). -/
def onFabric (s : State) (co : Nat) : Bool :=
  (List.range 4).all fun i => bitsOf co (4 * i + 3) (4 * i) < s.host.axes.getD i 16

def groupRecOk (s : State) (idx : Nat) (b : Bytes) (g : GroupRec) : Bool :=
  let cs := g.members.map (·.2); let co := g.members.map (·.1)
  fld b 0 2 == idx && idx < 1024 && zeroAt b 8 8 && cs.all (· != 0) && g.total == cs.sum && g.total ≤ 2 ^ 22 && noDup co
  && co.all (onFabric s) && co.contains (ownCoord s)

/-- The checks of R405; dfmt names a format whatever the op (R31). -/
def descOk (x : Ctx) (d : Desc) : Bool :=
  let sums := (d.op == 0 || d.op == 1 || d.op == 6) && d.redop ≤ 1
  let token := d.op == 7 || d.op == 8
  (tget x.pol.grps d.group).isSome
  && (! [2, 3, 4, 5, 7, 8].contains d.op || d.redop == 0) && (d.redop != 4 || d.op == 0) && (d.op != 6 || d.redop ≤ 1)
  && (sums || (d.transit == 0 && d.round == 0 && !d.late && !d.carry && !d.norm))
  && d.round ≤ 2 && (Fmt.ofCode d.dfmt).isSome
  && (!d.late || [0, 1, 6].contains d.op) && (!d.carry || d.late)
  && (!d.carry || (match tget x.pol.grps d.group with | some g => g.total ≤ 2 ^ 21 | none => false))
  && (!sums || d.dfmt == 11 || d.dfmt == 9)
  && (d.op == 3 || d.root == 0)
  && (d.op != 3 || (match tget x.pol.grps d.group with | some g => d.root < g.members.length | none => false))
  && (if token then
        1 ≤ d.experts && d.experts ≤ 65536 && 1 ≤ d.slots && d.slots ≤ 8 && 1 ≤ d.cap && d.cap ≤ 2 ^ 24 && 1 ≤ d.tokens && d.tokens ≤ 65536
        && (d.op == 8 || d.weight == 0)
      else d.experts == 0 && d.slots == 0 && d.cap == 0 && d.tokens == 0 && d.route == 0 && d.weight == 0 && d.slotmap == 0)
  && (d.deadline == 0 || (10 ≤ d.deadline && d.deadline ≤ 60000000))

/-- A group that a descriptor names, or the job record through one, is not replaced or deleted (R401), but after a RESHARD (R550). -/
def groupNamed (x : Ctx) (idx : Nat) : Bool := !x.ident.reshardOpen && x.pol.descs.any fun d => d.2.group == idx

/-! ### Mode record and volume policy (R462, R463, R489, R490) -/

def modeOk (x : Ctx) (m : ModeRec) (lax : Bool := false) : Bool :=
  (m.ring == 0 || hostOf x m.ring 65536 0x40000000 lax) && (m.batches == 0 || int32Of x m.batches 1 64 lax)
  && (m.reference == 0 || hostOf x m.reference 65536 0x40000000 lax)
  && !((m.verbatim || m.replay) && m.ring == 0) && !(m.replay && m.reference == 0) && m.verbatim == bitOf x.ident.job 31

/-- verbatim and replay change only before a step has run since OPEN or RESTORE. -/
def modeFixed (x : Ctx) (m : ModeRec) : Bool :=
  x.gate.ranStep && (m.verbatim != x.pol.mode.verbatim || m.replay != x.pol.mode.replay)

/-- Replay begins: it is set anew, or against another reference. -/
def replayStarts (x : Ctx) (m : ModeRec) : Bool := m.replay && (!x.pol.mode.replay || m.reference != x.pol.mode.reference)

/-- verbatim, replay and reference change at once; metered, clocks, ring and batches at the next step boundary. -/
def setMode (x : Ctx) (m : ModeRec) : Ctx :=
  { x with pol := { x.pol with mode := { x.pol.mode with verbatim := m.verbatim, replay := m.replay, reference := m.reference }, modeNext := some m },
           divergence := if replayStarts x m then none else x.divergence,
           tr := if replayStarts x m then { x.tr with refPos := 0 } else x.tr }

def volPolicyOk (s : State) (x : Ctx) (p : VolPolicy) (lax : Bool := false) : Bool :=
  (p.rate == 0 || (1000 ≤ p.rate && p.rate ≤ 100000)) && (p.extras == 0 || int32Of x p.extras 1 4096 lax)
  && (p.area == 0 || hostOf x p.area (64 + 2 * volSize s { x with pol := { x.pol with vol := p } }) (2 ^ 46) lax)
  && !(p.target == 2 && p.area == 0) && !((p.target == 1 || p.target == 2) && !p.copy)

/-! ### The commands -/

/-- States and selectors: those marked "yes" are legal while a RUN_STEP runs. -/
def setLegal (running : Bool) (x : Ctx) : Bool :=
  x.inState ([CtxSt.opened, .ready, .paused] ++ if running then [.running] else [])

/-- Index, length and buffer of a SET_POLICY record of `len` bytes, then the record's own check. -/
def setCheck (s : State) (f : SetF) (len : Nat) (idxOk : Bool) (own : Bytes → Option Status) (x : Ctx) : Option Status :=
  if f.length != len || !idxOk || !vaOk f.record then some .earg
  else if !bufferOk x f.record len false then some .ebound
  else own (readVa s x f.record len)

/-- A SET_POLICY of one selector. -/
def setPolicy (s : State) (sub : Sub) (sel : Nat) (f : SetF) (running : Bool) (pre : Ctx → Bool) (len : Nat) (idxOk : Bool)
    (own : Nat → Ctx → Bytes → Option Status) (act : State → Nat → Ctx → Bytes → State) : State :=
  ctxCmd s sub opSetPolicy (setBody sel false f) (fun x => setLegal running x && pre x)
    (fun c x => setCheck s f len idxOk (own c x) x)
    (fun s1 c x =>
      let b := readVa s x f.record len
      let s2 := act (readBuffer s1 c f.record len) c x b
      done (policyRec s2 c sel f.index b) sub) (f.target == 0)

def orEarg (b : Bool) : Option Status := if b then none else some .earg

/-- Enters READY when program, job record and both keys are there (R554). -/
def readyIf (s : State) (c : Nat) : State :=
  modCtx s c fun x =>
    if x.ident.st == .opened && !x.ident.standby && (x.prog.isSome || x.progNext.isSome) && x.pol.job.isSome && x.ident.jobKey.isSome
      && x.ident.volKey.isSome then x.setSt .ready else x

/-- Two job records differ only in norm_desc. -/
def onlyNorm (x : Ctx) (j : Job) : Bool := match x.pol.job with | some o => { o with normDesc := j.normDesc } == j | none => false

/-- A new job record starts the loss scale at its initial exponent (R347, R356); one that changes norm_desc alone does not. -/
def setJob (s : State) (c : Nat) (x : Ctx) (j : Job) : State :=
  let g := if x.gate.ranStep then x.gate else { x.gate with exp := j.startExp, clean := 0 }
  readyIf (setCtx s c { x with pol := { x.pol with job := some j }, gate := g }) c

/-- The record of a SET_POLICY can be read: its length is `len`, and it lies in the context's mappings. -/
def recordHere (x : Ctx) (f : SetF) (len : Nat) : Bool := f.length == len && vaOk f.record && bufferOk x f.record len false

/-- Before a step has run, or after a RESHARD a change of norm_desc alone (R348, R550); a record that cannot be read fails later, as such (R538). -/
def jobFree (s : State) (f : SetF) (x : Ctx) : Bool :=
  !x.gate.ranStep || (x.ident.reshardOpen && (!recordHere x f 64
    || (match Job.ofBytes (readVa s x f.record 64) with | some j => onlyNorm x j | none => true)))

def execSetJobRecord (sub : Sub) (f : SetF) (s : State) : Outc :=
  .next (setPolicy s sub 1 f false (jobFree s f) 64 (f.index == 0)
    (fun _ x b => match Job.ofBytes b with | some j => orEarg (jobOk x j) | none => some .earg)
    (fun s1 c x b => match Job.ofBytes b with | some j => setJob s1 c x j | none => s1))

def execSetParameterGroup (sub : Sub) (f : SetF) (s : State) : Outc :=
  .next (setPolicy s sub 2 f false (fun x => !x.gate.ranStep) 64 (f.index < 4096)
    (fun _ x b => match Group.ofBytes b with | some g => orEarg (groupOk x f.index g) | none => some .earg)
    (fun s1 c x b => match Group.ofBytes b with
      | some g => setCtx s1 c (markImages { x with pol := { x.pol with groups := tset x.pol.groups f.index g } })
      | none => s1))

def execSetWatchEntry (sub : Sub) (f : SetF) (s : State) : Outc :=
  .next (setPolicy s sub 3 f false (fun _ => true) 64 (f.index < 65535)
    (fun _ x b => match Watch.ofHost b with | some w => orEarg (watchOk x w) | none => some .earg)
    (fun s1 c x b => match Watch.ofHost b with | some w => setWatch s1 c x f.index w | none => s1))

def execSetRotationEntry (sub : Sub) (f : SetF) (s : State) : Outc :=
  .next (setPolicy s sub 4 f true (fun x => (tget x.pol.rot f.index).isNone) 16 true
    (fun _ _ b => orEarg (rotRecOk f.index b))
    (fun s1 c x b => setCtx s1 c { x with pol := { x.pol with rot := tset x.pol.rot f.index ⟨fld b 2 1, fld b 8 8⟩ } }))

def execSetActivationTable (sub : Sub) (f : SetF) (s : State) : Outc :=
  .next (setPolicy s sub 5 f true (fun _ => true) 1552 (8 ≤ f.index && f.index ≤ 15)
    (fun _ _ b => orEarg (actOk b))
    (fun s1 c x b => setCtx s1 c { x with pol := { x.pol with actNext := tset x.pol.actNext f.index (some b) } }))

def execSetCollectiveDescriptor (sub : Sub) (f : SetF) (s : State) : Outc :=
  .next (setPolicy s sub 6 f false (fun _ => true) 64 (f.index < 4096)
    (fun _ x b => match Desc.ofBytes b with | some d => orEarg (descOk x d) | none => some .earg)
    (fun s1 c x b => match Desc.ofBytes b with
      | some d => setCtx s1 c { x with pol := { x.pol with descs := tset x.pol.descs f.index d } }
      | none => s1))

def execSetGroupRecord (sub : Sub) (f : SetF) (s : State) : Outc :=
  .next (setPolicy s sub 7 f false (fun x => !groupNamed x f.index) f.length (20 ≤ f.length && f.length ≤ 16 + 4 * 65536 && f.length % 4 == 0)
    (fun _ _ b => match groupRecOf b with | some g => orEarg (groupRecOk s f.index b g) | none => some .earg)
    (fun s1 c x b => match groupRecOf b with
      | some g => setCtx s1 c { x with pol := { x.pol with grps := tset x.pol.grps f.index g } }
      | none => s1))

def execSetModeRecord (sub : Sub) (f : SetF) (s : State) : Outc :=
  .next (setPolicy s sub 8 f false (fun x => !recordHere x f 32
      || (match ModeRec.ofBytes (readVa s x f.record 32) with | some m => !modeFixed x m | none => true)) 32 (f.index == 0)
    (fun _ x b => match ModeRec.ofBytes b with | some m => orEarg (modeOk x m) | none => some .earg)
    (fun s1 c x b => match ModeRec.ofBytes b with | some m => setCtx s1 c (setMode x m) | none => s1))

def execSetVolumePolicy (sub : Sub) (f : SetF) (s : State) : Outc :=
  .next (setPolicy s sub 9 f false (fun _ => true) 32 (f.index == 0)
    (fun _ x b => match VolPolicy.ofBytes b with | some p => orEarg (volPolicyOk s x p) | none => some .earg)
    (fun s1 c x b => match VolPolicy.ofBytes b with | some p => setCtx s1 c { x with pol := { x.pol with vol := p } } | none => s1))

def execSetScheduling (sub : Sub) (f : SetF) (s : State) : Outc :=
  .next (setPolicy s sub 10 f true (fun _ => true) 8 (f.index == 0)
    (fun _ _ b => orEarg (bitsOf (fld b 0 1) 7 2 == 0 && zeroAt b 1 7))
    (fun s1 c x b => setCtx s1 c { x with cat := { x.cat with schedNext := some (bitOf (fld b 0 1) 0, bitOf (fld b 0 1) 1) } }))

/-! ### Deletes (R92, R381, R401, R547) -/

/-- A record is defined under the selector and index, which admits deletion. -/
def deletable (x : Ctx) (sel idx : Nat) : Bool :=
  match sel with
  | 2 => (tget x.pol.groups idx).isSome
  | 3 => (tget x.pol.watch idx).isSome
  | 4 => (tget x.pol.rot idx).isSome
  | 5 => match tget x.pol.actNext idx with | some b => b.isSome | none => (tget x.pol.act idx).isSome
  | 6 => (tget x.pol.descs idx).isSome
  | 7 => (tget x.pol.grps idx).isSome
  | _ => false

/-- Some word of the loaded program satisfies a test. -/
def progHas (x : Ctx) (f : Ins → Bool) : Bool :=
  [x.prog, x.progNext].any fun p => match p with
    | some p => p.streams.any fun q => q.words.any fun w => match decodeIns w with | some (_, i) => f i | none => false
    | none => false

/-- A rotation that an entry, a watch entry or the program names. -/
def rotNamed (x : Ctx) (idx : Nat) : Bool :=
  x.cat.live.any (fun e => e.2.policy.rotId == idx) || x.pol.watch.any (fun w => w.2.rotId == idx)
  || progHas x fun i => match i with | .rot _ f => f.rot == idx | _ => false

/-- A watch entry that a live entry or the program names. -/
def watchNamed (x : Ctx) (idx : Nat) : Bool :=
  x.cat.live.any (fun e => e.2.layer == idx)
  || progHas x fun i => match i with
    | .rung _ l => l == idx
    | .red op f => op == .stats && f.layer == idx
    | .epiTap f => f.stats && f.layer == idx
    | _ => false

/-- Selectors whose deletes are legal while a RUN_STEP runs. -/
def selRuns (sel : Nat) : Bool := sel == 4 || sel == 5 || sel == 10

/-- What stands against a delete besides the context's state: ESTATE. -/
def delFree (x : Ctx) (sel idx : Nat) : Bool :=
  match sel with
  | 2 => !x.gate.ranStep
  | 3 => !watchNamed x idx
  | 4 => !rotNamed x idx
  | 7 => !groupNamed x idx
  | _ => true

def deleteRec (p : Policies) (sel idx : Nat) : Policies :=
  match sel with
  | 2 => { p with groups := tdel p.groups idx }
  | 3 => { p with watch := tdel p.watch idx }
  | 4 => { p with rot := tdel p.rot idx }
  | 5 => { p with actNext := tset p.actNext idx none }
  | 6 => { p with descs := tdel p.descs idx }
  | 7 => { p with grps := tdel p.grps idx }
  | _ => p

def execSetPolicyDelete (sub : Sub) (selector : Nat) (f : SetF) (s : State) : Outc :=
  .next (ctxCmd s sub opSetPolicy (setBody selector true f)
    (fun x => setLegal (selRuns selector) x && (!deletable x selector f.index || delFree x selector f.index))
    (fun _ x => orEarg (f.length != 0 && deletable x selector f.index))
    (fun s1 c x => done (policyRec (setCtx s1 c (markImages { x with pol := deleteRec x.pol selector f.index })) c selector f.index []) sub)
    (f.target == 0))

end Sys2Proof.Machine
end

