-- ==== Sys2Proof/Machine/Maps.lean ====
section
/-! DEFINITION. MAP, UNMAP, BIND and its release, LOAD_PROGRAM (R193, R291–R297, R314–R331, R337, R345, R543, R660). -/

namespace Sys2Proof.Machine

/-! ### Peers (R294, R337, R433, R434) -/

/-- A coordinate of the fabric as a peer index: the rank among all coordinates in ascending order (log 24). -/
def peerIndex (s : State) (co : Nat) : Nat :=
  let k (i : Nat) : Nat := s.host.axes.getD i 16
  bitsOf co 3 0 + k 0 * (bitsOf co 7 4 + k 1 * (bitsOf co 11 8 + k 2 * bitsOf co 15 12))
def peerCount (s : State) : Nat := (s.host.axes.foldl (· * ·) 1)

/-- The coordinates of the fabric, in ascending order of peer index. -/
def coordinates (s : State) : List Nat :=
  let k (i : Nat) : List Nat := List.range (s.host.axes.getD i 16)
  (k 3).flatMap fun d => (k 2).flatMap fun c => (k 1).flatMap fun b => (k 0).map fun a => a + 16 * b + 256 * c + 4096 * d

/-- A coordinate on an axis. -/
def nib (co a : Nat) : Nat := bitsOf co (4 * a + 3) (4 * a)

/-- Axes on which two coordinates differ: fabric hops (R432, R455). -/
def hopsTo (a b : Nat) : Nat := ((List.range 4).filter fun i => nib a i != nib b i).length

/-- The peer for a remote shard: of the peers in service with granted frames free the one with the fewest hops, then with the most frames
free, then the lowest peer index (R337). How many frames a peer has free is a free value: it is the peer's state. -/
def nearestPeer (s : State) : Option Nat :=
  match s.host.address with
  | none => none
  | some a =>
    let me := a % 65536
    let l := (coordinates s).filter fun k => k != me && !s.fabric.lost.contains k && Config.peerFrames s.free (peerIndex s k) != 0
    let better (k b : Nat) : Bool := hopsTo me k < hopsTo me b
      || (hopsTo me k == hopsTo me b && Config.peerFrames s.free (peerIndex s b) < Config.peerFrames s.free (peerIndex s k))
    (l.foldl (fun b k => match b with | some j => if better k j then some k else b | none => some k) none).map (peerIndex s)

/-! ### Runs and leaves (R292–R296, R331) -/

/-- The aligned 2 MiB runs of `n` pages from `p`: first page and number of pages. -/
def rangeRuns : Nat → Nat → Nat → List (Nat × Nat)
  | 0, _, _ => []
  | _ + 1, _, 0 => []
  | k + 1, p, n => let m := min n (32 - p % 32); (p, m) :: rangeRuns k (p + m) (n - m)

/-- The frames quota that bounds a placement: the smaller of the quota in force and one that waits for the step boundary. -/
def framesQuota (x : Ctx) : Nat := match x.ident.quotaNext with | some q => min x.ident.frames q.2.2.2 | none => x.ident.frames
def waysQuota (x : Ctx) : Nat := match x.ident.quotaNext with | some q => min x.ident.ways q.2.1 | none => x.ident.ways

def addLeaves (t : Tab Leaf) (w : Bool) : Nat → List Nat → Tab Leaf
  | _, [] => t
  | p, f :: r => addLeaves (tset t p ⟨0, w, 0, f, 0, false⟩) w (p + 1) r

/-- Remote leaves: the same virtual addresses on the peer (R294, log 7). -/
def remoteLeaves (t : Tab Leaf) (w : Bool) (peer : Nat) (p : Nat) : Nat → Tab Leaf
  | 0 => t
  | n + 1 => remoteLeaves (tset t p ⟨3, w, 0, p * frameBytes, peer, true⟩) w peer (p + 1) n

/-- The leaf of a page with this target that an earlier MAP has placed in the 2 MiB run of page `p`. -/
def runLeaf (x : Ctx) (p loc : Nat) : Option Leaf := (x.maps.find? fun m => m.1 / 32 == p / 32 && m.2.loc == loc).map (·.2)

/-- The stack of `n` pages of a run: that of the run's local pages already placed, where it has room, so that a shard lies in one stack (R324),
else the one with the most frames free (R331). -/
def runStack (s : State) (x : Ctx) (p n : Nat) : Nat :=
  match (runLeaf x p 0).bind fun l => stackOf l.frame with
  | some st => if (framesOf s st n).isSome then st else freestStack s
  | none => freestStack s

/-- The peer of a run that does not fit here: that of its remote pages already placed, else the one chosen. -/
def runPeer (x : Ctx) (peer : Option Nat) (p : Nat) : Option Nat :=
  peer.map fun i => match runLeaf x p 3 with | some l => l.peer | none => i

/-- Places runs in local HBM, and from the first that does not fit on a peer where that is allowed (R331, R337; log 129). -/
def placeRuns (c : Nat) (x : Ctx) (w : Bool) (peer : Option Nat) : List (Nat × Nat) → Bool → State × Tab Leaf × Nat → Option (State × Tab Leaf × Nat)
  | [], _, a => some a
  | (p, n) :: r, away, (s, t, k) =>
    let here := if !away && usedFrames s c x + n ≤ framesQuota x then framesOf s (runStack s x p n) n else none
    match here with
    | some l => placeRuns c x w peer r false (grantFrames s c l, addLeaves t w p l, k)
    | none => match runPeer x peer p with
      | some i => placeRuns c x w peer r true (s, remoteLeaves t w i p n, k + n)
      | none => none

/-- Pages of one target and contiguous aligned frames. -/
def uniform (t : Tab Leaf) (b n : Nat) : Bool :=
  match tget t b with
  | none => false
  | some l => l.frame % (n * frameBytes) == 0 && (List.range n).all fun i => match tget t (b + i) with
      | some m => m.loc == l.loc && m.w == l.w && m.peer == l.peer && m.frame == l.frame + i * frameBytes
      | none => false

/-- The leaf size of a page of a new mapping of `n` pages from `p` (R296). -/
def leafSize (t : Tab Leaf) (p n page : Nat) : Nat :=
  let inside (k : Nat) : Bool := p ≤ page / k * k && page / k * k + k ≤ p + n
  if inside 16384 && uniform t (page / 16384 * 16384) 16384 then 2
  else if inside 32 && uniform t (page / 32 * 32) 32 then 1 else 0

def sizeLeaves (t : Tab Leaf) (p n : Nat) : Tab Leaf := t.map fun q => (q.1, { q.2 with size := leafSize t p n q.1 })

/-- Leaves of one target with rising frames. -/
def plainLeaves (loc : Nat) (w : Bool) (peer target p : Nat) : Nat → Tab Leaf
  | 0 => []
  | n + 1 => (p, ⟨loc, w, 0, target, peer, false⟩) :: plainLeaves loc w peer (target + frameBytes) (p + 1) n

/-- 128 MiB of an annex way in frames (R566). -/
def wayFrames : Nat := 2048

/-- In partition mode a patron without a mask pins nothing (R279). -/
def mayPin (s : State) (x : Ctx) : Bool := !s.host.partition || x.ident.wayMask != 0

/-- Places a range: the state with its frames, its leaves and the frames placed remotely; none is ELIMIT. -/
def placeRange (s : State) (c : Nat) (x : Ctx) (p n loc : Nat) (w remote : Bool) (peer target : Nat) : Option (State × Tab Leaf × Nat) :=
  match loc with
  | 0 => (placeRuns c x w (if remote then nearestPeer s else none) (rangeRuns (n / 32 + 2) p n) false (s, [], 0)).map
      fun q => (q.1, sizeLeaves q.2.1 p n, q.2.2)
  | 1 =>
    if !mayPin s x || waysQuota x * wayFrames < pinnedOf s c + n then none else
    (takePinnedN c x n s).map fun q => (q.2, sizeLeaves ((addLeaves [] w p q.1).map fun l => (l.1, { l.2 with loc := 1 })) p n, 0)
  | _ => some (s, sizeLeaves (plainLeaves loc w peer target p n) p n, 0)

def mapBody (f : MapF) : Bytes :=
  leBytes 8 f.va ++ leBytes 4 f.frames ++ leBytes 1 f.loc ++ leBytes 1 (b2n f.w + 2 * b2n f.remote) ++ leBytes 2 f.peer ++ leBytes 8 f.target

/-- The fields of a MAP, and that no page of its range is mapped (R291, R296, R537). A reserved `loc` is refused first (R5). -/
def mapOk (s : State) (x : Ctx) (f : MapF) : Bool :=
  f.va % frameBytes == 0 && vaOk f.va && f.frames != 0 && f.va + f.frames * frameBytes ≤ 2 ^ 48 && f.loc ≤ 3
  && (f.loc == 3 || f.peer == 0) && (f.loc != 3 || (f.peer < peerCount s && f.target + f.frames * frameBytes ≤ 2 ^ 48))
  && (2 ≤ f.loc || f.target == 0) && f.target % frameBytes == 0 && f.target < 2 ^ 52
  && !(x.maps.any fun m => f.va / frameBytes ≤ m.1 && m.1 < f.va / frameBytes + f.frames)

/-- Joins new leaves to a context's mappings. -/
def joinMaps (x : Ctx) (t : Tab Leaf) : Ctx := { x with maps := t.foldl (fun m l => tset m l.1 l.2) x.maps }

def memLegal (x : Ctx) : Bool := x.inState [.opened, .ready, .running, .paused]

/-- What a MAP finds: its fields, then room for its frames. -/
def mapFound (s : State) (c : Nat) (x : Ctx) (f : MapF) : Option Status :=
  if !mapOk s x f then some .earg
  else if (placeRange s c x (f.va / frameBytes) f.frames f.loc f.w f.remote f.peer f.target).isNone then some .elimit else none

/-- The last slice of a MAP: every page at once, or none (R546). -/
def doMap (s : State) (sub : Sub) (c : Nat) (x : Ctx) (f : MapF) : State :=
  if !mapOk s x f then refuse s sub .earg else
  match placeRange s c x (f.va / frameBytes) f.frames f.loc f.w f.remote f.peer f.target with
  | none => refuse s sub .elimit
  | some q => done (setCtx (driveCataloguer (if f.loc = 0 ∧ f.remote = true then { q.1 with free := q.1.free + 1 } else q.1) (some c)) c (joinMaps x q.2.1)) sub q.2.2

def execMap (sub : Sub) (f : MapF) (s : State) : Outc :=
  .next (ctxCmd s sub 0x05 (mapBody f) memLegal (fun c x => mapFound s c x f)
    (fun s1 _ _ => startCmd s1 sub 0x05 (mapBody f) (some (.map f))) (f.loc ≤ 3))

/-! ### UNMAP (R297) -/

/-- A live entry occupies some page of a range. -/
def occupied (x : Ctx) (p n : Nat) : Bool :=
  x.cat.live.any fun e => e.2.base != 0 && e.2.kind ≤ 2 && e.2.base / frameBytes < p + n && p * frameBytes < e.2.base + e.2.span

/-- Takes pages out of a context: local and annex frames are overwritten and freed, a peer's frames are given back. -/
def dropPages (s : State) (c : Nat) (x : Ctx) (ok : Nat → Bool) : State :=
  let gone := x.maps.filter fun m => ok m.1
  let y := { x with maps := x.maps.filter fun m => !ok m.1,
                    peerMem := gone.foldl (fun t m => if m.2.loc = 3 then tset t m.2.peer (mclear (tgetD t m.2.peer []) m.2.frame frameBytes) else t) x.peerMem,
                    peerPoison := gone.foldl (fun t m => if m.2.loc = 3 then tset t m.2.peer ((tgetD t m.2.peer []).filter fun a =>
                      a < m.2.frame / 64 || m.2.frame / 64 + 1024 ≤ a) else t) x.peerPoison }
  freeFrames (setCtx s c y) (gone.filterMap fun m => if m.2.loc ≤ 1 then some m.2.frame else none)

/-- No live entry lies in the range; an address that is no page's fails later, as such (R538). -/
def unmapFree (x : Ctx) (va frames : Nat) : Bool := !(va % frameBytes == 0 && occupied x (va / frameBytes) frames)
def unmapOk (x : Ctx) (va frames : Nat) : Bool :=
  va % frameBytes == 0 && frames != 0 && va + frames * frameBytes ≤ 2 ^ 48 && mappedPages x (va / frameBytes) false frames

/-- The last slice of an UNMAP; an entry bound in the range meanwhile stops it. -/
def doUnmap (s : State) (sub : Sub) (c : Nat) (x : Ctx) (va frames : Nat) : State :=
  if !unmapFree x va frames then refuse s sub .estate else if !unmapOk x va frames then refuse s sub .earg
  else done (dropPages (driveCataloguer s (some c)) c x fun k => va / frameBytes ≤ k && k < va / frameBytes + frames) sub

def execUnmap (sub : Sub) (va frames : Nat) (s : State) : Outc :=
  .next (ctxCmd s sub 0x06 (leBytes 8 va ++ leBytes 4 frames) (fun x => memLegal x && unmapFree x va frames)
    (fun _ x => orEarg (unmapOk x va frames))
    (fun s1 _ _ => startCmd s1 sub 0x06 (leBytes 8 va ++ leBytes 4 frames) (some (.unmap va frames))))

/-! ### BIND (R321) -/

/-- Lines of a quantised entry or view (R207). -/
def qLines (e : Entry) : Nat := if e.gaxis then e.cols else e.rows

def quantKind (e : Entry) : Bool := e.kind == 1 || e.kind == 4

/-- Check 2: extents and sizes. -/
def extentsOk (e : Entry) : Bool :=
  (e.dims.take (e.ndim + 1)).all (· != 0) && e.cols ≤ 16777216 && e.rows * e.cols ≤ 2 ^ 44

/-- Check 3: the class suits the kind. -/
def classOk (e : Entry) : Bool :=
  (e.kind != 2 || ((e.cls == 1 || e.cls == 2) && e.base % 64 == 0)) && (e.cls != 3 || e.kind ≤ 1) && (e.cls != 4 || e.kind == 0)

/-- Check 4: the policy, the rotation's block, the grouped axis and the edition's formats (R73, R98, R349). -/
def quantOkAt (x : Ctx) (e : Entry) : Bool :=
  !quantKind e || (policyOk x e.policy e.zeropts && rungOk x e e.policy && e.axisLen % 32 == 0 && entryFits x.edition e)

/-- A reference that is 0 or a tensor that satisfies a test. -/
def refIs (x : Ctx) (cn : Nat) (p : TRef → Bool) : Bool := cn == 0 || (match tensor x cn with | some t => p t | none => false)
def plainT (fmt n : Nat) (t : TRef) : Bool := t.e.kind == 0 && t.e.fmt == fmt && t.size == n

/-- Check 6: kinds, formats and shapes of the references. -/
def refsOk (x : Ctx) (e : Entry) : Bool :=
  let p := e.policy
  let n := qLines e * ceilDiv e.axisLen p.g
  let E := quireElems p.f
  (e.layer == 0xFFFF || (tget x.pol.watch e.layer).isSome)
  && (match e.kind with
      | 3 => e.source != 0 && refIs x e.source fun t => t.e.kind == 0 && t.e.fmt == e.fmt
      | 4 => e.source != 0 && refIs x e.source fun t => t.e.kind == 0 && [9, 10, 11].contains t.e.fmt
      | _ => true)
  && (!quantKind e ||
      (refIs x e.tscale (plainT 11 1) && refIs x e.scales (plainT p.sf.code n) && refIs x e.masters (plainT 11 n)
       && refIs x e.zeropts (plainT 3 n) && refIs x e.sgrad (fun t => t.e.kind == 2 && t.size == n)
       && (!p.learned || (e.scales != 0 && e.masters != 0)) && ((e.zeropts != 0) == (p.learned && p.fmt == 3))
       && refIs x e.marg (fun t => t.e.kind == 0 && t.e.fmt == 13 && qLines e * ceilDiv e.axisLen E * E / 16 ≤ t.size)
       && (e.marg != 0 || !(p.marg || (e.layer != 0xFFFF && admitsMarg p.f)))))

/-- Check 7: a view's rectangle lies inside its source. -/
def viewOk (x : Ctx) (e : Entry) : Bool :=
  e.kind < 3 || (match tensor x e.source with
    | some t => if e.trans then e.vrow + e.cols ≤ t.e.rows && e.vcol + e.rows ≤ t.e.cols
                else e.vrow + e.rows ≤ t.e.rows && e.vcol + e.cols ≤ t.e.cols
    | none => false)

/-- Bytes a stored line needs; a layer's quires may be re-formed at 8 bits. -/
def lineNeeds (e : Entry) : Nat :=
  if e.kind = 1 ∧ e.layer = 0xFFFF then ceilDiv e.axisLen (quireElems e.policy.f) * 576 else e.lineBytes

def inMemory (e : Entry) : Bool := e.kind ≤ 2 && e.cls != 3

/-- Check 8: the range is mapped and the pitch holds a line. -/
def rangeOk (x : Ctx) (e : Entry) : Bool := !inMemory e || (lineNeeds e ≤ e.pitch && bufferOk x e.base e.span false)

/-- The leaf targets a class admits (R323). -/
def classLocs (cls : Nat) : List Nat := match cls with | 0 => [0, 3] | 1 => [0] | 2 => [1] | _ => [2]

/-- Check 9: every leaf under the range has a target that the class admits. -/
def targetsOk (x : Ctx) (e : Entry) : Bool :=
  !inMemory e || x.maps.all fun m =>
    m.1 < e.base / frameBytes || (e.base + e.span - 1) / frameBytes < m.1 || (classLocs e.cls).contains m.2.loc

/-- Store granules of 4 KiB that a scratch entry takes (R326). -/
def granules (e : Entry) : Nat := if e.cls = 3 then ceilDiv (e.lines * e.step) 4096 else 0

/-- Deals `n` granules in turn. -/
def dealGranules (grant : List Nat) (n : Nat) : List Nat := (List.range n).map fun k => grant.getD (k % grant.length) 0

/-- Granules of all patrons in a carrel's store. -/
def storeUse (s : State) (k : Nat) : Nat := (s.ctxs.map fun p => granulesOn p.2 k).sum

/-- The granules find room: 3,072 to a store (R272). -/
def storesHold (s : State) (x : Ctx) (n : Nat) : Bool :=
  n == 0 || (!x.ident.grant.isEmpty && (List.range x.ident.grant.length).all fun j =>
    storeUse s (x.ident.grant.getD j 0) + (n + x.ident.grant.length - 1 - j) / x.ident.grant.length ≤ 3072)

def liveCount (s : State) : Nat := (s.ctxs.map fun p => p.2.cat.live.length).sum
def shardTotal (s : State) : Nat := (s.ctxs.map fun p => (p.2.cat.shards.map fun q => q.2.length).sum).sum

/-- Check 10: the limits of R345. -/
def limitsOk (s : State) (x : Ctx) (e : Entry) : Bool :=
  x.cat.live.length < 1048576 && liveCount s < 16777216 && shardTotal s + e.shardCount ≤ 4194304 && storesHold s x (granules e)

/-- The ordered checks; none where the entry passes. -/
def bindCheck (s : State) (x : Ctx) (b : Bytes) : Option Status :=
  match Entry.ofBytes b with
  | none => some .earg
  | some e =>
    firstOf [(vaOk e.base && ((e.kind != 0 && e.kind != 3) || (Fmt.ofCode e.fmt).isSome), .earg), (extentsOk e, .earg), (classOk e, .earg),
      (quantOkAt x e, .earg), (e.refs.all fun k => (tensor x k).isSome, .ehandle), (refsOk x e, .earg), (viewOk x e, .ebound),
      (rangeOk x e, .ebound), (targetsOk x e, .earg), (limitsOk s x e, .elimit)]

/-- The lowest index that holds no entry. -/
def freeIndex : Nat → List Nat → Nat
  | k, [] => k
  | k, j :: r => if j = k then freeIndex (k + 1) r else k

/-- The tag after the one an index last held (R315). -/
def nextTag (last : Nat) : Nat := if last = 0 ∨ last = 4095 then 1 else last + 1

/-- Where a run of an entry's range lies: its record at BIND (R325). -/
def shardAt (x : Ctx) (e : Entry) (k : Nat) : Shard :=
  let run := e.base / shardBytes + k
  let page := max e.base (run * shardBytes) / frameBytes
  match tget x.maps page with
  | none => ⟨false, 0, 0, 0, 0⟩
  | some l =>
    let unit := if l.loc = 0 then (stackOf l.frame).getD 0 else if l.loc = 1 then (annexOf l.frame).getD 0 else 0
    ⟨false, l.loc, unit, if l.loc = 3 then l.peer else 0, 0⟩

/-- Puts an entry at an index under a tag, with its shard records or its zeroed granules. -/
def putEntryAt (x : Ctx) (idx tag : Nat) (e : Entry) : Ctx :=
  let shards := (List.range e.shardCount).map (shardAt x e)
  let f := { e with gen := x.cat.gen, remote := (shards.filter fun h => h.loc == 3).length, abandoned := 0 }
  { x with cat := { x.cat with
      tags := tset x.cat.tags idx tag, live := tset x.cat.live idx f,
      shards := if e.shardCount = 0 then x.cat.shards else tset x.cat.shards idx shards,
      scratch := if e.cls = 3 ∧ e.kind ≤ 1 then tset x.cat.scratch idx ⟨dealGranules x.ident.grant (granules e), [], []⟩ else x.cat.scratch } }

def doBind (s : State) (sub : Sub) (c : Nat) (x : Ctx) (e : Entry) : State :=
  let idx := freeIndex 0 (x.cat.live.map (·.1))
  let tag := nextTag (tgetD x.cat.tags idx 0)
  done (setCtx (driveCataloguer s (some c)) c (putEntryAt x idx tag e)) sub (callNo tag idx)

def execBind (sub : Sub) (buf : Nat) (s : State) : Outc :=
  .next (ctxCmd s sub 0x03 (leBytes 8 buf) memLegal
    (fun _ x => if !vaOk buf then some .earg else if !bufferOk x buf 128 false then some .ebound else bindCheck s x (readVa s x buf 96))
    (fun s1 c x => match Entry.ofBytes (readVa s x buf 96) with | some e => doBind (readBuffer s1 c buf 128) sub c x e | none => s1))

/-! ### Release (R313, R322) -/

def referenced (x : Ctx) (cn : Nat) : Bool := x.cat.live.any fun e => e.2.refs.contains cn

/-- A device byte lies in a tensor's range. -/
def inTensor (x : Ctx) (e : Entry) (pa : Nat) : Bool :=
  x.maps.any fun m => m.2.loc ≤ 1 && m.2.frame ≤ pa && pa < m.2.frame + frameBytes
    && e.base ≤ m.1 * frameBytes + (pa - m.2.frame) && m.1 * frameBytes + (pa - m.2.frame) < e.base + e.span

/-- Clears the annex lines of a released tensor (R313). A pinned one's bytes are the lines, and read as zeros. Those of a cached one are
invalidated without write-back: what its frames held beneath them stands (log 26). The state of their cells goes with them. -/
def clearLines (s : State) (x : Ctx) (e : Entry) : State :=
  if e.cls ≠ 1 ∧ e.cls ≠ 2 then s else
  let m := dropLines s.mem fun l => (List.range 64).any fun k => inTensor x e (64 * l.line + k)
  { s with mem := { m with bytes := if e.cls = 2 then m.bytes.filter (fun p => !inTensor x e p.1) else m.bytes,
                           poison := if e.cls = 2 then m.poison.filter (fun a => !inTensor x e (64 * a)) else m.poison,
                           cellState := m.cellState.filter fun p => !inTensor x e p.1 } }

/-- Takes an entry out of the catalogue; its index keeps its tag. -/
def dropEntry (x : Ctx) (cn : Nat) : Ctx :=
  let i := callIdx cn
  { x with cat := { x.cat with live := tdel x.cat.live i, shards := tdel x.cat.shards i, scratch := tdel x.cat.scratch i,
                               staged := x.cat.staged.filter (fun g => g.1 != cn),
                               round := x.cat.round.map fun r => (r.1, r.2.map fun m => if m.call = cn then { m with abandoned := true } else m) },
           pol := { x.pol with imageRung := tdel x.pol.imageRung i } }

def execBindRelease (sub : Sub) (cn : Nat) (s : State) : Outc :=
  .next (ctxCmd s sub 0x03 (zeros 8 ++ leBytes 1 1 ++ zeros 3 ++ leBytes 4 cn) (fun x => memLegal x && !((tensor x cn).isSome && (x.stepRuns || referenced x cn)))
    (fun _ x => if (tensor x cn).isSome then none else some .ehandle)
    (fun s1 c x => match tensor x cn with
      | some t => done (setCtx (clearLines (driveCataloguer s1 (some c)) x t.e) c (dropEntry x cn)) sub
      | none => s1))

/-! ### LOAD_PROGRAM (R193, R543) -/

/-- The words of a stream, 16 bytes each. -/
def wordsOf : Nat → Bytes → List Nat
  | 0, _ => []
  | n + 1, b => leNat (b.take 16) :: wordsOf n (b.drop 16)

/-- Streams of a container: its records, and its words from `b` on. -/
def streamsOf : List Bytes → Bytes → List ProgStream
  | [], _ => []
  | r :: l, b =>
    let n := fld r 0 4
    { words := wordsOf n b, s := (List.range 29).map fun k => fld r (8 + 8 * k) 8, a := (List.range 8).map fun k => fld r (240 + 8 * k) 8 }
      :: streamsOf l (b.drop (16 * n))

/-- The first word of a list that fails its load-time checks. -/
def badWord (len : Nat) : Nat → List Nat → Option Nat
  | _, [] => none
  | k, w :: r => if loadOk len w then badWord len (k + 1) r else some k

def badStream : Nat → List ProgStream → Option (Nat × Nat)
  | _, [] => none
  | k, p :: r => match badWord p.words.length 0 p.words with | some j => some (k, j) | none => badStream (k + 1) r

/-- Reads a container; a refusal carries the result of R193. -/
def parseProgram (b : Bytes) : Except Nat Program :=
  let n := fld b 6 1
  let recs := (List.range n).map fun i => slice b (64 + 320 * i) 320
  let words := (recs.map fun r => fld r 0 4).sum
  let header := fld b 0 4 == 0x50525A54 && fld b 4 2 == 1 && 1 ≤ n && n ≤ 16 && fld b 7 1 == 0 && zeroAt b 12 52
    && fld b 8 4 == b.length && b.length == 64 + 320 * n + 16 * words
  let recOk (r : Bytes) : Bool := 1 ≤ fld r 0 4 && fld r 0 4 ≤ 65536 && zeroAt r 4 4 && zeroAt r 304 16
    && (List.range 8).all fun k => zeroAt r (244 + 8 * k) 4
  if !(header && recs.all recOk) then .error 0 else
  let l := streamsOf recs (b.drop (64 + 320 * n))
  match badStream 0 l with
  | some q => .error (2 ^ 31 + q.1 * 65536 + q.2)
  | none => .ok ⟨b, l⟩

def progCheck (s : State) (x : Ctx) (va len : Nat) : Option (Status × Nat) :=
  if !vaOk va || len == 0 then some (.earg, 0)
  else if !bufferOk x va len false then some (.ebound, 0)
  else match parseProgram (readVa s x va len) with | .error r => some (.earg, r) | .ok _ => none

def execLoadProgram (sub : Sub) (container len : Nat) (s : State) : Outc :=
  .next (ctxCmdR s sub 0x04 (leBytes 8 container ++ leBytes 4 len) (fun x => x.inState [.opened, .ready, .paused] && !exclusiveRuns x)
    (fun _ x => progCheck s x container len)
    (fun s1 _ _ => startCmd s1 sub 0x04 (leBytes 8 container ++ leBytes 4 len) (some (.load container len))))

/-- The last slice of a LOAD_PROGRAM: the program takes effect at the next admission (R543, R546). -/
def doLoad (s : State) (sub : Sub) (c : Nat) (x : Ctx) (container len : Nat) : State :=
  match progCheck s x container len, parseProgram (readVa s x container len) with
  | none, .ok p => done (readyIf (setCtx (readBuffer s c container len) c { x with progNext := some p }) c) sub
  | some e, _ => refuse s sub e.1 e.2
  | none, .error r => refuse s sub .earg r

end Sys2Proof.Machine
end

