-- ==== Sys2Proof/Machine/Restore.lean ====
section
/-! DEFINITION. RESTORE: reading and checking member volumes, and rebuilding a context from them (R505, R509–R512, R517). -/

namespace Sys2Proof.Machine

/-! ### Reading a volume (R503–R505) -/

/-- A volume as read: its shards with the digests and flags their entries carry. -/
structure RawVol where
  v : Volume
  digests : List Bytes
  flags : List Nat
deriving DecidableEq, Repr

/-- Shards cut from the bytes after the colophon, by their entries. -/
def cutShards : List Bytes → Bytes → List VShard
  | [], _ => []
  | e :: r, b =>
    let n := fld e 24 8
    { call := fld e 0 4, kind := fld e 4 1, part := fld e 6 2, first := fld e 8 8, units := fld e 16 8, bytes := b.take n, poison := [] }
      :: cutShards r (b.drop n)

/-- Check 1: magic, version, reserved bytes, and the HMAC under the volume key. -/
def headerOk (key : Bytes) (b : Bytes) : Bool :=
  let n := fld b 104 4
  304 + 80 * n ≤ b.length && fld b 0 4 == 0x4C565A54 && fld b 4 2 == 1 && fld b 6 1 ≤ 2 && fld b 7 1 ≤ 3 && zeroAt b 30 2 && zeroAt b 74 2
  && zeroAt b 112 144 && (List.range n).all (fun i => fld b (256 + 80 * i + 4) 1 ≤ 2 && fld b (256 + 80 * i + 5) 1 ≤ 1)
  && hmac384 key (b.take (256 + 80 * n)) == slice b (256 + 80 * n) 48

def readVolume (b : Bytes) : RawVol :=
  let n := fld b 104 4
  let es := (List.range n).map fun i => slice b (256 + 80 * i) 80
  { v := { header := b.take 256, shards := cutShards es (b.drop (304 + 80 * n)), mac := slice b (256 + 80 * n) 48 },
    digests := es.map fun e => slice e 32 48, flags := es.map fun e => fld e 5 1 }

/-- What volumes read together must agree in: step, epoch, chain, total and the Verbatim flag. -/
def sameJob (v : Volume) : Nat × Nat × Bytes × Nat × Bool :=
  (fld v.header 24 6, fld v.header 20 4, slice v.header 48 16, fld v.header 76 4, bitOf (fld v.header 7 1) 0)

def digestsOk (r : RawVol) : Bool := (List.zip r.v.shards r.digests).all fun p => sha384 p.1.bytes == p.2

/-- Checks 1 to 5 of R509, in order. -/
def volumesCheck (x : Ctx) (l : List Bytes) : Option Status :=
  let vs := l.map readVolume
  firstOf [(x.ident.volKey.isSome && l.all (headerOk (x.ident.volKey.getD [])), .evolume),
    (vs.all fun r => fld r.v.header 8 8 == x.ident.patron && fld r.v.header 16 4 == x.ident.job, .evolume),
    (match vs with | [] => false | r :: t => t.all fun q => sameJob q.v == sameJob r.v, .evolume),
    (vs.all digestsOk, .edigest), (vs.all fun r => r.flags.all (· == 0), .epoison)]

/-! ### Rebuilding (R510–R512, R517) -/

/-- The policies of a context image. -/
def imagePolicies (l : List (Nat × Nat × Bytes)) : Option Policies :=
  let one (type : Nat) : Bytes := match recsOf l type with | r :: _ => r.2 | [] => []
  match tabOf Group.ofBytes (recsOf l 2), tabOf Watch.ofBytes (recsOf l 3), tabOf rotRecOf (recsOf l 4), tabOf Desc.ofBytes (recsOf l 6),
        tabOf groupRecOf (recsOf l 7), ModeRec.ofBytes (fit 32 (one 8)), VolPolicy.ofBytes (fit 32 (one 9)) with
  | some g, some w, some r, some d, some k, some m, some v =>
    let jobs := recsOf l 1
    let job := match jobs with | q :: _ => Job.ofBytes q.2 | [] => none
    if !jobs.isEmpty && job.isNone then none else
    some { job := job, groups := g, watch := w, imageRung := restoreRungs l, rot := r,
           act := (recsOf l 5).foldl (fun t q => tset t q.1 q.2) [], actNext := [], descs := d, grps := k, mode := m, modeNext := none, vol := v }
  | _, _, _, _, _, _, _ => none

/-- The mapped ranges of an image: page, pages, loc, w, peer. -/
def imageMaps (l : List (Nat × Nat × Bytes)) : List (Nat × Nat × Nat × Bool × Nat) :=
  (recsOf l 11).map fun r => (fld r.2 0 8 / frameBytes, fld r.2 8 8 / frameBytes, fld r.2 16 1, fld r.2 17 1 == 1, fld r.2 18 2)

/-- Places an image's ranges afresh. Host pages stay as the context holds them: a volume carries no bus address (log 27). -/
def restoreMaps (c : Nat) : List (Nat × Nat × Nat × Bool × Nat) → State → Option State
  | [], s => some s
  | (p, n, loc, w, peer) :: r, s =>
    if loc = 2 then restoreMaps c r s else
    match getCtx s c with
    | none => none
    | some x =>
      let y := { x with maps := x.maps.filter fun m => m.1 < p || p + n ≤ m.1 }
      match placeRange (setCtx s c y) c y p n loc w false peer (p * frameBytes) with
      | none => none
      | some q => restoreMaps c r (setCtx q.1 c (joinMaps y q.2.1))

/-- The entries of an image: call number and entry; none where one does not read. -/
def imageEntries (l : List (Nat × Nat × Bytes)) : Option (List (Nat × Entry)) :=
  let es := (recsOf l 10).map fun r => (r.1, Entry.ofBytes r.2)
  if es.all fun e => e.2.isSome then some (es.filterMap fun e => e.2.map (e.1, ·)) else none

/-- Check 6: each record passes its SET_POLICY checks; a tensor the volume does not hold is the host's to bind again (log 25). A group record
is checked where it is taken (R511; log 149). -/
def imageOk6 (s : State) (x : Ctx) (l : List (Nat × Nat × Bytes)) : Bool :=
  let p := x.pol
  (match p.job with | some j => jobOk x j true | none => true)
  && p.groups.all (fun g => if (tensor x g.2.master).isSome && (tensor x g.2.grad).isSome then groupOk x g.1 g.2
      else unit01 g.2.b1 && unit01 g.2.b2 && nonNeg g.2.eps && fin32 g.2.wd)
  && p.watch.all (fun w => watchOk x w.2) && (recsOf l 4).all (fun r => rotRecOk r.1 r.2)
  && p.act.all (fun a => 8 ≤ a.1 && a.1 ≤ 15 && a.2.length == 1552 && actOk a.2)
  && p.descs.all (fun d => descOk x d.2) && (recsOf l 7).all (fun r => match groupRecOf r.2 with | some g => tget p.grps r.1 != some g || groupRecOk s r.1 r.2 g | none => false)
  && modeOk x p.mode true && volPolicyOk s x p.vol true

/-! ### The restore map (R510) -/

/-- A map entry: destination, volume, source, first element, count. -/
structure MapEnt where
  dst : Nat
  vol : Nat
  src : Nat
  first : Nat
  count : Nat
  ok : Bool
deriving DecidableEq, Repr

def readMapEnts (s : State) (x : Ctx) (va n : Nat) : List MapEnt :=
  (List.range n).map fun k =>
    let b := readVa s x (va + 32 * k) 32
    ⟨fld b 0 4, fld b 4 2, fld b 8 4, fld b 16 8, fld b 24 8, zeroAt b 6 2 && zeroAt b 12 4⟩

/-- The source's entry in its own volume. -/
def sourceEntry (v : Volume) (call : Nat) : Option Entry :=
  match v.recs with
  | none => none
  | some l => match (recsOf l 10).find? (·.1 == call) with | some r => Entry.ofBytes r.2 | none => none

/-- A source's entry as a tensor of the rebuilt context, whose policies give its rung. -/
def mapEntOk (x : Ctx) (vs : List Volume) (m : MapEnt) : Option Status :=
  match tensor x m.dst, vs[m.vol]? with
  | none, _ => some .ehandle
  | some _, none => some .earg
  | some t, some v =>
    match sourceEntry v m.src with
    | none => some .earg
    | some e =>
      let u : TRef := ⟨m.src, e⟩
      if m.ok && t.e.kind == e.kind && t.e.fmt == e.fmt && t.e.policy == e.policy && m.first + m.count ≤ u.size && m.count ≤ t.size
        && !(v.data m.src).isEmpty
      then none else some .earg

/-- A source tensor as its volume holds it, and the elements an entry takes of it. -/
structure MapSrc where
  t : TRef
  data : List (Byte × Bool)
  first : Nat
  count : Nat
deriving DecidableEq, Repr

def mapSrc (vs : List Volume) (m : MapEnt) : Option MapSrc :=
  vs[m.vol]?.bind fun v => (sourceEntry v m.src).map fun e => ⟨⟨m.src, e⟩, v.data m.src, m.first, m.count⟩

/-- The source of the `k`-th element that a list of entries brings: which entry and which of its tensor's elements. -/
def sourceAt : List MapSrc → Nat → Option (MapSrc × Nat)
  | [], _ => none
  | m :: r, k => if k < m.count then some (m, m.first + k) else sourceAt r (k - m.count)

/-- The code of element `k` of a plain tensor's stored bytes, and whether a byte of it is poisoned. -/
def storedElem (e : Entry) (l : List (Byte × Bool)) (k : Nat) : Nat × Bool :=
  let bit := k / e.cols * ceilDiv (e.cols * e.width) 8 * 8 + k % e.cols * e.width
  let b := (l.drop (bit / 8)).take ((bit % 8 + e.width + 7) / 8)
  (leNat (b.map (·.1)) / 2 ^ (bit % 8) % 2 ^ e.width, b.any (·.2))

/-- The logical element that stands at axis position `k` of line `i` of a quire tensor (R207). -/
def axisElem (e : Entry) (i k : Nat) : Nat := if e.gaxis then k * e.cols + i else i * e.cols + k

/-- Line and axis position of a logical element of a quire tensor. -/
def axisPos (e : Entry) (k : Nat) : Nat × Nat := if e.gaxis then (k % e.cols, k / e.cols) else (k / e.cols, k % e.cols)

/-- The elements of quire `q` of a line, where a quire holds `E`. -/
def quireSpan (e : Entry) (E i q : Nat) : List Nat := (List.range (min E (e.axisLen - q * E))).map fun n => axisElem e i (q * E + n)

/-- The bytes of a quire of the destination: those of a quire of one source whose elements are just its elements. Elements that come apart have
no stored form of their own, since a quire's scales hold for the whole of it: free bytes (log 28). None where nothing lands in it. -/
def quireBytes (x : Ctx) (l : List MapSrc) (t : TRef) (i q : Nat) (free : Nat) : Option (List (Byte × Bool)) :=
  let want := (quireSpan t.e (quireElems (storedPolicy x t).f) i q).map (sourceAt l)
  match want.findSome? id with
  | none => none
  | some (m, k) =>
    let E := quireElems (storedPolicy x m.t).f
    let a := axisPos m.t.e k
    let n := ceilDiv m.t.e.axisLen E
    if want = (quireSpan m.t.e E a.1 (a.2 / E)).map (fun k => some (m, k)) then some ((m.data.drop (576 * (a.1 * n + a.2 / E))).take 576)
    else some (cleanBytes (leBytes 576 (Config.freeUnit free (i * n + q)).toNat))

/-- The elements of some sources land in a tensor from its logical element 0 on (R510). -/
def landIn (s : State) (c : Nat) (x : Ctx) (t : TRef) (l : List MapSrc) : State :=
  let total := (l.map (·.count)).sum
  match t.e.kind with
  | 1 =>
    let n := s.fresh
    (positions t.e.lines (ceilDiv t.e.axisLen (quireElems (storedPolicy x t).f))).foldl (fun s q =>
      match quireBytes x l t q.1 q.2 n.1 with
      | some b => putRun s c x t (q.1 * t.e.step + q.2 * 576) b
      | none => s) n.2
  | 2 => (List.range total).foldl (fun s k => match sourceAt l k with
      | some (m, j) => putImage s c x t (k / t.e.cols) (k % t.e.cols) ((m.data.drop (48 * j)).take 48)
      | none => s) s
  | _ => (putItems s c t ((List.range total).filterMap fun k => (sourceAt l k).map fun p =>
      let v := storedElem p.1.t.e p.1.data p.2
      .put (k / t.e.cols) (k % t.e.cols) v.1 v.2)).1

/-- Check 7 of the map: none of its entries fails, and no destination takes more than it holds. -/
def mapCheck (x : Ctx) (vs : List Volume) (l : List MapEnt) : Option Status :=
  if l.isEmpty then (if vs.length = 1 then none else some .earg) else
  match l.filterMap (mapEntOk x vs) with
  | e :: _ => some e
  | [] => orEarg (l.all fun m => match tensor x m.dst with
      | some t => ((l.filter fun k => k.dst == m.dst).map (·.count)).sum ≤ t.size
      | none => false)

/-- Entries of one destination land one after the other, from its element 0 on (log 28). -/
def putMapped (c : Nat) (vs : List Volume) (l : List MapEnt) (s : State) : State :=
  (l.foldl (fun a m => addNew a m.dst) []).foldl (fun s k =>
    match getCtx s c with
    | none => s
    | some x => match tensor x k with
      | none => s
      | some t => landIn s c x t ((l.filter fun m => m.dst == k).filterMap (mapSrc vs))) s

/-! ### The whole -/

/-- The contributions that come to this member, with their rows: those its group records number as its own (R511). -/
def ownCarry (s : State) (x : Ctx) (vs : List Volume) : List Carried :=
  (vs.flatMap fun v => carriedOf v (v.recs.getD [])).filter fun y =>
    !y.row.isEmpty && match memberOf s x y.desc with | some k => (k.numbers k.me).contains y.contribution | none => false

/-- Gate state, position and randomness of the first volume. -/
def restoredGate (s : State) (x : Ctx) (vs : List Volume) (v : Volume) (l : List (Nat × Nat × Bytes)) : Gate :=
  let b := match recsOf l 12 with | r :: _ => r.2 | [] => []
  { exp := sext 8 (fld b 0 1), clean := fld b 2 2, consec := fld b 4 2, skips := fld b 8 8, step := fld v.header 24 6,
    cursor := fld v.header 88 16, attempt := fld v.header 32 8, epoch := fld v.header 20 4, ranStep := false, carry := ownCarry s x vs,
    owed := ((vs.flatMap fun v => carriedOf v (v.recs.getD [])).map fun y => ⟨y.desc, y.seq, y.contribution, false, false, false⟩).eraseDups }

/-- The policies of a volume in a context: a group record that the context holds stands, since it says how the total is split now (R402, R511;
log 149). -/
def withOwnGroups (x : Ctx) (p : Policies) : Policies := { p with grps := x.pol.grps.foldl (fun t g => tset t g.1 g.2) p.grps }

/-- What a rebuilt context holds but for mappings and tensors' bytes. -/
def restoredCtx (s : State) (x : Ctx) (vs : List Volume) (v : Volume) (l : List (Nat × Nat × Bytes)) (p : Policies) (es : List (Nat × Entry)) : Ctx :=
  let cat := { x.cat with live := [], shards := [], scratch := [], staged := [], round := x.cat.round.map fun r => (r.1, r.2.map fun m => { m with abandoned := true }) }
  let y := { x with cat := cat, pol := withOwnGroups x p }
  let z := es.foldl (fun y e => putEntryAt y (callIdx e.1) (callTag e.1) e.2) y
  let prog := match recsOf l 15 with | r :: _ => (match parseProgram r.2 with | .ok q => some q | .error _ => none) | [] => none
  let seed := match recsOf l 13 with | r :: _ => fld r.2 0 8 | [] => x.ident.seed
  { z with ident := { z.ident with seed := seed }, prog := prog, progNext := none, gate := restoredGate s z vs v l, flags := FlagWords.zero,
           faults := [], divergence := none, colls := [], vols := Vols.empty,
           tr := { x.tr with chain := slice v.header 48 16, seq := fld v.header 40 8, refPos := 0, attemptRecs := [] } }

/-- The total of the context's norm group. -/
def normTotal (x : Ctx) : Nat :=
  ((x.pol.job.bind fun j => tget x.pol.descs j.normDesc).bind fun d => (tget x.pol.grps d.group).map (·.total)).getD 0

/-- The group total check of R509. -/
def totalOk (x : Ctx) (v : Volume) : Bool := normTotal x == fld v.header 76 4

/-- Regions beyond the mapped ranges: carried rows and second-copy slots. -/
def regionFrames (x : Ctx) (size : Nat) : Nat := carryFrames x + (if x.pol.vol.copy then 2 * ceilDiv size frameBytes else 0)

/-- Rebuilds a context from checked volumes; `full` makes checks 6 to 8. -/
def rebuild (s : State) (c : Nat) (x : Ctx) (vs : List Volume) (m : List MapEnt) (full : Bool) : Except Status State :=
  match vs with
  | [] => .error .evolume
  | v :: _ =>
    match v.recs with
    | none => .error .earg
    | some l =>
      match imagePolicies l, imageEntries l with
      | some p, some es =>
        let x0 := { x with vols := Vols.empty, gate := { x.gate with carry := [], owed := [] } }
        let s0 := dropPages (setCtx s c x0) c x0 fun k => match tget x.maps k with | some e => e.loc != 2 | none => false
        let y := restoredCtx s x vs v l p es
        if full && !imageOk6 s y l then .error .earg else
        match (if full then mapCheck y vs m else none) with
        | some e => .error e
        | none =>
          if full && !totalOk y v then .error .earg else
          match restoreMaps c (imageMaps l) s0 with
          | none => .error .elimit
          | some s1 =>
            match getCtx s1 c with
            | none => .error .estate
            | some x1 =>
              if heldFrames s1 c + regionFrames y v.size > x.ident.frames then .error .elimit else
              -- shard records take the placement that the mappings have now
              let z := restoredCtx s x1 vs v l p es
              let s2 := setCtx s1 c { z with ident := { z.ident with st := x.ident.st } }
              .ok (if m.isEmpty then restoreTensors s2 c v (addCalls v) else putMapped c vs m s2)
      | _, _ => .error .earg
where
  addCalls (v : Volume) : List Nat := (v.shards.filter (·.kind == 1)).foldl (fun a h => addNew a h.call) []

/-! ### The command -/

/-- An entry of the volume list: buffer list address, entries, reserved bytes zero. -/
def volumeList (s : State) (x : Ctx) (va n : Nat) : List (Nat × Nat × Bool) :=
  (List.range n).map fun k => let b := readVa s x (va + 16 * k) 16; (fld b 0 8, fld b 8 4, zeroAt b 12 4)

/-- The bytes of every volume. -/
def volumeBytes (s : State) (x : Ctx) (va n : Nat) : List Bytes :=
  (volumeList s x va n).map fun e => let l := readList s x e.1 e.2.1; listRead s x l 0 (listBytes l)

/-- What a RESTORE reads: the volume list, each volume's list and buffers, the map. -/
def readVolumes (s : State) (c : Nat) (x : Ctx) (va n mva mn : Nat) : State :=
  (volumeList s x va n).foldl (fun s e => readBuffers s c e.1 e.2.1 (readList s x e.1 e.2.1)) (readBuffer (readBuffer s c va (16 * n)) c mva (32 * mn))

/-- Lists and buffers of a RESTORE: fields, then mappings. -/
def restoreBuffers (s : State) (x : Ctx) (va n mva mn : Nat) : Option Status :=
  if !vaOk va || !vaOk mva || n == 0 || 4096 < n || (mn == 0 && n != 1) then some .earg else
  if !bufferOk x va (16 * n) false || !bufferOk x mva (32 * mn) false then some .ebound else
  let vl := volumeList s x va n
  if !(vl.all fun e => vaOk e.1 && 1 ≤ e.2.1 && e.2.1 ≤ 65536 && e.2.2) then some .earg else
  if !(vl.all fun e => bufferOk x e.1 (16 * e.2.1) false) then some .ebound else
  let ls := vl.map fun e => readList s x e.1 e.2.1
  if !(ls.all fun l => listOk l && l.all fun e => vaOk e.1) then some .earg else
  if !(ls.all fun l => listMapped x l false) then some .ebound else none

def restoreCheck (s : State) (c : Nat) (x : Ctx) (va n mva mn : Nat) : Option Status :=
  match restoreBuffers s x va n mva mn with
  | some e => some e
  | none =>
    let bs := volumeBytes s x va n
    match volumesCheck x bs with
    | some e => some e
    | none => match rebuild s c x (bs.map fun b => (readVolume b).v) (readMapEnts s x mva mn) true with | .error e => some e | .ok _ => none

/-- The state after a RESTORE: READY with both keys, OPEN without (R554). -/
def restoredSt (x : Ctx) : CtxSt := if x.ident.jobKey.isSome && x.ident.volKey.isSome && !x.ident.standby then .ready else .opened

/-- The last slice of a RESTORE. -/
def doRestore (s : State) (sub : Sub) (c : Nat) (x : Ctx) (va n mva mn : Nat) : State :=
  match restoreCheck s c x va n mva mn,
      rebuild (readVolumes s c x va n mva mn) c x ((volumeBytes s x va n).map fun b => (readVolume b).v) (readMapEnts s x mva mn) true with
  | some e, _ => refuse s sub e
  | none, .error e => refuse s sub e
  | none, .ok s2 => done (eventRec (modCtx s2 c fun y => y.setSt (restoredSt y)) c Status.success.code 0) sub

def restoreLegal (x : Ctx) : Bool := x.inState [.opened, .ready, .paused, .faulted] && !exclusiveRuns x

def restoreBody (list volumes mapBuf mapEntries : Nat) : Bytes :=
  leBytes 8 list ++ leBytes 4 volumes ++ zeros 4 ++ leBytes 8 mapBuf ++ leBytes 4 mapEntries

def execRestore (sub : Sub) (list volumes mapBuf mapEntries : Nat) (s : State) : Outc :=
  .next (ctxCmd s sub 0x0B (restoreBody list volumes mapBuf mapEntries) restoreLegal
    (fun c x => restoreCheck s c x list volumes mapBuf mapEntries)
    (fun s1 _ _ => startCmd s1 sub 0x0B (restoreBody list volumes mapBuf mapEntries) (some (.restore list volumes mapBuf mapEntries))))

end Sys2Proof.Machine
end

