-- ==== Sys2Proof/Machine/Admin.lean ====
section
/-! DEFINITION. Commands of the admin queues: OPEN, reclaim, CLOSE, quotas, allotments, device setup, RETIRE and its migration
(R279, R280, R300, R308–R312, R328, R332, R344, R527–R529, R540–R542, R547, R548, R551, R561, R566–R568, R654). -/

namespace Sys2Proof.Machine

/-! ### Queue tables (R526, R529) -/

/-- Vectors of a function's MSI-X table (log 29). -/
def msixVectors : Nat := 2048
def pow2 (n : Nat) : Bool := (List.range 32).any fun k => n == 2 ^ k

def queueEntryOk (b : Bytes) : Bool :=
  fld b 0 8 % 4096 == 0 && pow2 (fld b 8 4) && 16 ≤ fld b 8 4 && fld b 8 4 ≤ 65536 && fld b 12 2 < msixVectors && fld b 14 1 ≤ 1
  && zeroAt b 15 1 && fld b 16 8 % 4096 == 0 && pow2 (fld b 24 4) && fld b 8 4 ≤ fld b 24 4 && zeroAt b 28 4

def queueEntry (b : Bytes) : Queue :=
  { Queue.none with sq := fld b 0 8, sqn := fld b 8 4, vector := fld b 12 2, irq := fld b 14 1 == 1, cq := fld b 16 8, cqn := fld b 24 4 }

/-- The entries of a queue table at a bus address. -/
def queueTable (s : State) (addr n : Nat) : List Bytes := (List.range n).map fun k => mread s.hostMem (addr + 32 * k) 32

/-! ### Allotments and grants (R332, R540, R566–R568) -/

/-- Quotas that count: those in force, or those that wait for the step boundary. -/
def quotasOf (x : Ctx) : Nat × Nat × Nat × Nat :=
  x.ident.quotaNext.getD (x.ident.carrels, x.ident.ways, x.ident.weight, x.ident.frames)

/-- Other contexts of a function. -/
def siblings (s : State) (fn : Nat) (skip : Option Nat) : List Ctx :=
  (s.ctxs.filter fun p => p.2.ident.fn == fn && some p.1 != skip).map (·.2)

/-- Quotas fit what is left of a function's allotment; the weight bounds each context's (log 30). -/
def allotOk (s : State) (fn : Nat) (skip : Option Nat) (q : Nat × Nat × Nat × Nat) : Bool :=
  match (tget s.host.funs fn).bind (·.allot) with
  | none => true
  | some a =>
    let l := (siblings s fn skip).map quotasOf
    l.length + 1 ≤ a.1 && (l.map (·.1)).sum + q.1 ≤ a.2.1 && (l.map (·.2.1)).sum + q.2.1 ≤ a.2.2.1 && q.2.2.1 ≤ a.2.2.2.1
    && (l.map (·.2.2.2)).sum + q.2.2.2 ≤ a.2.2.2.2

/-- Carrels that other contexts hold, or will hold at their step boundary. -/
def takenBy (s : State) (skip : Option Nat) : List Nat :=
  (s.ctxs.filter fun p => some p.1 != skip).flatMap fun p => p.2.ident.grant ++ p.2.ident.grantNext.getD [] ++ p.2.ident.lent

/-- A grant of `n` carrels: those already held first; disjoint from all others in partition mode (R566–R568). -/
def grantFor (s : State) (skip : Option Nat) (held : List Nat) (n : Nat) : Option (List Nat) :=
  let taken := if s.host.partition then takenBy s skip else []
  let keep := (held.filter (carrelIn s)).take n
  match chooseGrant s (taken ++ keep) (n - keep.length) with
  | some l => some ((keep ++ l).foldl insertN [])
  | none => none

/-- Ways of the masks of all other contexts, those of their next step boundaries included. -/
def otherMasks (s : State) (skip : Option Nat) : Nat :=
  (s.ctxs.filter fun p => some p.1 != skip).foldl (fun m p => m ||| p.2.ident.wayMask ||| p.2.ident.maskNext.getD 0) 0

/-- A mask of `n` ways outside `used`: those of `keep` first, then of `old`, lowest first; none where too few are free. -/
def maskFor (used keep old n : Nat) : Option Nat :=
  let free := (List.range 64).filter fun k => !bitOf used k
  let l := (free.filter (bitOf keep) ++ free.filter (fun k => bitOf old k && !bitOf keep k)
    ++ free.filter fun k => !bitOf old k && !bitOf keep k).take n
  if l.length = n then some (l.map (2 ^ ·)).sum else none

/-- The ways of a context's pinned lines, as a mask. -/
def pinMask (s : State) (c : Nat) : Nat :=
  (s.mem.pins.filter fun p => frameOwner s p.1 == some c).foldl (fun m p => m ||| 2 ^ p.2.way) 0

/-- The ways a new context's mask takes. -/
def openMask (s : State) (n : Nat) : Option Nat := if s.host.partition then maskFor (otherMasks s none) 0 0 n else some 0

/-- A context's mask of `n` ways from its next step boundary on: ways of its pinned lines are kept first. -/
def maskOf (s : State) (c : Nat) (x : Ctx) (n : Nat) : Option Nat :=
  if s.host.partition then maskFor (otherMasks s (some c)) (pinMask s c) x.ident.wayMask n else some 0

/-! ### OPEN (R527, R540, R541) -/

/-- The lowest-numbered FREE context. -/
def freeCtx (s : State) : Option Nat := let n := freeIndex 0 (s.ctxs.map (·.1)); if n < 4096 then some n else none

/-- Two contexts of one function share no PASID. -/
def pasidFree (s : State) (fn pasid : Nat) (skip : Option Nat) : Bool := (siblings s fn skip).all fun x => x.ident.pasid != pasid

/-- A reserve device's address has bit 19 set (R433). -/
def isReserve (s : State) : Bool := match s.host.address with | some a => bitOf a 19 | none => false

def versionOk (v : Nat) : Bool := v / 256 == 3
/-- A minor above 2 is served as 3.2. -/
def versionServed (v : Nat) : Nat := min v 0x0302

/-- The device has adopted fabric time, or follows none: it is the root of the time tree, or has no place in a fabric, and no time-sync
input announces edges (R26, R458). -/
def timeReady (s : State) : Bool :=
  s.clock.adopted || (s.clock.tsFrames == 0 && (s.fabric.adopted == some 0 || s.host.address.all fun a => a % 2 ^ 20 == 0))

def openCheck (s : State) (fn : Nat) (f : OpenF) : Option Status :=
  let q := (f.carrels, f.ways, f.weight, f.frames)
  firstOf [(timeReady s, .estate), (versionOk f.version, .eversion),
    (f.job % 2 ^ 31 != 0 && (!f.standby || isReserve s) && 1 ≤ f.queues && f.queues ≤ 8 && f.pasid < 2 ^ 20 && 1 ≤ f.carrels
     && f.carrels ≤ 1152 && f.ways ≤ 64 && 1 ≤ f.weight && f.weight ≤ 255 && (queueTable s f.qtable f.queues).all queueEntryOk
     && pasidFree s fn f.pasid none, .earg),
    ((freeCtx s).isSome && allotOk s fn none q && (grantFor s none [] f.carrels).isSome && (openMask s f.ways).isSome, .elimit)]

/-- A context as OPEN leaves it, with its level 3 table at `root`. -/
def Ctx.opened (s : State) (fn token root : Nat) (f : OpenF) : Ctx :=
  { ident := { st := .opened, prior := .free, fn := fn, pasid := f.pasid, version := versionServed f.version, standby := f.standby,
               patron := f.patron, job := f.job, seed := f.seed, token := token, deadline := 0, carrels := f.carrels, ways := f.ways,
               weight := f.weight, frames := f.frames, grant := (grantFor s none [] f.carrels).getD [], grantNext := none, lent := [], quotaNext := none,
               wayMask := (openMask s f.ways).getD 0, maskNext := none, jobKey := none, volKey := none, xtsKey := true, reshardOpen := false,
               awaitReady := false },
    queues := (queueTable s f.qtable f.queues).map queueEntry, lastQueue := 0, cmds := [], long := none, closing := none, reshard := none, root := root, tableMoves := s.si.devMoves, maps := [],
    cat := Catalogue.empty, prog := none, progNext := none, pol := Policies.empty, gate := Gate.zero, flags := FlagWords.zero, run := none,
    att := none, faults := [], report := none, meter := none, divergence := none, block := [], colls := [], heldMsgs := [],
    heldNotices := [], heldVerdicts := [], heldAborts := [], vols := Vols.empty, tr := Transcript.zero, peerMem := [], peerPoison := [], streamed := false,
    restorePoint := none }

/-- The record of R541. -/
def openRecord (c fn version token patron : Nat) : Bytes :=
  leBytes 2 c ++ leBytes 2 fn ++ leBytes 2 version ++ zeros 2 ++ leBytes 16 token ++ leBytes 8 patron ++ zeros 32

/-- A new token from the keeper (log 12). -/
def newToken (s : State) : Nat × State := let k := s.fresh; ((Config.token k.1).toNat, k.2)

def openBody (f : OpenF) : Bytes :=
  leBytes 8 f.record ++ leBytes 8 f.qtable ++ leBytes 1 f.queues ++ leBytes 1 (2 * b2n f.standby) ++ leBytes 2 f.version ++ leBytes 4 f.pasid
  ++ leBytes 2 f.carrels ++ leBytes 1 f.ways ++ leBytes 1 f.weight ++ leBytes 4 f.frames ++ leBytes 4 f.job ++ leBytes 8 f.seed
  ++ leBytes 8 f.patron

/-- A key in a slot of every memory controller (R300). -/
def loadKey (s : State) (slot : Nat) (key : Bytes) : State := { s with si := { s.si with keySlots := tset s.si.keySlots slot key } }
/-- The key of a slot destroyed in every memory controller. -/
def destroyKey (s : State) (slot : Nat) : State := { s with si := { s.si with keySlots := tdel s.si.keySlots slot } }

/-- An accepted OPEN: the context, its record in host memory, then the completion. -/
def doOpen (s : State) (sub : Sub) (fn c : Nat) (f : OpenF) : State :=
  let k := newToken s
  let key := (Config.xtsKey k.2.free).toNat
  let s1 := setCtx (loadKey { k.2 with free := k.2.free + 2 } (c + 1) (leBytes 64 key)) c (Ctx.opened s fn k.1 (rootAddr (k.2.free + 1)) f)
  let s2 := { s1 with hostMem := mwrite s1.hostMem f.record (openRecord c fn (versionServed f.version) k.1 f.patron) }
  done (cmdRec s2 c 0x01 sub (openBody f)) sub c

def execOpenCtx (sub : Sub) (f : OpenF) (s : State) : Outc :=
  .next (adminCmd s sub fun s fn =>
    match openCheck s fn f, freeCtx s with
    | some e, _ => refuse s sub e
    | none, some c => if coreUp s .keeper then doOpen s sub fn c f else s
    | none, none => s)

/-! ### Reclaim (R541, R561) -/

def reclaimBody (f : ReclaimF) : Bytes :=
  leBytes 8 f.record ++ leBytes 8 f.qtable ++ leBytes 1 f.queues ++ leBytes 1 1 ++ leBytes 2 f.version ++ leBytes 4 f.pasid ++ leBytes 2 f.ctx
  ++ zeros 6 ++ leBytes 16 f.token

/-- The state a reclaimed context returns to (R554). -/
def reclaimedSt (st : CtxSt) : CtxSt := if st = .running ∨ st = .checkpointing then .paused else st

/-- A reclaim that fails leaves an event in the transcript of a context that exists. -/
def reclaimRefused (s : State) (sub : Sub) (c : Nat) (e : Status) (result : Nat) : State := refuse (eventRec s c e.code 0) sub e result

def doReclaim (s : State) (sub : Sub) (x : Ctx) (f : ReclaimF) : State :=
  let k := newToken s
  let y := { x with ident := { x.ident with st := reclaimedSt x.ident.prior, prior := .free, pasid := f.pasid, version := versionServed f.version,
                                            token := k.1, deadline := 0 },
                    queues := (queueTable s f.qtable f.queues).map queueEntry, lastQueue := 0, cmds := [] }
  let s1 := setCtx k.2 f.ctx y
  let s2 := { s1 with hostMem := mwrite s1.hostMem f.record (openRecord f.ctx x.ident.fn y.ident.version k.1 x.ident.patron) }
  done (cmdRec s2 f.ctx 0x01 sub (reclaimBody f)) sub f.ctx

def execOpenReclaim (sub : Sub) (f : ReclaimF) (s : State) : Outc :=
  .next (adminCmd s sub fun s fn =>
    match getCtx s f.ctx with
    | none => refuse s sub .estate
    | some x =>
      if x.ident.st ≠ .orphaned ∨ x.ident.deadline ≤ s.now then reclaimRefused s sub f.ctx .estate 0
      else if !versionOk f.version then reclaimRefused s sub f.ctx .eversion 0
      else if x.ident.fn ≠ fn then reclaimRefused s sub f.ctx .eaccess 2
      else if x.ident.token ≠ f.token then reclaimRefused s sub f.ctx .eaccess 1
      else if !(1 ≤ f.queues && f.queues ≤ 8 && f.pasid < 2 ^ 20 && (queueTable s f.qtable f.queues).all queueEntryOk
                && pasidFree s fn f.pasid (some f.ctx)) then reclaimRefused s sub f.ctx .earg 0
      else if coreUp s .keeper then doReclaim s sub x f else s)

/-! ### CLOSE (R551) -/

/-- A function's admin queue may name its own contexts, a physical function those of its port. -/
def mayName (s : State) (fn : Nat) (x : Ctx) : Bool := x.ident.fn == fn || (isPf s fn && samePort s fn x.ident.fn)

def closeLegal (x : Ctx) : Bool := x.inState [.opened, .ready, .running, .paused, .checkpointing, .faulted, .orphaned]

/-- Before the vote has passed: phases A to E. -/
def beforeSeal (p : Phase) : Bool := match p with | .skip | .seal | .copy => false | _ => true

/-- The running attempt is abandoned if its vote has not passed, and the RUN_STEP will end with EABORTED. -/
def abandonRun (now : Nat) (x : Ctx) : Ctx :=
  let y := x.modAtt fun a => if beforeSeal a.phase then a.fail .eaborted now else a
  { y with run := y.run.map fun r => { r with ending := some .eaborted } }

/-- A RUN_STEP with no attempt ends at once. -/
def endIdleRun (s : State) (c : Nat) (st : Status) : State :=
  match getCtx s c with
  | some x => if x.att.isNone && x.run.isSome then endRun s c st else s
  | none => s

/-- CLOSE, accepted: DRAINING, long commands end, the attempt is abandoned or finishes its commit. -/
def doClose (s : State) (sub : Sub) (c : Nat) : State :=
  let s1 := startCmd s sub 0x02 (leBytes 2 c)
  let s2 := modCtx s1 c fun y => abandonRun s.now { y with closing := some (sub.q, sub.cid), ident := { y.ident with st := .draining } }
  endIdleRun (endLong s2 c .eaborted 0) c .eaborted

def execClose (sub : Sub) (ctx : Nat) (s : State) : Outc :=
  .next (match sub.q with
    | .ctx _ _ => ctxCmd s sub 0x02 (leBytes 2 ctx) closeLegal (fun _ _ => none) (fun s1 c _ => doClose s1 sub c) (ctx == 0)
    | .admin _ => adminCmd s sub fun s fn =>
        if 4096 ≤ ctx then refuse s sub .earg else
        match getCtx s ctx with
        | none => refuse s sub .estate
        | some x =>
          if !mayName s fn x then refuse s sub .earg
          else if !closeLegal x then refuse s sub .estate
          else doClose (cmdRec s ctx 0x02 sub (leBytes 2 ctx)) sub ctx)

/-! ### Quotas (R280, R328, R548, R566) -/

/-- States in which SET_POLICY reaches a context, with ESTATE and EARG for the others (R553). -/
def setState (running : Bool) (x : Ctx) : Option Status :=
  if x.inState [.orphaned, .scrubbing] then some .earg
  else if x.inState ([CtxSt.opened, .ready, .paused] ++ if running then [.running] else []) then none else some .estate

/-- Frames a context has mapped (R549). -/
def mappedFrames (x : Ctx) : Nat := (x.maps.filter fun m => m.2.loc == 0).length

def granuleCount (x : Ctx) : Nat := (x.cat.scratch.map fun t => t.2.owners.length).sum

/-- Granules that other contexts hold in a carrel's store. -/
def othersIn (s : State) (c k : Nat) : Nat := ((s.ctxs.filter fun p => p.1 != c).map fun p => granulesOn p.2 k).sum

/-- A context's granules fit the stores of a grant: 3,072 to a store, less what others hold there (R272, R328). -/
def granulesFit (s : State) (c : Nat) (x : Ctx) (grant : List Nat) : Bool := granuleCount x ≤ (grant.map fun k => 3072 - othersIn s c k).sum

/-- The carrels a new grant keeps first: those of the grant, then those it has coming; in partition mode those it has coming, which are
disjoint from every other context's (R568). -/
def heldCarrels (s : State) (x : Ctx) : List Nat :=
  let next := x.ident.grantNext.getD []
  if s.host.partition && x.ident.grantNext.isSome then next else x.ident.grant ++ next.filter fun k => !x.ident.grant.contains k

/-- The record of selector 0x10. -/
def quotaOf (b : Bytes) : Nat × Nat × Nat × Nat := (fld b 0 2, fld b 2 1, fld b 3 1, fld b 4 4)

def quotaCheck (s : State) (c : Nat) (x : Ctx) (q : Nat × Nat × Nat × Nat) : Option Status :=
  firstOf [(match maskOf s c x q.2.1 with | some m => !s.host.partition || pinMask s c &&& m == pinMask s c | none => true, .estate),
    (1 ≤ q.1 && q.1 ≤ 1152 && q.2.1 ≤ 64 && 1 ≤ q.2.2.1, .earg),
    (mappedFrames x ≤ q.2.2.2 && pinnedOf s c ≤ q.2.1 * wayFrames && allotOk s x.ident.fn (some c) q
     && (match grantFor s (some c) (heldCarrels s x) q.1 with | some g => granulesFit s c x g | none => false)
     && (maskOf s c x q.2.1).isSome, .elimit)]

/-- The new quotas, grant and way mask wait for the step boundary (R280, R332); carrels and ways are kept free for them at once. -/
def setQuota (s : State) (c : Nat) (x : Ctx) (q : Nat × Nat × Nat × Nat) : State :=
  setCtx s c { x with ident := { x.ident with quotaNext := some q, grantNext := grantFor s (some c) (heldCarrels s x) q.1,
                                              maskNext := maskOf s c x q.2.1 } }

/-- A SET_POLICY of an admin selector: privilege, then the rest. -/
def adminSet (s : State) (sub : Sub) (port0 : Bool) (act : State → Nat → State) : State :=
  if !serving s || (getQueue s sub.q).isNone || queueHeld s sub.q then s else
  match sub.q with
  | .ctx _ _ => refuse s sub .eaccess
  | .admin fn => if (if port0 then fn == 0 else isPf s fn) then act s fn else refuse s sub .eaccess

def execSetQuota (sub : Sub) (f : SetF) (s : State) : Outc :=
  .next (adminSet s sub false fun s fn =>
    let c := f.target
    if 4096 ≤ c then refuse s sub .earg else
    match getCtx s c with
    | none => refuse s sub .earg
    | some x =>
      if !samePort s fn x.ident.fn then refuse s sub .eaccess else
      match setState true x with
      | some e => refuse s sub e
      | none =>
        if f.length ≠ 8 ∨ f.index ≠ 0 then refuse s sub .earg else
        let b := mread s.hostMem f.record 8
        match quotaCheck s c x (quotaOf b) with
        | some e => refuse s sub e
        | none => done (policyRec (setQuota (cmdRec s c opSetPolicy sub (setBody 0x10 false f)) c
            (match getCtx (cmdRec s c opSetPolicy sub (setBody 0x10 false f)) c with | some y => y | none => x) (quotaOf b)) c 0x10 0 b) sub)

/-! ### Allotments and device setup (R280, R435, R547, R568, R654) -/

def execSetFunctionAllotment (sub : Sub) (f : SetF) (s : State) : Outc :=
  .next (adminSet s sub false fun s fn =>
    let b := mread s.hostMem f.record 16
    if 256 ≤ f.index then refuse s sub .earg
    else if !samePort s fn f.index then refuse s sub .eaccess
    else if f.length ≠ 16 ∨ zeroAt b 6 2 = false ∨ zeroAt b 12 4 = false then refuse s sub .earg
    else
      let g := (tget s.host.funs f.index).getD Fun.reset
      let h := { g with allot := some (fld b 0 2, fld b 2 2, fld b 4 1, fld b 5 1, fld b 8 4) }
      done { s with host := { s.host with funs := tset s.host.funs f.index h } } sub)

/-- The reserved bits of a setup record are 0 (R5). -/
def setupReserved (b : Bytes) : Bool := fld b 8 1 ≤ 1 && zeroAt b 9 1 && zeroAt b 12 4

/-- The checks of R654. -/
def setupOk (b : Bytes) : Bool :=
  let a := fld b 0 4
  let k (i : Nat) : Nat := fld b (4 + i) 1
  a < 2 ^ 20 && bitsOf a 18 16 == 0 && (!bitOf a 19 || a % 16 == 0) && k 0 == 15 && (List.range 4).all (fun i => k i ≤ 15)
  && (List.range 3).all (fun i => bitsOf a (4 * i + 7) (4 * i + 4) ≤ k (i + 1))
  && fld b 8 1 ≤ 1 && zeroAt b 9 1 && zeroAt b 12 4 && fld b 10 2 ≤ 3600

/-- Some patron holds a cached or pinned line (R280): a line of the annex, or a pinned frame. -/
def holdsLines (s : State) : Bool := !s.mem.lines.isEmpty || !s.mem.pins.isEmpty || s.ctxs.any fun p => pinnedOf s p.1 != 0

/-- Deals disjoint grants and masks to every context in turn, each grant of the size it has, or will have at its next step boundary (R568); a
grant whose stores cannot hold the context's granules does not do (R328). -/
def dealAll : List (Nat × Ctx) → List Nat → Nat → State → Option (List (Nat × Ctx))
  | [], _, _, _ => some []
  | (c, x) :: r, taken, used, s =>
    let q := quotasOf x
    match chooseGrant s taken (x.ident.grantNext.getD x.ident.grant).length, maskFor used 0 0 q.2.1 with
    | some g, some m =>
      if 3072 * g.length < granuleCount x then none else
      (dealAll r (taken ++ g) (used ||| m) s).map fun l => (c, { x with ident := { x.ident with grantNext := some g, wayMask := m, maskNext := none } }) :: l
    | _, _ => none

/-- Partition mode as a setup record asks for it; none is ELIMIT. -/
def setPartition (s : State) (on : Bool) : Option State :=
  if on = s.host.partition then some s
  else if on then (dealAll s.ctxs [] 0 s).map fun l => { s with ctxs := l, host := { s.host with partition := true } }
  else some { s with host := { s.host with partition := false }, ctxs := s.ctxs.map fun p => (p.1, { p.2 with ident := { p.2.ident with wayMask := 0, maskNext := none } }) }

def execSetDeviceSetup (sub : Sub) (f : SetF) (s : State) : Outc :=
  .next (adminSet s sub true fun s _ =>
    let b := mread s.hostMem f.record 16
    let on := fld b 8 1 == 1
    if f.length ≠ 16 ∨ f.index ≠ 0 then refuse s sub .earg
    else if !setupReserved b then refuse s sub .earg
    else if on != s.host.partition && holdsLines s then refuse s sub .estate
    else if !setupOk b then refuse s sub .earg
    else match setPartition s on with
      | none => refuse s sub .elimit
      | some s1 =>
        done (restate { s1 with host := { s1.host with address := some (fld b 0 4), axes := (List.range 4).map (fun i => fld b (4 + i) 1 + 1),
                                                       grace := if fld b 10 2 = 0 then 60 else fld b 10 2 } }) sub)

/-! ### RETIRE (R308–R312, R344) -/

/-- A page table of a context lies in the frame (R295). -/
def holdsTable (s : State) (f : Nat) : Bool := s.ctxs.any fun p => (tablesOf p.2).any fun t => t.2.1 / frameBytes * frameBytes == f

/-- Device-reserved frames that hold device data: page tables, and others that are not stated (log 32). -/
def holdsData (s : State) (f : Nat) : Bool := s.si.devFrames.contains f || holdsTable s f || Config.deviceData f

/-- Frames of a stack that are retired, or will be when their migration ends (R310). -/
def retiredIn (s : State) (k : Nat) : Nat :=
  (s.si.retired.filter fun f => stackOf f == some k).length
  + (s.si.migrations.filter fun m => stackOf m.1 == some k && !s.si.retired.contains m.1).length

/-- A free frame of a stack's device-reserved range. -/
def reservedFrame (s : State) (k : Nat) : Option Nat :=
  let ok (f : Nat) : Bool := !holdsData s f && !s.si.retired.contains f && !s.si.scrubbing.contains f
  match takeFrames ok (stackReserved / frameBytes) (k * stackBytes + (stackBytes - stackReserved)) 1 with
  | some (f :: _) => some f
  | _ => none

/-- Where a frame in use migrates to. -/
def migrationTarget (s : State) (frame k : Nat) : Option Nat :=
  if isReserved frame then reservedFrame s k else match framesOf s k 1 with | some (f :: _) => some f | _ => none

def inUse (s : State) (frame : Nat) : Bool := if isReserved frame then holdsData s frame else (frameOwner s frame).isSome

/-- The record of R311, in a ring of 256. -/
def retireRec (s : State) (frame cause : Nat) (migrated : Bool) : State :=
  let r : RetireRec := { frame := frame, time := s.now, cause := cause, migrated := migrated,
                         channel := tgetD s.si.frameChannel frame 0xFFFF, corrected := tgetD s.si.corrected frame 0 }
  let l := s.si.ring ++ [r]
  { s with si := { s.si with ring := l.drop (l.length - 256) } }

/-- The frame leaves its pool. -/
def retireNow (s : State) (frame cause : Nat) (migrated : Bool) : State :=
  retireRec { s with si := { s.si with retired := insertN s.si.retired frame } } frame cause migrated

/-- Moves in transit whose shard the frame belongs to are abandoned (R344). -/
def abandonFrame (frame : Nat) (x : Ctx) : Ctx :=
  let pages := (x.maps.filter fun m => m.2.loc == 0 && m.2.frame == frame).map (·.1)
  let hit (m : Move) : Bool := match tensor x m.call with
    | some t => pages.any fun p => p * frameBytes / shardBytes == t.e.base / shardBytes + m.shard
    | none => false
  { x with cat := { x.cat with round := x.cat.round.map fun r => (r.1, r.2.map fun m => if hit m then { m with abandoned := true } else m) } }

/-- The page that holds a frame is split into 64 KiB leaves (R309 step 3). -/
def splitPage (frame : Nat) (x : Ctx) : Ctx :=
  match x.maps.find? fun m => m.2.loc == 0 && m.2.frame == frame with
  | none => x
  | some q =>
    let n := pageBytes q.2.size / frameBytes
    let b := q.1 / n * n
    { x with maps := x.maps.map fun m => if b ≤ m.1 ∧ m.1 < b + n then (m.1, { m.2 with size := 0 }) else m }

/-- Begins a migration: the page is split, and the new frame is kept out of its pool meanwhile. -/
def startMigration (s : State) (sub : Sub) (frame new cause : Nat) : State :=
  let s1 := { s with si := { s.si with migrations := s.si.migrations ++ [(frame, new, cause, [(sub.q, sub.cid)])],
                                       scrubbing := insertN s.si.scrubbing new },
                     ctxs := s.ctxs.map fun p => (p.1, splitPage frame (abandonFrame frame p.2)) }
  startCmd s1 sub 0x11 (leBytes 8 frame ++ leBytes 1 cause)

/-- A RETIRE of a frame that migrates already waits for that migration (log 115). -/
def joinMigration (s : State) (sub : Sub) (frame cause : Nat) : State :=
  startCmd { s with si := { s.si with migrations := s.si.migrations.map fun m =>
    if m.1 == frame then (m.1, m.2.1, m.2.2.1, m.2.2.2 ++ [(sub.q, sub.cid)]) else m } } sub 0x11 (leBytes 8 frame ++ leBytes 1 cause)

/-- Moves that were to put a shard in the frame are abandoned (R344). -/
def abandonInto (frame : Nat) (x : Ctx) : Ctx :=
  { x with cat := { x.cat with round := x.cat.round.map fun r => (r.1, r.2.map fun m =>
      if m.frames.contains frame then { m with abandoned := true } else m) } }

/-- A migration goes to another frame: the one it was to fill leaves service. -/
def retarget (s : State) (frame new : Nat) : State :=
  { s with si := { s.si with migrations := s.si.migrations.map fun m => if m.2.1 == frame then (m.1, new, m.2.2) else m,
                             scrubbing := insertN (s.si.scrubbing.filter (· != frame)) new } }

/-- A frame that nothing holds leaves its pool: moves into it are abandoned, a migration into it takes another frame. -/
def retireFree (s : State) (sub : Sub) (frame cause k : Nat) : State :=
  let s1 := { s with ctxs := s.ctxs.map fun p => (p.1, abandonInto frame p.2) }
  if !s.si.migrations.any (·.2.1 == frame) then done (retireNow s1 frame cause false) sub
  else match migrationTarget s frame k with
    | none => refuse s sub .elimit
    | some new => done (retireNow (retarget s1 frame new) frame cause false) sub

def execRetire (sub : Sub) (frame cause : Nat) (s : State) : Outc :=
  .next (adminSet s sub true fun s _ =>
    match stackOf frame with
    | none => refuse s sub .earg
    | some k =>
      if frame % frameBytes ≠ 0 ∨ cause = 0 ∨ 3 < cause then refuse s sub .earg
      else if s.si.retired.contains frame then done s sub
      else if s.si.migrations.any (·.1 == frame) then joinMigration s sub frame cause
      else if 1024 ≤ retiredIn s k then refuse s sub .elimit
      else if !inUse s frame then retireFree s sub frame cause k
      else match migrationTarget s frame k with
        | none => refuse s sub .elimit
        | some new => startMigration s sub frame new cause)

/-- Copies a frame's bytes, cell states and poison over a frame, through the annex where it is newer (R309, R341). -/
def copyFrame (m : Storage) (old new : Nat) : Storage :=
  let mv (a : Nat) : Nat := a - old + new
  let inOld (a : Nat) : Bool := old ≤ a && a < old + frameBytes
  { m with bytes := (m.bytes.filter fun p => inOld p.1).foldl (fun t p => tset t (mv p.1) p.2) (mclear m.bytes new frameBytes),
           cellState := (m.cellState.filter fun p => inOld p.1).foldl (fun t p => tset t (mv p.1) p.2)
             (m.cellState.filter fun p => p.1 < new || new + frameBytes ≤ p.1),
           poison := (m.poison.filter fun a => inOld (64 * a)).foldl (fun l a => insertN l (mv (64 * a) / 64))
             (m.poison.filter fun a => a < new / 64 || new / 64 + 1024 ≤ a) }

/-- The accesses of a migration: each slot of the old frame read once, and each of the new frame written once (R289). -/
def migrateSlots (s : State) (old new : Nat) : State :=
  let n := frameBytes / 512
  countEv (countEv s (pgMem ((stackOf old).getD 0)) 0x100 n (frameOwner s old)) (pgMem ((stackOf new).getD 0)) 0x101 n (frameOwner s old)

/-- The leaf flips to the new frame. -/
def flipLeaf (old new : Nat) (x : Ctx) : Ctx :=
  { x with maps := (splitPage old x).maps.map fun m => if m.2.loc == 0 && m.2.frame == old then (m.1, { m.2 with frame := new }) else m }

def wipe (m : Storage) (f : Nat) : Storage :=
  { m with bytes := mclear m.bytes f frameBytes, poison := m.poison.filter (fun a => a < f / 64 || f / 64 + 1024 ≤ a),
           cellState := m.cellState.filter (fun p => p.1 < f || f + frameBytes ≤ p.1),
           lines := m.lines.filter fun l => l.line < f / 64 || f / 64 + 1024 ≤ l.line }

/-- A migration ends: data and leaf move, the old frame leaves the pool, every RETIRE of it completes. -/
def endMigration (s : State) (old new cause : Nat) (cmds : List (QRef × Nat)) : State :=
  let owner := frameOwner s old
  let m := copyFrame s.mem old new
  let m1 := match owner with
    | some c => { wipe m old with owner := tset (tdel m.owner old) new c }
    | none => wipe m old
  let dev := isReserved old
  let s := if owner.isSome || dev then migrateSlots s old new else s
  let si := { s.si with migrations := s.si.migrations.filter (·.1 != old), scrubbing := s.si.scrubbing.filter (· != new),
                        devFrames := if dev then insertN (s.si.devFrames.filter (· != old)) new else s.si.devFrames,
                        devMoves := if dev then s.si.devMoves ++ [(old, new)] else s.si.devMoves }
  let move (x : Ctx) : Ctx := if dev then { x with tableMoves := x.tableMoves ++ [(old, new)] } else flipLeaf old new x
  let s1 := { s with mem := if owner.isSome || dev then m1 else s.mem, si := si, ctxs := s.ctxs.map fun p => (p.1, move p.2) }
  let s2 := retireNow s1 old cause (owner.isSome || dev)
  cmds.foldl (fun s q => complete s q.1 q.2 .success 0) s2

def execRetireMigrationDone (frame : Nat) (s : State) : Outc :=
  .next (match s.si.migrations.find? (·.1 == frame) with
    | some m => endMigration s m.1 m.2.1 m.2.2.1 m.2.2.2
    | none => s)

end Sys2Proof.Machine
end

