-- ==== Sys2Proof/Machine/Cmds.lean ====
section
/-! DEFINITION. RUN_STEP, PAUSE, RESUME, CHECKPOINT, PREEMPT, RESHARD, FENCE and QUERY (R67, R374, R430, R507, R508, R544, R545,
R549, R550, R553). -/

namespace Sys2Proof.Machine

/-! ### RUN_STEP, PAUSE, RESUME (R544, R545) -/

def stepBody (count cursor : Nat) : Bytes := leBytes 4 count ++ zeros 4 ++ leBytes 16 cursor

def startRun (s : State) (sub : Sub) (c : Nat) (x : Ctx) (count cursor : Nat) : State :=
  let r : Run := { q := sub.q, cid := sub.cid, prog := sub.prog, count := count, base := cursor, commits := 0, pause := false, ending := none }
  startCmd (setCtx s c { x with run := some r, ident := { x.ident with st := .running } }) sub opRunStep (stepBody count cursor)

def execRunStep (sub : Sub) (count cursor : Nat) (s : State) : Outc :=
  .next (ctxCmd s sub opRunStep (stepBody count cursor) (fun x => x.inState [.ready] && !exclusiveRuns x) (fun _ _ => orEarg (count != 0))
    fun s1 c x => startRun s1 sub c x count cursor)

/-- PAUSE of a running context waits for the end of the attempt. -/
def doPause (s : State) (sub : Sub) (c : Nat) (x : Ctx) : State :=
  if x.ident.st = .running then
    endIdleRun (modCtx (startCmd s sub opPause []) c fun y => { y with run := y.run.map fun r => { r with pause := true } }) c .success
  else done (setCtx s c (x.setSt .paused)) sub

def execPause (sub : Sub) (s : State) : Outc :=
  .next (ctxCmd s sub opPause [] (fun x => x.inState [.ready, .running, .paused]) (fun _ _ => none) fun s1 c x => doPause s1 sub c x)

def execResume (sub : Sub) (s : State) : Outc :=
  .next (ctxCmd s sub 0x09 [] (fun x => x.inState [.paused] && !x.ident.awaitReady) (fun _ _ => none) fun s1 c x =>
    done (setCtx s1 c { x with ident := { x.ident with st := .ready, reshardOpen := false } }) sub)

/-! ### CHECKPOINT and PREEMPT (R507, R508) -/

def listBody (list entries : Nat) : Bytes := leBytes 8 list ++ leBytes 4 entries

/-- A buffer list that the command writes: its own fields, then its mapping, then its entries and their mappings. -/
def listCheck (s : State) (x : Ctx) (list entries : Nat) : Option Status :=
  if !vaOk list || entries == 0 || 65536 < entries then some .earg
  else if !bufferOk x list (16 * entries) false then some .ebound
  else
    let l := readList s x list entries
    if !listOk l || l.any (fun e => !vaOk e.1) then some .earg else if !listMapped x l true then some .ebound else none

/-- The list that a long command names is read, then the command starts. -/
def startLong (s : State) (sub : Sub) (c : Nat) (x : Ctx) (opcode list entries deadline : Nat) (body : Bytes) : State :=
  let l : LongCmd := { q := sub.q, cid := sub.cid, opcode := opcode, list := list, entries := entries, deadline := deadline,
                       vol := none, slot := none, pos := 0 }
  startCmd (setCtx (readBuffer s c list (16 * entries)) c { x with long := some l }) sub opcode body

def execCheckpoint (sub : Sub) (list entries : Nat) (s : State) : Outc :=
  .next (ctxCmd s sub opCheckpoint (listBody list entries) (fun x => x.inState [.ready, .running, .paused] && !longRuns x)
    (fun _ x => listCheck s x list entries)
    fun s1 c x => captureLong (startLong s1 sub c x opCheckpoint list entries 0 (listBody list entries)) c)

/-- A PREEMPT that arrives before phase D abandons the attempt (R374). -/
def abandonEarly (now : Nat) (x : Ctx) : Ctx :=
  let y := x.modAtt fun a => match a.phase with | .program | .decide => a.fail .eaborted now | _ => a
  { y with run := y.run.map fun r => { r with ending := some .eaborted } }

def preemptBody (list entries deadline : Nat) : Bytes := listBody list entries ++ leBytes 4 deadline

def doPreempt (s : State) (sub : Sub) (c : Nat) (x : Ctx) (list entries deadline : Nat) : State :=
  let s1 := startLong s sub c (abandonEarly s.now (x.setSt .checkpointing)) opPreempt list entries (s.now + deadline * 1000)
    (preemptBody list entries deadline)
  captureLong (endIdleRun s1 c .eaborted) c

def execPreempt (sub : Sub) (list entries deadline : Nat) (s : State) : Outc :=
  .next (ctxCmd s sub opPreempt (preemptBody list entries deadline) (fun x => x.inState [.ready, .running, .paused] && !longRuns x)
    (fun _ x => if deadline < 1000 || 600000000 < deadline then some .earg else listCheck s x list entries)
    fun s1 c x => doPreempt s1 sub c x list entries deadline)

/-! ### RESHARD (R430, R550) -/

def reshardLegal (x : Ctx) : Bool := x.inState [.ready, .running, .paused] && !longRuns x

/-- Sets how a running RUN_STEP will end. -/
def endingRun (st : Status) (x : Ctx) : Ctx := { x with run := x.run.map fun r => { r with ending := some st } }

/-- RESHARD waits for the RUN_STEP, or takes effect at once. -/
def doReshard (s : State) (sub : Sub) (c : Nat) (x : Ctx) (abort : Bool) : State :=
  let st : Status := if abort then .eepoch else .success
  let s1 := startCmd (setCtx s c (endingRun st { x with reshard := some (sub.q, sub.cid, abort) })) sub 0x0D (leBytes 1 (b2n abort))
  reshardNow (if x.run.isSome then endIdleRun s1 c st else s1) c

def execReshardComplete (sub : Sub) (s : State) : Outc :=
  .next (ctxCmd s sub 0x0D (leBytes 1 0) reshardLegal (fun _ _ => none) fun s1 c x => doReshard s1 sub c x false)

/-- Collectives of the running attempt that are in flight on this member. -/
def inFlight (x : Ctx) : List Nat :=
  let l := x.colls.filter fun q => idNow x q.id && q.epoch == x.gate.epoch && q.ended.isNone
    && (q.issued.isSome || (isVote q.id && (match x.att with | some a => a.voted | none => false))
        || (!isVote q.id && (match x.att, x.pol.job with | some a, some j => a.contributed && idDesc q.id == j.normDesc | _, _ => false)))
  l.map (·.id)

/-- The attempt fails with EEPOCH unless it has sealed. -/
def failEpoch (now : Nat) (x : Ctx) : Ctx := x.modAtt fun a => if beforeSeal a.phase then a.fail .eepoch now else a

def execReshardAbort (sub : Sub) (s : State) : Outc :=
  .next (ctxCmd s sub 0x0D (leBytes 1 1) reshardLegal (fun _ _ => none) fun s1 c x =>
    let s2 := modCtx ((inFlight x).foldl (fun s id => abortColl s c id) s1) c (failEpoch s1.now)
    match getCtx s2 c with
    | some y => doReshard s2 sub c y true
    | none => s2)

/-! ### FENCE (R553) -/

def fenceLegal (x : Ctx) : Bool := x.inState [.opened, .ready, .running, .paused, .checkpointing, .faulted]

def execFence (sub : Sub) (s : State) : Outc :=
  .next (ctxCmd s sub opFence [] fenceLegal (fun _ _ => none) fun s1 _ x =>
    if x.cmds.any (fun k => k.q == sub.q) then startCmd s1 sub opFence [] else done s1 sub)

/-! ### QUERY (R549) -/

/-- The fields of a QUERY beside its subject's own: length, clear, index, buffer. -/
def queryFields (f : QueryF) (admin clears indexed : Bool) : Bool :=
  f.length != 0 && (!f.clear || clears) && (indexed || f.index == 0) && (admin || (f.ctx == 0 && vaOk f.buffer))

/-- What a QUERY finds: its record, or the code it ends with. -/
def queryCheck (s : State) (c : Nat) (x : Ctx) (f : QueryF) (admin clears indexed : Bool) (record : State → Nat → Ctx → Except Status Bytes) : Option Status :=
  if !queryFields f admin clears indexed then some .earg else
  match record s c x with
  | .error e => some e
  | .ok b => if f.length < b.length || (!admin && !bufferOk x f.buffer f.length true) then some .ebound else none

/-- Clears what the option names, then writes the record; the bytes written are the result. -/
def writeQuery (s : State) (sub : Sub) (c : Nat) (f : QueryF) (admin : Bool) (clr : FlagWords → FlagWords) (b : Bytes) : State :=
  let s1 := if f.clear then modCtx s c fun x => { x with flags := clr x.flags } else s
  let s2 := if admin then { s1 with hostMem := mwrite s1.hostMem f.buffer b } else writeVa s1 c f.buffer b
  done s2 sub b.length

/-- A QUERY of one subject, on either kind of queue. -/
def query (s : State) (sub : Sub) (subject : Nat) (f : QueryF) (clears indexed : Bool) (record : State → Nat → Ctx → Except Status Bytes)
    (clr : FlagWords → FlagWords) : State :=
  match sub.q with
  | .ctx _ _ => ctxCmd s sub opQuery (queryBody subject f) (fun _ => true) (fun c x => queryCheck s c x f false clears indexed record)
      fun s1 c x => match record s c x with | .ok b => writeQuery s1 sub c f false clr b | .error _ => s1
  | .admin _ => adminCmd s sub fun s fn =>
      if 4096 ≤ f.ctx then refuse s sub .earg else
      match getCtx s f.ctx with
      | none => refuse s sub .estate
      | some x =>
        if !mayName s fn x then refuse s sub .eaccess else
        match queryCheck s f.ctx x f true clears indexed record, record s f.ctx x with
        | some e, _ => refuse s sub e
        | none, .ok b => writeQuery (cmdRec s f.ctx opQuery sub (queryBody subject f)) sub f.ctx f true clr b
        | none, .error _ => s

/-- A QUERY that clears nothing. -/
def plainQuery (s : State) (sub : Sub) (subject : Nat) (f : QueryF) (indexed : Bool) (record : State → Nat → Ctx → Except Status Bytes) : State :=
  query s sub subject f false indexed record id

def contextRecord (_ : State) (_ : Nat) (x : Ctx) : Except Status Bytes :=
  .ok (leBytes 1 x.ident.st.code ++ leBytes 1 x.ident.prior.code ++ leBytes 2 x.ident.fn ++ leBytes 4 x.ident.pasid ++ leBytes 6 x.gate.step
    ++ zeros 2 ++ leBytes 4 x.gate.epoch ++ leBytes 2 x.g ++ leBytes 1 x.ident.ways ++ leBytes 1 x.ident.weight ++ leBytes 4 x.ident.frames
    ++ leBytes 4 (mappedFrames x) ++ leBytes 8 x.ident.deadline ++ zeros 24)

def execQueryContext (sub : Sub) (f : QueryF) (s : State) : Outc := .next (plainQuery s sub 0x01 f false contextRecord)

/-- The flag word an index names; none outside the three ranges. -/
def flagWord (x : Ctx) (i : Nat) : Option Nat :=
  if i = 0xFFFF then some x.flags.devAgg
  else if i < 96 then some (tgetD x.flags.bayAgg i 0)
  else if 0x1000 ≤ i ∧ i < 0x1000 + 1152 then
    some (if x.ident.grant.contains (i - 0x1000) then tgetD x.flags.carrel (i - 0x1000) 0 else 0)
  else none

def clearWord (i : Nat) (f : FlagWords) : FlagWords :=
  if i = 0xFFFF then f.clearAll else if i < 96 then f.clearBay i else f.clearCarrel (i - 0x1000)

def execQueryFlags (sub : Sub) (f : QueryF) (s : State) : Outc :=
  .next (query s sub 0x02 f true true
    (fun _ _ x => match flagWord x f.index with | some w => .ok (leBytes 4 w) | none => .error .earg) (clearWord f.index))

/-- Moves of an entry abandoned in the round that runs. -/
def pendingAbandoned (x : Ctx) (cn : Nat) : Nat :=
  match x.cat.round with | some r => (r.2.filter fun m => m.call == cn && m.abandoned).length | none => 0

def execQueryCatalogueEntry (sub : Sub) (f : QueryF) (s : State) : Outc :=
  .next (plainQuery s sub 0x03 f true fun _ _ x => match tensor x f.index with
    | some t => .ok ({ t.e with abandoned := t.e.abandoned + pendingAbandoned x f.index }.toBytes (tgetD x.cat.shards t.idx []).length)
    | none => .error .earg)

def execQueryShards (sub : Sub) (f : QueryF) (s : State) : Outc :=
  .next (plainQuery s sub 0x04 f true fun _ _ x => match tensor x f.index with
    | some t => .ok ((tgetD x.cat.shards t.idx []).flatMap Shard.toBytes)
    | none => .error .earg)

/-- Any watch entry, in full (R399). -/
def execQueryWatchEntry (sub : Sub) (f : QueryF) (s : State) : Outc :=
  .next (plainQuery s sub 0x05 f true fun _ _ x => match tget x.pol.watch f.index with | some w => .ok w.toBytes | none => .error .earg)

/-- The reduced watch block of the most recent attempt (R399). -/
def execQueryWatchBlock (sub : Sub) (f : QueryF) (s : State) : Outc :=
  .next (plainQuery s sub 0x06 f false fun _ _ x => .ok x.block)

def execQueryStepReport (sub : Sub) (f : QueryF) (s : State) : Outc :=
  .next (plainQuery s sub 0x07 f false fun _ _ x => .ok (match x.report with | some r => r.toBytes | none => zeros 64))

def execQueryMeter (sub : Sub) (f : QueryF) (s : State) : Outc :=
  .next (plainQuery s sub 0x08 f false fun _ _ x => .ok (match x.meter with | some m => m.toBytes | none => zeros 48))

def execQueryDivergence (sub : Sub) (f : QueryF) (s : State) : Outc :=
  .next (plainQuery s sub 0x09 f false fun _ _ x => .ok (match x.divergence with | some d => d.toBytes | none => zeros 32))

def execQueryFaultRecords (sub : Sub) (f : QueryF) (s : State) : Outc :=
  .next (plainQuery s sub 0x0A f true fun _ _ x =>
    if f.index < (match x.prog with | some p => p.streams.length | none => 0) then
      .ok (match tget x.faults f.index with | some r => r.toBytes | none => zeros 48)
    else .error .earg)

def execQueryActivationTable (sub : Sub) (f : QueryF) (s : State) : Outc :=
  .next (plainQuery s sub 0x0B f true fun _ _ x =>
    match actTable x f.index with | some b => .ok b | none => .error .earg)

/-- The device record: stepping, Iazar version, interface range, enabled carrels. -/
def deviceRecord (s : State) : Bytes :=
  match s.fw.running with
  | some i => Config.deviceRecord 0xB1 i.version i.ifaceMin i.ifaceMax (enabledCarrels s).length
  | none => Config.deviceRecord 0xB1 0 0 0 (enabledCarrels s).length

def execQueryDevice (sub : Sub) (f : QueryF) (s : State) : Outc :=
  .next (plainQuery s sub 0x0C f false fun s _ _ => .ok (deviceRecord s))

end Sys2Proof.Machine
end

