-- ==== Sys2Proof/Machine/Queues.lean ====
section
/-! DEFINITION. Doorbells, the fetch of descriptors, slices and progress of long commands (R530–R535, R538, R539, R556, R557). -/

namespace Sys2Proof.Machine

/-! ### Doorbells (R530) -/

/-- The host's writes to its own memory. -/
def hostWrites (s : State) (l : List HostWrite) : State := { s with hostMem := l.foldl (fun m w => mwrite m w.addr w.data) s.hostMem }

/-- The port that presents a function is up. -/
def fnUp (s : State) (fn : Nat) : Bool := if fnPort s fn = 0 then s.host.up0 else s.host.up1

/-- A write that is ignored is counted in the function page and signalled. -/
def ignoredDoorbell (s : State) (fn : Nat) : State := raiseInt (countEv s (pgFun fn) 0x100 1) (pgFun fn) (2 ^ 3)

/-- Entries that a completion head frees. -/
def freedBy (v : Queue) (head : Nat) : Nat := (head + v.cqn - v.cqHead) % v.cqn

/-- A submission tail. -/
def setTail (s : State) (fn : Nat) (q : QRef) (v : Queue) (value : Nat) : State :=
  if v.sqn ≤ value then ignoredDoorbell s fn else setQueue s q { v with tail := value }

/-- A completion head: it frees entries, into which held ones go (R533). -/
def setHead (s : State) (fn : Nat) (q : QRef) (v : Queue) (value : Nat) : State :=
  if v.cqn ≤ value then ignoredDoorbell s fn
  else if v.used < freedBy v value then ignoredDoorbell s fn
  else drainHeld q v.held.length (setQueue s q { v with cqHead := value, used := v.used - freedBy v value })

/-- A write of offset `o` of the doorbell page of a context the function owns. -/
def doorbell (s : State) (fn c o value : Nat) : State :=
  if 128 ≤ o ∨ o % 8 ≠ 0 then s else
  match getQueue s (.ctx c (o / 16)) with
  | none => ignoredDoorbell s fn
  | some v => if o % 16 = 0 then setTail s fn (.ctx c (o / 16)) v value else setHead s fn (.ctx c (o / 16)) v value

def execDoorbellWrite (fn off value : Nat) (hw : List HostWrite) (s : State) : Outc :=
  let s1 := hostWrites s hw
  .next (match getCtx s1 (off / 4096) with
    | none => s1
    | some x => if s1.running && fnUp s1 fn && x.ident.fn == fn && x.ident.st != .orphaned then doorbell s1 fn (off / 4096) (off % 4096) value else s1)

/-! ### Descriptors (R531, R539) -/

/-- Body bytes from offset `a` to 63 are reserved. -/
def restZero (b : Bytes) (a : Nat) : Bool := zeroAt b a (64 - a)

/-- The reserved bits of a command's body are 0. -/
def reservedOk (op : Nat) (b : Bytes) : Bool :=
  match op with
  | 0x01 => fld b 25 1 ≤ 3 && bitsOf (fld b 28 4) 31 20 == 0
      && (if bitOf (fld b 25 1) 0 then zeroAt b 34 6 && restZero b 56 else restZero b 60)
  | 0x02 => restZero b 10
  | 0x03 => fld b 16 1 ≤ 1 && zeroAt b 17 3 && restZero b 24
  | 0x04 => restZero b 20
  | 0x05 => fld b 20 1 ≤ 3 && fld b 21 1 ≤ 3 && restZero b 32
  | 0x06 => restZero b 20
  | 0x07 => zeroAt b 12 4 && restZero b 32
  | 0x0A => restZero b 20
  | 0x0B => zeroAt b 20 4 && restZero b 36
  | 0x0C => restZero b 24
  | 0x0D => fld b 8 1 ≤ 1 && restZero b 9
  | 0x0E => fld b 10 1 ≤ 1 && zeroAt b 11 1 && restZero b 30
  | 0x0F => fld b 10 1 ≤ 1 && zeroAt b 11 1 && restZero b 30
  | 0x11 => restZero b 17
  | _ => restZero b 8

def openFields (b : Bytes) : OpenF :=
  { record := fld b 8 8, qtable := fld b 16 8, queues := fld b 24 1, standby := bitOf (fld b 25 1) 1, version := fld b 26 2,
    pasid := fld b 28 4, carrels := fld b 32 2, ways := fld b 34 1, weight := fld b 35 1, frames := fld b 36 4, job := fld b 40 4,
    seed := fld b 44 8, patron := fld b 52 8 }
def reclaimFields (b : Bytes) : ReclaimF :=
  { record := fld b 8 8, qtable := fld b 16 8, queues := fld b 24 1, version := fld b 26 2, pasid := fld b 28 4, ctx := fld b 32 2, token := fld b 40 16 }
def mapFields (b : Bytes) : MapF :=
  { va := fld b 8 8, frames := fld b 16 4, loc := fld b 20 1, w := bitOf (fld b 21 1) 0, remote := bitOf (fld b 21 1) 1, peer := fld b 22 2, target := fld b 24 8 }
def setFields (b : Bytes) : SetF := { index := fld b 12 4, record := fld b 16 8, length := fld b 24 4, target := fld b 28 2 }
def queryFieldsOf (b : Bytes) : QueryF :=
  { clear := bitOf (fld b 10 1) 0, index := fld b 12 4, buffer := fld b 16 8, length := fld b 24 4, ctx := fld b 28 2 }

/-- SET_POLICY by selector and op. -/
def runSet (sub : Sub) (b : Bytes) (s : State) : Outc :=
  let f := setFields b
  let sel := fld b 8 2
  if fld b 10 1 = 1 then (if 1 ≤ sel ∧ sel ≤ 0x0A then execSetPolicyDelete sub sel f s
    else if 0x10 ≤ sel ∧ sel ≤ 0x12 then .next (adminSet s sub (sel == 0x12) fun s _ => refuse s sub .earg) else .next (refuse s sub .earg)) else
  match sel with
  | 0x01 => execSetJobRecord sub f s
  | 0x02 => execSetParameterGroup sub f s
  | 0x03 => execSetWatchEntry sub f s
  | 0x04 => execSetRotationEntry sub f s
  | 0x05 => execSetActivationTable sub f s
  | 0x06 => execSetCollectiveDescriptor sub f s
  | 0x07 => execSetGroupRecord sub f s
  | 0x08 => execSetModeRecord sub f s
  | 0x09 => execSetVolumePolicy sub f s
  | 0x0A => execSetScheduling sub f s
  | 0x10 => execSetQuota sub f s
  | 0x11 => execSetFunctionAllotment sub f s
  | 0x12 => execSetDeviceSetup sub f s
  | _ => .next (refuse s sub .earg)

/-- QUERY by subject. -/
def runQuery (sub : Sub) (b : Bytes) (s : State) : Outc :=
  let f := queryFieldsOf b
  match fld b 8 2 with
  | 0x01 => execQueryContext sub f s
  | 0x02 => execQueryFlags sub f s
  | 0x03 => execQueryCatalogueEntry sub f s
  | 0x04 => execQueryShards sub f s
  | 0x05 => execQueryWatchEntry sub f s
  | 0x06 => execQueryWatchBlock sub f s
  | 0x07 => execQueryStepReport sub f s
  | 0x08 => execQueryMeter sub f s
  | 0x09 => execQueryDivergence sub f s
  | 0x0A => execQueryFaultRecords sub f s
  | 0x0B => execQueryActivationTable sub f s
  | 0x0C => execQueryDevice sub f s
  | _ => .next (refuse s sub .earg)

/-- Runs a descriptor whose reserved bits are 0. -/
def runDescriptor (sub : Sub) (b : Bytes) (s : State) : Outc :=
  match fld b 0 1 with
  | 0x01 => if bitOf (fld b 25 1) 0 then execOpenReclaim sub (reclaimFields b) s else execOpenCtx sub (openFields b) s
  | 0x02 => execClose sub (fld b 8 2) s
  | 0x03 => if fld b 16 1 = 1 then execBindRelease sub (fld b 20 4) s else execBind sub (fld b 8 8) s
  | 0x04 => execLoadProgram sub (fld b 8 8) (fld b 16 4) s
  | 0x05 => execMap sub (mapFields b) s
  | 0x06 => execUnmap sub (fld b 8 8) (fld b 16 4) s
  | 0x07 => execRunStep sub (fld b 8 4) (fld b 16 16) s
  | 0x08 => execPause sub s
  | 0x09 => execResume sub s
  | 0x0A => execCheckpoint sub (fld b 8 8) (fld b 16 4) s
  | 0x0B => execRestore sub (fld b 8 8) (fld b 16 4) (fld b 24 8) (fld b 32 4) s
  | 0x0C => execPreempt sub (fld b 8 8) (fld b 16 4) (fld b 20 4) s
  | 0x0D => if fld b 8 1 = 1 then execReshardAbort sub s else execReshardComplete sub s
  | 0x0E => runSet sub b s
  | 0x0F => runQuery sub b s
  | 0x10 => execFence sub s
  | 0x11 => execRetire sub (fld b 8 8) (fld b 16 1) s
  | _ => .next (refuse s sub .earg)

/-- The 64 bytes at the head of a ring. -/
def descriptorAt (s : State) (q : QRef) (v : Queue) : Bytes := mread s.hostMem (ringAt s q (v.sq + 64 * v.head)) 64

/-- The queue of its context that a descriptor was taken from last. -/
def tookFrom (s : State) (q : QRef) : State := match q with | .admin _ => s | .ctx c k => modCtx s c fun x => { x with lastQueue := k }

/-- Takes the descriptor at the head of a ring, and runs it; a reserved bit that is set ends it with EARG. -/
def fetch (s : State) (q : QRef) (v : Queue) : Outc :=
  let b := descriptorAt s q v
  let s1 := tookFrom (setQueue s q { v with head := if v.head + 1 = v.sqn then 0 else v.head + 1 }) q
  let sub : Sub := { q := q, cid := fld b 2 2, prog := bitOf (fld b 1 1) 0 }
  if fld b 1 1 ≤ 1 && zeroAt b 4 4 && reservedOk (fld b 0 1) b then runDescriptor sub b s1 else .next (refuse s1 sub .earg)

/-- An OPEN generates a key and a token: it waits for the keeper (R597). -/
def waitsKeeper (s : State) (q : QRef) (v : Queue) : Bool := fld (descriptorAt s q v) 0 1 == 0x01 && !coreUp s .keeper

/-- A descriptor stands at the head of the queue and can be taken. -/
def fetchable (s : State) (q : QRef) (v : Queue) : Bool := v.head != v.tail && !queueHeld s q && !waitsKeeper s q v

/-- Round robin over the queues of a context (R534): no queue between the one taken from last and this one has a descriptor to take. -/
def itsTurn (s : State) (q : QRef) : Bool :=
  match q with
  | .admin _ => true
  | .ctx c k =>
    match getCtx s c with
    | none => true
    | some x =>
      let n := x.queues.length
      let ahead (j : Nat) : Nat := (j + 2 * n - x.lastQueue - 1) % n
      (List.range n).all fun j => !(decide (ahead j < ahead k)) || !(match x.queues[j]? with | some v => fetchable s (.ctx c j) v | none => false)

def execCommandFetch (q : QRef) (s : State) : Outc :=
  match getQueue s q with
  | none => .next s
  | some v => if serving s && fetchable s q v && itsTurn s q then fetch s q v else .next s

/-! ### Slices and progress (R556, R557) -/

/-- The units of a command in flight. -/
def addUnits (s : State) (q : QRef) (cid units : Nat) : State :=
  setCmds s q ((cmdsOf s q).map fun k => if k.is q cid then { k with units := k.units + units } else k)

/-- All units of a sliced command: frames, words of a program, bytes of volumes. -/
def Sliced.units (s : State) (x : Ctx) : Sliced → Nat
  | .load va len => match parseProgram (readVa s x va len) with | .ok p => (p.streams.map (·.words.length)).sum | .error _ => 0
  | .map f => f.frames
  | .unmap _ n => n
  | .restore va n _ _ => ((volumeList s x va n).map fun e => listBytes (readList s x e.1 e.2.1)).sum

/-- The last slice: the command takes effect wholly, and completes (R546). -/
def endSliced (s : State) (sub : Sub) (c : Nat) (x : Ctx) : Sliced → State
  | .load va len => doLoad s sub c x va len
  | .map f => doMap s sub c x f
  | .unmap va n => doUnmap s sub c x va n
  | .restore va n mva mn => doRestore s sub c x va n mva mn

/-- The started command of a queue under an id. -/
def startedCmd (s : State) (q : QRef) (cid : Nat) : Option Cmd := (cmdsOf s q).find? fun k => k.is q cid && k.started

/-- Writes a progress entry of a command that asked for them and has written none for `least` nanoseconds. RUN_STEP has its own (R544). -/
def progressAfter (s : State) (q : QRef) (cid least : Nat) : State :=
  match startedCmd s q cid with
  | none => s
  | some k =>
    if !k.prog || k.opcode == opRunStep || !serving s || s.now < k.lastProgress + least then s else
    let s1 := setCmds s q ((cmdsOf s q).map fun j => if j.is q cid then { j with lastProgress := s.now } else j)
    postEntry s1 q { cid := cid, status := .success, progress := true, queue := queueNum q,
                     sqhead := (match getQueue s q with | some v => v.head | none => 0), result := k.units }

/-- A slice of a command of a context: of a CHECKPOINT or PREEMPT, of one that takes effect at its last slice, or of another. -/
def ctxSlice (s : State) (q : QRef) (c : Nat) (x : Ctx) (k : Cmd) (units : Nat) : State :=
  match k.work with
  | some w =>
    if k.units + units < w.units s x then addUnits s q k.cid units
    else endSliced s { q := q, cid := k.cid, prog := k.prog } c x w
  | none =>
    match x.long with
    | some l =>
      if l.q == q && l.cid == k.cid then longSlice (addUnits s q k.cid (min units ((l.vol.map Volume.size).getD 0 - l.pos))) c units
      else addUnits s q k.cid units
    | none => addUnits s q k.cid units

/-- A slice; a progress entry that has been due for 100 ms goes with it. -/
def execCommandSlice (q : QRef) (cid units : Nat) (s : State) : Outc :=
  .next (match startedCmd s q cid with
    | none => s
    | some k =>
      if !serving s then s else
      progressAfter (match q with
        | .admin _ => addUnits s q cid units
        | .ctx c _ => match getCtx s c with | some x => ctxSlice s q c x k units | none => s) q cid 100000000)

/-- A progress entry: at most one per millisecond. -/
def execProgressEntry (q : QRef) (cid t : Nat) (s : State) : Outc := .next (progressAfter (s.at t) q cid 1000000)

end Sys2Proof.Machine
end

