-- ==== Sys2Proof/Machine/Protect.lean ====
section
/-! DEFINITION. Firmware cores: what protection lets each reach, and what a crash does (R573, R588, R589, R591, R597, R599). -/

namespace Sys2Proof.Machine

/-! ### Protection (R588) -/

def rw : Access := ⟨true, true⟩
def ro : Access := ⟨true, false⟩

/-- The settings of a core, row by row of R588. The areas of device-reserved HBM are numbered 0 the keeper's, 1 circulation's, 2 + b bay
b's. -/
def coreGrants (i : CoreId) : List Grant :=
  match primaryOf i with
  | .keeper => [⟨i, .keys, rw⟩, ⟨i, .sensors, ro⟩, ⟨i, .journal, ro⟩, ⟨i, .reservedHbm 0, rw⟩, ⟨i, .flash, rw⟩]
  | .conservator => [⟨i, .sensors, rw⟩]
  | .circulation =>
    [⟨i, .sensors, ro⟩, ⟨i, .journal, rw⟩, ⟨i, .catalogue, rw⟩, ⟨i, .reservedHbm 1, rw⟩] ++ (List.range 96).map fun b => ⟨i, .bayPages b, ro⟩
  | .clerk b => [⟨i, .bayPages b, rw⟩, ⟨i, .reservedHbm (2 + b), rw⟩]
  | _ => []

/-- The keeper programs every core's settings and locks them before it releases any other core; locked settings stay. -/
def protect (f : Firmware) : Firmware := if f.locked then f else { f with grants := allCores.flatMap coreGrants, locked := true }

/-- Protection and firewalls let the core read, or write, the resource. -/
def coreMay (s : State) (i : CoreId) (r : Resource) (write : Bool) : Bool :=
  s.fw.grants.any fun g => g.core == i && g.res == r && (if write then g.may.w else g.may.r)

/-- The core behind a requester number: 0 to 5 as the pages of R604, 6 + b the clerk of bay b. -/
def reqCore (n : Nat) : CoreId :=
  let i : CoreId := if n % 3 = 0 then .keeper else if n % 3 = 1 then .conservator else .circulation
  if n < 3 then i else if n < 6 then standbyOf i else .clerk (n - 6)

/-- The shared resource of R588 that a register page is part of; the other pages no setting guards (log 112). -/
def pageResource (p : Nat) : Option Resource :=
  match pageClass p with
  | some (0x03, _) => some .catalogue
  | some (0x0E, n) => some (.bayPages n)
  | some (0x0F, n) => some (.bayPages (n / 13))
  | _ => none

/-- Protection lets the requesting core reach the page. -/
def coreReaches (s : State) (n p : Nat) (write : Bool) : Bool :=
  match pageResource p with | none => true | some r => coreMay s (reqCore n) r write

/-! ### Crashes (R573, R589, R591, R597, R599) -/

def modCore (s : State) (i : CoreId) (f : CoreSt → CoreSt) : State :=
  { s with fw := { s.fw with cores := s.fw.cores.map fun k => if k.id == i then f k else k } }

/-- Core class as R579 codes it, and index: a clerk's bay, and the hub of the others (log 155). -/
def coreClass (i : CoreId) : Nat := match primaryOf i with | .keeper => 1 | .conservator => 2 | .circulation => 3 | _ => 4
def coreIndex (i : CoreId) : Nat := match i with | .clerk b => b | _ => if primaryOf i = i then 0 else 1
def isClerk (i : CoreId) : Bool := match i with | .clerk _ => true | _ => false

/-- The crash log is a ring of 4,096 records; each record is a device event. -/
def crashRec (s : State) (i : CoreId) (cause pc addr : Nat) : State :=
  let l := s.fw.crashLog ++ [⟨s.now, coreClass i, coreIndex i, cause, pc % 2 ^ 32, addr % 2 ^ 64⟩]
  devEvent { s with fw := { s.fw with crashLog := l.drop (l.length - 4096) } } 0

/-- A live update is abandoned as a whole: the old components go on, the staged slot stays uncommitted. -/
def abandonLive (s : State) : State := { s with fw := { s.fw with live := none } }

/-- The core stops. Without the conservator every adjustable island stands at its safe rung. -/
def coreDown (s : State) (i : CoreId) (copyOk : Bool) : State :=
  let s1 := modCore (abandonLive s) i fun k => { k with up := false, downAt := s.now, crashes := s.now :: k.crashes, copyOk := copyOk }
  if i = dutyOf s .conservator then { s1 with control := { s1.control with drops := [], climb := 0, under := 0, cool := [] } } else s1

/-- The core can crash: it runs, or a live update has stopped it. -/
def coreRuns (s : State) (i : CoreId) : Bool := s.running && coreRunsUp s i

/-- A crash: the record, then the core stops. -/
def crash (s : State) (i : CoreId) (cause pc addr : Nat) (copyOk : Bool) : State := coreDown (crashRec s i cause pc addr) i copyOk

/-- An access that protection refuses does not take place: it traps the core that made it (R589). -/
def trapCore (s : State) (req : Req) (p : Nat) (write : Bool) : State :=
  match req with
  | .port _ => s
  | .core n =>
    if coreReaches s n p write || !coreRuns s (reqCore n) then s
    else let k := s.fresh; crash k.2 (reqCore n) 3 (Config.crashPc k.1).toNat (p * 4096) (Config.copyPasses k.1)

end Sys2Proof.Machine
end

