-- ==== Sys2Proof/Machine/Pages.lean ====
section
/-! DEFINITION. Register pages: who reaches them, reads, writes, snapshots, error injection (R449, R525, R600–R617, R621–R623). -/

namespace Sys2Proof.Machine

/-! ### Who reaches a register (R523, R525, R602) -/

/-- Register space is presented once the boot has ended, in service or in recovery. -/
def regsUp (s : State) : Bool := s.pins.pwrGood && s.pins.modReset && (s.fw.stage == 7 || s.fw.recovery)

/-- The requester speaks for this function: a firmware core, or the port that presents it. -/
def speaks (s : State) (req : Req) (fn : Nat) : Bool :=
  regsUp s && (match req with | .core _ => true | .port n => fn < 256 && fnPort s fn == n && fnUp s fn)

/-- A page of this function or of its contexts. -/
def ownPage (s : State) (fn p : Nat) : Bool :=
  match pageClass p with
  | some (0x10, n) => n == fn
  | some (0x11, n) => match getCtx s n with | some x => x.ident.fn == fn | none => false
  | _ => false

/-- A page of a function of this function's port, or of its contexts. -/
def portPage (s : State) (fn p : Nat) : Bool :=
  match pageClass p with
  | some (0x10, n) => samePort s fn n
  | some (0x11, n) => match getCtx s n with | some x => samePort s fn x.ident.fn | none => false
  | _ => false

def reads (s : State) (req : Req) (fn p : Nat) : Bool :=
  speaks s req fn && (pageClass p).isSome && (match req with | .core n => coreReaches s n p false | .port _ => isPf s fn || ownPage s fn p)

def writes (s : State) (req : Req) (fn p : Nat) : Bool :=
  reads s req fn p && (match req with
    | .core n => coreReaches s n p true
    | .port _ => if s.host.twoHost && fn == port1Fn then portPage s fn p else true)

def classOf (p : Nat) : Nat := match pageClass p with | some q => q.1 | none => 0
def instOf (p : Nat) : Nat := match pageClass p with | some q => q.2 | none => 0

/-- The page has perturbation registers (R605, R621; log 109). -/
def hasPerturb (p : Nat) : Bool := [0x0B, 0x0C, 0x0F].contains (classOf p) || Config.perturbs (classOf p)
/-- Offsets of the perturbation window. -/
def inPerturb (o : Nat) : Bool := 0x100 ≤ o && o < 0x180

/-- The bits that a register defines; the reserved ones ignore writes and read 0 (R4). -/
def keep (v mask : Nat) : Nat := v &&& mask
/-- Bits of INT_STATUS, INT_ENABLE and INT_FORCE that a page defines (R605, R617). Which of the cause bits [15:0] that no chapter names are
reserved is not stated: the model keeps them all but on a function's page (DESIGN CHOICE, log 163). -/
def intMask (s : State) (p : Nat) : Nat :=
  if classOf p = 0x10 then (if isPf s (instOf p) then 0xC000007F else 0xC0000008) else 0xC000FFFF
/-- Bits of EVENT_SELk (R605, R608). -/
def selMask (p : Nat) : Nat := if classOf p = 0x11 then 0x80000FFF else 0xCFFF0FFF

def low32 (v : Nat) : Nat := v % 2 ^ 32
def sat16 (v : Nat) : Nat := min 0xFFFF v

def getFun (s : State) (fn : Nat) : Fun := tgetD s.host.funs fn Fun.reset
def setFun (s : State) (fn : Nat) (f : Fun) : State := { s with host := { s.host with funs := tset s.host.funs fn f } }

/-! ### Effects of single registers -/

/-- EVENT_SELk: its counter is cleared, and the selection holds from the same edge (R608). -/
def eventSel (s : State) (p k value : Nat) : State :=
  let g := getPage s p
  setPage s p { g with sel := g.sel.set k (keep value (selMask p)), cnt := g.cnt.set k 0 }

/-- The eight counters are cleared (R605). -/
def evClear (s : State) (p : Nat) : State := let g := getPage s p; setPage s p { g with cnt := List.replicate 8 0 }

def blockCtrl (s : State) (p value : Nat) : State :=
  let s1 := if bitOf value 1 then evClear s p else s
  let g := getPage s1 p
  setPage s1 p { g with freeze := bitOf value 2, intEn := bitOf value 0 }

/-- A W1C write of INT_STATUS; bits that hardware sets at the same edge are 1 afterwards (R611). -/
def intClear (s : State) (p value hwSet : Nat) : State :=
  let s1 := raiseInt s p (keep hwSet (intMask s p))
  let g := getPage s1 p
  setPage s1 p { g with intStatus := g.intStatus - (g.intStatus &&& keep value (2 ^ 32 - 1 - keep hwSet (intMask s p)) &&& intMask s p) }

def intForce (s : State) (p value : Nat) : State := raiseInt s p (keep value (intMask s p))

/-- ERR_SUMMARY.valid cleared: count, code, address and syndrome are 0 (R606). -/
def errClear (s : State) (p : Nat) : State :=
  let g := getPage s p
  setPage s p { g with errCount := 0, errCode := 0, errValid := false, errAddr := 0, errSyn := 0 }

/-- SNAP_TRIGGER.go (R613). -/
def snapGo (s : State) : State :=
  if s.regs.snapPending then { s with regs := { s.regs with snapIgnored := sat16 (s.regs.snapIgnored + 1) } }
  else { s with regs := { s.regs with snapPending := true, snapTime := s.now + 2000, gen := (s.regs.gen + 1) % 2 ^ 32 } }

def getPort (s : State) (n : Nat) : Port := tgetD s.fabric.ports n Port.reset
def setPort (s : State) (n : Nat) (p : Port) : State := { s with fabric := { s.fabric with ports := tset s.fabric.ports n p } }

/-- A port begins to train. -/
def startTraining (s : State) (n : Nat) (p : Port) : State :=
  stateSelf (setPort s n { p with st := .training, cause := 0, retrainAt := some s.now }) n

/-- PORT_CLEAR[0]: a port held down as faulty or hostile trains at once, and its partner's certificate is no longer refused (R449, R513). -/
def portClear (s : State) (n : Nat) : State :=
  let p := getPort s n
  let s1 := { s with fabric := { s.fabric with refused := s.fabric.refused.filter (· != p.cert) } }
  if p.st = .down ∧ (p.cause = 2 ∨ p.cause = 3) then startTraining s1 n p else s1

/-- PERTURB_ECC: the count of symbols is written, arm is only ever set (R621). -/
def eccArm (s : State) (p value : Nat) : State :=
  let g := getPage s p
  setPage s p { g with pEcc := (if bitOf value 31 || bitOf g.pEcc 31 then 2 ^ 31 else 0) + value % 8 }

/-- A write that the perturbation lock discards (R621). -/
def perturbRefused (s : State) : State :=
  { s with regs := { s.regs with perturbRefused := min (2 ^ 32 - 1) (s.regs.perturbRefused + 1) } }

/-- R529's checks of the admin queue registers. -/
def adminOk (v : Queue) : Bool :=
  v.sq % 4096 == 0 && pow2 v.sqn && 16 ≤ v.sqn && v.sqn ≤ 65536 && v.vector < msixVectors && v.cq % 4096 == 0 && pow2 v.cqn && v.sqn ≤ v.cqn

/-- The queue as enabling finds it: both rings empty. -/
def Queue.fresh (v : Queue) : Queue := { v with tail := 0, head := 0, cqTail := 0, cqHead := 0, phase := true, used := 0, held := [] }

/-- ADMIN_CTRL.en (R617). -/
def adminCtrl (s : State) (fn value : Nat) : State :=
  if s.fw.recovery then s else
  let f := getFun s fn
  if bitOf value 0 then
    if f.en then s
    else if adminOk f.adm then setFun s fn { f with en := true, adm := f.adm.fresh, cmds := [], mute := false }
    else logError s (pgFun fn) 0x01 0 0
  else setFun s fn { f with en := false, adm := f.adm.fresh, cmds := [] }

/-- A field of the admin queue registers; it holds only while en is 0 (R617). -/
def adminField (s : State) (fn : Nat) (upd : Queue → Queue) : State :=
  let f := getFun s fn
  if f.en then s else setFun s fn { f with adm := upd f.adm }

/-- An admin doorbell: tail, or head. -/
def adminBell (s : State) (fn : Nat) (head : Bool) (value : Nat) : State :=
  match getQueue s (.admin fn) with
  | none => ignoredDoorbell s fn
  | some v => if head then setHead s fn (.admin fn) v value else setTail s fn (.admin fn) v value

/-! ### Snapshots (R614, R615) -/

/-- One page latches. -/
def latchPage (s : State) (p : Nat) : State :=
  if pageAsleep s p then s else
  let g := getPage s p
  raiseInt (setPage s p { g with snap := g.cnt, snapGen := s.regs.gen }) p (2 ^ 30)

/-- Every powered page latches; a page that nothing has written keeps its reset counters and is not listed. -/
def latchAll (s : State) : State :=
  let s1 := (s.regs.pages.map (·.1)).foldl latchPage s
  { s1 with regs := { s1.regs with snapPending := false, latchedGen := if s.regs.gen = 0 then 2 ^ 32 else s.regs.gen } }

/-! ### What the stacks hold (R299, R300) -/

/-- The key slot an atom is encrypted under: its frame's context's, or 0, the device's (R299, R300). -/
def keySlotOf (s : State) (pa : Nat) : Nat :=
  match frameOwner s (pa / frameBytes * frameBytes) with | some c => c + 1 | none => 0

/-- A byte of device-reserved memory: a page table's where one lies there (R295). -/
def reservedByte (s : State) (pa : Nat) : Byte := (s.ctxs.findSome? fun p => tableByte p.2 pa).getD (mget s.mem.bytes pa)

/-- The plain bytes of an HBM atom: what memory reads, a page table, or what lies beneath a dirty annex line (R277). -/
def plainAtom (s : State) (pa : Nat) : Bytes :=
  if isReserved pa then (List.range 64).map fun k => reservedByte s (pa / 64 * 64 + k) else
  match s.mem.lines.find? fun l => l.line == pa / 64 && l.dirty with | some l => l.under | none => mread s.mem.bytes (pa / 64 * 64) 64

/-- The 64 bytes an HBM atom holds: AES-XTS-256 of its plain bytes, the tweak the atom's address [51:6] (R299). The model's memory keeps
the plain bytes, which every read gives back (log 10). -/
def heldAtom (s : State) (pa : Nat) : Bytes :=
  xtsEncrypt (tgetD s.si.keySlots (keySlotOf s pa) []) (pa / 64) (plainAtom s pa)

/-! ### Errors of memory (R302, R303, R617) -/

/-- A refresh interval of a stack, patrol reads included, in its count and at its controller (R290, R612). -/
def refreshed (s : State) (k : Nat) : State :=
  countEv { s with si := { s.si with refreshes := tset s.si.refreshes k (tgetD s.si.refreshes k 0 + 1) } } (pgMem k) 0x102 1

/-- A corrected error of the atom at `pa`, counted for its pseudo-channel. -/
def correctedError (s : State) (pa : Nat) : State :=
  match stackOf pa with
  | none => s
  | some k =>
    let n := s.fresh
    let syn := (Config.syndrome 0x0B n.1).toNat
    let f := pa / frameBytes * frameBytes
    let s1 := countEv n.2 (pgMem k) 0x103 1
    let s2 := logError s1 (pgMem k) (Config.errCode 0 0x0B).toNat pa syn
    let s3 := { s2 with regs := { s2.regs with ceAddr := tset s2.regs.ceAddr k pa, ceSyn := tset s2.regs.ceSyn k syn },
                        si := { s2.si with corrected := tset s2.si.corrected f (tgetD s2.si.corrected f 0 + 1),
                                           frameChannel := tset s2.si.frameChannel f (channelOf pa),
                                           channelErrs := tset s2.si.channelErrs (64 * k + channelOf pa) (tgetD s2.si.channelErrs (64 * k + channelOf pa) 0 + 1) } }
    devEvent s3 1

/-- An error that cannot be corrected: the atom is poisoned. -/
def uncorrectableError (s : State) (pa : Nat) : State :=
  match stackOf pa with
  | none => s
  | some k =>
    let n := s.fresh
    let f := pa / frameBytes * frameBytes
    let s1 := { n.2 with mem := { n.2.mem with poison := insertN n.2.mem.poison (pa / 64) },
                         si := { n.2.si with frameChannel := tset n.2.si.frameChannel f (channelOf pa) } }
    devEvent (logError (countEv s1 (pgMem k) 0x104 1) (pgMem k) (Config.errCode 1 0x0B).toNat pa (Config.syndrome 0x0B n.1).toNat) 2

/-- `symbols` symbol errors in one atom: up to 3 are corrected, more are not; an atom that is poisoned already stays so. -/
def atomErrors (s : State) (pa symbols : Nat) : State :=
  if symbols = 0 ∨ s.mem.poison.contains (pa / 64) then s
  else if symbols ≤ 3 then correctedError s pa else uncorrectableError s pa

/-! ### Error injection (R621, R623) -/

/-- The logical carrel a physical one serves (R14–R17). -/
def servedBy (s : State) (phys : Nat) : Option Nat :=
  let bay := phys / 13
  let slot := phys % 13
  if slot = 12 then (s.si.spareUsed.find? (·.1 == bay)).map fun u => 12 * bay + u.2
  else if s.si.spareUsed.any (fun u => u.1 == bay && u.2 == slot) || s.si.withdrawn.contains (12 * bay + slot) then none
  else some (12 * bay + slot)

/-- Store granules of a logical carrel in the order of contexts and tensors: context, index, granule. -/
def granulesOf (s : State) (l : Nat) : List (Nat × Nat × Nat) :=
  s.ctxs.flatMap fun p => p.2.cat.scratch.flatMap fun t =>
    ((List.range t.2.owners.length).filter fun g => t.2.owners[g]? == some l).map fun g => (p.1, t.1, g)

def dayNs : Nat := 86400000000000

/-- A carrel whose store poisons three distinct lines within 24 h is marked as failing (R651). -/
def linePoisoned (s : State) (phys line : Nat) : State :=
  let l := (s.si.storeErrs.filter fun e => s.now < e.2.2 + dayNs && !(e.1 == phys && e.2.1 == line)) ++ [(phys, line, s.now)]
  { s with si := { s.si with storeErrs := l,
                             failing := if 3 ≤ (l.filter (·.1 == phys)).length then insertN s.si.failing phys else s.si.failing } }

/-- Bit errors in the line of a carrel's store at byte offset `off`: one is corrected, two poison the line (R274). -/
def storeErrors (s : State) (phys off bits : Nat) : State :=
  if bits = 0 then s
  else if bits = 1 then countEv s (pgCarrel phys) 0x10A 1
  else
    let s := linePoisoned s phys (off / 64)
    match (servedBy s phys).bind fun l => (granulesOf s l)[off / 4096]? with
    | some q => setPoison s q.1 (.store q.2.1 (q.2.2 * 4096 + off % 4096)) true
    | none => s

/-- The device clears arm, and counts an injection. -/
def disarm (s : State) (p : Nat) (n : Nat) : State :=
  let g := getPage s p
  setPage s p { g with pEcc := g.pEcc % 8, pInjected := sat16 (g.pInjected + b2n (n != 0)) }

def eccInject (s : State) (p : Nat) : State :=
  let g := getPage s p
  if !(hasPerturb p && s.fw.unlocked && bitOf g.pEcc 31 && bitOf g.pCtrl 4) then s
  else if classOf p = 0x0B then
    (if stackOf g.pEccAddr = some (instOf p) then
      disarm (atomErrors s (g.pEccAddr / 64 * 64) (min 5 (g.pEcc % 8))) p (g.pEcc % 8)
     else s)
  else if classOf p = 0x0F then disarm (storeErrors s (instOf p) g.pEccAddr (min 2 (g.pEcc % 8))) p (g.pEcc % 8)
  else s

/-! ### Writes (R601, R603) -/

/-- A 4-byte write of a perturbation register. -/
def perturbWrite (s : State) (p o v : Nat) : State :=
  let g := getPage s p
  if o = 0x100 then setPage s p { g with pCtrl := keep v 0x9F }
  else if o = 0x110 then setPage s p { g with pDelay := keep v 0xFFFF00FF }
  else if o = 0x114 then setPage s p { g with pCredit := v }
  else if o = 0x118 then setPage s p { g with pBp := v }
  else if o = 0x11C then setPage s p { g with pRetry := keep v 0xFFFF0000 }
  else if o = 0x128 then eccArm s p v
  else s

/-- A 4-byte write of a function page's own registers. -/
def funWrite (s : State) (fn o v : Nat) : State :=
  if o = 0x188 then adminField s fn fun q => { q with sqn := v }
  else if o = 0x18C then adminField s fn fun q => { q with vector := v % 2 ^ 16, irq := bitOf v 16 }
  else if o = 0x198 then adminField s fn fun q => { q with cqn := v }
  else if o = 0x19C then adminCtrl s fn v
  else if o = 0x1A0 then adminBell s fn false v
  else if o = 0x1A4 then adminBell s fn true v
  else s

/-- A 4-byte write of a 32-bit register. -/
def write32 (s : State) (p o v : Nat) : State :=
  let g := getPage s p
  if o = 0x008 then blockCtrl s p v
  else if o = 0x010 then intClear s p v 0
  else if o = 0x014 then setPage s p { g with intEnable := keep v (intMask s p) }
  else if o = 0x018 then intForce s p v
  else if o = 0x01C then (if bitOf v 0 then errClear s p else s)
  else if 0x040 ≤ o ∧ o < 0x060 then eventSel s p ((o - 0x040) / 4) v
  else if inPerturb o then perturbWrite s p o v
  else if classOf p = 0x01 then (if o = 0x188 ∧ bitOf v 0 = true then snapGo s else s)
  else if classOf p = 0x0C then (if o = 0x188 ∧ bitOf v 0 = true then portClear s (instOf p) else s)
  else if classOf p = 0x04 then (if o = 0x180 then { s with regs := { s.regs with detourWindow := v % 16 } } else s)
  else if classOf p = 0x10 then funWrite s (instOf p) o v
  else s

/-- 64-bit registers that can be written. -/
def isRw64 (p o : Nat) : Bool := o == 0x108 || o == 0x120 || (classOf p == 0x10 && (o == 0x180 || o == 0x190))

def get64 (s : State) (p o : Nat) : Nat :=
  if o = 0x108 then (getPage s p).pSeed else if o = 0x120 then (getPage s p).pEccAddr
  else if o = 0x180 then (getFun s (instOf p)).adm.sq else (getFun s (instOf p)).adm.cq

def set64 (s : State) (p o v : Nat) : State :=
  let g := getPage s p
  if o = 0x108 then setPage s p { g with pSeed := v }
  else if o = 0x120 then setPage s p { g with pEccAddr := v }
  else if o = 0x180 then adminField s (instOf p) fun q => { q with sq := v }
  else adminField s (instOf p) fun q => { q with cq := v }

/-- The high half of a 64-bit register: with it the same requester's pending low half, or the register's own low half. -/
def writeHigh (s : State) (req : Req) (p o v : Nat) : State :=
  let a := 4096 * p + o
  match s.regs.writeHalf.find? fun h => h.req == req && h.off == a with
  | some h => set64 { s with regs := { s.regs with writeHalf := s.regs.writeHalf.filter (· != h) } } p o (2 ^ 32 * v + h.value)
  | none => set64 s p o (2 ^ 32 * v + low32 (get64 s p o))

/-- The low half is held until the high half is written. -/
def writeLow (s : State) (req : Req) (p o v : Nat) : State :=
  let a := 4096 * p + o
  { s with regs := { s.regs with writeHalf := s.regs.writeHalf.filter (fun h => !(h.req == req && h.off == a)) ++ [⟨req, a, v⟩] } }

/-- An aligned write of 4 or 8 bytes that reaches its page. -/
def pageWrite (s : State) (req : Req) (p o size v : Nat) : State :=
  if inPerturb o && !hasPerturb p then s
  else if inPerturb o && !s.fw.unlocked then perturbRefused s
  else if size = 8 then
    if isRw64 p o then set64 s p o v else write32 (write32 s p o (low32 v)) p (o + 4) (v / 2 ^ 32)
  else if isRw64 p o then writeLow s req p o v
  else if isRw64 p (o - 4) && o % 8 == 4 then writeHigh s req p (o - 4) v
  else write32 s p o v

/-- Aligned writes of whole words are served. -/
def wellAligned (off size : Nat) (whole : Bool) : Bool := whole && ((size == 4 && off % 4 == 0) || (size == 8 && off % 8 == 0))

/-- A write that the device discards is counted in the writing function's page (R601). -/
def discarded (s : State) (req : Req) (fn : Nat) : State :=
  match req with | .port _ => countEv s (pgFun fn) 0x102 1 | .core _ => s

def regWrite (s : State) (req : Req) (fn off size v : Nat) (whole : Bool) : State :=
  if !speaks s req fn then s
  else if !wellAligned off size whole then discarded s req fn
  else if writes s req fn (off / 4096) then pageWrite s req (off / 4096) (off % 4096) size (v % 2 ^ (8 * size)) else trapCore s req (off / 4096) true

/-! ### Reads (R609, R610, R616) -/

/-- An entry of the detour table (R460). -/
def detourEntry (s : State) (k : Nat) : Nat :=
  match (s.fabric.detours.find? fun d => d.coord / 16 == k) with
  | some d => 2 ^ 63 + d.reserve % 2 ^ 20 * 2 ^ 32 + d.gen % 2 ^ 16 * 2 ^ 16 + d.coord
  | none => 0

/-- BLOCK_STATE.state (R605). Which state wins where several hold is a DESIGN CHOICE (log 74): recovery before all; a bay that is both
failed and quarantined shows 5, quarantined (R18 and R598 give 4 and 5 and no order); a failing carrel that sleeps shows 4. -/
def pageState (s : State) (p : Nat) : Nat :=
  let n := instOf p
  let core (i : CoreId) (second : Bool) : Nat :=
    match s.fw.cores.find? (·.id == if second then standbyOf i else i) with
    | some k => if k.takenOver then 4 else if !k.up then 1 else if second && dutyOf s i == i then 6 else 2
    | none => 0
  if s.fw.recovery then 7
  else match classOf p with
    | 0x02 => core (if n % 3 = 0 then .keeper else if n % 3 = 1 then .conservator else .circulation) (3 ≤ n)
    | 0x0E => if s.fw.quarantined.contains n then 5 else if s.si.bayFailed.contains n then 4 else 2
    | 0x0F => if s.si.failing.contains n then 4 else if pageAsleep s p then 6 else 2
    | _ => 2

/-- Stacks at the retirement limit (R310), cores taken over, reference clock lost. -/
def degraded (s : State) : Nat :=
  let st := ((List.range 16).map fun k => if 1024 ≤ (s.si.retired.filter fun f => stackOf f == some k).length then 2 ^ (16 + k) else 0).sum
  let co (i : CoreId) : Nat := b2n (s.fw.cores.any fun k => k.id == i && k.takenOver)
  st + co .keeper * 2 + co .conservator * 4 + co .circulation * 8 + b2n s.clock.refclkLost

/-- CARREL_MAP, CARREL_CTX and CARREL_RUNG. -/
def carrelReg (s : State) (req : Req) (fn n o : Nat) : Nat :=
  let l := servedBy s n
  let wd := n % 13 != 12 && s.si.withdrawn.contains (12 * (n / 13) + n % 13)
  if o = 0x180 then b2n l.isSome * 2 ^ 31 + b2n (n % 13 == 12) * 2 ^ 30 + b2n wd * 2 ^ 29 + l.getD 0x7FF
  else if o = 0x184 then
    match l.bind (tget s.si.carrelCtx) with
    | some c =>
      let mine := match req with | .core _ => true | .port _ => (match getCtx s c with | some x => x.ident.fn == fn | none => false)
      if mine then 2 ^ 31 + c else 0
    | none => 0
  else if o = 0x188 then islandRung s (.carrel n)
  else 0

def portReg (s : State) (n o : Nat) : Nat :=
  let p := getPort s n
  let st := match p.st with | .down => 0 | .training => 1 | .authenticating => 2 | .up => 3 | .retraining => 4
  if o = 0x180 then st * 2 ^ 28 + p.lanes % 16 * 2 ^ 24 + p.cause % 4 * 2 ^ 22 + p.partner % 2 ^ 20 else 0

def packageReg (s : State) (o : Nat) : Nat :=
  if o = 0x198 then s.regs.snapIgnored * 2 ^ 16 + b2n s.regs.snapPending
  else if o = 0x1A0 then 0xB1
  else if o = 0x1A4 then (match s.fw.running with | some i => i.version | none => 0)
  else if o = 0x1A8 then (match s.fw.running with | some i => i.ifaceMax * 2 ^ 16 + i.ifaceMin | none => 0)
  else if o = 0x1AC then s.fw.stage * 2 ^ 24 + s.fw.check * 2 ^ 16 + s.fw.slot * 2 ^ 8 + b2n s.fw.recovery
  else if o = 0x1B0 then (enabledCarrels s).length * 2 ^ 16 + s.si.withdrawn.length
  else if o = 0x1B4 then degraded s
  else if o = 0x1B8 then s.regs.perturbRefused
  else 0

def funReg (s : State) (fn o : Nat) : Nat :=
  let f := getFun s fn
  if o = 0x188 then f.adm.sqn
  else if o = 0x18C then b2n f.adm.irq * 2 ^ 16 + f.adm.vector
  else if o = 0x198 then f.adm.cqn
  else if o = 0x19C then b2n (f.en && !s.fw.recovery)
  else if o = 0x1A0 then f.adm.tail
  else if o = 0x1A4 then f.adm.cqHead
  else 0

def ctxReg (s : State) (c o : Nat) : Nat :=
  if o = 0x180 then (match getCtx s c with
    | some x => x.ident.st.code * 2 ^ 24 + x.ident.prior.code * 2 ^ 16
    | none => 0)
  else 0

/-- Perturbation registers of 32 bits, as an open range reads. -/
def perturbReg (g : Page) (o : Nat) : Nat :=
  if o = 0x100 then g.pCtrl else if o = 0x110 then g.pDelay else if o = 0x114 then g.pCredit else if o = 0x118 then g.pBp
  else if o = 0x11C then g.pRetry else if o = 0x128 then g.pEcc else if o = 0x130 then g.pInjected * 2 ^ 16 + 1 else 0

/-- A 64-bit register at an offset divisible by 8. -/
def reg64 (s : State) (p o : Nat) : Option Nat :=
  let g := getPage s p
  if o = 0x020 then some g.errAddr
  else if o = 0x028 then some g.errSyn
  else if 0x080 ≤ o ∧ o < 0x0C0 then some (g.cnt.getD ((o - 0x080) / 8) 0)
  else if 0x0C0 ≤ o ∧ o < 0x100 then some (g.snap.getD ((o - 0x0C0) / 8) 0)
  else if o = 0x108 ∨ o = 0x120 then some (if hasPerturb p && s.fw.unlocked then get64 s p o else 0)
  else match classOf p with
    | 0x01 => if o = 0x180 then some s.now else if o = 0x190 then some s.regs.snapTime else none
    | 0x04 => if 0x200 ≤ o ∧ o < 0xA00 then some (detourEntry s (256 * s.regs.detourWindow + (o - 0x200) / 8)) else none
    | 0x0B => if o = 0x180 then some (tgetD s.regs.ceAddr (instOf p) 0) else if o = 0x188 then some (tgetD s.regs.ceSyn (instOf p) 0) else none
    | 0x10 => if o = 0x180 ∨ o = 0x190 then some (get64 s p o) else none
    | 0x11 => if o = 0x188 then some ((match getCtx s (instOf p) with | some x => x.gate.step | none => 0) % 2 ^ 48) else none
    | _ => none

/-- Live 64-bit registers, whose low word latches the high word (R610). -/
def isLive (p o : Nat) : Bool :=
  (0x080 ≤ o && o < 0x0C0) || (match classOf p with
    | 0x01 => o == 0x180 || o == 0x190
    | 0x04 => 0x200 ≤ o && o < 0xA00
    | 0x0B => o == 0x180 || o == 0x188
    | 0x11 => o == 0x188
    | _ => false)

/-- A 32-bit register. -/
def reg32 (s : State) (req : Req) (fn p o : Nat) : Nat :=
  let g := getPage s p
  if o = 0x000 then classOf p * 2 ^ 24 + instOf p * 2 ^ 12 + 1
  else if o = 0x004 then (Config.classCaps (classOf p)).toNat * 2 ^ 16 + 0x810 + b2n (hasPerturb p) * 8 + 7
  else if o = 0x008 then b2n g.freeze * 4 + b2n g.intEn
  else if o = 0x00C then (Config.classState (classOf p)).toNat * 2 ^ 8 + pageState s p
  else if o = 0x010 then g.intStatus
  else if o = 0x014 then g.intEnable
  else if o = 0x01C then g.errCount * 2 ^ 16 + g.errCode * 2 ^ 8 + b2n g.errValid
  else if o = 0x030 then g.snapGen
  else if 0x040 ≤ o ∧ o < 0x060 then g.sel.getD ((o - 0x040) / 4) 0
  else if inPerturb o then (if hasPerturb p && s.fw.unlocked then perturbReg g o else 0)
  else match classOf p with
    | 0x01 => packageReg s o
    | 0x04 => if o = 0x180 then s.regs.detourWindow else if o = 0x184 then s.fabric.detourGen % 2 ^ 16 else 0
    | 0x0C => portReg s (instOf p) o
    | 0x0F => carrelReg s req fn (instOf p) o
    | 0x10 => funReg s (instOf p) o
    | 0x11 => ctxReg s (instOf p) o
    | _ => 0

/-- The word at an aligned offset, before any latch. -/
def word32 (s : State) (req : Req) (fn p o : Nat) : Nat :=
  match reg64 s p (o / 8 * 8) with
  | some v => if o % 8 = 0 then low32 v else low32 (v / 2 ^ 32)
  | none => reg32 s req fn p o

def latchOf (s : State) (req : Req) (a : Nat) : Option Half := s.regs.readLatch.find? fun h => h.req == req && h.off == a
def setLatch (s : State) (req : Req) (a v : Nat) : State :=
  { s with regs := { s.regs with readLatch := s.regs.readLatch.filter (fun h => !(h.req == req && h.off == a)) ++ [⟨req, a, v⟩] } }
def dropLatch (s : State) (req : Req) (a : Nat) : State :=
  { s with regs := { s.regs with readLatch := s.regs.readLatch.filter fun h => !(h.req == req && h.off == a) } }

/-- A 4-byte read of an aligned offset: its value, and the latches after it. -/
def pageRead (s : State) (req : Req) (fn off : Nat) : Nat × State :=
  let p := off / 4096
  let o := off % 4096
  if !reads s req fn p then (0, trapCore s req p false)
  else if o % 8 = 0 then
    (word32 s req fn p o,
     if isLive p o then setLatch s req (off + 4) (word32 s req fn p (o + 4)) else s)
  else match latchOf s req off with
    | some h => (h.value, dropLatch s req off)
    | none => (word32 s req fn p o, s)

/-- A 4-byte read; one that is not aligned takes the bytes of both words it touches, and latches nothing (R601). -/
def regRead (s : State) (req : Req) (fn off : Nat) : Nat × State :=
  if off % 4 = 0 then pageRead s req fn off
  else
    let a := off / 4 * 4
    let w (b : Nat) : Nat := if reads s req fn (b / 4096) then word32 s req fn (b / 4096) (b % 4096) else 0
    (low32 ((w a + 2 ^ 32 * w (a + 4)) / 2 ^ (8 * (off % 4))), s)

/-- An aligned read of 8 bytes: one consistent value, a whole entry of the detour table; it takes and leaves no latch (R609, R616). No command
of the table reads 8 bytes. -/
def regRead8 (s : State) (req : Req) (fn off : Nat) : Nat :=
  let p := off / 4096
  if reads s req fn p then word32 s req fn p (off % 4096) + 2 ^ 32 * word32 s req fn p (off % 4096 + 4) else 0

/-! ### The commands -/

/-- A write that the requester may make of a page; a core that protection keeps from it is trapped (R589). -/
def onPage (s : State) (req : Req) (fn p : Nat) (act : State → State) : State := if writes s req fn p then act s else trapCore s req p true

def execAdminCtrlEnable (req : Req) (fn : Nat) (s : State) : Outc := .next (onPage s req fn (pgFun fn) fun s => adminCtrl s fn 1)

/-- Package-page writes carry no function number here: port 0's physical function, or a firmware core. -/
def execSnapTrigger (req : Req) (s : State) : Outc := .next (onPage s req 0 0 snapGo)

def execSnapshotLatch (t : Nat) (s : State) : Outc :=
  let s := s.at t
  .next (if regsUp s && s.regs.snapPending && s.regs.snapTime ≤ s.now then latchAll s else s)

def execEventSelWrite (req : Req) (fn page k value : Nat) (s : State) : Outc :=
  .next (onPage s req fn page fun s => if k < 8 then eventSel s page k value else s)

def execEvClear (req : Req) (fn page : Nat) (s : State) : Outc := .next (onPage s req fn page fun s => evClear s page)

def execIntStatusClear (req : Req) (fn page value hwSet : Nat) (s : State) : Outc :=
  .next (onPage s req fn page fun s => intClear s page value hwSet)

def execIntForceWrite (req : Req) (fn page value : Nat) (s : State) : Outc := .next (onPage s req fn page fun s => intForce s page value)

def execErrSummaryClear (req : Req) (fn page : Nat) (s : State) : Outc := .next (onPage s req fn page fun s => errClear s page)

def execPortClear (req : Req) (port : Nat) (s : State) : Outc :=
  .next (if port < 64 then onPage s req 0 (pgPort port) fun s => portClear s port else s)

def execPerturbEccArm (req : Req) (page value : Nat) (s : State) : Outc :=
  .next (onPage s req 0 page fun s => pageWrite s req page 0x128 4 (low32 value))

def execEccInjection (page : Nat) (s : State) : Outc := .next (if regsUp s then eccInject s page else s)

def execRegisterWrite (req : Req) (fn off size value : Nat) (whole : Bool) (hw : List HostWrite) (s : State) : Outc :=
  .next (regWrite (hostWrites s hw) req fn off size value whole)

/-- Offsets of reads from here on are those of BAR2, which follows BAR0's 64 MiB here (R525; log 153). -/
def bar2 : Nat := 0x4000000

/-- A doorbell page reads as its queues' submission tails and completion heads; 0 where the context is not the function's (R525, R530). -/
def bellRead (s : State) (req : Req) (fn off : Nat) : Nat :=
  match req with
  | .core _ => 0
  | .port _ =>
    match getCtx s (off / 4096) with
    | none => 0
    | some x =>
      if !speaks s req fn || x.ident.fn != fn || x.ident.st == .orphaned || 128 ≤ off % 4096 || off % 8 != 0 then 0 else
      match getQueue s (.ctx (off / 4096) (off % 4096 / 16)) with
      | some v => if off % 16 = 0 then v.tail else v.cqHead
      | none => 0

def execLowWordReadLatch (req : Req) (fn off : Nat) (s : State) : Outc :=
  let r := if bar2 ≤ off then (bellRead s req fn (off - bar2), s) else regRead s req fn off
  .next (r.2.emit (.read req off r.1))

end Sys2Proof.Machine
end

