-- ==== Sys2Proof/Machine/Shelf.lean ====
section
/-! DEFINITION. Patrol scrub, re-shelving rounds and the switch of a carrel between contexts (R65, R66, R301–R307, R339–R344, R652). -/

namespace Sys2Proof.Machine

/-! ### Patrol scrub (R307, R652) -/

def hourNs : Nat := 3600000000000

/-- Number of a channel on the device. -/
def chanNo (pa : Nat) : Nat := 64 * (stackOf pa).getD 0 + channelOf pa

/-- Corrected symbol errors that trace to one lane, within an hour; more than 64 ask for a spare lane where one is left. -/
def laneErrors (s : State) (pa symbols lane : Nat) : State :=
  let k := chanNo pa
  let old := s.si.laneErrs.filter fun e => s.now < e.2.2.2 + hourNs
  let l := old ++ List.replicate symbols (k / 64, k % 64, lane, s.now)
  let n := (l.filter fun e => e.1 == k / 64 && e.2.1 == k % 64 && e.2.2.1 == lane).length
  let spared := s.si.lanesSpared.filter fun e => e.1 == k / 64 && e.2.1 == k % 64
  let want := 64 < n && spared.length < 2 && !(spared.any fun e => e.2.2 == lane) && !s.si.lanesPending.contains (k, lane)
  { s with si := { s.si with laneErrs := l, lanesPending := if want then s.si.lanesPending ++ [(k, lane)] else s.si.lanesPending } }

/-- One atom read by the scrub, with `symbols` symbol errors on `lane`; the read counts as refresh (R290). -/
def scrubAtom (s : State) (pa symbols lane : Nat) : State :=
  if !s.running then s else
  let s0 := refreshed s ((stackOf pa).getD 0)
  let s1 := atomErrors s0 pa symbols
  if 1 ≤ symbols ∧ symbols ≤ 3 ∧ s.mem.poison.contains (pa / 64) = false then laneErrors s1 pa symbols lane else s1

def execPatrolScrub (atom symbols lane t : Nat) (s : State) : Outc :=
  match stackOf atom with
  | none => .fault .reservedPhysical
  | some _ => .next (scrubAtom (s.at t) (atom / 64 * 64) symbols lane)

/-! ### Re-shelving (R339–R344) -/

/-- The mapped pages of a 2 MiB run: a move takes them all, so that every shard that lies there stays whole (R324). -/
def runPages (x : Ctx) (run : Nat) : List Nat := (x.maps.filter fun m => m.1 / 32 == run).map (·.1)

/-- A tensor has a shard in a run. -/
def Entry.inRun (e : Entry) (run : Nat) : Bool := e.base / shardBytes ≤ run && run < e.base / shardBytes + e.shardCount

/-- A shard abandoned in three rounds in a row rests for 64 rounds. -/
def resting (x : Ctx) (call shard : Nat) : Bool := x.cat.streaks.any fun k => k.1 == call && k.2.1 == shard && k.2.2.1 == 3 && x.cat.rounds < k.2.2.2 + 64

/-- The pages a move takes, where the policy may choose it. -/
def movePages (s : State) (x : Ctx) (chosen : List Move) (call shard stack : Nat) : Option (List Nat) :=
  match tensor x call with
  | none => none
  | some t =>
    let run := t.e.base / shardBytes + shard
    let ps := runPages x run
    let leafOk (p : Nat) : Bool := match tget x.maps p with
      | some l => (l.loc == 0 && stackOf l.frame != some stack && !(s.si.migrations.any fun m => m.1 == l.frame)) || (l.loc == 3 && t.e.cls == 0)
      | none => false
    if t.e.kind ≤ 2 && t.e.cls ≤ 1 && shard < t.e.shardCount && stack < 16 && ps.all leafOk && !resting x call shard
        && !(chosen.any fun m => m.run == run) then some ps else none

/-- Pages of a list that lie with a peer. -/
def remotePages (x : Ctx) (ps : List Nat) : Nat := (ps.filter fun p => match tget x.maps p with | some l => l.loc == 3 | none => false).length

/-- Chooses one move: its frames leave the free pool, and a shard that comes back from a peer needs local frames left. -/
def chooseMove (c : Nat) (x : Ctx) (acc : State × List Move × Nat) (m : Nat × Nat × Nat) : State × List Move × Nat :=
  match movePages acc.1 x acc.2.1 m.1 m.2.1 m.2.2 with
  | none => acc
  | some ps =>
    let back := acc.2.2 + remotePages x ps
    if back ≠ acc.2.2 ∧ x.ident.frames < heldFrames acc.1 c + back then acc else
    match framesOf acc.1 m.2.2 ps.length, tensor x m.1 with
    | some fs, some t =>
      ({ acc.1 with si := { acc.1.si with scrubbing := fs.foldl insertN acc.1.si.scrubbing } },
       acc.2.1 ++ [⟨m.1, m.2.1, t.e.base / shardBytes + m.2.1, m.2.2, fs, false, false⟩], back)
    | _, _ => acc

/-- Sets transit on the shards that lie in the runs of moves. -/
def setTransit (x : Ctx) (ms : List Move) : Ctx :=
  { x with cat := { x.cat with shards := x.cat.shards.map fun q =>
      (q.1, (List.range q.2.length).map fun k =>
        let h := q.2.getD k default
        if ms.any (fun m => match tget x.cat.live q.1 with | some e => e.base / shardBytes + k == m.run | none => false)
        then { h with transit := true } else h) } }

/-- A round may begin: none runs, a millisecond has passed, re-shelving is on and timing is not metered. -/
def mayRound (s : State) (x : Ctx) : Bool :=
  x.cat.round.isNone && (match x.cat.lastRound with | some l => l + 1000000 ≤ s.now | none => true) && !x.cat.reshelveOff
  && !(match x.att with | some a => a.meteredOn | none => false)

def startRound (s : State) (c : Nat) (x : Ctx) (moves : List (Nat × Nat × Nat)) : State :=
  let q := (moves.take 256).foldl (chooseMove c x) (s, [], 0)
  if q.2.1.isEmpty then s else
  let y := setTransit x q.2.1
  setCtx (driveCataloguer q.1 (some c)) c { y with cat := { y.cat with round := some (s.now, q.2.1), lastRound := some s.now, rounds := y.cat.rounds + 1 } }

def execReshelveRoundStart (c t : Nat) (moves : List (Nat × Nat × Nat)) (s : State) : Outc :=
  let s := s.at t
  .next (match getCtx s c with
    | some x => if s.running && mayRound s x then startRound s c x moves else s
    | none => s)

/-- The `shard`-th move of the round has been copied. -/
def markCopied (x : Ctx) (shard : Nat) : Ctx :=
  { x with cat := { x.cat with round := x.cat.round.map fun r => (r.1, (List.range r.2.length).map fun k =>
      let m := r.2.getD k default
      if k = shard ∧ m.abandoned = false then { m with copied := true } else m) } }

/-- The slots a move's copy occupied: of the stacks it read and of the stack it wrote (R289, R612). -/
def copySlots (s : State) (c : Nat) (x : Ctx) (m : Move) : State :=
  let k := frameBytes / 512
  let src := (runPages x m.run).filterMap fun p => (tget x.maps p).bind fun l => if l.loc = 0 then stackOf l.frame else none
  countEv (src.foldl (fun s d => countEv s (pgMem d) 0x105 k (some c)) s) (pgMem m.stack) 0x105 (k * m.frames.length) (some c)

def copyDone (s : State) (c shard : Nat) : State :=
  match getCtx s c with
  | none => s
  | some x =>
    match x.cat.round.bind fun r => r.2[shard]? with
    | some m => modCtx (if m.abandoned || m.copied then s else copySlots s c x m) c fun x => markCopied x shard
    | none => s

def execReshelveCopyDone (c shard : Nat) (s : State) : Outc := .next (if s.running then copyDone s c shard else s)

/-- The move ends well: copied, not abandoned, its tensor and the pages of its run still there. -/
def completed (x : Ctx) (m : Move) : Bool :=
  m.copied && !m.abandoned && (tensor x m.call).isSome && (runPages x m.run).length == m.frames.length

/-- The bytes of a page held by a peer, taken into a local frame with their poison (R304). -/
def fromPeer (s : State) (x : Ctx) (l : Leaf) (new : Nat) : Storage :=
  let src := (tgetD x.peerMem l.peer []).filter fun p => l.frame ≤ p.1 && p.1 < l.frame + frameBytes
  let bad := (tgetD x.peerPoison l.peer []).filter fun a => l.frame / 64 ≤ a && a < l.frame / 64 + 1024
  { s.mem with bytes := src.foldl (fun t p => tset t (p.1 - l.frame + new) p.2) (mclear s.mem.bytes new frameBytes),
               poison := bad.foldl (fun t a => insertN t (a - l.frame / 64 + new / 64))
                 (s.mem.poison.filter fun a => a < new / 64 || new / 64 + 1024 ≤ a) }

/-- One page takes its new home: bytes, poison, leaf; a local frame it leaves is vacated, a peer's is given back. -/
def movePage (s : State) (c : Nat) (x : Ctx) (page new : Nat) : State :=
  match tget x.maps page with
  | none => s
  | some l =>
    let split := x.maps.map fun q => if q.1 / 16384 = page / 16384 ∧ (q.2.size = 2 ∨ q.1 / 32 = page / 32) then (q.1, { q.2 with size := 0 }) else q
    let leaf : Leaf := ⟨0, l.w, 0, new, 0, false⟩
    let seq := match x.att with | some a => a.opSeq | none => 0
    let local_ := l.loc == 0
    let y := { x with maps := tset split page leaf,
                      cat := { x.cat with vacated := if local_ then x.cat.vacated ++ [(l.frame, x.gate.attempt, seq)] else x.cat.vacated },
                      peerMem := if local_ then x.peerMem else tset x.peerMem l.peer (mclear (tgetD x.peerMem l.peer []) l.frame frameBytes),
                      peerPoison := if local_ then x.peerPoison else tset x.peerPoison l.peer
                        ((tgetD x.peerPoison l.peer []).filter fun a => a < l.frame / 64 || l.frame / 64 + 1024 ≤ a) }
    let m := if local_ then copyFrame s.mem l.frame new else fromPeer s x l new
    let hold := s.si.scrubbing.filter (· != new)
    let s1 := { s with mem := { m with owner := tset (if local_ then tdel m.owner l.frame else m.owner) new c },
                       si := { s.si with scrubbing := if local_ then insertN hold l.frame else hold } }
    setCtx s1 c y

def moveShard (c : Nat) (s : State) (m : Move) : State :=
  match getCtx s c with
  | none => s
  | some x => (List.zip (runPages x m.run) m.frames).foldl (fun s p => match getCtx s c with | some x => movePage s c x p.1 p.2 | none => s) s

/-- Abandoned rounds in a row. -/
def streakAfter (x : Ctx) (l : List (Nat × Nat × Nat × Nat)) (m : Move) (ok : Bool) : List (Nat × Nat × Nat × Nat) :=
  let rest := l.filter fun k => !(k.1 == m.call && k.2.1 == m.shard)
  if ok then rest else
  match l.find? fun k => k.1 == m.call && k.2.1 == m.shard && k.2.2.2 + 1 == x.cat.rounds && k.2.2.1 < 3 with
  | some k => rest ++ [(m.call, m.shard, k.2.2.1 + 1, x.cat.rounds)]
  | none => rest ++ [(m.call, m.shard, 1, x.cat.rounds)]

/-- The catalogue after the flip: generation of every entry with a shard in a moved run, records, transit and heat cleared, counts of
abandoned moves. -/
def flipCatalogue (x : Ctx) (good bad : List Move) : Ctx :=
  let g := (x.cat.gen + 1) % 2 ^ 64
  let moved (e : Entry) : Bool := good.any fun m => e.inRun m.run
  let lost (i : Nat) : Nat := (bad.filter fun m => callIdx m.call == i && (tensor x m.call).isSome).length
  let shards := x.cat.shards.map fun q => (q.1, match tget x.cat.live q.1 with | some e => (List.range q.2.length).map (shardAt x e) | none => q.2)
  let live := x.cat.live.map fun q => (q.1, { q.2 with gen := if moved q.2 then g else q.2.gen, abandoned := q.2.abandoned + lost q.1,
                                                       remote := ((tgetD shards q.1 []).filter fun h => h.loc == 3).length })
  { x with cat := { x.cat with gen := g, shards := shards, live := live, round := none,
                               streaks := bad.foldl (fun l m => streakAfter x l m false) (good.foldl (fun l m => streakAfter x l m true) x.cat.streaks) } }

/-- The flip: completed moves take their new homes together, the others give their frames back. -/
def endRound (s : State) (c : Nat) (x : Ctx) (ms : List Move) : State :=
  let good := ms.filter (completed x)
  let bad := ms.filter fun m => !completed x m
  let s1 := { s with si := { s.si with scrubbing := s.si.scrubbing.filter fun f => !(bad.any fun m => m.frames.contains f) } }
  let s2 := modCtx (good.foldl (moveShard c) (driveCataloguer s1 (some c))) c fun y => flipCatalogue y good bad
  countEv (countEv (countEv s2 pgCataloguer 0x100 1 (some c)) pgCataloguer 0x101 good.length (some c)) pgCataloguer 0x102 bad.length (some c)

def execReshelveRoundEnd (c t : Nat) (s : State) : Outc :=
  let s := s.at t
  .next (match getCtx s c with
    | none => s
    | some x => match x.cat.round with
      | none => s
      | some r => if s.running && (r.2.all (fun m => m.copied || m.abandoned) || r.1 + 1000000 ≤ s.now) then endRound s c x r.2 else s)

/-- No operation that translated before a flip is left. -/
def flipSettled (x : Ctx) (v : Nat × Nat × Nat) : Bool :=
  match x.att with
  | none => true
  | some a => x.gate.attempt != v.2.1 || a.streams.all fun st => st.window.all fun o => v.2.2 ≤ o.id

/-- Vacated frames are overwritten and go back to the pool. -/
def releaseVacated (s : State) (c : Nat) (x : Ctx) : State :=
  let out := (x.cat.vacated.filter (flipSettled x)).map (·.1)
  let s1 := { s with mem := out.foldl wipe s.mem, si := { s.si with scrubbing := s.si.scrubbing.filter fun f => !out.contains f } }
  setCtx s1 c { x with cat := { x.cat with vacated := x.cat.vacated.filter fun v => !flipSettled x v } }

def execVacatedFrameRelease (c : Nat) (s : State) : Outc :=
  .next (match getCtx s c with | some x => if s.running then releaseVacated s c x else s | none => s)

/-! ### Context switch of a carrel (R65, R66) -/

/-- The flags a slice has raised reach the aggregates, and the carrel runs the next context; counted by the carrel and its bay. -/
def switchTo (s : State) (carrel : Nat) (next : Option Nat) : State :=
  let s1 := match tget s.si.carrelCtx carrel with | some c => modCtx s c fun x => { x with flags := x.flags.flushCarrel carrel } | none => s
  let s2 := { s1 with si := { s1.si with carrelCtx := match next with | some c => tset s1.si.carrelCtx carrel c | none => tdel s1.si.carrelCtx carrel } }
  countEv (countEv s2 (pgCarrel (physOf s carrel)) 0x10C 1 next) (pgBay (carrel / 12)) 0x102 1 next

def execCarrelContextSwitch (carrel : Nat) (next : Option Nat) (s : State) : Outc :=
  let ok := match next with | some c => (match getCtx s c with | some x => x.ident.grant.contains carrel | none => false) | none => true
  .next (if s.running && carrel < 1152 && carrelIn s carrel && ok && tget s.si.carrelCtx carrel != next then switchTo s carrel next else s)

end Sys2Proof.Machine
end

