-- ==== Sys2Proof/Machine/Links.lean ====
section
/-! DEFINITION. Fabric ports: training, authentication, flits, retry, retraining, partner failures, keys (R433–R450). -/

namespace Sys2Proof.Machine

/-! ### Addresses (R433, R434) -/

def setNib (co a v : Nat) : Nat := co - nib co a * 16 ^ a + v * 16 ^ a
def axisSize (s : State) (a : Nat) : Nat := s.host.axes.getD a 16

/-- The partner that R434 names for a port. -/
def peerOf (s : State) (p : Nat) : Option Nat :=
  match s.host.address with
  | none => none
  | some me =>
    let co := me % 65536
    let onAxis (a i : Nat) : Nat :=
      let j := i % (axisSize s a - 1)
      setNib co a (if j < nib co a then j else j + 1)
    if bitOf me 19 then some (setNib co 0 (p / 4))
    else if 60 ≤ p then some (0x80000 + co / 16 * 16)
    else if axisSize s (p / 15) = 1 then some (onAxis 0 (p % 15))
    else some (onAxis (p / 15) (p % 15))

/-- A coordinate of this fabric. -/
def inFabric (s : State) (co : Nat) : Bool := (List.range 4).all fun a => nib co a < axisSize s a

/-- Fabric ports run: the device is in service and has not declared itself failed. -/
def portsRun (s : State) : Bool := s.running && !s.fabric.selfFailed

def isUp (p : Port) : Bool := p.st == .up
def popcount4 (m : Nat) : Nat := ((List.range 4).filter fun k => bitOf m k).length

/-! ### The SPDM session of a transport (R439, R563) -/

def getSession (s : State) (tr : Transport) : Option (Transport × Nat × Nat) := s.mgmt.sessions.find? (·.1 == tr)
def endSession (s : State) (tr : Transport) : State := { s with mgmt := { s.mgmt with sessions := s.mgmt.sessions.filter (·.1 != tr) } }
/-- The requester's certificate, and the stage its exchange stands at: 5 is a secured session. -/
def setSession (s : State) (tr : Transport) (cert stage : Nat) : State :=
  { s with mgmt := { s.mgmt with sessions := s.mgmt.sessions.filter (·.1 != tr) ++ [(tr, cert, stage)] } }

/-! ### Going down (R448, R449) -/

/-- Messages of which the partner has not acknowledged the last flit: destination, job, number. -/
def unacked (p : Port) : List (Nat × Nat × Nat) := p.retry.foldl (fun l e => if l.contains (e.dest, e.job, e.mseq) then l else l ++ [(e.dest, e.job, e.mseq)]) []

/-- A message that the port had begun to send starts anew on another one; one it had sent whole, unacknowledged, waits again. -/
def requeue (n : Nat) (held : List Message) (l : List Outgoing) : List Outgoing :=
  let again := held.filter fun m => !(l.any fun o => o.port == some n && o.msg == m)
  again.map (fun m => ⟨m, none, none, 0, n % 4, 0⟩) ++ l.map fun o => if o.port = some n then { o with port := none, via := none, next := 0 } else o

/-- A port goes down: partial messages are discarded, unacknowledged ones go again on other routes, and its SPDM session ends. -/
def goDown (s : State) (n cause : Nat) : State :=
  let p := getPort s n
  let q := { p with st := .down, cause := cause, retry := [], held := [], rxMsg := [], skip := [], nakSent := false, replayFails := 0,
                    lastNak := none, starving := [], retrainAt := none, credits := [], keyPending := none, rxFlits := [], rxPrev := none }
  let s1 := setPort (endSession s (.link n)) n q
  (unacked p).foldl (fun s e => s.emit (.resend e.1 e.2.1 e.2.2 []))
    { s1 with fabric := { s1.fabric with queued := requeue n p.held s.fabric.queued } }

/-- Down as faulty (2) or hostile (3): the keeper is notified, and a hostile partner's certificate digest is logged. -/
def condemn (s : State) (n cause : Nat) : State :=
  let s1 := if cause = 3 then { s with fabric := { s.fabric with certs := s.fabric.certs ++ [(n, (getPort s n).cert)] } } else s
  devEvent (goDown s1 n cause) 4

/-- A fault event of the partner. -/
def portFault (s : State) (n : Nat) : State :=
  let p := getPort s n
  setPort s n { p with events := s.now :: p.events.filter fun t => s.now < t + 1000000 }

/-- A port counter. -/
def portCount (s : State) (n src k : Nat) : State := countEv s (pgPort n) src k

/-! ### The header of a flit (R437) -/

/-- The header of a flit (R437). -/
structure FlitHead where
  type : Nat
  cls : Nat
  vc : Nat
  first : Bool
  last : Bool
  kphase : Bool
  ack : Nat
  seq : Nat
  cbuf : Nat
  credit : Nat
  reserved : Nat
deriving DecidableEq, Repr

def flitHead (b : Bytes) : FlitHead :=
  let w := fld b 2 3
  { type := bitsOf (fld b 0 1) 7 4, cls := bitsOf (fld b 1 1) 7 6, vc := bitsOf (fld b 1 1) 5 3, first := bitOf (fld b 1 1) 2,
    last := bitOf (fld b 1 1) 1, kphase := bitOf (fld b 1 1) 0, ack := bitsOf w 23 12, seq := bitsOf w 11 0, cbuf := bitsOf (fld b 5 1) 7 3,
    credit := fld b 6 1, reserved := bitsOf (fld b 0 1) 3 0 + bitsOf (fld b 5 1) 2 0 }

/-! ### Sending a flit (R437, R440, R444) -/

/-- Credit that a flit returns: the first buffer with flits taken up, and how many; none is buffer 0 with 0. -/
def creditReturn (p : Port) : Nat × Nat :=
  match (List.range 32).find? fun k => p.ownFree.getD k 255 < 255 with
  | some k => (k, 255 - p.ownFree.getD k 255)
  | none => (0, 0)

/-- The 16 header bytes. -/
def flitHeader (p : Port) (type cls vc : Nat) (first last : Bool) (seq : Nat) (credit : Nat × Nat) (tag : Nat) : Bytes :=
  leBytes 1 (type * 16) ++ leBytes 1 (cls * 64 + vc * 8 + b2n first * 4 + b2n last * 2 + b2n p.kphase) ++ leBytes 3 (p.rxSeq * 4096 + seq)
  ++ leBytes 1 (credit.1 * 8) ++ leBytes 1 credit.2 ++ [p.txSeal.getD (p.txPos % 16) 0] ++ leBytes 8 tag

/-- The key bytes of a hop key. -/
def hopKey (k : Nat) : Bytes := leBytes 32 (Config.hopKey k).toNat

/-- A flit joins the open frame; the sixteenth closes it, and its seal goes with the next. -/
def joinFrame (p : Port) (b : Bytes) : Port :=
  let q := { p with txPos := (p.txPos + 1) % 16, sentFlits := p.sentFlits + 1 }
  if p.txPos % 16 = 15 then
    { q with txFrame := [], txSeal := frameSeal (hopKey p.txKey) p.txFrames (p.txFrame ++ [b]), txFrames := p.txFrames + 1 }
  else { q with txFrame := p.txFrame ++ [b] }

/-- The port sends a flit: as it is, and as the lanes carry it in its place of its frame (R440). Every flit carries the next sequence
expected, credit of one buffer, the key phase and a byte of the seal of the frame before. -/
def putFlit (p : Port) (type cls vc : Nat) (first last : Bool) (seq tag : Nat) (payload : Bytes) : Port × Bytes × Bytes :=
  let c := creditReturn p
  let b := flitHeader p type cls vc first last seq c tag ++ fit 240 payload
  (joinFrame { p with ownFree := if c.2 = 0 then p.ownFree else p.ownFree.set c.1 255 } b, b, wireFlit (hopKey p.txKey) p.txFrames (p.txPos % 16) b)

/-- `k` idle flits. -/
def idleFlits : Nat → Port → Port × List (Bytes × Bytes)
  | 0, p => (p, [])
  | k + 1, p => let q := putFlit p 0 0 0 false false 0 0 []
                let r := idleFlits k q.1
                (r.1, q.2 :: r.2)

/-- Flits of the retry buffer go out again, under a header of the moment. -/
def replayFlits : List Sent → Port → Port × List (Bytes × Bytes)
  | [], p => (p, [])
  | e :: l, p =>
    let h := flitHead e.flit
    let q := putFlit p h.type h.cls h.vc h.first h.last e.seq (fld e.flit 8 8) (e.flit.drop 16)
    let r := replayFlits l q.1
    (r.1, q.2 :: r.2)

/-- A flit that no message needs leaves a port: idle, NAK, link control or time (types 0, 2, 3, 4). The two last take a sequence number. -/
def sendFlit (s : State) (n type : Nat) (payload : Bytes) : State :=
  let p := getPort s n
  let seq := if 3 ≤ type then p.txSeq else 0
  let q := putFlit (if 3 ≤ type then { p with txSeq := (p.txSeq + 1) % 4096 } else p) type 0 0 false false seq 0 payload
  (portCount (setPort s n q.1) n 0x10D 1).emit (.flit n q.2.1 q.2.2)

/-- A link control flit carries an SPDM message (R439), whose bytes the manual leaves to that standard. -/
def controlPayload (n : Nat) : Bytes := (List.range 240).map (Config.freeByte n)

/-! ### Training and authentication (R435, R439, R445, R447) -/

/-- A miswired port stays down, as hostile. -/
def miswire (s : State) (n : Nat) : State := condemn (portCount s n 0x10C 1) n 3

/-- A port begins to authenticate, sequences from 0, with a link control flit that no frame seals yet (R439). -/
def beginAuth (s : State) (n : Nat) (p : Port) : State :=
  let q := { p with st := .authenticating, rxSeq := 0, txSeq := 1, txPos := 0, txFrame := [], txSeal := [], rxFlits := [], rxPrev := none }
  let b := flitHeader q 3 0 0 false false 0 (0, 0) 0 ++ fit 240 (controlPayload s.free)
  (portCount (setPort { s with free := s.free + 1 } n q) n 0x10D 1).emit (.flit n b b)

/-- What training ends in when the partner has answered; no port leaves training before the host has set the address. -/
def trained (s : State) (n : Nat) (r : TrainResp) : State :=
  let p := getPort s n
  if s.host.address.isNone then s
  else if s.fabric.refused.contains r.cert then setPort s n { p with st := .down, cert := r.cert, partner := r.addr, lanes := 0 }
  else if r.sizes ≠ s.host.axes ∨ peerOf s n ≠ some r.addr then miswire (setPort s n { p with partner := r.addr, cert := r.cert }) n
  else if r.lanes % 16 = 0 then goDown s n 0
  else
    let sizes := (List.range 32).map fun k => min 255 (r.buffers.getD k 0)
    beginAuth s n { p with lanes := r.lanes % 16, cause := 0, partner := r.addr, cert := r.cert, sizes := sizes, credits := sizes,
                           ownFree := ownSizes, retrainAt := none }

/-- A port held down as faulty or hostile is not trained. -/
def mayTrain (p : Port) : Bool := (p.st == .down && p.cause ≤ 1) || p.st == .training

def execPortTrain (p t : Nat) (resp : Option TrainResp) (s : State) : Outc :=
  let s := s.at t
  .next (if !(portsRun s && p < 64 && mayTrain (getPort s p)) then s else
    let q := getPort s p
    let s1 := if q.st = .training then s else startTraining s p q
    match resp with
    | none => s1
    | some r => trained s1 p r)

/-- A port with a new session: a hop key for each direction and the partner's next one, and its frames counted from 0. -/
def newSession (q : Port) (now key : Nat) : Port :=
  { q with st := .up, keyTime := now, sentFlits := 0, kphase := false, keyPending := none, txPos := 0, txFrame := [], txSeal := [], txFrames := 0,
           txKey := key, oldKey := none, rxPhase := false, rxKey := key + 1, rxNext := key + 2, rxFrames := 0, rxFlits := [], rxPrev := none }

/-- Flits kept over a fresh authentication take the new session's numbers, from `seq` on (R445). -/
def renumber : Nat → List Sent → List Sent
  | _, [] => []
  | seq, e :: l => { e with seq := seq } :: renumber ((seq + 1) % 4096) l

/-- Flits that go out again count in the meter record of the attempts that run (R474). -/
def countReplays (k : Nat) (s : State) : State := meterAll s fun m => { m with replays := m.replays + k }

/-- Everything the port keeps goes out again. -/
def replayAll (s : State) (n : Nat) : State :=
  let p := getPort s n
  if p.retry.isEmpty then s else
  let r := replayFlits p.retry p
  (countReplays p.retry.length (setPort s n r.1)).emit (.replay n r.2)

/-- The port is up under a new session of the partner; what it kept over a retrain goes out again under new numbers. -/
def comeUp (s : State) (n : Nat) (cert : Nat) : State :=
  let q := newSession (getPort s n) s.now s.free
  let r := renumber q.txSeq q.retry
  replayAll (setPort { setSession s (.link n) cert 5 with free := s.free + 3 } n
    { q with retry := r, txSeq := (q.txSeq + r.length) % 4096 }) n

/-- The keeper's acceptance of a partner: chain, role, minimum security version, and the certificate seen in training. -/
def accepts (s : State) (p : Port) (a : AuthResp) : Bool :=
  a.chainOk && a.reserveRole == bitOf p.partner 19 && s.fw.config.minSvn ≤ a.svn && a.cert == p.cert && !s.fabric.refused.contains a.cert

def execPortAuthenticate (p : Nat) (a : AuthResp) (s : State) : Outc :=
  .next (let q := getPort s p
    if !(portsRun s && p < 64 && q.st == .authenticating && coreUp s .keeper) then s
    else if accepts s q a then comeUp s p a.cert
    else condemn s p 3)

/-! ### Flits received (R437, R438, R441, R443, R444, R450) -/

/-- A message's header in its first flit's payload (R438), at flit bytes 16 on. -/
structure MsgHead where
  dest : Nat
  hops : Nat
  src : Nat
  job : Nat
  kind : Nat
  len : Nat
  mseq : Nat
  arg : Nat
  reserved : Nat
deriving DecidableEq, Repr

def msgHead (b : Bytes) : MsgHead :=
  let w := fld b 16 4
  let v := fld b 20 4
  let k := fld b 28 2
  let q := fld b 32 8
  { dest := bitsOf w 19 0, hops := bitsOf v 23 20, src := bitsOf v 19 0, job := fld b 24 4, kind := k / 4096, len := k % 4096, mseq := bitsOf q 47 0,
    arg := fld b 40 8, reserved := bitsOf w 31 20 + bitsOf v 31 24 + fld b 30 2 + bitsOf q 63 48 }

/-- The class of each kind (R438). -/
def kindClass (k : Nat) : Option Nat :=
  match k with
  | 0 => some 0 | 1 => some 1 | 2 => some 0 | 3 => some 1 | 4 => some 3 | 5 => some 2 | 6 => some 2 | 7 => some 0 | 8 => some 3 | 9 => some 3
  | _ => none

/-! ### What comes back (R443, R444) -/

/-- The next flit expected lies past a kept one: it is acknowledged. `next` is the number of the next flit to send. -/
def ackedBy (next ack : Nat) (e : Sent) : Bool :=
  let d := (ack + 4096 - e.seq) % 4096
  1 ≤ d && d ≤ (next + 4096 - e.seq) % 4096

/-- Retry entries before an acknowledged sequence leave the buffer. -/
def dropAcked (next ack : Nat) (l : List Sent) : List Sent := l.dropWhile (ackedBy next ack)

/-- An acknowledgement; the key before a change is held until every flit sent under it has been acknowledged (R442). -/
def takeAck (p : Port) (ack : Nat) : Port :=
  let l := dropAcked p.txSeq ack p.retry
  let d := p.retry.length - l.length
  { p with retry := l, held := p.held.filter fun m => l.any fun e => e.dest == m.dest && e.job == m.job && e.mseq == m.mseq, oldKey := match p.oldKey with | some k => if k.2 ≤ d then none else some (k.1, k.2 - d) | none => none }

/-- A credit return never passes the buffer's stated size: one that would is discarded and counted against the partner. -/
def takeCredit (s : State) (n : Nat) (h : FlitHead) : State :=
  let p := getPort s n
  let have_ := p.credits.getD h.cbuf 0
  if h.credit = 0 then s
  else if p.sizes.getD h.cbuf 0 < have_ + h.credit then portFault (portCount s n 0x108 1) n
  else setPort s n { p with credits := p.credits.set h.cbuf (have_ + h.credit),
                            starving := p.starving.filter (·.1 != h.cbuf) }

/-- What every flit carries besides its message: acknowledgement and credit. -/
def takeControl (s : State) (n : Nat) (h : FlitHead) : State := takeCredit (setPort s n (takeAck (getPort s n) h.ack)) n h

/-- The flit the receiver waits for is asked for: at the first loss, and again where a replay of it failed (R443). -/
def sendNak (s : State) (n fails : Nat) : State :=
  let p := getPort s n
  let s1 := setPort s n { p with nakSent := true, replayFails := fails }
  (sendFlit (portCount s1 n 0x102 1) n 2 []).emit (.nak n p.rxSeq)

/-- A flit or a frame is lost. While a replay is awaited, only the loss of that replay draws a NAK; other flits are discarded. -/
def lostFlit (s : State) (n : Nat) (replay : Bool) : State :=
  let p := getPort s n
  if !p.nakSent then sendNak s n 0
  else if replay then sendNak (portCount s n 0x104 1) n (p.replayFails + 1)
  else s

/-- A flit that fails checks 2 to 8 is discarded and counted as a header rejection, with its whole message. -/
def rejectFlit (s : State) (n buf : Nat) : State :=
  let s1 := portFault (portCount s n 0x109 1) n
  let p := getPort s1 n
  setPort s1 n { p with rxMsg := tdel p.rxMsg buf, skip := insertN p.skip buf }

/-- Check 7: a message's first link comes from its own source, or from the coordinate that the reserve behind an auxiliary port has adopted. -/
def sourceOk (s : State) (n : Nat) (p : Port) (m : MsgHead) : Bool :=
  m.hops != 0 || m.src == p.partner || (60 ≤ n && s.fabric.detours.any fun d => d.reserve == p.partner && d.coord == m.src)

/-- Checks 4 to 6 of a first flit; a reserve address is that of a range of the fabric, its x0 is 0 (R433). -/
def routeOk (s : State) (h : FlitHead) (m : MsgHead) : Bool :=
  m.reserved == 0 && kindClass m.kind == some h.cls
  && bitsOf m.dest 18 16 == 0 && inFabric s (m.dest % 65536) && (!bitOf m.dest 19 || nib m.dest 0 == 0) && m.hops == h.vc
  && (m.hops < 7 || isMe s m.dest)

/-- Check 8, and the assembly of a buffer's message: the flits of a whole message go to the upper layers with its last. -/
def assemble (s : State) (n buf : Nat) (h : FlitHead) (flit : Bytes) : State :=
  let p := getPort s n
  let l := (if h.first then [] else tgetD p.rxMsg buf []) ++ [flit]
  let len := (msgHead (l.headD [])).len
  let agrees := h.first == ((tget p.rxMsg buf).isNone) && (if h.last then l.length == len + 1 else l.length ≤ len)
  if !agrees then rejectFlit s n buf
  else
    let r := if h.last then tdel p.rxMsg buf else tset p.rxMsg buf l
    -- at a message boundary the port takes the newest detour table (R461)
    setPort s n { p with rxMsg := r, gen := if r.isEmpty then s.fabric.detourGen else p.gen }

/-- A data flit in sequence: checks 3 to 8. -/
def dataFlit (s : State) (n : Nat) (h : FlitHead) (flit : Bytes) : State :=
  let p := getPort s n
  let buf := 8 * h.cls + h.vc
  if p.ownFree.getD buf 0 = 0 then
    -- no room: the flit is discarded, and its whole message with it (R444, R450)
    portFault (portCount (setPort s n { p with rxMsg := tdel p.rxMsg buf, skip := insertN p.skip buf }) n 0x108 1) n
  else
    let s1 := setPort s n { p with ownFree := p.ownFree.set buf (p.ownFree.getD buf 0 - 1) }
    if h.first then
      let q := { p with ownFree := p.ownFree.set buf (p.ownFree.getD buf 0 - 1), skip := p.skip.filter (· != buf) }
      let s2 := setPort s n q
      let m := msgHead flit
      if !routeOk s2 h m then rejectFlit s2 n buf
      else if !sourceOk s2 n p m then condemn (portCount s2 n 0x109 1) n 3
      else assemble s2 n buf h flit
    else if p.skip.contains buf then s1
    else assemble s1 n buf h flit

/-- A flit of a port that is up, its seal valid. -/
def sealedFlit (s : State) (n : Nat) (h : FlitHead) (flit : Bytes) : State :=
  let p := getPort s n
  let buf := 8 * h.cls + h.vc
  if 5 ≤ h.type ∨ h.reserved ≠ 0 then rejectFlit s n buf
  else if h.type = 0 then takeControl s n h
  else if h.type = 2 then takeControl s n h
  else if h.seq ≠ p.rxSeq then
    -- after a NAK later flits are discarded until the replay; what a replay repeats has been taken already
    (if p.nakSent || (p.rxSeq + 4096 - h.seq) % 4096 ≤ 1024 then s else rejectFlit s n buf)
  else
    let s1 := portCount (setPort s n { p with rxSeq := (p.rxSeq + 1) % 4096, nakSent := false, replayFails := 0 }) n 0x10E 1
    let s2 := takeControl s1 n h
    if h.type = 1 then dataFlit s2 n h flit else s2

/-! ### Frames received (R440–R442) -/

/-- The flits of a frame, decrypted. -/
def plainFrame (f : RxFrame) : List Bytes :=
  (List.range f.flits.length).map fun i => wireFlit (hopKey f.key) f.frame i (f.flits.getD i [])

/-- No flit of a frame was lost. -/
def whole (l : List Bytes) : Bool := l.all fun b => b.length == 256

/-- The seal that the next frame brings, a byte in each flit, is that of the frame. -/
def sealOk (f : RxFrame) (next : List Bytes) : Bool := frameSeal (hopKey f.key) f.frame (plainFrame f) == next.map (·.getD 7 0)

/-- The frame holds the flit that a replay is to bring. -/
def bringsReplay (p : Port) (f : RxFrame) : Bool :=
  p.nakSent && f.flits.any fun b => let h := flitHead b; h.type != 0 && h.type != 2 && h.seq == p.rxSeq

/-- A frame whose seal is right goes to the upper layers, flit by flit, while the port stays up; under the next key it makes that key the
one in use, and its number the first of the key. -/
def passFrame (s : State) (n : Nat) (f : RxFrame) : State :=
  let p := getPort s n
  let s1 := if f.next then setPort { s with free := s.free + 1 } n
    { p with rxPhase := !p.rxPhase, rxKey := p.rxNext, rxNext := s.free, rxFrames := f.frame + 1 } else s
  (plainFrame f).foldl (fun s b => if isUp (getPort s n) then sealedFlit s n (flitHead b) b else s) s1

/-- The seal of a frame is checked with the frame after it. One that fails discards its frame, is a fault event of the partner (R449) and asks
for the replay; a frame that has lost a flit, or whose seal has, is discarded, its replay asked for when the flit was lost. -/
def checkFrame (s : State) (n : Nat) (f : RxFrame) (next : List Bytes) : State :=
  if !(whole f.flits && whole next) then s
  else if sealOk f next then passFrame s n f
  else lostFlit (portFault (portCount s n 0x10A 1) n) n (bringsReplay (getPort s n) f)

/-- The sixteenth flit closes the open frame: the seals it brings judge the frame before it, and it waits for its own. Its key is that of its
key phase. -/
def closeFrame (s : State) (n : Nat) (l : List Bytes) : State :=
  let p := getPort s n
  let s1 := match p.rxPrev with | some f => checkFrame s n f l | none => s
  let q := getPort s1 n
  if !isUp q then s1 else
  let flipped := (l.find? fun b => b.length == 256).any fun b => (flitHead b).kphase != q.rxPhase
  let f : RxFrame := if flipped then ⟨q.rxNext, 0, true, l⟩ else ⟨q.rxKey, q.rxFrames, false, l⟩
  setPort s1 n { q with rxFlits := [], rxPrev := some f, rxFrames := q.rxFrames + 1 }

/-- A flit takes its place in the open frame; no flit is passed on before its frame's seal has been checked (R441). -/
def joinRx (s : State) (n : Nat) (b : Bytes) : State :=
  let p := getPort s n
  if p.rxFlits.length = 15 then closeFrame s n (p.rxFlits ++ [b]) else setPort s n { p with rxFlits := p.rxFlits ++ [b] }

/-- A received flit. One that is lost keeps its place in the frame, empty. -/
def flitIn (s : State) (n : Nat) (flit : Bytes) (check : FlitCheck) : State :=
  let p := getPort s n
  match p.st with
  | .up =>
    match check with
    | .good k => joinRx (portCount s n 0x100 k) n flit
    | .uncorrectable replay => joinRx (lostFlit (portCount s n 0x101 1) n replay) n []
  | .authenticating =>
    let h := flitHead flit
    if h.type = 3 ∧ h.seq = p.rxSeq then setPort s n { p with rxSeq := (p.rxSeq + 1) % 4096 } else s
  | _ => s

def execFlitReceive (p : Nat) (flit : Bytes) (check : FlitCheck) (t : Nat) (s : State) : Outc :=
  let s := s.at t
  .next (if portsRun s && p < 64 && flit.length == 256 then flitIn s p flit check else s)

/-- A NAK: flits before the named one are acknowledged, and the replay starts with it; a NAK that names the flit last replayed says that
replay failed. -/
def nakIn (s : State) (n seq : Nat) : State :=
  let p := getPort s n
  let a := takeAck p seq
  match a.retry with
  | [] => s
  | e :: _ =>
    if 1024 ≤ (e.seq + 4096 - seq) % 4096 then s else
    let k := match p.lastNak with | some q => if q.1 = seq then q.2 + 1 else 0 | none => 0
    let r := replayFlits a.retry { a with lastNak := some (seq, k) }
    ((portCount (setPort s n r.1) n 0x103 1) |> countReplays a.retry.length).emit (.replay n r.2)

def execNakReceive (p seq : Nat) (s : State) : Outc := .next (if portsRun s && p < 64 && isUp (getPort s p) then nakIn s p seq else s)

/-- Idle flits complete the frame that carries the seal of the one before (R441). -/
def fillFrame (s : State) (n : Nat) : State :=
  let p := getPort s n
  let k := 16 - p.txPos % 16
  let q := idleFlits k p
  q.2.foldl (fun s b => s.emit (.flit n b.1 b.2)) (portCount (setPort s n q.1) n 0x10D k)

def execFrameSealTimeout (p : Nat) (s : State) : Outc := .next (if portsRun s && p < 64 && isUp (getPort s p) then fillFrame s p else s)

/-! ### Retraining and lanes (R445–R447) -/

/-- The device's own grounds: eight replays of one sequence that failed, as receiver or as transmitter; or a lane to restore while the port
keeps no message. -/
def retrainDue (p : Port) (c : RetrainCause) : Bool :=
  match c with
  | .replays => 8 ≤ p.replayFails || (match p.lastNak with | some q => 8 ≤ q.2 | none => false)
  | .laneRestore => !p.laneReady.isEmpty && p.retry.isEmpty
  | _ => true

/-- A retrain begins: lanes over the error ratio are dropped, lanes that passed their tests come back. -/
def beginRetrain (s : State) (n bad : Nat) : State :=
  let p := getPort s n
  let ready := p.laneReady.foldl (fun m k => m ||| 2 ^ k) 0
  let lanes := (p.lanes ||| ready) &&& (15 - bad % 16)
  let lost := popcount4 (p.lanes &&& (bad % 16))
  let q := { p with st := .retraining, retrainAt := some s.now, lanes := lanes, laneReady := [],
                    laneOk := p.laneOk.filter fun e => !p.laneReady.contains e.1 }
  portCount (portCount (setPort s n q) n 0x105 1) n 0x106 lost

def execPortRetrain (p t : Nat) (cause : RetrainCause) (badLanes : Nat) (s : State) : Outc :=
  let s := s.at t
  .next (if portsRun s && p < 64 && isUp (getPort s p) && retrainDue (getPort s p) cause then
      beginRetrain (if cause = .keyFailure then portFault s p else s) p badLanes else s)

/-- A retrain ends the open frame of each direction; its number is not used again (log 130). -/
def freshFrame (p : Port) : Port :=
  { p with txPos := 0, txFrame := [], txSeal := [], txFrames := p.txFrames + 1, rxFlits := [], rxPrev := none, rxFrames := p.rxFrames + 1 }

/-- The retrain has succeeded: up at the lanes left, with a replay from the first unacknowledged flit; or afresh to authentication. A lane
that was dropped before it, or has not passed its tests, is not among them (R446). -/
def endRetrain (s : State) (n lanes : Nat) (resumed : Bool) (cert : Nat) : State :=
  let p := getPort s n
  let lost := popcount4 (p.lanes &&& (15 - lanes % 16))
  let q := { p with lanes := p.lanes &&& (lanes % 16), retrainAt := none, nakSent := false, replayFails := 0, lastNak := none }
  let s1 := portCount s n 0x106 lost
  if resumed then
    replayAll (setPort s1 n { freshFrame q with st := .up }) n
  else if cert = p.cert then beginAuth s1 n { q with credits := p.sizes }
  else miswire s1 n

def execRetrainComplete (p t lanes : Nat) (resumed : Bool) (cert : Nat) (s : State) : Outc :=
  let s := s.at t
  let q := getPort s p
  .next (if portsRun s && p < 64 && q.st == .retraining && (q.lanes &&& (lanes % 16)) != 0
      && (match q.retrainAt with | some t0 => s.now ≤ t0 + 10000000 | none => true) then endRetrain s p lanes resumed cert else s)

def execRetrainTimeout (p t : Nat) (s : State) : Outc :=
  let s := s.at t
  let q := getPort s p
  .next (if portsRun s && p < 64 && q.st == .retraining && (match q.retrainAt with | some t0 => t0 + 10000000 ≤ s.now | none => false)
    then goDown s p 1 else s)

def execPortDown (p : Nat) (s : State) : Outc := .next (if portsRun s && p < 64 && (getPort s p).st != .down then goDown s p 0 else s)

/-- A test of a dropped lane: one that passes for 10 s may return at the next retrain. -/
def laneTested (s : State) (n lane : Nat) (pass : Bool) : State :=
  let p := getPort s n
  if !pass then setPort s n { p with laneOk := p.laneOk.filter (·.1 != lane), laneReady := p.laneReady.filter (· != lane) }
  else match p.laneOk.find? (·.1 == lane) with
    | none => setPort s n { p with laneOk := p.laneOk ++ [(lane, s.now)] }
    | some e => if e.2 + 10000000000 ≤ s.now then setPort s n { p with laneReady := insertN p.laneReady lane } else s

def execLaneTest (p lane t : Nat) (pass : Bool) (s : State) : Outc :=
  let s := s.at t
  .next (if portsRun s && p < 64 && lane < 4 && isUp (getPort s p) && !bitOf (getPort s p).lanes lane then laneTested s p lane pass else s)

/-! ### Partners that fail (R449) -/

def execPartnerAbsent (p t : Nat) (s : State) : Outc :=
  let s := s.at t
  let q := getPort s p
  .next (if portsRun s && p < 64 && q.st == .training && (match q.retrainAt with | some t0 => t0 + 100000000 ≤ s.now | none => true)
    then goDown s p 0 else s)

/-- 100 µs of queued data without credit are one event, which new messages heed; 10 ms take the port down. -/
def starve (s : State) (n buf : Nat) : State :=
  let p := getPort s n
  match p.starving.find? (·.1 == buf) with
  | some q => if q.2 + 10000000 ≤ s.now then goDown s n 0 else s
  | none => portCount (setPort s n { p with starving := p.starving ++ [(buf, s.now - 100000)] }) n 0x107 1

def execPartnerStarvation (p buf t : Nat) (s : State) : Outc :=
  let s := s.at t
  .next (if portsRun s && p < 64 && buf < 32 && isUp (getPort s p) && (getPort s p).credits.getD buf 0 == 0 then starve s p buf else s)

/-- Sixteen events within the last millisecond. -/
def faultyNow (p : Port) (now : Nat) : Bool := 16 ≤ (p.events.filter fun t => now < t + 1000000).length

def execPartnerFaulty (p t : Nat) (s : State) : Outc :=
  let s := s.at t
  .next (if portsRun s && p < 64 && (getPort s p).st != .down && faultyNow (getPort s p) s.now then condemn s p 2 else s)

/-! ### Hop keys (R442) -/

/-- A KEY_UPDATE is due: 2^28 frames of 16 flits, or 60 s. -/
def keyDue (p : Port) (now : Nat) : Bool := 2 ^ 32 ≤ p.sentFlits || p.keyTime + 60000000000 ≤ now

/-- A new key takes effect at the first frame with the other key phase; its frames are counted from 0, and the old key is held. -/
def newKey (s : State) (n : Nat) : State :=
  let p := getPort s n
  setPort { s with free := s.free + 1 } n
    { p with keyPending := none, kphase := !p.kphase, keyTime := s.now, sentFlits := 0, txFrames := 0, txKey := s.free,
             oldKey := if p.retry.isEmpty then none else some (p.txKey, p.retry.length) }

/-- A KEY_UPDATE begins with a link control flit; at its end the open frame is completed with idle flits, so that the new key starts a frame. -/
def keyStep (s : State) (n : Nat) (done : Bool) : State :=
  let p := getPort s n
  if done then
    (if p.keyPending.isSome then newKey (if p.txPos % 16 = 0 then s else fillFrame s n) n else s)
  else if p.keyPending.isNone && keyDue p s.now && coreUp s .keeper then
    sendFlit { setPort s n { p with keyPending := some s.now } with free := s.free + 1 } n 3 (controlPayload s.free)
  else s

def execKeyUpdate (p t : Nat) (done : Bool) (s : State) : Outc :=
  let s := s.at t
  .next (if portsRun s && p < 64 && isUp (getPort s p) then keyStep s p done else s)

def execKeyUpdateTimeout (p t : Nat) (s : State) : Outc :=
  let s := s.at t
  .next (if portsRun s && p < 64 && isUp (getPort s p) && (match (getPort s p).keyPending with | some t0 => t0 + 100000000 ≤ s.now | none => false)
    then condemn s p 2 else s)

end Sys2Proof.Machine
end

