-- ==== Sys2Proof/Machine/Flash.lean ====
section
/-! DEFINITION. What the flash and firmware updates hold byte by byte: the boot control block, the configuration record, the rings, images
and handover records (R311, R575–R579, R593, R599). -/

namespace Sys2Proof.Machine

/-! ### Images (R578, R579) -/

/-- A component table entry of an image (R579); its `body` is the digest of the bytes it names. -/
def Component.ofBytes (b e : Bytes) : Component :=
  { id := fld e 0 1, core := fld e 1 1, offset := fld e 4 4, size := fld e 8 4, load := fld e 12 4, digest := fld e 16 48,
    body := leNat (sha384 (slice b (fld e 4 4) (fld e 8 4))) }

/-- An image from its header, component table and components (R578, R579). -/
def Image.ofBytes (b : Bytes) (keyOk sigOk : Bool) : Image :=
  let n := fld b 6 2
  let es := (List.range n).map fun k => slice b (512 + 64 * k) 64
  { magic := fld b 0 4, hversion := fld b 4 2, version := fld b 8 4, svn := fld b 12 1, floor := fld b 13 1, stepping := fld b 14 2,
    ifaceMin := fld b 16 2, ifaceMax := fld b 18 2, hwrite := fld b 20 2, hreadMin := fld b 22 2, length := fld b 24 4,
    reservedZero := zeroAt b 28 52 && zeroAt b 177 239 && es.all (fun e => zeroAt e 2 2),
    keyIndex := fld b 176 1, keyOk := keyOk, sigOk := sigOk, headerDigest := leNat (sha384 (b.take 416 ++ slice b 512 (64 * n))),
    components := es.map (Component.ofBytes b) }

/-! ### Handover records (R593) -/

/-- A handover record (R593): its body is a list of (type, value) entries. -/
structure Handover where
  magic : Nat
  version : Nat
  readerMin : Nat
  core : Nat
  index : Nat
  old : Nat
  new : Nat
  time : Nat
  seq : Nat
  crcOk : Bool
  entries : List (Nat × Nat)
deriving DecidableEq, Repr, Inhabited

/-- Body entries: type, length, value; each entry is padded to a multiple of 8 bytes (log 139). -/
def handEntries : Nat → Bytes → List (Nat × Nat)
  | 0, _ => []
  | n + 1, b => if b = [] then [] else
    (fld b 0 2, leNat (slice b 4 (fld b 2 2))) :: handEntries n (b.drop (8 * ((4 + fld b 2 2 + 7) / 8)))

def Handover.ofBytes (b : Bytes) : Handover :=
  let body := slice b 64 (fld b 12 4)
  { magic := fld b 0 4, version := fld b 4 2, readerMin := fld b 6 2, core := fld b 8 1, index := fld b 10 2, old := fld b 16 4,
    new := fld b 20 4, time := fld b 24 8, seq := fld b 32 8,
    crcOk := body.length == fld b 12 4 && body.length % 8 == 0 && crc32 body == fld b 40 4,
    entries := handEntries (body.length / 8) body }

/-! ### The flash (R311, R575–R577, R599) -/

/-- Flash that is erased reads as ones (log 138). -/
def erased (n : Nat) : Bytes := List.replicate n 0xFF

/-- A copy of the boot control block (R576). -/
def BootCtl.toBytes (b : BootCtl) : Bytes :=
  let l := leBytes 4 0x4C435A49 ++ leBytes 4 b.seq ++ leBytes 1 b.committed ++ leBytes 1 b.trial ++ leBytes 1 b.tries ++ zeros 1
    ++ leBytes 4 b.version ++ zeros 12
  l ++ leBytes 4 (crc32 l)

/-- What a copy holds; none without the magic or the CRC. -/
def BootCtl.ofBytes (b : Bytes) : Option BootCtl :=
  if fld b 0 4 = 0x4C435A49 ∧ fld b 28 4 = crc32 (b.take 28) then some ⟨fld b 4 4, fld b 8 1, fld b 9 1, fld b 10 1, fld b 12 4⟩ else none

/-- The configuration record's 256 bytes (R577). -/
def configBytes (r : ConfigRec) : Bytes :=
  let l := r.authorities.take 4
  let b := leBytes 1 r.portMode ++ leBytes 1 r.minSvn ++ leBytes 1 l.length ++ zeros 13 ++ l.flatMap (leBytes 48) ++ zeros (48 * (4 - l.length)) ++ zeros 44
  b ++ leBytes 4 (crc32 b)

/-- Bytes of an image slot. -/
def slotBytes : Nat := 0x1FC0000

/-- A byte of an image slot: what an update has written, the factory's image, or erased flash. -/
def slotByte (s : State) (slot k : Nat) : Byte :=
  match tget s.fw.written slot with
  | some b => b.getD k 0xFF
  | none => if slot = 0 ∧ s.fw.slotA.isSome then Config.factoryByte k else 0xFF

/-- The flash below the image slots: offset and contents of what is written, in the order of R575; the rest is erased. -/
def flashParts (s : State) : List (Nat × Bytes) :=
  [(0x0000000, s.fw.ctl0), (0x0001000, s.fw.ctl1), (0x0010000, configBytes s.fw.config),
   (0x0020000, s.si.ring.flatMap RetireRec.toBytes), (0x0030000, s.fw.crashLog.flatMap CrashRec.toBytes)]

/-- A byte of the flash; the image slots begin at 0x008_0000 and 0x204_0000. -/
def flashByte (s : State) (a : Nat) : Byte :=
  if 0x2040000 ≤ a ∧ a < 0x2040000 + slotBytes then slotByte s 1 (a - 0x2040000)
  else if 0x80000 ≤ a ∧ a < 0x80000 + slotBytes then slotByte s 0 (a - 0x80000) else
  ((flashParts s).findSome? fun p => if p.1 ≤ a then p.2[a - p.1]? else none).getD 0xFF

end Sys2Proof.Machine
end

