-- ==== Sys2Proof/Machine/Messages.lean ====
section
/-! DEFINITION. Messages across the fabric: relay, delivery, end-to-end tags, remote access, device time, detours, a device's own failure
(R19, R26, R27, R294, R451–R461, R637, R638). -/

namespace Sys2Proof.Machine

/-! ### The choice of the next link (R455, R456, R459) -/

/-- Axes on which two coordinates differ. -/
def differing (a b : Nat) : List Nat := (List.range 4).filter fun k => nib a k != nib b k

/-- Ports whose partner is this address. -/
def portsTo (s : State) (a : Nat) : List Nat := (List.range 64).filter fun p => peerOf s p == some a

/-- The port is up and does not starve: new messages avoid one that does (R449). -/
def usable (p : Port) : Bool := p.st == .up && p.starving.isEmpty
def creditOf (p : Port) (buf : Nat) : Nat := p.credits.getD buf 0
/-- Free credit weighted by width. -/
def weight (s : State) (buf p : Nat) : Nat := creditOf (getPort s p) buf * popcount4 (getPort s p).lanes

/-- The port with the most weighted credit, the lowest among equals. -/
def bestPort (s : State) (buf : Nat) (l : List Nat) : Option Nat :=
  l.foldl (fun b p => match b with | none => some p | some q => if weight s buf q < weight s buf p then some p else some q) none

/-- Less than an eighth of the buffer's credit is free, or the port is down or starving. -/
def shortOf (s : State) (buf p : Nat) : Bool := !usable (getPort s p) || 8 * creditOf (getPort s p) buf < (getPort s p).sizes.getD buf 0

/-- The detour table that messages received on a port are routed by: the newest once the port has switched to it, else the one before (R461). -/
def tableOf (s : State) (inPort : Nat) : List Detour :=
  if (getPort s inPort).gen = s.fabric.detourGen then s.fabric.detours else s.fabric.detoursOld

/-- The coordinate a destination is routed to: X itself, or for a detoured X or a reserve the member that relays to the reserve. -/
def viaReserve (l : List Detour) (dest : Nat) : Option Nat :=
  if bitOf dest 19 then some (dest % 65536) else if l.any (fun d => d.coord == dest) then some dest else none

/-- This device is a reserve: its ports lead to the members of its range, each of which routes the message onward (R459). -/
def ownReserve (s : State) : Bool := match s.host.address with | some a => bitOf a 19 | none => false
def rangeOf (me : Nat) : List Nat := (List.range 16).map (me / 16 * 16 + ·)

/-- Addresses that bring a message one minimal hop nearer; from a reserve, the member itself or any member. -/
def minimalHops (s : State) (l : List Detour) (me dest : Nat) : List Nat :=
  if ownReserve s then (if dest / 16 = me / 16 then [dest] else rangeOf me) else
  match viaReserve l dest with
  | some x =>
    if me / 16 = x / 16 then [0x80000 + me / 16 * 16]
    else if bitOf dest 19 = false ∧ nib me 0 = nib x 0 then [setNib me 0 ((nib x 0 + 1) % 16)]
    else ((differing me x).filter (· != 0)).map fun a => setNib me a (nib x a)
  | none => (differing me dest).map fun a => setNib me a (nib dest a)

/-- Wrong coordinates on axes that are not yet corrected. -/
def wrongHops (s : State) (l : List Detour) (me dest : Nat) : List Nat :=
  if ownReserve s then rangeOf me else
  ((differing me dest).filter fun a => (viaReserve l dest).isNone || a != 0).flatMap fun a =>
    ((List.range (axisSize s a)).filter fun v => v != nib me a && v != nib dest a).map fun v => setNib me a v

/-- The message came into the fabric by an auxiliary link: its source is a reserve, or a coordinate that one has adopted. -/
def fromReserve (l : List Detour) (src : Nat) : Bool := bitOf src 19 || l.any fun d => d.coord == src

/-- Non-minimal hops a message has taken: its links so far beyond the axes they have corrected. The auxiliary link out of a reserve, and on the
way to a reserve the step of axis 0 that R459 asks for, are no such hops; where a message came out of a reserve its first member is not
known, and its axis 0 counts as one to correct. -/
def wrongSoFar (l : List Detour) (me src dest links : Nat) : Nat :=
  let aux := b2n (fromReserve l src)
  let a := src % 65536
  match viaReserve l dest with
  | some x =>
    let shift := b2n (aux = 0 ∧ nib me 0 ≠ nib a 0)
    links + ((differing me x).filter (· != 0)).length - aux - shift - ((differing a x).filter (· != 0)).length
  | none => links + (differing me dest).length - aux - (((differing a dest).filter (· != 0)).length + (if aux = 1 ∨ nib a 0 ≠ nib dest 0 then 1 else 0))

/-- The port a message leaves by: of the minimal ones the one with most weighted credit; a non-minimal one while every minimal port is short
(the device may, and does). -/
def nextPort (s : State) (l : List Detour) (buf dest src links : Nat) : Option Nat :=
  let me := (s.host.address.getD 0) % 65536
  let target := match viaReserve l dest with | some x => x | none => dest
  let mins := (minimalHops s l me dest).flatMap (portsTo s)
  let near := bestPort s buf (mins.filter fun p => usable (getPort s p))
  if mins.any fun p => !shortOf s buf p then near
  else
    let wrongs := ((wrongHops s l me target).flatMap (portsTo s)).filter fun p => !shortOf s buf p
    if wrongSoFar l me src dest links < 2 ∧ wrongs ≠ [] then bestPort s buf wrongs else near

/-! ### Messages leave (R438, R443, R444, R456, R459) -/

/-- The payload of the i-th flit of a message as it leaves. -/
def outPayload (m : Message) (i : Nat) : Bytes := if i = 0 then withHops (m.flits.getD 0 []) m.hops else m.flits.getD i []

/-- `n` flits of a message as the port sends them (R437), from the i-th on: the port after them, what the retry buffer keeps, and what the
lanes carry. -/
def sentFlits (m : Message) (cls : Nat) : Nat → Nat → Port → Port × List Sent × List Bytes
  | 0, _, p => (p, [], [])
  | n + 1, i, p =>
    let q := putFlit { p with txSeq := (p.txSeq + 1) % 4096 } 1 cls m.hops (i == 0) (i + 1 == m.flits.length) p.txSeq (m.tags.getD i 0) (outPayload m i)
    let r := sentFlits m cls n (i + 1) q.1
    (r.1, ⟨p.txSeq, q.2.1, m.dest, m.mseq, m.job⟩ :: r.2.1, q.2.2 :: r.2.2)

/-- Flits of the device's own messages count in their context's page (R612). -/
def countOwnFlits (s : State) (m : Message) (k : Nat) : State :=
  match jobCtx s m.job with
  | some p => if isMe s m.src then countEv s (pgCtx p.1) 0x105 k (some p.1) else s
  | none => s

/-- The package traffic class of a message's class (R12, R438). -/
def trafficOf (cls : Nat) : Traffic := match cls with | 0 => .request | 1 => .response | 2 => .collective | _ => .control

/-- `j` flits of a message, from the i-th on, cross the package to the hub of their port (R12, R20; four atoms a flit) and leave by it; they are
kept until they are acknowledged, and so is their message. Lane bytes count at the collective engine of the port's hub (R21, R612). -/
def sendPart (s : State) (n hub lanes : Nat) (m : Message) (cls i j : Nat) : State :=
  let s0 := crossHubs s ((jobCtx s m.job).map (·.1)) hub (portHub n) (trafficOf cls) (4 * j)
  let p := getPort s0 n
  let buf := 8 * cls + m.hops
  let f := sentFlits m cls j i p
  let q := { f.1 with credits := p.credits.set buf (creditOf p buf - j), retry := p.retry ++ f.2.1, held := if i = 0 then p.held ++ [m] else p.held }
  let s1 := portCount (setPort s0 n q) n 0x10D j
  let s2 := if 60 ≤ n && !ownReserve s && i == 0 then portCount s1 n 0x10F 1 else s1
  let s3 := if i = 0 then countEv s2 (pgColl (portHub n)) 0x105 lanes ((jobCtx s m.job).map (·.1)) else s2
  (countOwnFlits s3 m j).emit (.relay n m f.2.2)

/-- Flits of a message that may leave now: those left, as far as credit and the retry buffer's 1,024 flits reach (R443, R444). -/
def flitsNow (p : Port) (buf left : Nat) : Nat := min left (min (creditOf p buf) (1024 - p.retry.length))

/-- All of a message can leave at once, and no other message of its buffer is under way on the port. -/
def roomFor (s : State) (n buf k : Nat) : Bool :=
  flitsNow (getPort s n) buf k == k && !(s.fabric.queued.any fun o => o.port == some n && kindClass o.msg.kind == some (buf / 8) && o.msg.hops == buf % 8)

/-- A message that came in on a port goes on, its hop counted; without credit it waits. -/
def relay (s : State) (inPort : Nat) (m : Message) : State :=
  match kindClass m.kind with
  | none => s
  | some cls =>
    let out := { m with hops := m.hops + 1 }
    let buf := 8 * cls + out.hops
    match nextPort s (tableOf s inPort) buf m.dest m.src out.hops with
    | some n => if roomFor s n buf m.flits.length then sendPart s n (portHub inPort) 0 out cls 0 m.flits.length
                else enqueue s ⟨out, none, none, 0, portHub inPort, 0⟩
    | none => enqueue s ⟨out, none, none, 0, portHub inPort, 0⟩

/-- Where a waiting message goes: the port it has begun to leave by, a port to the device its resend's route names, or the router's choice. -/
def portFor (s : State) (o : Outgoing) (buf : Nat) : Option Nat :=
  match o.port, o.via with
  | some n, _ => some n
  | none, some a => bestPort s buf ((portsTo s a).filter fun p => usable (getPort s p))
  | none, none => nextPort s s.fabric.detours buf o.msg.dest o.msg.src o.msg.hops

/-- The port, class and number of flits of a waiting message that some of can leave now. -/
def readyToGo (s : State) (o : Outgoing) : Option (Nat × Nat × Nat) :=
  match kindClass o.msg.kind with
  | none => none
  | some cls =>
    let buf := 8 * cls + o.msg.hops
    match portFor s o buf with
    | none => none
    | some n =>
      let j := flitsNow (getPort s n) buf (o.msg.flits.length - o.next)
      if isUp (getPort s n) && 0 < j && (o.port.isSome || roomFor s n buf j) then some (n, cls, j) else none

/-- Flits of the first waiting message that can go leave; one that has left whole waits no more. -/
def launchFrom (s : State) : List Outgoing → List Outgoing → State
  | _, [] => s
  | before, o :: l =>
    match readyToGo s o with
    | none => launchFrom s (before ++ [o]) l
    | some (n, cls, j) =>
      let rest := if o.next + j = o.msg.flits.length then [] else [{ o with port := some n, next := o.next + j }]
      sendPart { s with fabric := { s.fabric with queued := before ++ rest ++ l } } n o.hub o.lanes o.msg cls o.next j

/-- The fabric side of a tick: the device's ports take up what waits. -/
def launch (s : State) : State := if portsRun s then launchFrom s [] s.fabric.queued else s

def execMessageRelay (inPort : Nat) (m : Message) (s : State) : Outc :=
  .next (if portsRun s && inPort < 64 && isUp (getPort s inPort) && !isMe s m.dest && m.hops < 7 then relay s inPort m else s)

/-! ### Delivery and end-to-end tags (R451–R454) -/

/-- Every flit's tag is right. A tag covers the payload as its source formed it: with hops 0 (log 35). -/
def tagsOk (key : Bytes) (m : Message) : Bool :=
  (List.range m.flits.length).all fun i =>
    flitTag key (fit 240 (if i = 0 then withHops (m.flits.getD 0 []) 0 else m.flits.getD i [])) m.src m.mseq i == m.tags.getD i 0

def deliveredOf (s : State) (src job : Nat) : Option Delivered := s.fabric.delivered.find? fun d => d.src == src && d.job == job

/-- A duplicate or a replay. -/
def stale (s : State) (m : Message) : Bool :=
  match deliveredOf s m.src m.job with
  | some d => d.seen.contains m.mseq || m.mseq + 65536 < d.highest
  | none => false

/-- The answer to a tag check of this device (R454): the messages to its source that wait for it note the time. -/
def tagAnswered (s : State) (m : Message) : State :=
  if m.job = 0 ∧ m.kind = 9 ∧ slice (m.flits.headD []) 32 1 = [6] then
    { s with fabric := { s.fabric with waiting := s.fabric.waiting.map fun w =>
        if w.dest = m.src ∧ w.checking = true ∧ w.answered = none then { w with answered := some s.now } else w } }
  else s

/-- The message is delivered: its number is remembered. -/
def accept (s : State) (m : Message) : State :=
  let d := (deliveredOf s m.src m.job).getD ⟨m.src, m.job, 0, []⟩
  let h := max d.highest m.mseq
  let e : Delivered := { d with highest := h, seen := insertN (d.seen.filter fun k => h ≤ k + 65536) m.mseq }
  { s with fabric := { s.fabric with delivered := s.fabric.delivered.filter (fun k => !(k.src == m.src && k.job == m.job)) ++ [e] } }

/-- A delivered message goes from its port's hub to the hub that takes it: of a collective the one whose engine gathers it, else hub 0 with the
firmware cores (R20, R21). -/
def arrive (s : State) (n : Nat) (m : Message) : State :=
  crossHubs s ((jobCtx s m.job).map (·.1)) (portHub n) (if 4 ≤ m.kind ∧ m.kind ≤ 6 then hubOf m.arg else 0)
    (trafficOf ((kindClass m.kind).getD 3)) (4 * m.flits.length)

/-- The newest step of which this device holds a complete drained volume of `x`, for each of its contexts (R514). -/
def pointsOf (s : State) (x : Nat) : List (Nat × Nat) :=
  s.ctxs.filterMap fun p => match jobMember s p.2 with
    | none => none
    | some k => (((s.fabric.partners.filter fun q => q.ctx == p.1 && k.coord q.rank == x && q.complete).map (·.step)).max?).map fun n =>
        (p.2.ident.job, n)

/-- A reserve that asks for a lost device's restore points is answered by a device that holds its volumes (R514, R515; log 146). -/
def answerPoints (s : State) (m : Message) : State :=
  let b := (m.flits.headD []).drop 32
  if m.job = 0 ∧ m.kind = 9 ∧ fld b 0 1 = 8 then
    let x := fld b 1 8
    match pointsOf s x with
    | [] => s
    | l => post s 0 m.src 9 0 (floodBody 9 (x :: l.flatMap fun p => [p.1, p.2]))
  else s

def deliverIn (s : State) (n : Nat) (m : Message) : State :=
  match tagKey s m.job with
  | none => portCount s n 0x110 1
  | some key =>
    if !(match key with | some k => tagsOk k m | none => false) then
      send (portCount s n 0x10B 1) m.job m.src 8 m.mseq [] (.e2eNak m.src m.job m.mseq)
    else if stale s m then portCount s n 0x110 1
    else answerPoints (tagAnswered (accept (arrive s n m) m) m) m

def execMessageDeliver (inPort : Nat) (m : Message) (s : State) : Outc :=
  .next (if portsRun s && inPort < 64 && isUp (getPort s inPort) && isMe s m.dest then deliverIn s inPort m else s)

/-- Routes from `me` to `dest` with exactly `k` non-minimal hops: the devices between, lowest first port first. -/
def routes (s : State) (dest : Nat) : Nat → Nat → Nat → List (List Nat)
  | 0, _, _ => []
  | n + 1, me, k =>
    (differing me dest).flatMap fun a => ((List.range (axisSize s a)).filter (· != nib me a)).flatMap fun v =>
      let co := setNib me a v
      if v = nib dest a then (if co = dest then (if k = 0 then [[]] else []) else (routes s dest n co k).map (co :: ·))
      else if 0 < k then (routes s dest n co (k - 1)).map (co :: ·) else []

def asSet (l : List Nat) : List Nat := l.foldl insertN []

/-- The first route whose set of intermediate devices no earlier attempt had. -/
def newRoute (l : List (List Nat)) (used : List (List Nat)) : Option (List Nat) := l.find? fun r => !(used.any fun u => asSet u == asSet r)

/-- The member that relays a message to the reserve, for a message that stands at `me` (R459). -/
def relayMember (me x dest : Nat) : Nat :=
  if me / 16 = x / 16 then me
  else x / 16 * 16 + (if bitOf dest 19 = false ∧ nib me 0 = nib x 0 then (nib x 0 + 1) % 16 else nib me 0)

/-- Routes of this device to a destination with exactly `k` non-minimal hops; to a reserve and to a detoured coordinate they end at the member
that relays, and a reserve's begin at a member of its range. -/
def routesTo (s : State) (dest k : Nat) : List (List Nat) :=
  let me := (s.host.address.getD 0) % 65536
  let onTo (a d : Nat) : List (List Nat) := if a = d then (if k = 0 then [[]] else []) else routes s d 6 a k
  if ownReserve s then
    (if dest / 16 = me / 16 then (if k = 0 then [[]] else []) else (rangeOf me).flatMap fun a => (onTo a (dest % 65536)).map (a :: ·))
  else match viaReserve s.fabric.detours dest with
    | some x => let d := relayMember me x dest
                (onTo me d).map fun r => if d = me then r else r ++ [d]
    | none => onTo me (dest % 65536)

/-- The device that a route's first link leads to. -/
def firstHop (s : State) (dest : Nat) (r : List Nat) : Nat :=
  match r with
  | a :: _ => a
  | [] => if ownReserve s then dest else match viaReserve s.fabric.detours dest with
    | some x => 0x80000 + x / 16 * 16
    | none => dest

/-- Routes over a port that is up (R455). -/
def openRoutes (s : State) (dest k : Nat) : List (List Nat) :=
  (routesTo s dest k).filter fun r => (portsTo s (firstHop s dest r)).any fun p => usable (getPort s p)

/-- The route of the next attempt: a new one, fewest hops first; with none left, the earlier ones in their order (R453). -/
def nextRoute (s : State) (dest : Nat) (w : Waiting) : List Nat :=
  match newRoute (openRoutes s dest 0) w.routes with
  | some r => r
  | none => match newRoute (openRoutes s dest 1) w.routes with
    | some r => r
    | none => match newRoute (openRoutes s dest 2) w.routes with
      | some r => r
      | none => w.routes.getD (w.attempts % max 1 w.routes.length) []

def isWaiting (job mseq : Nat) (w : Waiting) : Bool := w.job == job && w.mseq == mseq
def setWaiting (s : State) (w : Waiting) : State :=
  { s with fabric := { s.fabric with waiting := s.fabric.waiting.filter (fun k => !isWaiting w.job w.mseq k) ++ [w] } }

/-- The kept message goes into the queue again, for the first device of its route. -/
def sendAgain (s : State) (w : Waiting) (r : List Nat) : State :=
  match s.fabric.kept.find? fun m => m.job == w.job && m.mseq == w.mseq && m.dest == w.dest with
  | some m => enqueue s ⟨m, some (firstHop s w.dest r), none, 0, 0, 0⟩
  | none => s

/-- Sends a message again. -/
def resend (s : State) (w : Waiting) : State :=
  let r := nextRoute s w.dest w
  (setWaiting (sendAgain s w r) { w with attempts := w.attempts + 1, routes := if w.routes.contains r then w.routes else w.routes ++ [r] }).emit
    (.resend w.dest w.job w.mseq r)

/-- The device declares itself failed: on its auxiliary ports, and its ports stop (R19, R513). -/
def declareFailed (s : State) : State :=
  if s.fabric.selfFailed then s else
  let s1 := flood s 0 [s.host.address.getD 0]
  let s2 := s1.fabric.ports.foldl (fun s p => if p.2.st = .down then s else goDown s p.1 0) s1
  { s2 with fabric := { s2.fabric with selfFailed := true } }

/-- After eight failed attempts of a round the source tests its own tag engine (R453), and asks for a test of the destination's (R454). -/
def afterEight (s : State) (w : Waiting) (engineOk : Bool) : State :=
  if !engineOk then declareFailed s
  else
    send (setWaiting s { w with checking := true, since := s.now, answered := none }) 0 w.dest 9 0 (floodBody 5 []) (.tagCheck w.dest)

/-- A message unknown so far had one attempt: by the first of its routes (log 36). -/
def waitingOf (s : State) (dest job mseq : Nat) : Waiting :=
  (s.fabric.waiting.find? (isWaiting job mseq)).getD
    ⟨job, mseq, dest, 1, [nextRoute s dest ⟨job, mseq, dest, 0, [], 0, false, 0, none⟩], 0, false, 0, none⟩

/-- The lowest port towards a destination, at whose page a tag failure counts. -/
def portTowards (s : State) (dest : Nat) : Nat :=
  ((minimalHops s s.fabric.detours ((s.host.address.getD 0) % 65536) dest).flatMap (portsTo s)).foldl (fun b p => if b ≤ p then b else p) 63

def e2eNakIn (s : State) (dest job mseq : Nat) (engineOk : Bool) : State :=
  let w := waitingOf s dest job mseq
  let s1 := portCount s (portTowards s dest) 0x10B 1
  if w.checking then s1 else if 8 ≤ w.attempts then afterEight s1 w engineOk else resend s1 w

def execE2eNakReceive (dest job mseq t : Nat) (engineOk : Bool) (s : State) : Outc :=
  let s := s.at t
  .next (if portsRun s then e2eNakIn s dest job mseq engineOk else s)

/-- The destination's own test, and its answer; the round counts at its port towards the source too. -/
def tagTest (s : State) (src : Nat) (engineOk : Bool) : State :=
  let s := portCount s (portTowards s src) 0x10B 1
  if engineOk then send s 0 src 9 0 (floodBody 6 []) (.tagAnswer src) else declareFailed s

def execTagCheckRequest (src : Nat) (engineOk : Bool) (s : State) : Outc := .next (if portsRun s then tagTest s src engineOk else s)

/-- A new round of eight attempts, counted at the port towards the destination. -/
def newRound (s : State) (w : Waiting) : State :=
  resend (portCount s (portTowards s w.dest) 0x10B 1) { w with attempts := 0, rounds := w.rounds + 1, checking := false, answered := none }

/-- The source waits 1 ms after the answer, or after 1 ms without one (R454). -/
def roundDue (s : State) (w : Waiting) : Bool :=
  w.checking && (match w.answered with | some t => t + 1000000 ≤ s.now | none => w.since + 2000000 ≤ s.now)

def execTagCheckWaitExpiry (job mseq t : Nat) (s : State) : Outc :=
  let s := s.at t
  .next (match s.fabric.waiting.find? (isWaiting job mseq) with
    | some w => if portsRun s && roundDue s w then newRound s w else s
    | none => s)

/-! ### Remote access (R294, R298, R304, R338) -/

/-- Every byte of a range translates, none of it to yet another peer. -/
def rangeHere (x : Ctx) (va n : Nat) (write : Bool) : Bool :=
  vaOk va && n != 0 && bufferOk x va n write && (List.range ((va + n - 1) / frameBytes + 1 - va / frameBytes)).all fun k =>
    match tget x.maps (va / frameBytes + k) with | some l => l.loc != 3 | none => false

/-- Offsets of the bytes of a range that are poisoned. -/
def poisonIn (s : State) (x : Ctx) (va n : Nat) : List Nat :=
  (List.range n).filter fun k => match translate x (va + k) false with | some p => poisonedAt s x p | none => false

/-- The body of a response: status, the number of poisoned bytes and their offsets, the data (log 146). -/
def respBody (status : Nat) (data : Bytes) (poisoned : List Nat) : Bytes :=
  leBytes 1 status ++ leBytes 4 poisoned.length ++ poisoned.flatMap (leBytes 4) ++ data

def remoteRead (s : State) (src c : Nat) (x : Ctx) (va len : Nat) : State :=
  if rangeHere x va len false then
    let b := readVa s x va len
    let l := poisonIn s x va len
    send (modCtx (readBuffer s c va len) c (warmVa · va len)) x.ident.job src 1 va (respBody Status.success.code b l) (.readResp src va b l Status.success.code)
  else send s x.ident.job src 1 va (respBody Status.eaccess.code [] []) (.readResp src va [] [] Status.eaccess.code)

def execRemoteReadRequest (src job va len _mseq : Nat) (s : State) : Outc :=
  .next (match jobCtx s job with | some p => if portsRun s then remoteRead s src p.1 p.2 va len else s | none => s)

def remoteWrite (s : State) (src c : Nat) (x : Ctx) (va mseq : Nat) (data : Bytes) : State :=
  if rangeHere x va data.length true then
    send (modCtx (writeVa s c va data) c (warmVa · va data.length)) x.ident.job src 3 va (leBytes 8 mseq ++ leBytes 1 Status.success.code) (.writeAck src mseq Status.success.code)
  else send s x.ident.job src 3 va (leBytes 8 mseq ++ leBytes 1 Status.eaccess.code) (.writeAck src mseq Status.eaccess.code)

def execRemoteWrite (src job va mseq : Nat) (data : Bytes) (s : State) : Outc :=
  .next (match jobCtx s job with | some p => if portsRun s then remoteWrite s src p.1 p.2 va mseq data else s | none => s)

/-! ### Device time (R26, R27, R458, R637, R638) -/

/-- The parent of a coordinate on the time tree: its highest non-zero nibble set to 0. -/
def parentOf (co : Nat) : Nat :=
  match [3, 2, 1, 0].find? fun a => nib co a != 0 with | some a => setNib co a 0 | none => co

def nonZero (co : Nat) : Nat := ((List.range 4).filter fun a => nib co a != 0).length
def upPort (s : State) (p : Nat) : Bool := isUp (getPort s p)

/-- The port a device exchanges time by: the lowest that is up to its parent, or to a neighbour with fewer non-zero nibbles. A reserve
follows the member on its lowest up port; device 0, and a reserve that has adopted 0, is the root. -/
def timePort (s : State) : Option Nat :=
  match s.host.address with
  | none => none
  | some me =>
    if bitOf me 19 then (if s.fabric.adopted = some 0 then none else (List.range 64).find? (upPort s))
    else if me % 65536 = 0 then none
    else match (portsTo s (parentOf (me % 65536))).find? (upPort s) with
      | some p => some p
      | none => (List.range 64).find? fun p => upPort s p && (match peerOf s p with
          | some a => !bitOf a 19 && nonZero (a % 65536) < nonZero (me % 65536)
          | none => false)

/-- ±200 ppm in parts per billion. -/
def clampRate (r : Int) : Int := if 200000 < r then 200000 else if r < -200000 then -200000 else r

/-- Steers towards an offset: the rate that removes it in 1 ms, within ±200 ppm (log 37). -/
def steer (s : State) (offset : Int) (src : TimeSource) : State :=
  { s with clock := { s.clock with rate := clampRate (1000 * offset), source := src } }

/-- The offset of an exchange, corrected by the lane skew. -/
def timeOffset (t1 t2 t3 t4 : Nat) (skew : Int) : Int := (((t2 : Int) - t1) - ((t4 : Int) - t3)) / 2 + skew

def timeExchange (s : State) (p : Nat) (offset : Int) : State :=
  if s.clock.source = .tsync then (if 50 < offset ∨ offset < -50 then portCount s p 0x111 1 else s) else steer s offset .links

def execTimeExchange (t1 t2 t3 t4 : Nat) (skew : Int) (s : State) : Outc :=
  let s := s.at t4
  .next (match timePort s with
    | some p => if portsRun s then timeExchange (sendFlit s p 4 (leBytes 8 t1)) p (timeOffset t1 t2 t3 t4 skew) else s
    | none => s)

def execTimeReply (p t1 t2 t3 : Nat) (s : State) : Outc :=
  let s := s.at t3
  .next (if portsRun s && p < 64 && isUp (getPort s p) then
      (sendFlit s p 4 (leBytes 8 t1 ++ leBytes 8 t2 ++ leBytes 8 t3)).emit (.timeReply p t1 t2 t3) else s)

/-- One forward step; a device that is ahead holds its count until fabric time passes it. -/
def adoptTime (s : State) (ft : Nat) : State :=
  { s with clock := { s.clock with now := max s.clock.now ft, adopted := true, hold := s.clock.now - ft } }

/-- Fabric time from link time messages: only where no time-sync input announces edges (R26). -/
def execFabricTimeAdoption (fabricTime : Nat) (s : State) : Outc :=
  .next (if s.running && !s.clock.adopted && s.clock.tsFrames == 0 && s.ctxs.isEmpty then adoptTime s fabricTime else s)

/-- An edge whose value two valid frames in a row have announced is adopted, then followed. -/
def followEdge (s : State) : State :=
  if s.clock.tsFrames < 2 then s
  else if !s.clock.adopted && s.ctxs.isEmpty then
    let s1 := adoptTime s s.clock.tsValue
    { s1 with clock := { s1.clock with source := .tsync } }
  else steer s ((s.clock.tsValue : Int) - s.clock.now) .tsync

/-- What the 104 bits of a frame announce, its first bit the lowest: a sync byte, the time of the next edge, and its CRC-32; nothing where
one of them is wrong (R637). -/
def frameTime (frame : Nat) : Option Nat :=
  let f := frame / 256 % 2 ^ 64
  if frame % 256 = 0xA5 ∧ frame / 2 ^ 72 = crc32 (leBytes 8 f) then some f else none

/-- The frame that follows an edge announces the next one; `ok`: its Manchester coding held. -/
def takeFrame (s : State) (frame : Nat) (ok : Bool) : State :=
  let c := s.clock
  { s with clock := match if ok then frameTime frame else none with
      | some f =>
        let n := if c.tsFrames ≠ 0 ∧ f = c.tsValue + 1000000 then min 2 (c.tsFrames + 1) else 1
        { c with tsValue := f, tsFrames := n, tsLast := c.now }
      | none => { c with tsFrames := 0 } }

def execTsyncEdge (t frame : Nat) (frameOk : Bool) (s : State) : Outc :=
  let s := s.at t
  .next (if s.running then takeFrame (followEdge s) frame frameOk else s)

/-- Back to link time, without a step; the loss is counted. Before adoption the input no longer announces edges (R26). -/
def tsyncLost (s : State) : State :=
  { s with clock := { s.clock with source := if s.clock.source = .tsync then .links else s.clock.source, tsFrames := 0, tsLosses := s.clock.tsLosses + 1 } }

def execTsyncLoss (t : Nat) (s : State) : Outc :=
  let s := s.at t
  .next (if s.running && (s.clock.source == .tsync || s.clock.tsFrames != 0) && s.clock.tsLast + 3000000 ≤ s.now then tsyncLost s else s)

/-! ### Detours (R460, R461) -/

/-- The next generation of the table: at most one entry per range. A port takes it at its next message boundary: at once where it is in no
message, else when that message ends (`assemble`); until then it routes by the one before (R461). -/
def detourStep (s : State) (m : DetourMsg) : State :=
  let g := s.fabric.detourGen + 1
  let l := match m with
    | .add co r => s.fabric.detours.filter (fun d => d.coord / 16 != co / 16) ++ [⟨co, r, g % 65536⟩]
    | .remove co => s.fabric.detours.filter fun d => d.coord != co
  let kept := match m with | .remove co => if s.fabric.adopted = some co then none else s.fabric.adopted | .add _ _ => s.fabric.adopted
  { s with fabric := { s.fabric with detours := l, detoursOld := s.fabric.detours, detourGen := g, adopted := kept,
                                     ports := s.fabric.ports.map fun p => (p.1, if p.2.rxMsg.isEmpty then { p.2 with gen := g } else p.2) } }

/-- The table already says what a change says: a flood comes over every port. -/
def detourKnown (s : State) (m : DetourMsg) : Bool :=
  match m with
  | .add co r => s.fabric.detours.any fun d => d.coord == co && d.reserve == r
  | .remove co => !(s.fabric.detours.any fun d => d.coord == co)

/-- The detour table's 8-byte entry of a range (R460). -/
def detourWord (s : State) (range : Nat) : Nat :=
  match s.fabric.detours.find? (fun d => d.coord / 16 == range) with
  | some d => 2 ^ 63 + 2 ^ 32 * (d.reserve % 2 ^ 20) + 2 ^ 16 * (d.gen % 2 ^ 16) + d.coord % 2 ^ 16
  | none => 0

/-- A change that is new is made, and passed on to every neighbour (R461). -/
def detourChange (s : State) (m : DetourMsg) : State :=
  if detourKnown s m then s
  else flood (detourStep s m) 4 (match m with | .add co r => [1, co, r] | .remove co => [0, co])

def execDetourChange (m : DetourMsg) (s : State) : Outc := .next (if portsRun s then detourChange s m else s)

/-! ### A device's own failure (R19) -/

/-- The causes: a wing, annex or hub die, a stack, the link crypto, a planned removal. -/
def realLoss : LossCause → Bool
  | .wing n => n < 24
  | .annex n => n < 4
  | .hub n => n < 4
  | .stack n => n < 16
  | .linkCrypto => true
  | .service => true

def execSelfDeclareFailed (cause : LossCause) (s : State) : Outc :=
  .next (if s.running && realLoss cause then
      declareFailed s
    else s)

end Sys2Proof.Machine
end

