-- ==== Sys2Proof/Machine/Takeover.lean ====
section
/-! DEFINITION. Reserve takeover: loss of a device, adoption, restore points, ready and refusal (R459, R513–R521). -/

namespace Sys2Proof.Machine

/-! ### Loss (R513) -/

/-- Ports of this device whose partner is `x`. -/
def portsWith (s : State) (x : Nat) : List Nat := (List.range 64).filter fun p => (tget s.fabric.ports p).isSome && (getPort s p).partner == x && (getPort s p).cert != 0

/-- A lost device's certificates are refused until the host clears them. -/
def refuseCerts (s : State) (x : Nat) : State :=
  { s with fabric := { s.fabric with lost := insertN s.fabric.lost x,
                                     refused := ((portsWith s x).map fun p => (getPort s p).cert).foldl insertN s.fabric.refused } }

/-- Ports 4·x0 to 4·x0 + 3 of the reserve, to member x0. -/
def auxPortsTo (x : Nat) : List Nat := (List.range 4).map (4 * (x % 16) + ·)

/-- Its own declaration, or four ports down and reports of eight of the range's other members. -/
def isLost (s : State) (x : Nat) (declared : Bool) (reporters : List Nat) : Bool :=
  declared || ((auxPortsTo x).all (fun p => (getPort s p).st == .down)
    && 8 ≤ ((reporters.foldl insertN []).filter fun r => r / 16 == x / 16 && r != x).length)

/-- This device is the reserve of the range of `x`. -/
def reserveOf (s : State) (x : Nat) : Bool := match s.host.address with | some a => bitOf a 19 && a % 65536 / 16 == x / 16 && x < 65536 | none => false

/-- The reserve floods a refusal with the jobs it concerns. -/
def refuseTakeover (s : State) (x : Nat) (jobs : List Nat) : State := flood s 2 (x :: jobs)

/-- The jobs of the coordinate this device has adopted. -/
def adoptedJobs (s : State) : List Nat := s.fabric.points.map (·.2.1)

/-- A standby context for each of X's jobs. -/
def standbyFor (s : State) (job : Nat) : Bool := s.ctxs.any fun p => p.2.ident.standby && p.2.ident.job == job && p.2.ident.st == .opened

/-- A buddy of the adopted coordinate is lost before every stream has completed: the takeover is refused, and takes no further stream (R520). -/
def buddyLost (s : State) (x : Nat) : State :=
  match s.fabric.adopted with
  | none => s
  | some dev =>
    if s.fabric.buddies.contains x && s.fabric.points.any (fun p => standbyFor s p.2.1) then
      refuseTakeover { s with fabric := { s.fabric with points := [], buddies := [] } } dev (adoptedJobs s)
    else s

/-- The reserve asks the other members of the range for the newest complete volumes of the lost device that they hold (R514, R515; log 146). -/
def askPoints (s : State) (x : Nat) : State :=
  (List.range 16).foldl (fun s i => if x / 16 * 16 + i = x then s else post s 0 (x / 16 * 16 + i) 9 0 (floodBody 8 [x])) s

def execDeviceLostDeclare (x : Nat) (declared : Bool) (reporters : List Nat) (s : State) : Outc :=
  .next (if portsRun s && reserveOf s x && isLost s x declared reporters then buddyLost (askPoints (refuseCerts s x) x) x else s)

/-! ### Adoption (R459, R515, R520) -/

/-- No coordinate adopted yet, a standby context for each job, and no buddy lost meanwhile (R515, R520). -/
def mayAdopt (s : State) (heard : RestorePoints) : Bool :=
  s.fabric.adopted.isNone && heard.points.all (fun p => standbyFor s p.1) && !heard.buddies.any s.fabric.lost.contains

/-- The device takes the coordinate, and floods it with its own address and each job's restore point; a module that takes its own back also has
the detour entry removed. -/
def adopt (s : State) (x : Nat) (heard : RestorePoints) : State :=
  let me := s.host.address.getD 0
  let s0 := if x = me then flood (detourStep s (.remove x)) 4 [0, x] else detourStep s (.add x me)
  let s1 : State := if x = me then { s0 with fabric := { s0.fabric with lost := s0.fabric.lost.filter (· != x) } } else s0
  let pts := heard.points.map fun (p : Nat × Nat) => (x, p.1, p.2)
  let s2 := { s1 with fabric := { s1.fabric with adopted := some x, points := pts, buddies := heard.buddies } }
  flood s2 1 ([x, me] ++ heard.points.flatMap fun (p : Nat × Nat) => [p.1, p.2])

def execReserveAdopt (x : Nat) (heard : RestorePoints) (s : State) : Outc :=
  let back := s.host.address == some x && s.fabric.detours.any (·.coord == x)
  .next (if !(portsRun s && (back || (reserveOf s x && s.fabric.lost.contains x))) then s
    else if mayAdopt s heard then adopt s x heard else refuseTakeover s x (heard.points.map (·.1)))

/-! ### Members (R516, R521) -/

/-- The context takes part in a job with this device: X is a member of one of its groups. -/
def hasMember (x : Ctx) (dev : Nat) : Bool := x.pol.grps.any fun g => g.2.members.any fun m => m.1 == dev

/-- The outcome of an attempt ended from outside: failed before the update, or rolled back. -/
def cutOutcome (p : Phase) : Nat := match p with | .program => 4 | .decide => 4 | _ => 5

/-- A running attempt and its RUN_STEP end with ETAKEOVER; a sealed step is abandoned with it. -/
def endForTakeover (s : State) (c : Nat) : State :=
  match getCtx s c with
  | none => s
  | some x =>
    match x.att with
    | some a =>
      let s1 := if a.phase = .copy then setCtx s c { x with gate := { x.gate with step := endedStep x 0 } } else s
      finishAttempt s1 c (cutOutcome a.phase) .etakeover
    | none => endRun s c .etakeover

/-- PAUSED (R516); a context that a PREEMPT writes becomes so as that ends (R554), an ORPHANED one as it is reclaimed. -/
def pauseNow (x : Ctx) : Ctx :=
  if x.ident.st = .orphaned then { x with ident := { x.ident with prior := .paused } }
  else if x.inState [.ready, .running, .paused] then x.setSt .paused else x

/-- FAULTED, from a state that a containment fault leaves (R554); an ORPHANED context is so as it is reclaimed. -/
def faultNow (x : Ctx) : Ctx :=
  if x.ident.st = .orphaned then { x with ident := { x.ident with prior := .faulted } }
  else if x.inState [.ready, .running, .paused, .checkpointing] then x.setSt .faulted else x

/-- Mapped ranges of an image of which pages are missing here are placed afresh; where there is no room they stay unmapped. -/
def remap (c : Nat) : List (Nat × Nat × Nat × Bool × Nat) → State → State
  | [], s => s
  | (p, n, loc, w, peer) :: r, s =>
    let s1 := if loc = 2 then s else
      (List.range n).foldl (fun s k => match getCtx s c with
        | none => s
        | some x => if (tget x.maps (p + k)).isSome then s else
          match placeRange s c x (p + k) 1 loc w false peer ((p + k) * frameBytes) with
          | some q => setCtx q.1 c (joinMaps x q.2.1)
          | none => s) s
    remap c r s1

/-- Entries of an image that are gone here come back at their call numbers; what has been bound since at one of them goes. -/
def rebind (x : Ctx) (es : List (Nat × Entry)) : Ctx :=
  es.foldl (fun x e => if (tensor x e.1).any (fun t => t.e.host == e.2.host) then x else putEntryAt x (callIdx e.1) (callTag e.1) e.2) x

/-- Every part of R488 from a volume, but the attempt counter and the epoch. Placement stands, and so do mappings and entries that the volume
does not hold (log 150). -/
def restorePart (s : State) (c : Nat) (x : Ctx) (v : Volume) : State :=
  let l := v.recs.getD []
  let p := (imagePolicies l).getD x.pol
  let g := restoredGate s { x with pol := p } [v] v l
  let prog := match recsOf l 15 with | r :: _ => (match parseProgram r.2 with | .ok q => some q | .error _ => none) | [] => none
  let seed := match recsOf l 13 with | r :: _ => fld r.2 0 8 | [] => x.ident.seed
  let y := { x with pol := p, gate := { g with attempt := x.gate.attempt, epoch := x.gate.epoch }, prog := prog, progNext := none, colls := [],
                    ident := { x.ident with seed := seed },
                    tr := { x.tr with chain := slice v.header 48 16, seq := fld v.header 40 8, refPos := 0, attemptRecs := [] } }
  let s1 := modCtx (remap c (imageMaps l) (setCtx s c y)) c fun y => rebind y ((imageEntries l).getD [])
  restoreTensors s1 c v ((v.shards.filter (·.kind == 1)).foldl (fun a h => addNew a h.call) [])

/-- Shards that X held for this patron are re-created on the reserve, as zeros; learned state is filled from the volume after this. -/
def dropRemote (s : State) (dev : Nat) (x : Ctx) : Ctx := { x with peerMem := tdel x.peerMem (peerIndex s dev), peerPoison := tdel x.peerPoison (peerIndex s dev) }

/-- The member reports its epoch and attempt counter to the reserve. -/
def report (s : State) (reserve : Nat) (y : Ctx) : State :=
  (post s 0 reserve 9 0 (floodBody 7 [y.ident.job, y.gate.epoch, y.gate.attempt])).emit (.takeoverReport reserve y.ident.job y.gate.epoch y.gate.attempt)

/-- One member's part: end, restore, PAUSED, report. Without the restore point's volume the context is FAULTED (R555). -/
def memberTakeover (s : State) (dev reserve point c : Nat) : State :=
  let s1 := modCtx (endForTakeover s c) c (dropRemote s dev)
  match getCtx s1 c with
  | none => s1
  | some x =>
    let s2 := match volumeOf x point with
      | some v => modCtx (restorePart s1 c x v) c fun y => pauseNow { y with ident := { y.ident with awaitReady := true }, restorePoint := some point }
      | none => modCtx s1 c faultNow
    match getCtx s2 c with
    | some y => report (eventRec s2 c Status.etakeover.code dev) reserve y
    | none => s2

/-- The contexts of X's jobs on this device, with each job's restore point. -/
def affected (s : State) (dev : Nat) (points : List (Nat × Nat)) : List (Nat × Nat) :=
  s.ctxs.filterMap fun p => if p.2.ident.standby || !hasMember p.2 dev then none else (points.find? (·.1 == p.2.ident.job)).map fun q => (p.1, q.2)

/-- A repaired module has taken its coordinate back: no detour, not lost. The reserve that stood for it is the device lost now: its contexts of
the job end and stand by again (R521; log 150). -/
def takenBack (s : State) (dev : Nat) (f : Nat × List Nat) : State :=
  let held : Bool := s.fabric.adopted == some dev
  let s1 := if detourKnown s (.remove dev) then s else detourStep s (.remove dev)
  let f2 : Fabric := { s1.fabric with lost := s1.fabric.lost.filter (· != dev), floods := s1.fabric.floods ++ [f] }
  let s2 : State := { s1 with fabric := if held then { f2 with points := [], buddies := [] } else f2 }
  if !held then s2 else
  ((s2.ctxs.filter fun p => hasMember p.2 dev).map (·.1)).foldl (fun s c => modCtx (endForTakeover s c) c fun y =>
    (pauseNow { y with ident := { y.ident with standby := true } })) s2

/-- A takeover message that is new is passed on and takes effect; a flood comes over every port. -/
def takeover (s : State) (dev reserve : Nat) (points : List (Nat × Nat)) : State :=
  let f := (1, [dev, reserve] ++ points.flatMap fun (p : Nat × Nat) => [p.1, p.2])
  if (if dev = reserve then s.fabric.floods.contains f else detourKnown s (.add dev reserve)) then s else
  let s0 : State := { s with fabric := { s.fabric with floods := s.fabric.floods.filter fun f => !(f.1 == 2 && f.2.headD 0 == dev) } }
  let s1 := flood (if dev = reserve then takenBack s0 dev f else detourStep (refuseCerts s0 dev) (.add dev reserve)) f.1 f.2
  (affected s dev points).foldl (fun s p => memberTakeover s dev reserve p.2 p.1) s1

def execTakeoverReceive (x reserve : Nat) (points : List (Nat × Nat)) (s : State) : Outc :=
  .next (if s.running then takeover s x reserve points else s)

/-! ### The reserve's own contexts (R517, R518) -/

/-- The streamed volume passes checks 1 to 5, and the context is rebuilt from it; otherwise the takeover cannot complete. -/
def streamIn (s : State) (c : Nat) (x : Ctx) (dev : Nat) (volume : Bytes) : State :=
  match volumesCheck x [volume] with
  | some _ => refuseTakeover s dev (adoptedJobs s)
  | none =>
    match rebuild s c x [(readVolume volume).v] [] false with
    | .error _ => refuseTakeover s dev (adoptedJobs s)
    | .ok s1 => modCtx s1 c fun y => { y with streamed := true, ident := { y.ident with st := .paused, standby := false, awaitReady := true } }

def execTakeoverVolumeStreamed (c : Nat) (volume : Bytes) (s : State) : Outc :=
  .next (match getCtx s c, s.fabric.adopted with
    | some x, some dev =>
      if portsRun s && x.ident.standby && x.ident.st == .opened && s.fabric.points.contains (dev, x.ident.job, (readVolume volume).v.step) then
        streamIn s c x dev volume else s
    | _, _ => s)

/-- Epoch and attempt counter that every member adopts. -/
def adoptEpoch (s : State) (c epoch counter : Nat) : State :=
  let s1 := modCtx s c fun x => { x with gate := { x.gate with epoch := epoch % 2 ^ 32, attempt := counter }, ident := { x.ident with awaitReady := false }, streamed := false }
  releaseHeld s1 c

/-- Every other member of the norm group has reported. -/
def allReported (s : State) (x : Ctx) (dev : Nat) (reports : List (Nat × Nat × Nat)) : Bool :=
  match jobMember s x with
  | none => false
  | some k => (List.range k.m).all fun r => k.coord r == dev || reports.any fun q => q.1 == k.coord r

/-- The ready message: one more than the largest epoch and the largest counter reported. -/
def sendReady (s : State) (c : Nat) (x : Ctx) (reports : List (Nat × Nat × Nat)) : State :=
  let e := 1 + reports.foldl (fun m q => max m q.2.1) 0
  let a := 1 + reports.foldl (fun m q => max m q.2.2) 0
  adoptEpoch (flood s 3 [x.ident.job, e, a]) c e a

def execTakeoverReady (c : Nat) (reports : List (Nat × Nat × Nat)) (s : State) : Outc :=
  .next (match getCtx s c, s.fabric.adopted with
    | some x, some dev => if portsRun s && x.streamed && x.ident.awaitReady && allReported s x dev reports then sendReady s c x reports else s
    | _, _ => s)

/-- A member whose buddy X was drains its restore-point slot to the reserve: the slot counts as not drained. -/
def redrain (s : State) (x : Ctx) : Ctx :=
  let again (v : VSlot) : VSlot := if some v.step == x.restorePoint && v.vol.isSome && s.fabric.lost.contains (buddyCoord s x) then
      { v with drained := false, draining := false, target := 1 } else v
  { x with vols := { x.vols with slot0 := again x.vols.slot0, slot1 := again x.vols.slot1 },
           restorePoint := none }

def execReadyReceive (c epoch counter : Nat) (s : State) : Outc :=
  .next (match getCtx s c with
    | some x => if s.running && x.ident.awaitReady && !x.streamed then
        modCtx (adoptEpoch (passOn s 3 [x.ident.job, epoch, counter]) c epoch counter) c (redrain s) else s
    | none => s)

/-! ### Refusal (R520) -/

/-- A member's attempt ends with ETAKEOVER and is rolled back; one that has sealed ends its commit first. -/
def memberRefused (s : State) (c : Nat) : State :=
  match getCtx s c with
  | none => s
  | some x =>
    let s1 := match x.att with
      | some a => if beforeSeal a.phase then finishAttempt (rollBack s c a) c (cutOutcome a.phase) .etakeover
                  else setCtx s c (endingRun .etakeover x)
      | none => endRun s c .etakeover
    modCtx s1 c fun y => let z := { y with ident := { y.ident with awaitReady := false } }
                         if z.run.isSome then z else pauseNow z

def execTakeoverRefusal (x : Nat) (jobs : List Nat) (s : State) : Outc :=
  .next (if s.running && !s.fabric.floods.contains (2, x :: jobs) then
      ((s.ctxs.filter fun p => jobs.contains p.2.ident.job && hasMember p.2 x && !p.2.ident.standby).map (·.1)).foldl memberRefused
        (passOn (refuseCerts s x) 2 (x :: jobs))
    else s)

end Sys2Proof.Machine
end

