-- ==== Sys2Proof/Machine/Lifecycle.lean ====
section
/-! DEFINITION. Resets of functions, failover, orphans, draining, scrubbing, containment (R18, R300, R313, R374, R505, R523, R524, R546, R554, R555, R558–R562). -/

namespace Sys2Proof.Machine

/-! ### Reset of a function (R558–R560) -/

/-- Functions that exist for the machine: those with registers or contexts. -/
def knownFns (s : State) : List Nat :=
  s.ctxs.foldl (fun l p => insertN l p.2.ident.fn) (s.host.funs.foldl (fun l p => insertN l p.1) [])

/-- Functions a port presents; in active/standby mode both ports present them all (R523). -/
def fnsOfPort (s : State) (port : Nat) : List Nat := (knownFns s).filter fun fn => port < 2 && (!s.host.twoHost || fnPort s fn == port)

/-- A long command or RESHARD ends inside the device, without an entry and without a volume. -/
def dropLong (x : Ctx) : Ctx :=
  let v := match x.long with | some l => (match l.slot with | some n => slotReaders (· - 1) n x.vols | none => x.vols) | none => x.vols
  { x with long := none, reshard := none, vols := v }

/-- The number of a queue that no context has: what completes there is written nowhere. -/
def noQueue (c : Nat) : QRef := .ctx c 8

/-- A context loses its queues and the commands in flight; an attempt fails with EABORTED unless it has sealed. -/
def cutQueues (now c : Nat) (x : Ctx) : Ctx :=
  let y := abandonRun now (dropLong x)
  { y with queues := [], cmds := [], closing := none, run := y.run.map fun r => { r with q := noQueue c, prog := false } }

/-- States from OPEN to CHECKPOINTING, and FAULTED. -/
def orphanable (x : Ctx) : Bool := x.inState [.opened, .ready, .running, .paused, .checkpointing, .faulted]

/-- The context is ORPHANED, until its deadline. -/
def orphan (s : State) (c : Nat) (x : Ctx) : State :=
  let y := cutQueues s.now c x
  let z := { y with ident := { y.ident with st := .orphaned, prior := x.ident.st, deadline := s.now + s.host.grace * 1000000000 } }
  endIdleRun (setCtx s c z) c .eaborted

/-- A context of a function that is reset; one that drains or scrubs goes on without the command that closed it. -/
def resetCtx (s : State) (c : Nat) : State :=
  match getCtx s c with
  | none => s
  | some x =>
    if orphanable x then orphan s c x
    else if x.inState [.draining, .scrubbing] then setCtx s c { x with queues := [], cmds := [], closing := none, run := x.run.map fun r => { r with q := noQueue c, prog := false } }
    else s

/-- Migrations whose every RETIRE came from the function end with it; others go on without its entries. -/
def dropMigrations (s : State) (fn : Nat) : State :=
  let mine := s.si.migrations.filter fun m => m.2.2.2.all (fun q => q.1 == .admin fn)
  { s with si := { s.si with migrations := (s.si.migrations.filter fun m => !mine.contains m).map fun m => (m.1, m.2.1, m.2.2.1, m.2.2.2.filter fun q => q.1 != .admin fn),
                             scrubbing := s.si.scrubbing.filter fun f => !(mine.any fun m => m.2.1 == f) } }

/-- The reset point of a function. -/
def resetFn (s : State) (fn : Nat) : State :=
  let s1 := setFun s fn { getFun s fn with en := false, adm := Queue.none, cmds := [], mute := true }
  let s2 := dropMigrations s1 fn
  ((s2.ctxs.filter fun p => p.2.ident.fn == fn).map (·.1)).foldl resetCtx s2

def resetPort (s : State) (port : Nat) : State := (fnsOfPort s port).foldl resetFn s

/-- The functions a reset reaches: a physical function takes its virtual functions with it. -/
def resetFns (s : State) (k : ResetKind) : List Nat :=
  match k with
  | .flr fn => if isPf s fn then (knownFns s).filter (samePort s fn) else [fn]
  | .hot port => fnsOfPort s port
  | .linkDown port => fnsOfPort s port

/-- A host port's link state. -/
def setLink (s : State) (port : Nat) (up : Bool) : State :=
  { s with host :=
      if port = 0 then { s.host with up0 := up, out0 := if s.host.up0 && !up then s.now else s.host.out0 }
      else { s.host with up1 := up, out1 := if s.host.up1 && !up then s.now else s.host.out1 } }

def functionReset (s : State) (k : ResetKind) : State :=
  let s1 := (resetFns s k).foldl resetFn s
  match k with | .linkDown port => if port < 2 then setLink s1 port false else s1 | _ => s1

def execFunctionReset (kind : ResetKind) (t : Nat) (s : State) : Outc :=
  let s := s.at t
  .next (if s.running then functionReset s kind else s)

/-- The other port becomes active, after what a hot reset of the active one does (R524). -/
def failover (s : State) : State :=
  let s1 := resetPort s s.host.active
  { s1 with host := { s1.host with active := 1 - s.host.active } }

/-! ### Failover, and management requests (R524, R565) -/

/-- A request that has been acted upon is answered from its stored response. -/
def managed (s : State) (iid : Nat) (req : MgmtReq) (reply : Answer → Out) (act : State → State × Answer) : State :=
  match s.mgmt.responses.find? fun r => r.1 == iid && r.2.1 == req with
  | some r => s.emit (reply r.2.2)
  | none =>
    let r := act s
    { r.1 with mgmt := { r.1.mgmt with responses := (iid, req, r.2) :: r.1.mgmt.responses } }.emit (reply r.2)

/-- The active link has been out of L0 for 100 ms. -/
def linkOut (s : State) : Bool :=
  if s.host.active = 0 then !s.host.up0 && decide (s.host.out0 + 100000000 ≤ s.now) else !s.host.up1 && decide (s.host.out1 + 100000000 ≤ s.now)

/-- The cause: the active link has been out for 100 ms, its PERST_N is low, or management asks, by a request that carries an instance id (R565). -/
def failoverBy (s : State) (cause : FailoverCause) : State :=
  match cause with
  | .linkOut => if linkOut s then failover s else s
  | .perst => if !(if s.host.active = 0 then s.pins.perst0 else s.pins.perst1) then failover s else s
  | .management iid => managed s iid .failover (.pldm iid) fun s => (failover s, .ok)

def execPortFailover (cause : FailoverCause) (t : Nat) (s : State) : Outc :=
  let s := s.at t
  .next (if s.running && !s.host.twoHost then failoverBy s cause else s)

/-! ### The end of an orphan (R562) -/

/-- DRAINING without a CLOSE. -/
def expire (s : State) (c : Nat) (x : Ctx) : State :=
  let y := cutQueues s.now c x
  endIdleRun (setCtx s c { y with ident := { y.ident with st := .draining } }) c .eaborted

def execOrphanGraceExpiry (c t : Nat) (s : State) : Outc :=
  let s := s.at t
  .next (match getCtx s c with
    | some x => if s.running && x.ident.st == .orphaned && x.ident.deadline ≤ s.now then expire s c x else s
    | none => s)

/-! ### Draining and scrubbing (R300, R313, R551, R554) -/

/-- Nothing of the context is in flight. -/
def drained (x : Ctx) : Bool := x.att.isNone && x.run.isNone && x.long.isNone && x.reshard.isNone && !slicedRuns x

/-- Carrels leave the context. -/
def leaveCarrels (s : State) (c : Nat) : State := { s with si := { s.si with carrelCtx := s.si.carrelCtx.filter fun p => p.2 != c } }

/-- SCRUBBING: the keys are destroyed in every slot. -/
def beginScrub (s : State) (c : Nat) (x : Ctx) : State :=
  leaveCarrels (setCtx (destroyKey s (c + 1)) c { x with ident := { x.ident with st := .scrubbing, xtsKey := false, jobKey := none, volKey := none } }) c

def execDrainingDone (c : Nat) (s : State) : Outc :=
  .next (match getCtx s c with
    | some x => if s.running && x.ident.st == .draining && drained x then beginScrub s c x else s
    | none => s)

/-- Every frame a context holds, those of a round and vacated ones included. -/
def allFrames (s : State) (c : Nat) (x : Ctx) : List Nat :=
  (s.mem.owner.filter fun p => p.2 == c).map (·.1) ++ x.cat.vacated.map (·.1) ++ (match x.cat.round with | some r => r.2.flatMap (·.frames) | none => [])

/-- FREE: CLOSE completes, every frame is overwritten and freed, nothing of the context is left. -/
def endScrub (s : State) (c : Nat) (x : Ctx) : State :=
  let s1 := match x.closing with | some q => complete s q.1 q.2 .success 0 | none => s
  let l := allFrames s1 c x
  let s2 := freeFrames s1 l
  delCtx { s2 with si := { s2.si with scrubbing := s2.si.scrubbing.filter fun f => !l.contains f },
                   fabric := { s2.fabric with partners := s2.fabric.partners.filter fun p => p.ctx != c } } c

def execScrubDone (c : Nat) (s : State) : Outc :=
  .next (match getCtx s c with | some x => if s.running && x.ident.st == .scrubbing then endScrub s c x else s | none => s)

/-! ### Containment (R18, R555) -/

/-- States that a containment fault leaves. -/
def containable (x : Ctx) : Bool := x.inState [.ready, .running, .paused, .checkpointing]

/-- Every logical carrel of the grant has been withdrawn. -/
def grantGone (s : State) (x : Ctx) : Bool := !(x.ident.grant.any fun l => carrelIn s l)

/-- FAULTED: what runs ends with EABORTED; an attempt whose vote has passed ends its commit first (R371). -/
def contain (s : State) (c : Nat) (x : Ctx) (keyLost : Bool) : State :=
  let y := x.setSt .faulted
  let s1 := setCtx (if keyLost then destroyKey s (c + 1) else s) c { y with ident := if keyLost then { y.ident with xtsKey := false } else y.ident }
  let s2 := match x.att with
    | some a => if beforeSeal a.phase then finishAttempt s1 c (cutOutcome a.phase) .eaborted else modCtx s1 c (endingRun .eaborted)
    | none => endRun s1 c .eaborted
  completePauses (endLong s2 c .eaborted 0) c

def execContainmentFault (c : Nat) (cause : ContainCause) (s : State) : Outc :=
  .next (match getCtx s c with
    | some x => if s.running && containable x && (cause != .emptyGrant || grantGone s x) then contain s c x (cause == .keyLost) else s
    | none => s)

end Sys2Proof.Machine
end

