-- ==== Sys2Proof/Machine/Loops.lean ====
section
/-! DEFINITION. Metered holds, clock control loops, the power cap and the coolant check, with the rule of stored management responses
(R24, R472–R476, R565, R595, R596, R612, R630, R631, R634, R645, R646). -/

namespace Sys2Proof.Machine

/-! ### Metered holds (R472, R476) -/

/-- Pages of the metered domain (R471): no firmware core, host port or fabric port page. -/
def inDomain (p : Nat) : Bool := classOf p != 0x02 && classOf p != 0x05 && classOf p != 0x09 && classOf p != 0x0C

/-- Hold beats counted on every page of the domain that counts anything (source 0x006 of R612). -/
def countHold (s : State) (c n : Nat) : State := ((s.regs.pages.map (·.1)).filter inDomain).foldl (fun s p => countEv s p 0x006 n (some c)) s

/-- The running attempt of a context under metered timing. -/
def meteredAtt (s : State) (c : Nat) : Option Attempt := ((getCtx s c).bind (·.att)).filter (·.meteredOn)

/-- One hold of a metered attempt: its meter and the beats it has counted, and the domain's counters. -/
def hold (s : State) (c n : Nat) (f : Attempt → Attempt) : State := countHold (modAtt s c f) c n

/-- Beats below `n` that lie in refresh windows, which come at fixed numbers (R476). -/
def refreshBelow (n : Nat) : Nat := n / 96 * 9 + min 9 (n % 96)

/-- The beats of a refresh window that belong to an attempt, one that has not been counted (R476). -/
def refreshBeats (a : Attempt) (beat : Nat) : Nat :=
  if beat % 96 ≠ 0 ∨ a.held.refresh.any (beat ≤ ·) = true then 0 else beat + 9 - max beat (a.start / 40)

/-- A refresh hold lasts 9 beats, at each beat whose number is a multiple of 96: all 16 stacks refresh together (R290, R472). -/
def execMeteredRefreshHold (c beat : Nat) (s : State) : Outc :=
  .next (match meteredAtt s c with
    | some a => if refreshBeats a beat = 0 then s else
      (List.range 16).foldl refreshed (hold s c (refreshBeats a beat) fun a =>
        { a with meter := { a.meter with refresh := a.meter.refresh + refreshBeats a beat }, held := { a.held with refresh := some beat } })
    | none => s)

/-- Where the new beats of an outside hold begin: within the attempt, past those already counted. -/
def outsideFrom (a : Attempt) (b : BeatSpan) : Nat := a.held.outside.foldl (fun m p => max m p.2) (max b.first (a.start / 40))

/-- The beats of an outside hold that no other column counts (R476). -/
def outsideBeats (a : Attempt) (b : BeatSpan) : Nat :=
  let lo := outsideFrom a b
  let hi := b.first + b.count
  hi - lo - (refreshBelow hi - refreshBelow lo) - (a.held.droop.filter fun k => lo ≤ k && k < hi).length

def execMeteredOutsideHold (c : Nat) (span : BeatSpan) (s : State) : Outc :=
  .next (match meteredAtt s c with
    | some a => if span.first + span.count ≤ outsideFrom a span then s else
      hold s c (outsideBeats a span) fun a =>
        { a with meter := { a.meter with outside := a.meter.outside + outsideBeats a span },
                 held := { a.held with outside := a.held.outside ++ [(outsideFrom a span, span.first + span.count)] } }
    | none => s)

def bump (l : List (Island × Nat)) (i : Island) (f : Nat → Nat) : List (Island × Nat) :=
  match l.find? (·.1 == i) with
  | some p => (i, f p.2) :: l.filter (·.1 != i)
  | none => (i, f 0) :: l

/-- A page for an island: that of its carrel, bay, wing router, controller, annex or hub die. -/
def islandPage (i : Island) : Nat :=
  match i with
  | .carrel p => pgCarrel p
  | .bay b => pgBay b
  | .router w => 0x080 + w
  | .memctl k => pgMem k
  | .annex a => pgAnnex a
  | .hub h => 0x010 + h

def islandOk (i : Island) : Bool :=
  match i with
  | .carrel p => p < 1248
  | .bay b => b < 96
  | .router w => w < 24
  | .memctl k => k < 16
  | .annex a => a < 4
  | .hub h => h < 4

/-- A droop hold counts one beat of the attempt, unless a refresh window or an earlier droop counts it; one counted as outside is droop (R476). -/
def droopCounts (a : Attempt) (beat : Nat) : Bool := 9 ≤ beat % 96 && a.start / 40 ≤ beat && !a.held.droop.contains beat

def execMeteredDroopHold (c : Nat) (at_ : DroopBeat) (s : State) : Outc :=
  .next (match meteredAtt s c with
    | some a => if islandOk at_.isl && droopCounts a at_.beat then
        (let was := a.held.outside.any fun p => p.1 ≤ at_.beat && at_.beat < p.2
         hold s c (if was then 0 else 1) fun a =>
          { a with meter := { a.meter with droop := a.meter.droop + 1, outside := a.meter.outside - if was then 1 else 0 },
                   held := { a.held with droop := a.held.droop ++ [at_.beat] } })
      else s
    | none => s)

/-! ### Droop (R24, R595, R596, R634) -/

/-- The detector stretches the island's clock for one cycle, without firmware. -/
def stretch (s : State) (i : Island) : State :=
  let s1 := countEv s (islandPage i) 0x005 1
  { s1 with control := { s1.control with stretches := bump s1.control.stretches i (· + 1), lastStretch := bump s1.control.lastStretch i fun _ => s1.now } }

def execDroopStretch (i : Island) (s : State) : Outc := .next (if s.released && islandOk i then stretch s i else s)

def setDrop (k : Control) (d : Drop) : Control :=
  let l := k.drops.filter (·.island != d.island)
  { k with drops := if d.droop + d.cap + d.heat = 0 then l else l ++ [d] }

def modDrop (f : Drop → Drop) (s : State) (i : Island) : State := { s with control := setDrop s.control (f (dropOf s.control i)) }

/-- An island above rung 0 loses one rung to a loop. -/
def lower (f : Drop → Drop) (s : State) (i : Island) : State := if islandRung s i = 0 then s else modDrop f s i

/-- The loops run: the conservator is up, and no live update holds the rungs (R592, R597). -/
def loopsRun (s : State) : Bool := s.running && coreUp s .conservator && s.fw.live.isNone

def adjustable (i : Island) : Bool := match i with | .memctl _ => false | _ => true

/-- Islands with more than 64 stretches in the period lose a rung; after 10 ms without a stretch an island regains what droop took. -/
def droopTick (s : State) : State :=
  let overs := (s.control.stretches.filter fun p => 64 < p.2 && adjustable p.1).map (·.1)
  let s1 := overs.foldl (lower fun d => { d with droop := d.droop + 1 }) s
  let clean (i : Island) : Bool := match s.control.lastStretch.find? (·.1 == i) with | some p => p.2 + 10000000 ≤ s.now | none => true
  let back := (s.control.drops.filter fun d => d.droop != 0 && clean d.island).map (·.island)
  let s2 := back.foldl (modDrop fun d => { d with droop := 0 }) s1
  { s2 with control := { s2.control with stretches := [] } }

/-- Under metered timing the loop never acts: the period ends, and nothing else. -/
def execDroopPersistenceTick (t : Nat) (s : State) : Outc :=
  let s := s.at t
  .next (if !loopsRun s then s
    else if (meteredSet s).isSome then { s with control := { s.control with stretches := [] } } else droopTick s)

/-! ### Power (R595, R630) -/

/-- The islands the cap loop moves: every carrel that is powered, and every bay fabric. -/
def capIslands (s : State) : List Island :=
  ((List.range 1248).filter fun p => !pageAsleep s (pgCarrel p)).map Island.carrel ++ (List.range 96).map Island.bay

/-- A metered attempt whose clock set is left shows it (R475). -/
def clockLeft (s : State) : State :=
  if s.control.drops.isEmpty then s else meterAll s fun m => { m with clock := true }

/-- One period over the cap: a rung down. -/
def capDown (s : State) : State :=
  clockLeft ((capIslands s).foldl (lower fun d => { d with cap := d.cap + 1 }) { s with control := { s.control with under := 0 } })

/-- Periods more than 3% below the cap: after ten of them a rung up each. -/
def capUp (s : State) : State :=
  let s1 := { s with control := { s.control with under := s.control.under + 1 } }
  if s.control.under < 10 then s1
  else ((s.control.drops.filter fun d => d.cap != 0).map (·.island)).foldl (modDrop fun d => { d with cap := d.cap - 1 }) s1

/-- Islands climb from the safe rung by one rung per 100 µs (R584's timeline, R597). -/
def climbOne (s : State) : State := { s with control := { s.control with climb := min 16 (s.control.climb + 1) } }

def capTick (s : State) (watts : Nat) : State :=
  if s.control.cap < watts then capDown s
  else if 100 * watts < 97 * s.control.cap then climbOne (capUp s)
  else climbOne { s with control := { s.control with under := 0 } }

def execPowerCapTick (t watts : Nat) (s : State) : Outc :=
  let s := s.at t
  .next (if loopsRun s then capTick s watts else s)

/-! ### Temperature (R595, R631) -/

/-- The wing a stack is wired to (R13). -/
def wingOfStack (k : Nat) : Nat := [0, 1, 2, 3, 4, 5, 6, 11, 12, 17, 18, 19, 20, 21, 22, 23].getD k 0

def wingIslands (w : Nat) : List Island :=
  (List.range 52).map (fun p => Island.carrel (52 * w + p)) ++ (List.range 4).map (fun b => Island.bay (4 * w + b)) ++ [.router w]

/-- Dies by number: 24 wings, 4 annexes, 4 hubs, and the 16 stacks, which throttle the wing they hang on. -/
def dieIslands (d : Nat) : List Island :=
  if d < 24 then wingIslands d else if d < 28 then [.annex (d - 24)] else if d < 32 then [.hub (d - 28)] else wingIslands (wingOfStack (d - 32))

/-- A die's hottest sensor; one that the reading does not list is cool. -/
def heatOf (hot : List (Nat × Int)) (d : Nat) : Int := match hot.find? (·.1 == d) with | some p => p.2 | none => 0

/-- The die has been at 80 °C or less for 100 ms, and still is. -/
def cooled (hot : List (Nat × Int)) (s : State) (d : Nat) : Bool :=
  heatOf hot d ≤ 80 && (match s.control.cool.find? (·.1 == d) with | some p => p.2 + 100000000 ≤ s.now | none => false)

/-- Islands that rise again with a die: a wing's only once its stacks are cool too; a stack alone lets none rise. -/
def risingIslands (hot : List (Nat × Int)) (s : State) (d : Nat) : List Island :=
  if 32 ≤ d then []
  else if d < 24 ∧ ((List.range 16).filter fun k => wingOfStack k == d).all (fun k => cooled hot s (32 + k)) = false then []
  else dieIslands d

/-- One die: above 85 °C down, at 80 °C or less for 100 ms up. -/
def dieTick (hot : List (Nat × Int)) (s : State) (d : Nat) : State :=
  let v := heatOf hot d
  let rest := s.control.cool.filter (·.1 != d)
  if 85 < v then
    (dieIslands d).foldl (lower fun d => { d with heat := d.heat + 1 }) { s with control := { s.control with cool := rest } }
  else if 80 < v then { s with control := { s.control with cool := rest } }
  else match s.control.cool.find? (·.1 == d) with
    | none => { s with control := { s.control with cool := rest ++ [(d, s.now)] } }
    | some p =>
      if p.2 + 100000000 ≤ s.now then (risingIslands hot s d).foldl (modDrop fun d => { d with heat := d.heat - 1 }) s else s

/-- Dies that matter: those read, and those with rungs to regain. -/
def thermalTick (s : State) (hot : List (Nat × Int)) : State :=
  let s1 := (List.range 48).foldl (dieTick hot) s
  if s.control.drops == s1.control.drops then s1 else clockLeft s1

def execThermalTick (t : Nat) (hot : List (Nat × Int)) (s : State) : Outc :=
  let s := s.at t
  .next (if loopsRun s then thermalTick s hot else s)

/-! ### Management requests (R564, R565) -/

/-- A PLDM event goes to the event receiver, where one has been set. -/
def pldmEvent (s : State) (e : MgmtEvent) : State :=
  let s1 := { s with mgmt := { s.mgmt with events := s.mgmt.events ++ [e] } }
  s1.emit (.event s1.mgmt.eventReceiver e)

/-- The numeric effecter of the power cap: 2,500 to 7,200 W. -/
def capSet (watts : Nat) (s : State) : State × Answer :=
  if 2500 ≤ watts ∧ watts ≤ 7200 then ({ s with control := { s.control with cap := watts } }, .ok) else (s, .of .earg)

def execPowerCapSet (iid watts : Nat) (s : State) : Outc :=
  .next (if s.running then managed s iid (.powerCap watts) (.pldm iid) (capSet watts) else s)

/-! ### Coolant (R645, R646) -/

/-- The derived flow in mL/min lies below max(2, 6 P / 7,200 W) L/min for `watts` of input power. -/
def flowLow (flow watts : Nat) : Bool := flow * 7200 < max (2000 * 7200) (6000 * watts)

/-- A flow too low for 10 s sends one event. -/
def flowCheck (s : State) (low : Bool) : State :=
  if !low then { s with control := { s.control with flowSince := none, flowEvent := false } }
  else match s.control.flowSince with
    | none => { s with control := { s.control with flowSince := some s.now } }
    | some t0 =>
      if t0 + 10000000000 ≤ s.now ∧ s.control.flowEvent = false then
        pldmEvent { s with control := { s.control with flowEvent := true } } .flow
      else s

def execCoolantFlowCheck (t flow watts : Nat) (s : State) : Outc :=
  let s := s.at t
  .next (if s.running && coreUp s .conservator then flowCheck s (flowLow flow watts) else s)

end Sys2Proof.Machine
end

