-- ==== Sys2Proof/Machine/Power.lean ====
section
/-! DEFINITION. Pins, power, trips and resets of the whole device, and the boot ROM (R523, R576, R580, R581, R586, R625–R633, R636,
R640–R644, R648, R650, R652). -/

namespace Sys2Proof.Machine

/-! ### What a reset of the device leaves (R312, R565, R575, R583, R633, R642, R644) -/

/-- The device stops: only flash, fuses, pins, and the world around it remain; device time goes on while power lasts, and so do the
stored management responses. -/
def resetDevice (s : State) (powered : Bool) : State :=
  { State.reset with
    pins := s.pins
    clock := if powered then { Clock.reset with now := s.clock.now } else Clock.reset
    fw := { Firmware.reset with ctl0 := s.fw.ctl0, ctl1 := s.fw.ctl1, config := s.fw.config, slotA := s.fw.slotA, slotB := s.fw.slotB,
                                written := s.fw.written,
                                floor := s.fw.floor, revoked := s.fw.revoked, crashLog := s.fw.crashLog }
    mgmt := if powered then { Mgmt.reset with responses := s.mgmt.responses } else Mgmt.reset
    si := { Silicon.reset with ring := s.si.ring }
    hostMem := s.hostMem
    free := s.free
    out := s.out
    pending := s.pending }

/-- Power is lost: the write of a boot control copy since which no time has passed may be cut short, with its first bytes written and the rest
erased (R576; log 156). -/
def cutWrite (s : State) : State :=
  match s.fw.writing with
  | none => s
  | some (one, t0) =>
    if t0 < s.now then s else
    let n := s.fresh
    let torn (b : Bytes) : Bytes := let k := (Config.cutAfter n.1).toNat; b.take k ++ erased (32 - k)
    { n.2 with fw := if one then { n.2.fw with ctl1 := torn n.2.fw.ctl1 } else { n.2.fw with ctl0 := torn n.2.fw.ctl0 } }

/-- The input switch opens and PWR_GOOD falls: the device is reset at the same moment. -/
def powerLost (s : State) (pins : Pins) : State :=
  resetDevice { cutWrite s with pins := { pins with inputSwitch := false, pwrGood := false } } false

/-- The input switch closes and the rails come up. -/
def powerUp (s : State) : State := { s with pins := { s.pins with inputSwitch := true, pwrGood := true, tripped := false } }

/-! ### Trips and PWR_EN (R629, R632, R633, R644, R648) -/

/-- The readings sampled at the trip fit its condition: volts, amperes, degrees. -/
def tripOk (cause : TripCause) (volts amps : Nat) (temp : Int) : Bool :=
  match cause with
  | .overvoltage => 57 < volts
  | .undervoltage => volts < 45
  | .overcurrent => 165 < amps
  | .logicJunction => 105 ≤ temp
  | .hbmJunction => 100 ≤ temp
  | .coolantOutlet => 75 ≤ temp
  | .railFault => true

def trip (s : State) (cause : TripCause) (volts amps : Nat) (temp : Int) : State :=
  powerLost s { s.pins with tripped := true, tripCause := some cause, tripVolts := volts, tripAmps := amps, tripTemp := temp,
                            tripCount := s.pins.tripCount + 1 }

def execHardwareTrip (cause : TripCause) (volts amps : Nat) (temp : Int) (_t : Nat) (s : State) : Outc :=
  .next (if s.pins.inputSwitch && tripOk cause volts amps temp then trip s cause volts amps temp else s)

/-- PWR_EN may close the switch: the loop is closed, and a trip has been cleared by a second with PWR_EN low. -/
def mayClose (p : Pins) (t : Nat) : Bool := p.presence && p.aux && (!p.tripped || p.pwrEnLow + 1000000000 ≤ t)

def pwrEnRise (s : State) (t : Nat) : State :=
  let s1 := { s with pins := { s.pins with pwrEn := true } }
  if mayClose s.pins t then powerUp s1 else s1

def execPwrEnRise (t : Nat) (s : State) : Outc := .next (if s.pins.pwrEn then s else pwrEnRise s t)

/-- PWR_EN falls with MOD_RESET_N low: the orderly end. -/
def execPwrEnFall (t : Nat) (s : State) : Outc :=
  .next (if s.pins.pwrEn && !s.pins.modReset then powerLost s { s.pins with pwrEn := false, pwrEnLow := t } else s)

/-- PWR_EN or the main input drops with MOD_RESET_N released. -/
def execSurprisePowerDown (t : Nat) (s : State) : Outc :=
  .next (if s.pins.pwrGood && s.pins.modReset then powerLost s { s.pins with pwrEn := false, pwrEnLow := t } else s)

/-- The presence loop opens the switch, whatever PWR_EN says. -/
def execPresenceLoopOpen (_t : Nat) (s : State) : Outc :=
  .next (if s.pins.presence then powerLost s { s.pins with presence := false } else s)

/-- The module seats: the auxiliary rail comes up afresh, so that neither a trip record nor a latched trip is left (R633). -/
def seat (s : State) : State :=
  let s1 := { s with pins := { s.pins with presence := true, aux := true, tripped := false, tripCause := none, tripVolts := 0, tripAmps := 0,
                                           tripTemp := 0, tripCount := 0, serviceLed := false } }
  if s.pins.pwrEn then powerUp s1 else s1

def execPresenceLoopClose (_t : Nat) (s : State) : Outc := .next (if s.pins.presence then s else seat s)

/-! ### MOD_RESET_N and the boot ROM (R576, R580, R581) -/

def execModResetAssert (s : State) : Outc :=
  .next (if s.pins.modReset then resetDevice { s with pins := { s.pins with modReset := false } } s.pins.pwrGood else s)

/-- The copy of the boot control block in force, and whether it is copy 1: the one of valid magic and CRC, the higher seq of two. -/
def bootCtl (f : Firmware) : Option (BootCtl × Bool) :=
  match BootCtl.ofBytes f.ctl0, BootCtl.ofBytes f.ctl1 with
  | some a, some b => some (if b.seq ≤ a.seq then (a, false) else (b, true))
  | some a, none => some (a, false)
  | none, some b => some (b, true)
  | none, none => none

/-- An update writes the other copy. -/
def writeCtl (f : Firmware) (now : Nat) (upd : BootCtl → BootCtl) : Firmware :=
  match bootCtl f with
  | none => { f with ctl0 := (upd ⟨1, 0, 0, 0, 0⟩).toBytes, writing := some (false, now) }
  | some (b, one) =>
    let n := (upd { b with seq := (b.seq + 1) % 2 ^ 32 }).toBytes
    if one then { f with ctl0 := n, writing := some (false, now) } else { f with ctl1 := n, writing := some (true, now) }

def slotImage (f : Firmware) (slot : Nat) : Option Image := if slot = 0 then f.slotA else f.slotB

/-- The first of R580's six checks that an image fails; 0 where it passes. -/
def imageCheck (f : Firmware) (img : Option Image) : Nat :=
  match img with
  | none => 1
  | some i =>
    if !(i.magic == 0x52415A49 && i.hversion == 1 && i.reservedZero && 4 ≤ i.components.length && i.components.length ≤ 16
         && i.components.all (fun c => 512 + 64 * i.components.length ≤ c.offset && c.offset % 4096 == 0 && c.offset + c.size ≤ i.length)
         && i.length ≤ slotBytes) then 1
    else if !(i.stepping == 0xB1 && i.ifaceMin / 256 == i.ifaceMax / 256) then 2
    else if !(i.keyIndex < 4 && !f.revoked.contains i.keyIndex && i.keyOk) then 3
    else if !i.sigOk then 4
    else if i.svn < f.floor then 5
    else if !(i.components.all (fun c => c.digest == c.body) && [1, 2, 3, 4].all fun k => (i.components.filter (·.id == k)).length == 1) then 6
    else 0

/-- The boot stage in which a check runs. -/
def checkStage (k : Nat) : Nat := if k = 6 then 4 else 2

/-- The slot the ROM takes first, and whether it is a trial. -/
def firstSlot (f : Firmware) : Nat × Bool :=
  match bootCtl f with
  | none => (0, false)
  | some (b, _) => if b.trial ≠ 0 ∧ 0 < b.tries then (b.trial - 1, true) else (b.committed, false)

/-- One entry of the attestation log and its chained digest; none beyond 1,024. -/
def attAdd (s : State) (event index : Nat) (digest : Bytes) : State :=
  let e := leBytes 2 event ++ leBytes 2 index ++ zeros 4 ++ leBytes 8 s.now ++ digest
  if 1024 ≤ s.fw.attLog.length then s
  else { s with fw := { s.fw with attLog := s.fw.attLog ++ [e], attDigest := sha384 (s.fw.attDigest ++ e) } }

/-- The components of an image are measured as they are read. -/
def measureComponents (event : Nat) (i : Image) (s : State) : State :=
  (List.range i.components.length).foldl (fun s k => attAdd s event (16 + k) (leBytes 48 ((i.components.getD k default).body))) s

/-- The ROM: the chosen slot, then the other, then recovery. -/
def bootRom (s : State) : State :=
  let q := firstSlot s.fw
  let f := if q.2 then writeCtl s.fw s.now fun b => { b with tries := b.tries - 1 } else s.fw
  let base := { f with recovery := false, check := 0, slot := q.1, pendingTrial := false, attLog := [], attDigest := zeros 48, unlocked := false }
  let k := imageCheck f (slotImage f q.1)
  let up (slot chk : Nat) (trial : Bool) : State :=
    let s1 := { s with fw := { base with stage := 6, slot := slot, check := chk, pendingTrial := trial } }
    match slotImage f slot with | some i => measureComponents 1 i s1 | none => s1
  if k = 0 then up q.1 0 q.2
  else
    let k2 := imageCheck f (slotImage f (1 - q.1))
    if k2 = 0 then up (1 - q.1) k false
    else { s with fw := { base with stage := checkStage k2, slot := 1 - q.1, check := k2, recovery := true } }

/-! ### Self-test of carrels and HBM lanes at release (R15, R17, R18, R650, R652) -/

/-- A bay's failing slots: the lowest is repaired while the spare is sound, the others are withdrawn. -/
def testBay (failing : List Nat) (si : Silicon) (bay : Nat) : Silicon :=
  let bad := (List.range 12).filter fun k => failing.contains (13 * bay + k)
  let spareOk := !failing.contains (13 * bay + 12)
  let gone := (if spareOk then bad.drop 1 else bad).map (12 * bay + ·)
  { si with spareUsed := (match bad with | k :: _ => if spareOk then si.spareUsed ++ [(bay, k)] else si.spareUsed | [] => si.spareUsed),
            withdrawn := gone.foldl insertN si.withdrawn,
            bayFailed := if bad.length = 12 && !spareOk then si.bayFailed ++ [bay] else si.bayFailed }

/-- Lanes that fail training take their channel's two spares: pairs of channel number and lane. -/
def spareLanes (l : List (Nat × Nat)) : List (Nat × Nat × Nat) :=
  l.foldl (fun a p =>
    let k := (p.1 / 64, p.1 % 64, p.2)
    if 1024 ≤ p.1 ∨ a.contains k = true ∨ 2 ≤ (a.filter fun e => e.1 == k.1 && e.2.1 == k.2.1).length then a else a ++ [k]) []

def selfTest (f : ReleaseF) (si : Silicon) : Silicon :=
  let bad := (f.failing.filter (· < 1248)).foldl insertN []
  { (List.range 96).foldl (testBay bad) { si with failing := bad, spareUsed := [], withdrawn := [], bayFailed := [] } with
    lanesSpared := spareLanes f.badLanes }

/-- The link of a host port is up: reset released, its PERST_N high, its clock there (R636, R641). -/
def linkMay (s : State) (port : Nat) : Bool :=
  s.released && (if port = 0 then s.pins.perst0 else s.pins.perst1) && (!s.clock.refclkLost || s.pins.clkMode)

def linkUp (s : State) (port : Nat) : State := if linkMay s port then setLink s port true else s

/-- Release: straps, port mode, self-tests, the ROM, and the links whose PERST_N is released. -/
def release (s : State) (f : ReleaseF) : State :=
  let s1 := { s with pins := { s.pins with modReset := true, mgmtSel := f.mgmtSel, clkMode := f.clkMode },
                     clock := { s.clock with refclkLost := false },
                     host := { s.host with twoHost := s.fw.config.portMode == 1 },
                     si := selfTest f s.si }
  linkUp (linkUp (bootRom s1) 0) 1

def execModResetRelease (f : ReleaseF) (t : Nat) (s : State) : Outc :=
  .next (if s.pins.pwrGood && !s.pins.modReset then release (s.at t) f else s)

/-! ### PERST_N and REFCLK (R558, R636, R641, R643) -/

def setPerst (s : State) (port : Nat) (high : Bool) : State :=
  { s with pins := if port = 0 then { s.pins with perst0 := high } else { s.pins with perst1 := high } }

/-- The port's functions are reset and its link goes down. -/
def portOut (s : State) (port : Nat) : State := setLink (if s.running then resetPort s port else s) port false

def execPerstAssert (port t : Nat) (s : State) : Outc :=
  .next (if 2 ≤ port then s else
    let s1 := setPerst s port false
    if s.released then portOut (s1.at t) port else s1)

def execPerstRelease (port t : Nat) (s : State) : Outc :=
  .next (if 2 ≤ port then s else
    let s1 := setPerst s port true
    if s.released then linkUp (s1.at t) port else s1)

/-- Ready: the boot has ended, in service or in recovery. A request that comes then is answered, on a standby port too (R523). -/
def execConfigRequestEarly (port : Nat) (s : State) : Outc :=
  .next (if !(port < 2 && linkMay s port) then s
    else s.emit (if s.fw.stage != 7 && !s.fw.recovery then .retryStatus port else .configAnswer port))

/-- Every consumer moves to the oscillator; ports in common-clock mode go down. -/
def refclkOut (s : State) : State :=
  let s1 := { s with clock := { s.clock with refclkLost := true } }
  let s2 := if s.pins.clkMode then s1 else portOut (portOut s1 0) 1
  if s.fw.recovery then s2 else pldmEvent s2 .refclk

def execRefclkLoss (t : Nat) (s : State) : Outc :=
  .next (if s.released && !s.clock.refclkLost then refclkOut (s.at t) else s)

end Sys2Proof.Machine
end

