-- ==== Sys2Proof/Machine/Firmware.lean ====
section
/-! DEFINITION. End of the boot, crashes, restarts, takeover and quarantine of firmware cores, carrel and lane repair (R15–R18, R573, R574,
R582, R583, R586, R589, R591, R597–R599, R650–R652). -/

namespace Sys2Proof.Machine

/-! ### Boot complete (R582, R583) -/

/-- The fused floor rises to an image's floor; the rise is logged as event 4. -/
def raiseFloor (s : State) (i : Image) : State :=
  if i.floor ≤ s.fw.floor then s else
  let s1 := { s with fw := { s.fw with floor := i.floor } }
  attAdd s1 4 2 (leBytes 48 (Config.fuseDigest i.floor s.fw.revoked s.fw.unlocked).toNat)

/-- A slot's image becomes the committed one: the other copy of the boot control block, then the floor. -/
def commitSlot (s : State) (slot : Nat) (i : Image) : State :=
  let f := writeCtl s.fw s.now fun b => { b with committed := slot, trial := 0, tries := 0, version := i.version }
  raiseFloor { s with fw := { f with pendingTrial := false } } i

/-- Every component's verified copy lies in device-reserved memory (R573). -/
def residentOf (i : Image) : Tab Nat := i.components.foldl (fun t c => tset t c.id c.body) []

/-- Every core runs, islands stand at the safe rung, admin queues can be enabled, the interface range is published; key slot 0 takes the
device key (R300). -/
def bootDone (s : State) (i : Image) : State :=
  let f := { protect s.fw with stage := 7, running := some i, resident := residentOf i,
                               cores := allCores.map fun k => ⟨k, true, 0, [], true, false, s.now, []⟩ }
  let s1 := loadKey { s with fw := f, control := { s.control with climb := 0 }, free := s.free + 1 } 0 (leBytes 64 (Config.xtsKey s.free).toNat)
  devEvent (if s.fw.pendingTrial then commitSlot s1 s.fw.slot i else s1) 6

def execBootComplete (t : Nat) (s : State) : Outc :=
  .next (match slotImage s.fw s.fw.slot with
    | some i => if s.released && s.fw.stage == 6 && !s.fw.recovery then bootDone (s.at t) i else s
    | none => s)

/-! ### Crashes (R573, R589, R591, R597, R599) -/

def getCore (s : State) (i : CoreId) : Option CoreSt := s.fw.cores.find? (·.id == i)
def minuteNs : Nat := 60000000000

/-- The core's last three crashes lie within 60 s. -/
def thrice (k : CoreSt) : Bool := match k.crashes with | a :: _ :: b :: _ => a ≤ b + minuteNs | _ => false

def watchdogNs : Nat := 1000000

/-- The watchdog has not been kicked for 1 ms, so far as its kicks are known (log 155). -/
def unkicked (s : State) (i : CoreId) : Bool := match getCore s i with | some k => k.kick + watchdogNs ≤ s.now | none => false

/-- The watchdog expires; the restart waits for the digest check of the resident copy. -/
def execWatchdogExpiry (core : CoreId) (t pc : Nat) (digestOk : Bool) (s : State) : Outc :=
  let s := s.at t
  .next (if coreRuns s core && unkicked s core then crash s core 1 pc 0 digestOk else s)

/-- A trap the firmware does not handle, or an access that protection refused. -/
def execCoreTrap (core : CoreId) (t pc addr : Nat) (trap : TrapF) (s : State) : Outc :=
  let s := s.at t
  .next (if coreRuns s core then crash s core (if trap.refusal = true then 3 else 2) pc addr trap.digestOk else s)

/-! ### Restart and takeover (R573, R574, R597) -/

/-- Key rotations that fell due while the keeper was down start at once. -/
def startRotations (s : State) : State :=
  (s.fabric.ports.map (·.1)).foldl (fun s n => if isUp (getPort s n) then keyStep s n false else s) s

/-- The running attempts' meters show the restart of a clerk or conservator (R474). -/
def meterCrash (s : State) : State := meterAll s fun m => { m with crash := true }

/-- A journalled completion goes into its ring slot again, where the host has not freed it (R597). -/
def rewriteEntry (s : State) (e : Journalled) : State :=
  match e with
  | .written q slot b =>
    match getQueue s q with
    | some v => if (slot + v.cqn - v.cqHead) % v.cqn < v.used then { s with hostMem := mwrite s.hostMem (ringAt s q (v.cq + 16 * slot)) b } else s
    | none => s
  | _ => s

/-- What the return of a core's duties does. Circulation goes on from the mirrored journal: what it has journalled as started or published stands
in the state, and completions journalled as written are written again. -/
def onReturn (s : State) (i : CoreId) : State :=
  match i with
  | .keeper => startRotations s
  | .conservator => meterCrash s
  | .circulation => s.mirror.entries.foldl rewriteEntry s
  | .clerk b => meterCrash (countEv s (pgBay b) 0x103 1)
  | _ => s

/-- The copy in device-reserved memory that the core restarts from has the digest its image's header gives (R573). -/
def residentOk (s : State) (i : CoreId) : Bool :=
  match s.fw.running.bind fun g => g.components.find? (·.id == coreClass i) with
  | some c => tget s.fw.resident c.id == some c.digest
  | none => false

/-- The core is a standby: no other stands by for it. -/
def isStandby (i : CoreId) : Bool := primaryOf i != i

/-- A third crash within 60 s leaves no restart: a standby or the quarantine follows. A core that has been taken over stays out of service. -/
def mayRestart (s : State) (k : CoreSt) : Bool :=
  !k.up && !k.takenOver && k.copyOk && residentOk s k.id && s.now ≤ k.downAt + 5000000 && (isStandby k.id || !thrice k)
  && !(match k.id with | .clerk b => s.fw.quarantined.contains b | _ => false)

def execCoreRestartComplete (core : CoreId) (t : Nat) (s : State) : Outc :=
  let s := s.at t
  .next (match getCore s core with
    | some k =>
      if !(s.running && mayRestart s k) then s else
      let s1 := modCore s core fun k => { k with up := true, kick := s.now, sram := [] }
      if dutyOf s (primaryOf core) = core then onReturn s1 (primaryOf core) else s1
    | none => s)

/-- Three crashes within 60 s, or no restart within 10 ms. -/
def overdue (s : State) (k : CoreSt) : Bool := !k.up && (thrice k || k.downAt + 10000000 ≤ s.now)

/-- The standby on hub 1 takes the duties over, and the keeper's the flash interface and the management endpoint with them (`keeperHub`): a
record, an event, and the effects of a return. -/
def takeOver (s : State) (i : CoreId) : State :=
  let n := s.fresh
  let s1 := modCore (crashRec n.2 i 4 (Config.crashPc n.1).toNat 0) i fun k => { k with takenOver := true }
  onReturn (devEvent s1 5) i

def execStandbyTakeover (core : CoreId) (t : Nat) (s : State) : Outc :=
  let s := s.at t
  .next (match getCore s core with
    | some k => if s.running && standbyOf core != core && !k.takenOver && overdue s k && coreRunsUp s (standbyOf core) then takeOver s core else s
    | none => s)

/-! ### Quarantine (R598) -/

/-- The attempt has work waiting on the bay: a stream that issues there, or operations in flight on a grant that holds its carrels. -/
def waitsOn (x : Ctx) (a : Attempt) (bay : Nat) : Bool :=
  a.phase == .program && a.streams.any fun t =>
    (!t.ended && bayOfCarrel t.issue == bay) || (!t.window.isEmpty && x.ident.grant.any fun l => bayOfCarrel l == bay)

/-- The attempt fails with EABORTED; what was in flight is given up. -/
def failWork (now bay : Nat) (x : Ctx) : Ctx :=
  x.modAtt fun a =>
    if waitsOn x a bay then
      { a.fail .eaborted now with folios := [], records := [], streams := a.streams.map fun t => { t with window := [], waiting := false } }
    else a

def quarantine (s : State) (bay : Nat) : State :=
  let n := s.fresh
  let s1 := crashRec n.2 (.clerk bay) 5 (Config.crashPc n.1).toNat 0
  { s1 with fw := { s1.fw with quarantined := insertN s1.fw.quarantined bay }, ctxs := s1.ctxs.map fun p => (p.1, failWork s1.now bay p.2) }

def execClerkQuarantine (bay t : Nat) (s : State) : Outc :=
  let s := s.at t
  .next (match getCore s (.clerk bay) with
    | some k => if s.running && !s.fw.quarantined.contains bay && overdue s k then quarantine s bay else s
    | none => s)

/-- A quarantined clerk is tried again every second; once it restarts, its bay is no longer quarantined. -/
def clerkBack (s : State) (bay : Nat) : State :=
  let s1 := modCore s (.clerk bay) fun k => { k with up := true, copyOk := true, crashes := [], kick := s.now, sram := [] }
  onReturn { s1 with fw := { s1.fw with quarantined := s1.fw.quarantined.filter (· != bay) } } (.clerk bay)

def execClerkRetry (bay : Nat) (ok : Bool) (t : Nat) (s : State) : Outc :=
  let s := s.at t
  .next (match getCore s (.clerk bay) with
    | some k =>
      if !(s.running && s.fw.quarantined.contains bay && k.downAt + 1000000000 ≤ s.now) then s
      else if ok then clerkBack s bay
      else modCore s (.clerk bay) fun k => { k with downAt := s.now }
    | none => s)

/-! ### Carrels (R15–R18, R651) -/

def markFailing (s : State) (phys : Nat) : State := { s with si := { s.si with failing := insertN s.si.failing phys } }

/-- The periodic test of a powered carrel, run by its clerk. -/
def execPeriodicCarrelSelfTest (phys : Nat) (pass : Bool) (t : Nat) (s : State) : Outc :=
  let s := s.at t
  .next (if s.running && phys < 1248 && !pageAsleep s (pgCarrel phys) && coreUp s (.clerk (phys / 13)) && !pass then markFailing s phys else s)

/-- Every patron that holds the logical carrel stands at a step boundary (R16). -/
def atBoundary (s : State) (l : Nat) : Bool := s.ctxs.all fun p => !p.2.ident.grant.contains l || p.2.att.isNone

/-- The bay's 13 slots have all failed. -/
def bayGone (s : State) (bay : Nat) : Bool := (List.range 13).all fun k => s.si.failing.contains (13 * bay + k)

def withdraw (s : State) (l : Nat) : State :=
  let s1 := { s with si := { s.si with withdrawn := insertN s.si.withdrawn l, spareUsed := s.si.spareUsed.filter fun u => 12 * u.1 + u.2 != l } }
  if bayGone s1 (l / 12) then { s1 with si := { s1.si with bayFailed := insertN s1.si.bayFailed (l / 12) } } else s1

/-- The granules that a logical carrel holds for one tensor are copied to its new slot's store (R327). -/
def copyToSpare (l : Nat) (acc : Tab Scratch × Nat) (t : Nat × Scratch) : Tab Scratch × Nat :=
  let q := ((List.range t.2.owners.length).filter fun g => t.2.owners[g]? == some l).foldl
    (fun (a : Scratch × Nat) g => (copyGranule a.2 a.1 g, a.2 + 1)) (t.2, acc.2)
  (acc.1 ++ [(t.1, q.1)], q.2)

/-- Every context's granules in a logical carrel's store are copied to the spare's. -/
def storeToSpare (s : State) (l : Nat) : State :=
  s.ctxs.foldl (fun s p =>
    let q := p.2.cat.scratch.foldl (copyToSpare l) ([], s.free)
    modCtx { s with free := q.2 } p.1 fun x => { x with cat := { x.cat with scratch := q.1 } }) s

/-- The spare wakes, with its page as it stood, and serves the logical carrel. -/
def useSpare (s : State) (l : Nat) : State :=
  let spare := pgCarrel (13 * (l / 12) + 12)
  let s0 := storeToSpare s l
  let s1 := setPage s0 spare (getPage s0 spare)
  { s1 with si := { s1.si with spareUsed := s1.si.spareUsed ++ [(l / 12, l % 12)] } }

/-- The spare slot is there to be used. -/
def spareFree (s : State) (bay : Nat) : Bool := !(s.si.spareUsed.any (·.1 == bay)) && !s.si.failing.contains (13 * bay + 12)

def repair (s : State) (l : Nat) (sparePass : Bool) : State :=
  if !spareFree s (l / 12) then withdraw s l
  else if sparePass then useSpare s l
  else withdraw (markFailing s (13 * (l / 12) + 12)) l

def execCarrelRepair (phys : Nat) (sparePass : Bool) (s : State) : Outc :=
  .next (match servedBy s phys with
    | some l => if s.running && phys < 1248 && s.si.failing.contains phys && atBoundary s l then repair s l sparePass else s
    | none => s)

/-! ### HBM lanes (R652) -/

/-- The lane's spare takes its place; its counted errors go with it. A channel whose two spares are spent keeps its lane. -/
def spareLane (s : State) (stack channel lane : Nat) : State :=
  let si := { s.si with lanesPending := s.si.lanesPending.filter (· != (64 * stack + channel, lane)) }
  if 2 ≤ (si.lanesSpared.filter fun e => e.1 == stack && e.2.1 == channel).length then { s with si := si }
  else { s with si := { si with lanesSpared := si.lanesSpared ++ [(stack, channel, lane)],
                                laneErrs := si.laneErrs.filter fun e => !(e.1 == stack && e.2.1 == channel && e.2.2.1 == lane) } }

def execHbmLaneSpare (stack channel lane : Nat) (s : State) : Outc :=
  .next (if s.running && s.si.lanesPending.contains (64 * stack + channel, lane) then spareLane s stack channel lane else s)

end Sys2Proof.Machine
end

