-- ==== Sys2Proof/Machine/Mgmt.lean ====
section
/-! DEFINITION. Management and security: SPDM sessions, measurements, keys, configuration, unlock, firmware update, live activation, service,
MCTP, identity, test port (R439, R542, R563–R565, R577, R581, R583–R587, R590–R594, R628, R639, R647, R651). -/

namespace Sys2Proof.Machine

/-! ### SPDM sessions (R439, R542, R597) -/


/-- A secured session runs on the transport. -/
def secured (s : State) (tr : Transport) : Bool := match getSession s tr with | some q => q.2.2 == 5 | none => false

/-- Its requester presented a certificate that the configuration record lists as a key authority. -/
def authority (s : State) (tr : Transport) : Bool :=
  match getSession s tr with | some q => q.2.2 == 5 && s.fw.config.authorities.contains q.2.1 | none => false

/-- The transport reaches the keeper: a host port that is up, the management bus, or a fabric port that authenticates or is up. -/
def reaches (s : State) (tr : Transport) : Bool :=
  s.running && (match tr with
    | .doe p => p < 2 && linkMay s p
    | .mctp => true
    | .link p => p < 64 && !s.fabric.selfFailed && ((getPort s p).st == .authenticating || (getPort s p).st == .up))

/-- One SPDM request: the stage of the exchange after it, or none where it is refused. Stages: 1 version, 2 capabilities, 3 algorithms,
4 key exchange, 5 secured session. -/
def spdmNext (cert stage : Nat) (m : SpdmMsg) : Option (Nat × Nat) :=
  match m with
  | .getVersion => some (0, 1)
  | .getCapabilities => if stage = 1 then some (cert, 2) else none
  | .negotiateAlgorithms => if stage = 2 then some (cert, 3) else none
  | .getDigests => if 3 ≤ stage then some (cert, stage) else none
  | .getCertificate => if 3 ≤ stage then some (cert, stage) else none
  | .keyExchange c ok => if 3 ≤ stage ∧ ok = true then some (c, 4) else none
  | .finish ok => if stage = 4 then (if ok then some (cert, 5) else some (0, 3)) else none
  | .keyUpdate => if stage = 5 then some (cert, 5) else none
  | .heartbeat => if stage = 5 then some (cert, 5) else none
  | .endSession => if stage = 5 then some (0, 3) else none
  | .other _ => none

/-- What refuses a request: a reserved code or field (R5), a requester whose proof fails, or a request out of its order (log 111). -/
def spdmRefusal (stage : Nat) (m : SpdmMsg) : Status :=
  match m with | .other _ => .earg | .keyExchange _ false => if 3 ≤ stage then .eaccess else .estate | _ => .estate

def spdmStep (s : State) (tr : Transport) (m : SpdmMsg) : State :=
  let q := (getSession s tr).getD (tr, 0, 0)
  match spdmNext q.2.1 q.2.2 m with
  | some (c, n) => (setSession s tr c n).emit (.spdm (if m = .finish false then .of .eaccess else .ok) [])
  | none => s.emit (.spdm (.of (spdmRefusal q.2.2 m)) [])

/-- While the keeper is down the endpoint hardware answers ResponseNotReady. -/
def viaKeeper (s : State) (tr : Transport) (act : State → State) : State :=
  if !reaches s tr then s else if coreUp s .keeper then act s else s.emit (.spdm .late [])

def execSpdmSession (tr : Transport) (m : SpdmMsg) (s : State) : Outc := .next (viaKeeper s tr fun s => spdmStep s tr m)

/-! ### Measurements (R577, R585, R586) -/

/-- A measurement block; none where the index has none. -/
def measurement (s : State) (k : Nat) : Option Bytes :=
  if k = 1 then some ((List.range 48).map Config.romByte)
  else if k = 2 then some (leBytes 48 (Config.fuseDigest s.fw.floor s.fw.revoked s.fw.unlocked).toNat)
  else if k = 3 then s.fw.running.map fun i => leBytes 48 i.headerDigest
  else if 16 ≤ k ∧ k < 32 then (s.fw.running.bind fun i => i.components[k - 16]?).map fun c => leBytes 48 c.body
  else if k = 32 then some (sha384 (configBytes s.fw.config))
  else if k = 33 then some s.fw.attDigest
  else none

/-- Index 0 asks for their number, 255 for all. -/
def measured (s : State) (k : Nat) : Option Bytes :=
  let l := (List.range 34).filterMap (measurement s)
  if k = 0 then some (leBytes 1 l.length) else if k = 255 then some l.flatten else measurement s k

def answerMeasurement (s : State) (k : Nat) : State :=
  match measured s k with | some b => s.emit (.spdm .ok b) | none => s.emit (.spdm (.of .earg) [])

def overVendor (tr : Transport) : Bool := match tr with | .link _ => false | _ => true

def execGetMeasurements (tr : Transport) (index : Nat) (s : State) : Outc :=
  .next (viaKeeper s tr fun s => answerMeasurement s index)

/-! ### Requests of key authorities (R542, R577, R583, R587, R651) -/

/-- A vendor request that only a key authority may make. -/
def byAuthority (s : State) (tr : Transport) (iid : Nat) (req : MgmtReq) (reply : Answer → Out) (act : State → State × Answer) : State :=
  if !overVendor tr then s
  else viaKeeper s tr fun s => managed s iid req reply fun s => if authority s tr then act s else (s, .of .eaccess)

def spdmReply (a : Answer) : Out := .spdm a []

/-- States in which a context takes no key. -/
def keyBarred (x : Ctx) : Bool := x.inState [.running, .checkpointing, .draining, .orphaned, .scrubbing]

/-- A reserved kind of key is rejected with EARG (R5); a key has its kind's length; a FREE context takes none. -/
def keyInstall (c : Nat) (kind : KeyKind) (key : Bytes) (s : State) : State × Answer :=
  match kind with
  | .fabric => if key.length = 32 then ({ s with fabric := { s.fabric with fabricKey := some key } }, .ok) else (s, .of .earg)
  | .other _ => (s, .of .earg)
  | .job =>
    match getCtx s c with
    | none => (s, .of .estate)
    | some x =>
      if keyBarred x then (s, .of .estate)
      else if key.length ≠ 32 then (s, .of .earg)
      else (readyIf (setCtx s c { x with ident := { x.ident with jobKey := some key } }) c, .ok)
  | .volume =>
    match getCtx s c with
    | none => (s, .of .estate)
    | some x =>
      if keyBarred x then (s, .of .estate)
      else if key.length ≠ 48 then (s, .of .earg)
      else (readyIf (setCtx s c { x with ident := { x.ident with volKey := some key } }) c, .ok)

def execKeyInstall (tr : Transport) (c : Nat) (kind : KeyKind) (key : Bytes) (iid : Nat) (s : State) : Outc :=
  .next (byAuthority s tr iid (.keyInstall tr c kind key) spdmReply (keyInstall c kind key))

/-- The record is rewritten and the change logged; without a place in the log it is refused (R586). -/
def configUpdate (r : ConfigRec) (s : State) : State × Answer :=
  if r.reserved = true ∨ 4 < r.authorities.length ∨ 1 < r.portMode ∨ 255 < r.minSvn then (s, .of .earg)
  else if 1024 ≤ s.fw.attLog.length then (s, .of .elimit)
  else (attAdd { s with fw := { s.fw with config := r } } 3 32 (sha384 (configBytes r)), .ok)

def execConfigRecordUpdate (tr : Transport) (r : ConfigRec) (iid : Nat) (s : State) : Outc :=
  .next (byAuthority s tr iid (.config tr r) spdmReply (configUpdate r))

/-- The key slot of the committed image. -/
def committedKey (f : Firmware) : Option Nat := (bootCtl f).bind fun b => (slotImage f b.1.committed).map (·.keyIndex)

def revokeKey (slot : Nat) (s : State) : State × Answer :=
  if 4 ≤ slot then (s, .of .earg)
  else if committedKey s.fw = some slot then (s, .of .estate)
  else ({ s with fw := { s.fw with revoked := insertN s.fw.revoked slot } }, .ok)

def execKeyRevocation (tr : Transport) (slot iid : Nat) (s : State) : Outc :=
  .next (byAuthority s tr iid (.revoke tr slot) spdmReply (revokeKey slot))

/-- The unlock is logged as event 5 before it takes effect. -/
def unlock (s : State) : State × Answer :=
  if 1024 ≤ s.fw.attLog.length then (s, .of .elimit)
  else
    let s1 := attAdd s 5 2 (leBytes 48 (Config.fuseDigest s.fw.floor s.fw.revoked true).toNat)
    ({ s1 with fw := { s1.fw with unlocked := true } }, .ok)

def execDebugUnlock (tr : Transport) (iid : Nat) (s : State) : Outc := .next (byAuthority s tr iid (.unlock tr) spdmReply unlock)

def failCarrel (phys : Nat) (s : State) : State × Answer := if phys < 1248 then (markFailing s phys, .ok) else (s, .of .earg)

def execCarrelFailRequest (tr : Transport) (iid phys : Nat) (s : State) : Outc :=
  .next (byAuthority s tr iid (.carrelFail tr phys) (.pldm iid) (failCarrel phys))

/-! ### Service (R19, R647) -/

/-- The module declares itself failed, stops its fabric ports and lights its LED. -/
def serviceRelease (s : State) : State :=
  let s1 := declareFailed s
  { s1 with pins := { s1.pins with serviceLed := true } }

def execServiceRelease (tr : Transport) (iid : Nat) (s : State) : Outc :=
  .next (if overVendor tr && secured s tr then
      viaKeeper s tr fun s => managed s iid (.service tr) (.pldm iid) fun s => (serviceRelease s, .ok)
    else s)

/-! ### Firmware update (R563, R581, R582) -/

/-- The endpoint takes firmware updates: in recovery by the ROM, else by the keeper. -/
def updatable (s : State) : Bool := s.released && (s.fw.recovery || (s.running && coreUp s .keeper && s.fw.live.isNone))

def fwWrite (slot : Nat) (b : Bytes) (keyOk sigOk : Bool) (s : State) : State × Answer :=
  if 2 ≤ slot then (s, .of .earg)
  else if s.fw.recovery = false ∧ slot = s.fw.slot then (s, .of .estate)
  else
    let img := Image.ofBytes b keyOk sigOk
    let f := { s.fw with staged := false, stagedSlot := slot }
    let g := { f with written := tset f.written slot (b.take slotBytes) }
    ({ s with fw := if slot = 0 then { g with slotA := some img } else { g with slotB := some img } }, .ok)

def fwVerify (s : State) : State × Answer :=
  if imageCheck s.fw (slotImage s.fw s.fw.stagedSlot) = 0 then ({ s with fw := { s.fw with staged := true } }, .ok) else (s, .of .earg)

/-- The staged slot becomes the trial slot, with three trial boots; from recovery the device boots at once. -/
def fwActivate (s : State) : State × Answer :=
  if !s.fw.staged then (s, .of .estate)
  else
    let f := writeCtl s.fw s.now fun b => { b with trial := s.fw.stagedSlot + 1, tries := 3 }
    let s1 := { s with fw := f }
    (if s.fw.recovery then bootRom s1 else s1, .ok)

def fwStep (m : PldmFw) (s : State) : State × Answer :=
  match m with
  | .write slot b keyOk sigOk => fwWrite slot b keyOk sigOk s
  | .verify => fwVerify s
  | .activateReset => fwActivate s
  | .other _ => (s, .of .earg)

def execPldmFirmwareUpdate (iid : Nat) (m : PldmFw) (s : State) : Outc :=
  .next (if updatable s then managed s iid (.firmware m) (.pldm iid) (fwStep m) else s)

/-! ### Live activation (R584, R586, R590–R594) -/

/-- The staged image serves the version of every context from OPEN to ORPHANED. -/
def servesAll (s : State) (i : Image) : Bool :=
  s.ctxs.all fun p =>
    p.2.inState [.draining, .scrubbing] || (i.ifaceMin ≤ p.2.ident.version && p.2.ident.version ≤ i.ifaceMax)

/-- Entries an update adds: its components, and a floor that rises. -/
def logRoom (s : State) (i : Image) : Bool := s.fw.attLog.length + i.components.length + b2n (s.fw.floor < i.floor) ≤ 1024

/-- Steps 1 to 3 begin; every attempt under way shows it (R592). -/
def liveStart (s : State) : State × Answer :=
  match s.fw.staged, slotImage s.fw s.fw.stagedSlot with
  | true, some i =>
    if imageCheck s.fw (some i) ≠ 0 then (s, .of .earg)
    else if servesAll s i = false then (s, .of .eversion)
    else if logRoom s i = false then (s, .of .elimit)
    else (meterCrash { s with fw := { s.fw with live := some ⟨s.now, []⟩, handSeq := s.fw.handSeq + 1 } }, .ok)
  | _, _ => (s, .of .estate)

/-- A new component accepts the record of its core. -/
def acceptsRecord (i : Image) (r : Handover) : Bool :=
  r.magic == 0x52444E48 && r.crcOk && i.hreadMin ≤ r.version && r.version ≤ i.hwrite && r.readerMin ≤ i.hreadMin
  && r.entries.all fun e => !bitOf e.1 15 || Config.understands i.version e.1

/-- Every record has been accepted: components logged, slot committed, floor raised. -/
def liveDone (s : State) (i : Image) : State :=
  let s1 := measureComponents 2 i s
  let slot := s.fw.stagedSlot
  let s2 := { s1 with fw := { s1.fw with live := none, staged := false, running := some i, slot := slot, resident := residentOf i } }
  commitSlot s2 slot i

/-- A core's record may come now: within 10 ms, once, from a core that runs, the keeper's last. -/
def recordDue (s : State) (l : LiveUpd) (core : CoreId) (r : Handover) : Bool :=
  s.now < l.start + 10000000 && coreUp s core && !l.accepted.contains core && r.core == coreClass core && r.index == coreIndex core
  && (core != .keeper || l.accepted.length + 1 == coreIds.length)

def liveRecord (s : State) (iid : Nat) (core : CoreId) (r : Handover) : State :=
  match s.fw.live, slotImage s.fw s.fw.stagedSlot with
  | some l, some i =>
    if !recordDue s l core r then s
    else if !acceptsRecord i r then abandonLive s
    else if l.accepted.length + 1 = coreIds.length then (liveDone s i).emit (.pldm iid .ok)
    else { s with fw := { s.fw with live := some { l with accepted := core :: l.accepted } } }
  | _, _ => s

def execLiveActivation (iid t : Nat) (a : LiveArg) (s : State) : Outc :=
  let s := s.at t
  .next (if !(s.running && coreUp s .keeper) then s else
    match a with
    | .start => managed s iid .live (.pldm iid) fun s => if s.fw.live.isSome then (s, .of .estate) else liveStart s
    | .record core b => liveRecord s iid core (Handover.ofBytes b)
    | .other _ => s.emit (.pldm iid (.of .earg)))

def execHandoverTimeout (t : Nat) (s : State) : Outc :=
  let s := s.at t
  .next (match s.fw.live with | some l => if s.running && l.start + 10000000 ≤ s.now then abandonLive s else s | none => s)

/-! ### MCTP (R564) -/

/-- The check of a complete message: a secured message's MAC, a vendor message's CRC in its last four bytes. -/
def messageOk (p : MctpPacket) (b : Bytes) : Bool :=
  (!p.secured || p.macOk) && (!p.vendor || (4 ≤ b.length && leNat (b.drop (b.length - 4)) == crc32 (b.take (b.length - 4))))

def dropPartial (s : State) : State := { s with mgmt := { s.mgmt with assembling := none } }

/-- The bytes of the message so far, where the packet goes on from them. -/
def assembled (s : State) (p : MctpPacket) : Option Bytes :=
  if p.som then some p.body else
  match s.mgmt.assembling with
  | none => none
  | some (tag, seq, t0, b) => if tag = p.tag ∧ seq = p.seq ∧ s.now ≤ t0 + 100000000 then some (b ++ p.body) else none

def mctpIn (s : State) (p : MctpPacket) : State :=
  if !p.pecOk then dropPartial s else
  match assembled s p with
  | none => dropPartial s
  | some b =>
    if p.eom then
      let s1 := dropPartial s
      if messageOk p b then { s1 with mgmt := { s1.mgmt with message := some b } } else s1
    else { s with mgmt := { s.mgmt with assembling := some (p.tag, (p.seq + 1) % 4, s.now, b) } }

def execMctpPacket (p : MctpPacket) (t : Nat) (s : State) : Outc := .next (if s.released then mctpIn (s.at t) p else s)

def execMctpPacketGap (t : Nat) (s : State) : Outc :=
  let s := s.at t
  .next (match s.mgmt.assembling with | some q => if q.2.2.1 + 100000000 < s.now then dropPartial s else s | none => s)

def execMgmtBusReset (s : State) : Outc := .next (dropPartial s)

/-! ### PLDM discovery and monitoring (R563) -/

/-- The PLDM types the endpoint carries, a bit for each (R563): base discovery 0, platform monitoring and control 2, firmware update 5. The numbers
of the types are those of the PLDM standard (PRESUMED, log 154). -/
def pldmTypes : Nat := 2 ^ 0 + 2 ^ 2 + 2 ^ 5

/-- Discovery is answered with data that the manual leaves open; a sensor with its reading, while the conservator runs; a request of a
reserved code, or with a reserved field that is not 0, with EARG (R5). Every answer carries one status (R6). -/
def pldmAnswer (s : State) (iid : Nat) (m : PldmReq) : State :=
  match m with
  | .getTid => s.emit (.sensor iid 0 (Config.freeByte 0 0).toNat .ok)
  | .getTypes => s.emit (.sensor iid 1 pldmTypes .ok)
  | .getCommands => s.emit (.sensor iid 2 (Config.freeByte 2 0).toNat .ok)
  | .getSensor id v => if coreUp s .conservator then s.emit (.sensor iid (3 + id) v .ok) else s.emit (.pldm iid .late)
  | .getEvents => (s.mgmt.events.foldl (fun s e => s.emit (.event none e)) s).emit (.pldm iid .ok)
  | .setEventReceiver eid =>
    managed s iid (.receiver eid) (.pldm iid) fun s => ({ s with mgmt := { s.mgmt with eventReceiver := some eid } }, .ok)
  | .other _ _ => s.emit (.pldm iid (.of .earg))

def execPldmPlatformRequest (iid : Nat) (m : PldmReq) (s : State) : Outc := .next (if s.running then pldmAnswer s iid m else s)

/-! ### Identity and the test port (R628, R639) -/

/-- The ASCII bytes of KXM-TZ32-L. -/
def partNumber : Bytes := [0x4B, 0x58, 0x4D, 0x2D, 0x54, 0x5A, 0x33, 0x32, 0x2D, 0x4C]
def identity : Identity := ⟨partNumber, Config.serial, 0xB1, Config.madeOn⟩

def execIdentityRead (addr : Nat) (s : State) : Outc :=
  .next (if s.pins.aux && addr == 0x50 then
      s.emit (.identity .ok identity s.pins.tripCause s.pins.tripVolts s.pins.tripAmps s.pins.tripTemp s.pins.tripCount)
    else s)

/-- What the instruction in the test port does: EXTEST, CLAMP and HIGHZ act only while MOD_RESET_N is low, and every code R639 does not name
is BYPASS. -/
def jtagActs (s : State) : JtagOp :=
  match s.pins.jtag with
  | .extest => if s.pins.modReset then .bypass else .extest
  | .clamp => if s.pins.modReset then .bypass else .clamp
  | .highz => if s.pins.modReset then .bypass else .highz
  | .other _ => .bypass
  | o => o

def setJtag (s : State) (op : JtagOp) : State :=
  let s1 := { s with pins := { s.pins with jtag := op } }
  if op = .idcode then s1.emit (.jtagOut 0x1B4E1A3F) else s1

def isOther (op : JtagOp) : Bool := match op with | .other _ => true | _ => false

def execJtagInstruction (op : JtagOp) (s : State) : Outc :=
  if isOther op && s.fw.unlocked then .refused .debugInstruction else .next (setJtag s op)

end Sys2Proof.Machine
end

