-- ==== Sys2Proof/Machine/Dispatch.lean ====
section
/-! DEFINITION. The meaning of every command: one arm per constructor, each a call of that command's own meaning. -/

namespace Sys2Proof.Machine

def exec (i : Instr) (s : State) : Host.Outcome State Fault Refusal :=
  match i with
  | .openCtx sub f => Sys2Proof.Machine.execOpenCtx sub f s
  | .openReclaim sub f => Sys2Proof.Machine.execOpenReclaim sub f s
  | .close sub ctx => Sys2Proof.Machine.execClose sub ctx s
  | .bind sub buf => Sys2Proof.Machine.execBind sub buf s
  | .bindRelease sub cn => Sys2Proof.Machine.execBindRelease sub cn s
  | .loadProgram sub container len => Sys2Proof.Machine.execLoadProgram sub container len s
  | .map sub f => Sys2Proof.Machine.execMap sub f s
  | .unmap sub va frames => Sys2Proof.Machine.execUnmap sub va frames s
  | .runStep sub count cursor => Sys2Proof.Machine.execRunStep sub count cursor s
  | .pause sub => Sys2Proof.Machine.execPause sub s
  | .resume sub => Sys2Proof.Machine.execResume sub s
  | .checkpoint sub list entries => Sys2Proof.Machine.execCheckpoint sub list entries s
  | .restore sub list volumes mapBuf mapEntries => Sys2Proof.Machine.execRestore sub list volumes mapBuf mapEntries s
  | .preempt sub list entries deadline => Sys2Proof.Machine.execPreempt sub list entries deadline s
  | .reshardComplete sub => Sys2Proof.Machine.execReshardComplete sub s
  | .reshardAbort sub => Sys2Proof.Machine.execReshardAbort sub s
  | .setJobRecord sub f => Sys2Proof.Machine.execSetJobRecord sub f s
  | .setParameterGroup sub f => Sys2Proof.Machine.execSetParameterGroup sub f s
  | .setWatchEntry sub f => Sys2Proof.Machine.execSetWatchEntry sub f s
  | .setRotationEntry sub f => Sys2Proof.Machine.execSetRotationEntry sub f s
  | .setActivationTable sub f => Sys2Proof.Machine.execSetActivationTable sub f s
  | .setCollectiveDescriptor sub f => Sys2Proof.Machine.execSetCollectiveDescriptor sub f s
  | .setGroupRecord sub f => Sys2Proof.Machine.execSetGroupRecord sub f s
  | .setModeRecord sub f => Sys2Proof.Machine.execSetModeRecord sub f s
  | .setVolumePolicy sub f => Sys2Proof.Machine.execSetVolumePolicy sub f s
  | .setScheduling sub f => Sys2Proof.Machine.execSetScheduling sub f s
  | .setQuota sub f => Sys2Proof.Machine.execSetQuota sub f s
  | .setFunctionAllotment sub f => Sys2Proof.Machine.execSetFunctionAllotment sub f s
  | .setDeviceSetup sub f => Sys2Proof.Machine.execSetDeviceSetup sub f s
  | .setPolicyDelete sub selector f => Sys2Proof.Machine.execSetPolicyDelete sub selector f s
  | .queryContext sub f => Sys2Proof.Machine.execQueryContext sub f s
  | .queryFlags sub f => Sys2Proof.Machine.execQueryFlags sub f s
  | .queryCatalogueEntry sub f => Sys2Proof.Machine.execQueryCatalogueEntry sub f s
  | .queryShards sub f => Sys2Proof.Machine.execQueryShards sub f s
  | .queryWatchEntry sub f => Sys2Proof.Machine.execQueryWatchEntry sub f s
  | .queryWatchBlock sub f => Sys2Proof.Machine.execQueryWatchBlock sub f s
  | .queryStepReport sub f => Sys2Proof.Machine.execQueryStepReport sub f s
  | .queryMeter sub f => Sys2Proof.Machine.execQueryMeter sub f s
  | .queryDivergence sub f => Sys2Proof.Machine.execQueryDivergence sub f s
  | .queryFaultRecords sub f => Sys2Proof.Machine.execQueryFaultRecords sub f s
  | .queryActivationTable sub f => Sys2Proof.Machine.execQueryActivationTable sub f s
  | .queryDevice sub f => Sys2Proof.Machine.execQueryDevice sub f s
  | .fence sub => Sys2Proof.Machine.execFence sub s
  | .retire sub frame cause => Sys2Proof.Machine.execRetire sub frame cause s
  | .retireMigrationDone frame => Sys2Proof.Machine.execRetireMigrationDone frame s
  | .doorbellWrite fn off value hw => Sys2Proof.Machine.execDoorbellWrite fn off value hw s
  | .commandFetch q => Sys2Proof.Machine.execCommandFetch q s
  | .commandSlice q cid units => Sys2Proof.Machine.execCommandSlice q cid units s
  | .progressEntry q cid t => Sys2Proof.Machine.execProgressEntry q cid t s
  | .adminCtrlEnable req fn => Sys2Proof.Machine.execAdminCtrlEnable req fn s
  | .snapTrigger req => Sys2Proof.Machine.execSnapTrigger req s
  | .snapshotLatch t => Sys2Proof.Machine.execSnapshotLatch t s
  | .eventSelWrite req fn page k value => Sys2Proof.Machine.execEventSelWrite req fn page k value s
  | .evClear req fn page => Sys2Proof.Machine.execEvClear req fn page s
  | .intStatusClear req fn page value hwSet => Sys2Proof.Machine.execIntStatusClear req fn page value hwSet s
  | .intForceWrite req fn page value => Sys2Proof.Machine.execIntForceWrite req fn page value s
  | .errSummaryClear req fn page => Sys2Proof.Machine.execErrSummaryClear req fn page s
  | .portClear req port => Sys2Proof.Machine.execPortClear req port s
  | .perturbEccArm req page value => Sys2Proof.Machine.execPerturbEccArm req page value s
  | .eccInjection page => Sys2Proof.Machine.execEccInjection page s
  | .registerWrite req fn off size value whole hw => Sys2Proof.Machine.execRegisterWrite req fn off size value whole hw s
  | .lowWordReadLatch req fn off => Sys2Proof.Machine.execLowWordReadLatch req fn off s
  | .ctrlNop c st h => Sys2Proof.Machine.execCtrlNop c st h s
  | .ctrlLi c st h rd rf imm => Sys2Proof.Machine.execCtrlLi c st h rd rf imm s
  | .ctrlAlu c st h f => Sys2Proof.Machine.execCtrlAlu c st h f s
  | .ctrlBr c st h f => Sys2Proof.Machine.execCtrlBr c st h f s
  | .ctrlMova c st h ad rs => Sys2Proof.Machine.execCtrlMova c st h ad rs s
  | .ctrlMovs c st h rd as => Sys2Proof.Machine.execCtrlMovs c st h rd as s
  | .ctrlFlags c st h rd clr => Sys2Proof.Machine.execCtrlFlags c st h rd clr s
  | .ctrlTime c st h rd src => Sys2Proof.Machine.execCtrlTime c st h rd src s
  | .ctrlEnd c st h => Sys2Proof.Machine.execCtrlEnd c st h s
  | .streamFallThrough c st => Sys2Proof.Machine.execStreamFallThrough c st s
  | .moveCopy c st h f => Sys2Proof.Machine.execMoveCopy c st h f s
  | .moveStage c st h f => Sys2Proof.Machine.execMoveStage c st h f s
  | .moveFill c st h f => Sys2Proof.Machine.execMoveFill c st h f s
  | .foldDot c st h f => Sys2Proof.Machine.execFoldDot c st h f s
  | .foldL1 c st h f => Sys2Proof.Machine.execFoldL1 c st h f s
  | .foldL2 c st h f => Sys2Proof.Machine.execFoldL2 c st h f s
  | .foldMaxp c st h f => Sys2Proof.Machine.execFoldMaxp c st h f s
  | .foldMinp c st h f => Sys2Proof.Machine.execFoldMinp c st h f s
  | .foldXpop c st h f => Sys2Proof.Machine.execFoldXpop c st h f s
  | .piecePartialArrival c folio leaf span => Sys2Proof.Machine.execPiecePartialArrival c folio leaf span s
  | .loadBalanceSteal c folio thief => Sys2Proof.Machine.execLoadBalanceSteal c folio thief s
  | .foldComplete c folio => Sys2Proof.Machine.execFoldComplete c folio s
  | .preZero c st h f => Sys2Proof.Machine.execPreZero c st h f s
  | .preBrow c st h f => Sys2Proof.Machine.execPreBrow c st h f s
  | .preBcol c st h f => Sys2Proof.Machine.execPreBcol c st h f s
  | .preRes c st h f => Sys2Proof.Machine.execPreRes c st h f s
  | .preSelf c st h f => Sys2Proof.Machine.execPreSelf c st h f s
  | .epiArith c st h f => Sys2Proof.Machine.execEpiArith c st h f s
  | .epiTap c st h f => Sys2Proof.Machine.execEpiTap c st h f s
  | .epiReset c st h tile => Sys2Proof.Machine.execEpiReset c st h tile s
  | .rotFwd c st h f => Sys2Proof.Machine.execRotFwd c st h f s
  | .rotInv c st h f => Sys2Proof.Machine.execRotInv c st h f s
  | .qntQuant c st h f => Sys2Proof.Machine.execQntQuant c st h f s
  | .qntDeq c st h f => Sys2Proof.Machine.execQntDeq c st h f s
  | .redSum c st h f => Sys2Proof.Machine.execRedSum c st h f s
  | .redSumsq c st h f => Sys2Proof.Machine.execRedSumsq c st h f s
  | .redMax c st h f => Sys2Proof.Machine.execRedMax c st h f s
  | .redMin c st h f => Sys2Proof.Machine.execRedMin c st h f s
  | .redAmax c st h f => Sys2Proof.Machine.execRedAmax c st h f s
  | .redStats c st h f => Sys2Proof.Machine.execRedStats c st h f s
  | .redLadd c st h f => Sys2Proof.Machine.execRedLadd c st h f s
  | .redFadd c st h f => Sys2Proof.Machine.execRedFadd c st h f s
  | .vecAdd c st h f => Sys2Proof.Machine.execVecAdd c st h f s
  | .vecSub c st h f => Sys2Proof.Machine.execVecSub c st h f s
  | .vecMul c st h f => Sys2Proof.Machine.execVecMul c st h f s
  | .vecFma c st h f => Sys2Proof.Machine.execVecFma c st h f s
  | .vecMax c st h f => Sys2Proof.Machine.execVecMax c st h f s
  | .vecMin c st h f => Sys2Proof.Machine.execVecMin c st h f s
  | .vecCvt c st h f => Sys2Proof.Machine.execVecCvt c st h f s
  | .vecExp c st h f => Sys2Proof.Machine.execVecExp c st h f s
  | .vecRcp c st h f => Sys2Proof.Machine.execVecRcp c st h f s
  | .vecRsqrt c st h f => Sys2Proof.Machine.execVecRsqrt c st h f s
  | .vecSplit c st h f => Sys2Proof.Machine.execVecSplit c st h f s
  | .vecMerge c st h f => Sys2Proof.Machine.execVecMerge c st h f s
  | .watchRung c st h rd layer => Sys2Proof.Machine.execWatchRung c st h rd layer s
  | .collAllReduce c st h f => Sys2Proof.Machine.execCollAllReduce c st h f s
  | .collReduceScatter c st h f => Sys2Proof.Machine.execCollReduceScatter c st h f s
  | .collAllGather c st h f => Sys2Proof.Machine.execCollAllGather c st h f s
  | .collBroadcast c st h f => Sys2Proof.Machine.execCollBroadcast c st h f s
  | .collAllToAll c st h f => Sys2Proof.Machine.execCollAllToAll c st h f s
  | .collBarrier c st h f => Sys2Proof.Machine.execCollBarrier c st h f s
  | .collNormReduce c st h f => Sys2Proof.Machine.execCollNormReduce c st h f s
  | .collTokenDispatch c st h f => Sys2Proof.Machine.execCollTokenDispatch c st h f s
  | .collTokenCombine c st h f => Sys2Proof.Machine.execCollTokenCombine c st h f s
  | .syncFence c st h writes => Sys2Proof.Machine.execSyncFence c st h writes s
  | .syncBar c st h => Sys2Proof.Machine.execSyncBar c st h s
  | .syncWaitc c st h mask => Sys2Proof.Machine.execSyncWaitc c st h mask s
  | .syncWaitt c st h mask => Sys2Proof.Machine.execSyncWaitt c st h mask s
  | .operationComplete c st op => Sys2Proof.Machine.execOperationComplete c st op s
  | .barRelease c => Sys2Proof.Machine.execBarRelease c s
  | .lookaheadStage c st => Sys2Proof.Machine.execLookaheadStage c st s
  | .programPhaseFail c => Sys2Proof.Machine.execProgramPhaseFail c s
  | .programPhaseEnd c => Sys2Proof.Machine.execProgramPhaseEnd c s
  | .statsRecordArrival c n => Sys2Proof.Machine.execStatsRecordArrival c n s
  | .annexIntAdd c cn row col width value => Sys2Proof.Machine.execAnnexIntAdd c cn row col width value s
  | .annexIntMinmax c cn row col width signed max value => Sys2Proof.Machine.execAnnexIntMinmax c cn row col width signed max value s
  | .annexCas c cn row col width expected value => Sys2Proof.Machine.execAnnexCas c cn row col width expected value s
  | .annexLedgerAdd c cn row col term => Sys2Proof.Machine.execAnnexLedgerAdd c cn row col term s
  | .annexLedgerCombine c cn row col image => Sys2Proof.Machine.execAnnexLedgerCombine c cn row col image s
  | .annexFloatAdd c cn row col term => Sys2Proof.Machine.execAnnexFloatAdd c cn row col term s
  | .patrolScrub atom symbols lane t => Sys2Proof.Machine.execPatrolScrub atom symbols lane t s
  | .reshelveRoundStart c t moves => Sys2Proof.Machine.execReshelveRoundStart c t moves s
  | .reshelveCopyDone c shard => Sys2Proof.Machine.execReshelveCopyDone c shard s
  | .reshelveRoundEnd c t => Sys2Proof.Machine.execReshelveRoundEnd c t s
  | .vacatedFrameRelease c => Sys2Proof.Machine.execVacatedFrameRelease c s
  | .carrelContextSwitch carrel next => Sys2Proof.Machine.execCarrelContextSwitch carrel next s
  | .stepAdmit c t => Sys2Proof.Machine.execStepAdmit c t s
  | .normContributionSelf c t => Sys2Proof.Machine.execNormContributionSelf c t s
  | .normControlPhase c => Sys2Proof.Machine.execNormControlPhase c s
  | .gateDecide c => Sys2Proof.Machine.execGateDecide c s
  | .optimiserUpdate c => Sys2Proof.Machine.execOptimiserUpdate c s
  | .commitVote c t => Sys2Proof.Machine.execCommitVote c t s
  | .voteResult c v => Sys2Proof.Machine.execVoteResult c v s
  | .stepSeal c t => Sys2Proof.Machine.execStepSeal c t s
  | .stepSkip c t => Sys2Proof.Machine.execStepSkip c t s
  | .secondCopy c t => Sys2Proof.Machine.execSecondCopy c t s
  | .drainStart c slot => Sys2Proof.Machine.execDrainStart c slot s
  | .drainReceive c rank part colophon data => Sys2Proof.Machine.execDrainReceive c rank part colophon data s
  | .drainComplete c slot buddyAck => Sys2Proof.Machine.execDrainComplete c slot buddyAck s
  | .preemptDeadline c t => Sys2Proof.Machine.execPreemptDeadline c t s
  | .collNoticeReceive c n => Sys2Proof.Machine.execCollNoticeReceive c n s
  | .collVerdict c id t => Sys2Proof.Machine.execCollVerdict c id t s
  | .collVerdictReceive c v => Sys2Proof.Machine.execCollVerdictReceive c v s
  | .collDataPhaseDone c id => Sys2Proof.Machine.execCollDataPhaseDone c id s
  | .collMessageReceive c m => Sys2Proof.Machine.execCollMessageReceive c m s
  | .collNoVerdictTimeout c id t => Sys2Proof.Machine.execCollNoVerdictTimeout c id t s
  | .epochAbort c id epoch => Sys2Proof.Machine.execEpochAbort c id epoch s
  | .portTrain p t resp => Sys2Proof.Machine.execPortTrain p t resp s
  | .portAuthenticate p a => Sys2Proof.Machine.execPortAuthenticate p a s
  | .flitReceive p flit check t => Sys2Proof.Machine.execFlitReceive p flit check t s
  | .nakReceive p seq => Sys2Proof.Machine.execNakReceive p seq s
  | .frameSealTimeout p => Sys2Proof.Machine.execFrameSealTimeout p s
  | .portRetrain p t cause badLanes => Sys2Proof.Machine.execPortRetrain p t cause badLanes s
  | .retrainTimeout p t => Sys2Proof.Machine.execRetrainTimeout p t s
  | .portDown p => Sys2Proof.Machine.execPortDown p s
  | .laneTest p lane t pass => Sys2Proof.Machine.execLaneTest p lane t pass s
  | .partnerAbsent p t => Sys2Proof.Machine.execPartnerAbsent p t s
  | .partnerStarvation p buf t => Sys2Proof.Machine.execPartnerStarvation p buf t s
  | .partnerFaulty p t => Sys2Proof.Machine.execPartnerFaulty p t s
  | .keyUpdate p t done => Sys2Proof.Machine.execKeyUpdate p t done s
  | .keyUpdateTimeout p t => Sys2Proof.Machine.execKeyUpdateTimeout p t s
  | .messageDeliver inPort m => Sys2Proof.Machine.execMessageDeliver inPort m s
  | .messageRelay inPort m => Sys2Proof.Machine.execMessageRelay inPort m s
  | .e2eNakReceive dest job mseq t engineOk => Sys2Proof.Machine.execE2eNakReceive dest job mseq t engineOk s
  | .tagCheckRequest src engineOk => Sys2Proof.Machine.execTagCheckRequest src engineOk s
  | .tagCheckWaitExpiry job mseq t => Sys2Proof.Machine.execTagCheckWaitExpiry job mseq t s
  | .remoteReadRequest src job va len mseq => Sys2Proof.Machine.execRemoteReadRequest src job va len mseq s
  | .remoteWrite src job va mseq data => Sys2Proof.Machine.execRemoteWrite src job va mseq data s
  | .timeExchange t1 t2 t3 t4 skew => Sys2Proof.Machine.execTimeExchange t1 t2 t3 t4 skew s
  | .timeReply p t1 t2 t3 => Sys2Proof.Machine.execTimeReply p t1 t2 t3 s
  | .fabricTimeAdoption fabricTime => Sys2Proof.Machine.execFabricTimeAdoption fabricTime s
  | .tsyncEdge t frame frameOk => Sys2Proof.Machine.execTsyncEdge t frame frameOk s
  | .tsyncLoss t => Sys2Proof.Machine.execTsyncLoss t s
  | .refclkLoss t => Sys2Proof.Machine.execRefclkLoss t s
  | .detourChange m => Sys2Proof.Machine.execDetourChange m s
  | .selfDeclareFailed cause => Sys2Proof.Machine.execSelfDeclareFailed cause s
  | .deviceLostDeclare x declared reporters => Sys2Proof.Machine.execDeviceLostDeclare x declared reporters s
  | .reserveAdopt x points => Sys2Proof.Machine.execReserveAdopt x points s
  | .takeoverReceive x reserve points => Sys2Proof.Machine.execTakeoverReceive x reserve points s
  | .takeoverVolumeStreamed c volume => Sys2Proof.Machine.execTakeoverVolumeStreamed c volume s
  | .takeoverReady c reports => Sys2Proof.Machine.execTakeoverReady c reports s
  | .readyReceive c epoch counter => Sys2Proof.Machine.execReadyReceive c epoch counter s
  | .takeoverRefusal x jobs => Sys2Proof.Machine.execTakeoverRefusal x jobs s
  | .functionReset kind t => Sys2Proof.Machine.execFunctionReset kind t s
  | .portFailover cause t => Sys2Proof.Machine.execPortFailover cause t s
  | .orphanGraceExpiry c t => Sys2Proof.Machine.execOrphanGraceExpiry c t s
  | .drainingDone c => Sys2Proof.Machine.execDrainingDone c s
  | .scrubDone c => Sys2Proof.Machine.execScrubDone c s
  | .containmentFault c cause => Sys2Proof.Machine.execContainmentFault c cause s
  | .transcriptRingWrite c => Sys2Proof.Machine.execTranscriptRingWrite c s
  | .meteredRefreshHold c beat => Sys2Proof.Machine.execMeteredRefreshHold c beat s
  | .meteredOutsideHold c beats => Sys2Proof.Machine.execMeteredOutsideHold c beats s
  | .meteredDroopHold c isl => Sys2Proof.Machine.execMeteredDroopHold c isl s
  | .droopStretch isl => Sys2Proof.Machine.execDroopStretch isl s
  | .droopPersistenceTick t => Sys2Proof.Machine.execDroopPersistenceTick t s
  | .powerCapTick t watts => Sys2Proof.Machine.execPowerCapTick t watts s
  | .thermalTick t hot => Sys2Proof.Machine.execThermalTick t hot s
  | .powerCapSet iid watts => Sys2Proof.Machine.execPowerCapSet iid watts s
  | .coolantFlowCheck t flow watts => Sys2Proof.Machine.execCoolantFlowCheck t flow watts s
  | .hardwareTrip cause volts amps temp t => Sys2Proof.Machine.execHardwareTrip cause volts amps temp t s
  | .pwrEnRise t => Sys2Proof.Machine.execPwrEnRise t s
  | .surprisePowerDown t => Sys2Proof.Machine.execSurprisePowerDown t s
  | .presenceLoopOpen t => Sys2Proof.Machine.execPresenceLoopOpen t s
  | .modResetAssert => Sys2Proof.Machine.execModResetAssert s
  | .modResetRelease f t => Sys2Proof.Machine.execModResetRelease f t s
  | .perstAssert port t => Sys2Proof.Machine.execPerstAssert port t s
  | .configRequestEarly port => Sys2Proof.Machine.execConfigRequestEarly port s
  | .bootComplete t => Sys2Proof.Machine.execBootComplete t s
  | .watchdogExpiry core t pc digestOk => Sys2Proof.Machine.execWatchdogExpiry core t pc digestOk s
  | .coreTrap core t pc addr refusal => Sys2Proof.Machine.execCoreTrap core t pc addr refusal s
  | .standbyTakeover core t => Sys2Proof.Machine.execStandbyTakeover core t s
  | .clerkQuarantine bay t => Sys2Proof.Machine.execClerkQuarantine bay t s
  | .clerkRetry bay ok t => Sys2Proof.Machine.execClerkRetry bay ok t s
  | .periodicCarrelSelfTest phys pass t => Sys2Proof.Machine.execPeriodicCarrelSelfTest phys pass t s
  | .carrelRepair phys sparePass => Sys2Proof.Machine.execCarrelRepair phys sparePass s
  | .hbmLaneSpare stack channel lane => Sys2Proof.Machine.execHbmLaneSpare stack channel lane s
  | .spdmSession tr m => Sys2Proof.Machine.execSpdmSession tr m s
  | .getMeasurements tr index => Sys2Proof.Machine.execGetMeasurements tr index s
  | .keyInstall tr c kind key iid => Sys2Proof.Machine.execKeyInstall tr c kind key iid s
  | .configRecordUpdate tr r iid => Sys2Proof.Machine.execConfigRecordUpdate tr r iid s
  | .keyRevocation tr slot iid => Sys2Proof.Machine.execKeyRevocation tr slot iid s
  | .debugUnlock tr iid => Sys2Proof.Machine.execDebugUnlock tr iid s
  | .pldmFirmwareUpdate iid m => Sys2Proof.Machine.execPldmFirmwareUpdate iid m s
  | .liveActivation iid t a => Sys2Proof.Machine.execLiveActivation iid t a s
  | .handoverTimeout t => Sys2Proof.Machine.execHandoverTimeout t s
  | .serviceRelease tr iid => Sys2Proof.Machine.execServiceRelease tr iid s
  | .carrelFailRequest tr iid phys => Sys2Proof.Machine.execCarrelFailRequest tr iid phys s
  | .mctpPacket p t => Sys2Proof.Machine.execMctpPacket p t s
  | .pldmPlatformRequest iid m => Sys2Proof.Machine.execPldmPlatformRequest iid m s
  | .identityRead addr => Sys2Proof.Machine.execIdentityRead addr s
  | .jtagInstruction op => Sys2Proof.Machine.execJtagInstruction op s
  | .coreRestartComplete core t => Sys2Proof.Machine.execCoreRestartComplete core t s
  | .retrainComplete p t lanes resumed cert => Sys2Proof.Machine.execRetrainComplete p t lanes resumed cert s
  | .mctpPacketGap t => Sys2Proof.Machine.execMctpPacketGap t s
  | .mgmtBusReset => Sys2Proof.Machine.execMgmtBusReset s
  | .presenceLoopClose t => Sys2Proof.Machine.execPresenceLoopClose t s
  | .perstRelease port t => Sys2Proof.Machine.execPerstRelease port t s
  | .pwrEnFall t => Sys2Proof.Machine.execPwrEnFall t s

end Sys2Proof.Machine
end

