-- ==== Sys2Proof/Machine/Step.lean ====
section
/-! DEFINITION. One step of the block: the command at the front of the queue, or an idle tick of device time. -/

namespace Sys2Proof.Machine

/-- One count of device time, or one count less of the wait for fabric time. -/
def tick (s : State) : State :=
  if s.clock.hold ≠ 0 then { s with clock := { s.clock with hold := s.clock.hold - 1 } }
  else { s with clock := { s.clock with now := s.clock.now + 1 } }

/-- With nothing waiting, device time advances while the device runs, and its ports take up the first message that can leave (log 3). -/
def idle (s : State) : State := if s.running then launch (tick s) else s

/-- Takes the first waiting command and runs it with the rest of the queue. -/
def step (s : State) : Host.Outcome State Fault Refusal :=
  match s.pending with
  | [] => .next (idle s)
  | c :: r => exec c { s with pending := r }

/-- Puts the command a table word spells in front of the queue; the table gives no row any bits, so no word spells one. -/
def State.withFetchWord (s : State) (nbits w : Nat) : State :=
  match decodeTableWord nbits w with
  | some c => { s with pending := c :: s.pending }
  | none => s

end Sys2Proof.Machine
end

