-- ==== Sys2Proof/WellFormed.lean ====
section
/-! DEFINITION. Which commands are well formed: every operand lies in the range its field or unit number admits. -/

namespace Sys2Proof

def QRef.wf : QRef → Bool
  | .admin fn => fn < 256
  | .ctx c q => c < 4096 && q < 8

def Sub.wf (s : Sub) : Bool := s.q.wf && s.cid < 2 ^ 16

def Hdr.wf (h : Hdr) : Bool := h.ps < 32 && (h.pe || (!h.pn && h.ps == 0))

def OpenF.wf (f : OpenF) : Bool :=
  f.record < 2 ^ 64 && f.qtable < 2 ^ 64 && f.queues < 256 && f.version < 2 ^ 16 && f.pasid < 2 ^ 20 && f.carrels < 2 ^ 16
  && f.ways < 256 && f.weight < 256 && f.frames < 2 ^ 32 && f.job < 2 ^ 32 && f.seed < 2 ^ 64 && f.patron < 2 ^ 64
def ReclaimF.wf (f : ReclaimF) : Bool :=
  f.record < 2 ^ 64 && f.qtable < 2 ^ 64 && f.queues < 256 && f.version < 2 ^ 16 && f.pasid < 2 ^ 20 && f.ctx < 2 ^ 16 && f.token < 2 ^ 128
def MapF.wf (f : MapF) : Bool :=
  f.va < 2 ^ 64 && f.frames < 2 ^ 32 && f.loc < 256 && f.peer < 2 ^ 16 && f.target < 2 ^ 64
def SetF.wf (f : SetF) : Bool := f.index < 2 ^ 32 && f.record < 2 ^ 64 && f.length < 2 ^ 32 && f.target < 2 ^ 16
def QueryF.wf (f : QueryF) : Bool := f.index < 2 ^ 32 && f.buffer < 2 ^ 64 && f.length < 2 ^ 32 && f.ctx < 2 ^ 16
def Req.wf : Req → Bool
  | .port n => n < 2
  | .core n => n < 102

/-! ### Carrel instructions: the fields fit their bits and the load-time checks of chapter 06 hold -/

def MoveF.wf (op : Nat) (f : MoveF) : Bool :=
  f.aD < 8 && f.aS < 8 && f.sb < 32 && f.rows < 2 ^ 12 && f.cols < 2 ^ 20 && f.rv < 32 && moveOk op f
def FoldF.wf (f : FoldF) : Bool :=
  f.tile < 16 && f.aA < 8 && f.aB < 8 && f.aC < 8 && f.sb < 32 && f.msize < 2 ^ 12 && f.nsize < 2 ^ 12 && f.ksize < 2 ^ 11
  && f.kind < 4 && f.pmax < 2 ^ 11 && foldOk f
def PreF.wf (o : PreOp) (f : PreF) : Bool := f.tile < 16 && f.aP < 8 && f.sp < 32 && preOk o f
def EpiArithF.wf (f : EpiArithF) : Bool :=
  f.tile < 16 && f.saxis < 4 && f.scale < 8 && f.baxis < 4 && f.bias < 8 && f.slot < 16 && f.target < 16 && f.round < 4
  && f.stream < 2 ^ 16 && epiArithOk f
def EpiTapF.wf (f : EpiTapF) : Bool :=
  f.tile < 16 && f.reduction < 4 && f.raxis < 2 && f.result < 8 && f.qtensor < 8 && f.taxis < 2 && f.skind < 2 && f.layer < 2 ^ 16
  && epiTapOk f
def RotF.wf (quant : Bool) (f : RotF) : Bool :=
  f.aD < 8 && f.aS < 8 && f.sb < 32 && f.rows < 2 ^ 12 && f.klen < 2 ^ 11 && f.rot < 2 ^ 12 && (if quant then quantOk f else rotOk f)
def RedF.wf (o : RedOp) (f : RedF) : Bool :=
  f.aD < 8 && f.aS < 8 && f.sb < 32 && f.rows < 2 ^ 12 && f.cols < 2 ^ 20 && f.axis < 2 && f.layer < 2 ^ 16 && f.skind < 2 && redOk o f
def VecF.wf (o : VecOp) (f : VecF) : Bool :=
  f.aD < 8 && f.aX < 8 && f.aY < 8 && f.aZ < 8 && f.sb < 32 && f.rows < 2 ^ 12 && f.cols < 2 ^ 20 && f.bmode < 4 && f.ys < 32
  && f.prec < 4 && f.round < 4 && f.stream < 2 ^ 16 && vecOk o f
def CollF.wf (o : CollOp) (f : CollF) : Bool := f.slot < 16 && f.aS < 8 && f.aD < 8 && f.desc < 2 ^ 12 && collOk o f

/-- A carrel instruction that some word spells. -/
def Ins.wf : Ins → Bool
  | .nop | .endS | .bar => true
  | .li rd rf imm => rd < 32 && imm < 2 ^ 64 && liOk rd rf imm
  | .alu f => f.rd < 32 && f.rs1 < 32 && f.rs2 < 32 && f.fn ≤ 12 && f.imm < 2 ^ 32
  | .br f => f.cond ≤ 6 && f.rs1 < 32 && f.rs2 < 32 && f.target < 2 ^ 16
  | .mova ad rs => ad < 8 && rs < 32
  | .movs rd as => rd < 32 && as < 8
  | .flags rd _ => rd < 32
  | .time rd src => rd < 32 && src ≤ 2
  | .copy f => f.wf 0
  | .stage f => f.wf 1
  | .fill f => f.wf 2
  | .fold _ f => f.wf
  | .pre o f => f.wf o
  | .epiArith f => f.wf
  | .epiTap f => f.wf
  | .epiReset t => t < 16
  | .rot _ f => f.wf false
  | .quant f | .deq f => f.wf true
  | .red o f => f.wf o
  | .vec o f => f.wf o
  | .rung rd layer => rd < 32 && layer < 2 ^ 16
  | .coll o f => f.wf o
  | .fence _ => true
  | .waitc m | .waitt m => 0 < m && m < 2 ^ 16

/-- The carrel instruction a command issues, with its context, stream and header; none for the other commands. -/
def Instr.ins? : Instr → Option (Nat × Nat × Hdr × Ins)
  | .ctrlNop c st h => some (c, st, h, .nop)
  | .ctrlLi c st h rd rf imm => some (c, st, h, .li rd rf imm)
  | .ctrlAlu c st h f => some (c, st, h, .alu f)
  | .ctrlBr c st h f => some (c, st, h, .br f)
  | .ctrlMova c st h ad rs => some (c, st, h, .mova ad rs)
  | .ctrlMovs c st h rd as => some (c, st, h, .movs rd as)
  | .ctrlFlags c st h rd clr => some (c, st, h, .flags rd clr)
  | .ctrlTime c st h rd src => some (c, st, h, .time rd src)
  | .ctrlEnd c st h => some (c, st, h, .endS)
  | .moveCopy c st h f => some (c, st, h, .copy f)
  | .moveStage c st h f => some (c, st, h, .stage f)
  | .moveFill c st h f => some (c, st, h, .fill f)
  | .foldDot c st h f => some (c, st, h, .fold .dot f)
  | .foldL1 c st h f => some (c, st, h, .fold .l1 f)
  | .foldL2 c st h f => some (c, st, h, .fold .l2 f)
  | .foldMaxp c st h f => some (c, st, h, .fold .maxp f)
  | .foldMinp c st h f => some (c, st, h, .fold .minp f)
  | .foldXpop c st h f => some (c, st, h, .fold .xpop f)
  | .preZero c st h f => some (c, st, h, .pre .zero f)
  | .preBrow c st h f => some (c, st, h, .pre .brow f)
  | .preBcol c st h f => some (c, st, h, .pre .bcol f)
  | .preRes c st h f => some (c, st, h, .pre .res f)
  | .preSelf c st h f => some (c, st, h, .pre .self f)
  | .epiArith c st h f => some (c, st, h, .epiArith f)
  | .epiTap c st h f => some (c, st, h, .epiTap f)
  | .epiReset c st h t => some (c, st, h, .epiReset t)
  | .rotFwd c st h f => some (c, st, h, .rot false f)
  | .rotInv c st h f => some (c, st, h, .rot true f)
  | .qntQuant c st h f => some (c, st, h, .quant f)
  | .qntDeq c st h f => some (c, st, h, .deq f)
  | .redSum c st h f => some (c, st, h, .red .sum f)
  | .redSumsq c st h f => some (c, st, h, .red .sumsq f)
  | .redMax c st h f => some (c, st, h, .red .max f)
  | .redMin c st h f => some (c, st, h, .red .min f)
  | .redAmax c st h f => some (c, st, h, .red .amax f)
  | .redStats c st h f => some (c, st, h, .red .stats f)
  | .redLadd c st h f => some (c, st, h, .red .ladd f)
  | .redFadd c st h f => some (c, st, h, .red .fadd f)
  | .vecAdd c st h f => some (c, st, h, .vec .add f)
  | .vecSub c st h f => some (c, st, h, .vec .sub f)
  | .vecMul c st h f => some (c, st, h, .vec .mul f)
  | .vecFma c st h f => some (c, st, h, .vec .fma f)
  | .vecMax c st h f => some (c, st, h, .vec .max f)
  | .vecMin c st h f => some (c, st, h, .vec .min f)
  | .vecCvt c st h f => some (c, st, h, .vec .cvt f)
  | .vecExp c st h f => some (c, st, h, .vec .exp f)
  | .vecRcp c st h f => some (c, st, h, .vec .rcp f)
  | .vecRsqrt c st h f => some (c, st, h, .vec .rsqrt f)
  | .vecSplit c st h f => some (c, st, h, .vec .split f)
  | .vecMerge c st h f => some (c, st, h, .vec .merge f)
  | .watchRung c st h rd layer => some (c, st, h, .rung rd layer)
  | .collAllReduce c st h f => some (c, st, h, .coll .allReduce f)
  | .collReduceScatter c st h f => some (c, st, h, .coll .reduceScatter f)
  | .collAllGather c st h f => some (c, st, h, .coll .allGather f)
  | .collBroadcast c st h f => some (c, st, h, .coll .broadcast f)
  | .collAllToAll c st h f => some (c, st, h, .coll .allToAll f)
  | .collBarrier c st h f => some (c, st, h, .coll .barrier f)
  | .collNormReduce c st h f => some (c, st, h, .coll .normReduce f)
  | .collTokenDispatch c st h f => some (c, st, h, .coll .tokenDispatch f)
  | .collTokenCombine c st h f => some (c, st, h, .coll .tokenCombine f)
  | .syncFence c st h w => some (c, st, h, .fence w)
  | .syncBar c st h => some (c, st, h, .bar)
  | .syncWaitc c st h m => some (c, st, h, .waitc m)
  | .syncWaitt c st h m => some (c, st, h, .waitt m)
  | _ => none

/-- The submission of a host command that carries one, with its body's check. -/
def Instr.sub? : Instr → Option (Sub × Bool)
  | .openCtx s f => some (s, f.wf)
  | .openReclaim s f => some (s, f.wf)
  | .close s ctx => some (s, ctx < 2 ^ 16)
  | .bind s buf => some (s, buf < 2 ^ 64)
  | .bindRelease s cn => some (s, cn < 2 ^ 32)
  | .loadProgram s ct len => some (s, ct < 2 ^ 64 && len < 2 ^ 32)
  | .map s f => some (s, f.wf)
  | .unmap s va n => some (s, va < 2 ^ 64 && n < 2 ^ 32)
  | .runStep s n cur => some (s, n < 2 ^ 32 && cur < 2 ^ 128)
  | .pause s | .resume s | .reshardComplete s | .reshardAbort s | .fence s => some (s, true)
  | .checkpoint s l n => some (s, l < 2 ^ 64 && n < 2 ^ 32)
  | .restore s l n mb me => some (s, l < 2 ^ 64 && n < 2 ^ 32 && mb < 2 ^ 64 && me < 2 ^ 32)
  | .preempt s l n d => some (s, l < 2 ^ 64 && n < 2 ^ 32 && d < 2 ^ 32)
  | .setJobRecord s f | .setParameterGroup s f | .setWatchEntry s f | .setRotationEntry s f | .setActivationTable s f
  | .setCollectiveDescriptor s f | .setGroupRecord s f | .setModeRecord s f | .setVolumePolicy s f | .setScheduling s f
  | .setQuota s f | .setFunctionAllotment s f | .setDeviceSetup s f => some (s, f.wf)
  | .setPolicyDelete s sel f => some (s, sel < 2 ^ 16 && f.wf)
  | .queryContext s f | .queryFlags s f | .queryCatalogueEntry s f | .queryShards s f | .queryWatchEntry s f | .queryWatchBlock s f
  | .queryStepReport s f | .queryMeter s f | .queryDivergence s f | .queryFaultRecords s f | .queryActivationTable s f
  | .queryDevice s f => some (s, f.wf)
  | .retire s frame cause => some (s, frame < 2 ^ 64 && cause < 256)
  | _ => none

/-- The unit a command names lies in its range: a port, a carrel, a bay, a context or a page. -/
def Instr.unitOk : Instr → Bool
  | .doorbellWrite fn off v _ => fn < 256 && off < 2 ^ 24 && v < 2 ^ 32
  | .commandFetch q | .commandSlice q _ _ | .progressEntry q _ _ => q.wf
  | .adminCtrlEnable r fn => r.wf && fn < 256
  | .snapTrigger r => r.wf
  | .eventSelWrite r fn page k v => r.wf && fn < 256 && page < 2 ^ 14 && k < 8 && v < 2 ^ 32
  | .evClear r fn page | .errSummaryClear r fn page => r.wf && fn < 256 && page < 2 ^ 14
  | .intStatusClear r fn page v h => r.wf && fn < 256 && page < 2 ^ 14 && v < 2 ^ 32 && h < 2 ^ 32
  | .intForceWrite r fn page v => r.wf && fn < 256 && page < 2 ^ 14 && v < 2 ^ 32
  | .portClear r p => r.wf && p < 64
  | .perturbEccArm r page v => r.wf && page < 2 ^ 14 && v < 2 ^ 32
  | .eccInjection page => page < 2 ^ 14
  | .registerWrite r fn off _ v _ _ => r.wf && fn < 256 && off < 2 ^ 26 && v < 2 ^ 64
  | .lowWordReadLatch r fn off => r.wf && fn < 256 && off < 2 ^ 26
  | .portTrain p _ _ | .portAuthenticate p _ | .nakReceive p _ | .frameSealTimeout p | .portRetrain p _ _ _ | .retrainTimeout p _
  | .portDown p | .partnerAbsent p _ | .partnerFaulty p _ | .keyUpdate p _ _ | .keyUpdateTimeout p _ | .timeReply p _ _ _
  | .retrainComplete p _ _ _ _ | .messageRelay p _ => p < 64
  | .laneTest p lane _ _ => p < 64 && lane < 4
  | .partnerStarvation p buf _ => p < 64 && buf < 32
  | .flitReceive p flit _ _ => p < 64 && flit.length == 256
  | .perstAssert p _ | .perstRelease p _ | .configRequestEarly p => p < 2
  | .clerkQuarantine b _ | .clerkRetry b _ _ => b < 96
  | .periodicCarrelSelfTest p _ _ | .carrelRepair p _ | .carrelFailRequest _ _ p => p < 1248
  | .hbmLaneSpare s _ lane => s < 16 && lane < 64
  | .carrelContextSwitch cl n => cl < 1152 && (match n with | some c => c < 4096 | none => true)
  | _ => true

/-- A well-formed command. -/
def Instr.wf (i : Instr) : Bool :=
  (match i.ins? with | some (c, st, h, ins) => c < 4096 && st < 16 && h.wf && ins.wf | none => true)
  && (match i.sub? with | some (s, ok) => s.wf && ok | none => true)
  && i.unitOk

end Sys2Proof
end

