-- ==== Sys2Proof/Safety.lean ====
section
/-! DEFINITION. The words claims are stated in: a safe step, the invariant of a well-formed machine, a carrel instruction that is about to
issue, a context and its running attempt, and a host command that is taken. -/

namespace Sys2Proof.Machine

/-- A step that goes on. -/
def goesOn (s : State) : Bool := match step s with | .next _ => true | _ => false

/-! ### The invariant -/

/-- The mapped memories of a context keep the canonical form: its peers' memory and its store granules. -/
def Ctx.memOk (x : Ctx) : Bool :=
  (x.peerMem.all fun p => Machine.memOk p.2) && (x.cat.scratch.all fun p => Machine.memOk p.2.bytes)

/-- Every memory of the machine keeps its canonical form: device memory, host memory, and the memories a context reaches; and the live
contexts and the register pages are listed by rising number, each once. -/
def Sound (s : State) : Prop :=
  Memory.wf s.mem.bytes ∧ Memory.wf s.hostMem ∧ (s.ctxs.all fun p => p.2.memOk) = true ∧ (s.ctxs.Pairwise fun a b => a.1 < b.1)
  ∧ s.regs.pages.Pairwise fun a b => a.1 < b.1

/-! ### Carrel instructions -/

/-- The instruction `i` with header `h` stands at the pc of stream `st` of context `c`, which can issue; its predicate lets it execute,
and where it is fenced (fw) nothing is in flight (R204, R205). `p` is what issue works on. -/
structure Ready (s : State) (c st : Nat) (h : Hdr) (i : Ins) (p : At) : Prop where
  here : issueAt s c st h i = some p
  pred : predOk h p.t = true
  free : h.fw = true → p.t.window = []

/-- `s` with the stream of `p` replaced and nothing else changed. -/
def putStream (p : At) (t : Stream) : State :=
  { p.s with ctxs := tset p.s.ctxs p.c { p.x with att := some { p.a with streams := p.a.streams.set p.st t } } }

/-- The stream of `p` at its next word, no longer waiting. -/
def nextWord (p : At) : Stream := { p.t with pc := p.t.pc + 1, waiting := false }

/-- A context and its running attempt. -/
def Running (s : State) (c : Nat) (x : Ctx) (a : Attempt) : Prop := getCtx s c = some x ∧ x.att = some a

/-! ### Data operations -/

/-- Of the fabric, only messages of the device's own have been numbered, queued and kept. -/
def Posted (s t : State) : Prop := { s.fabric with mseq := t.fabric.mseq, queued := t.fabric.queued, kept := t.fabric.kept } = t.fabric

/-- A data operation runs through: it may enter the window, its checks at issue pass, and its work meets no fault. -/
structure Clean (p : At) (bad : Option XFault) (reads writes : List Nat) (w : Work) : Prop where
  enters : p.clear reads writes = true
  checks : bad = none
  runs : w.fault = none

/-- What a data operation that ran through leaves beside its work `w`: it stands in its stream's window under the attempt's next
operation number and with its assignment set (the whole grant; none for a MOVE, R333), its stream is at the next word, its records are on
their way; the machine's memories and what left it are those of its work; nothing else of the attempt, of the context but its catalogue,
flags, policies and mapped memories, and of the machine but its counters, changes. -/
def Issued (s : State) (p : At) (reads writes : List Nat) (w : Work) (t : State) (set : List Nat := p.x.ident.grant) : Prop :=
  ∃ y, getCtx t p.c = some y
    ∧ y.att = some { p.a with
        opSeq := p.a.opSeq + 1, records := p.a.records ++ w.recs,
        streams := p.a.streams.set p.st { nextWord p with window := p.t.window ++ [⟨p.a.opSeq, reads, writes, false, none, set⟩] } }
    ∧ { p.x with cat := y.cat, flags := y.flags, pol := y.pol, peerMem := y.peerMem, peerPoison := y.peerPoison, att := y.att } = y
    ∧ { p.x.pol with imageRung := y.pol.imageRung } = y.pol
    ∧ (∀ d, d ≠ p.c → getCtx t d = getCtx s d)
    ∧ t.mem = w.s.mem ∧ t.hostMem = w.s.hostMem ∧ t.out = w.s.out
    ∧ Posted s t
    ∧ { s with ctxs := t.ctxs, mem := t.mem, hostMem := t.hostMem, regs := t.regs, free := t.free, out := t.out, fabric := t.fabric } = t

/-- The places of an element of a plain tensor or view. -/
def elemPlaces (x : Ctx) (t : TRef) (i j : Nat) : List Place := ((codeUnits x t i j 0).getD []).map (·.p)

/-- The places of an extent's elements. -/
def extPlaces (x : Ctx) (t : TRef) (r c nr nc : Nat) : List Place :=
  (positions nr nc).flatMap fun q => elemPlaces x t (r + q.1) (c + q.2)

/-- The places of `n` stored bytes. -/
def runPlaces (x : Ctx) (t : TRef) (off n : Nat) : List Place := (List.range n).filterMap fun k => placeOf x t (off + k) true

/-- The places of a quire and of its 128 record slots. -/
def quirePlaces (x : Ctx) (t : TRef) (i n : Nat) : List Place :=
  runPlaces x t (quireOff t.e i n) 576
  ++ match tensor x t.e.marg with
     | some m => (List.range 128).flatMap fun k => elemPlaces x m ((slotOf t.e i n + k) / m.e.cols) ((slotOf t.e i n + k) % m.e.cols)
     | none => []

/-- The places that a data operation may store to; none for an operation that stores nothing. -/
def storePlaces (n : Ins) (p : At) : List Place :=
  match n with
  | .copy f =>
    let d := p.ref (p.t.addr f.aD); let u := p.ref (p.t.addr f.aS); let o := p.t.origins f.sb 4
    if u.e.kind = 1 then
      (positions (f.rows + 1) (ceilDiv (f.cols + 1) (quireElems (effective p.x u.e).1.f))).flatMap fun q =>
        quirePlaces p.x d (o.getD 0 0 + q.1) (o.getD 1 0 / quireElems (effective p.x u.e).1.f + q.2)
    else extPlaces p.x d (o.getD 0 0) (o.getD 1 0) (f.rows + 1) (f.cols + 1)
  | .fill f =>
    let d := p.ref (p.t.addr f.aD)
    if d.e.kind = 2 then (positions (f.rows + 1) (f.cols + 1)).flatMap fun q =>
      runPlaces p.x d (cellOff d.e (p.t.reg f.sb + q.1) (p.t.reg (f.sb + 1) + q.2)) 40
    else extPlaces p.x d (p.t.reg f.sb) (p.t.reg (f.sb + 1)) (f.rows + 1) (f.cols + 1)
  | .red .stats _ => []
  | .red op f =>
    let d := p.ref (p.t.addr f.aD); let o := p.t.origins f.sb 4
    match op with
    | .ladd => (positions (f.rows + 1) (f.cols + 1)).flatMap fun q => runPlaces p.x d (cellOff d.e (o.getD 2 0 + q.1) (o.getD 3 0 + q.2)) 40
    | .fadd => extPlaces p.x d (o.getD 2 0) (o.getD 3 0) (f.rows + 1) (f.cols + 1)
    | _ => if f.axis = 0 then extPlaces p.x d (o.getD 2 0) (o.getD 3 0) (f.rows + 1) 1
           else extPlaces p.x d (o.getD 2 0) (o.getD 3 0) 1 (f.cols + 1)
  | .rot _ f =>
    let o := p.t.origins f.sb 4
    extPlaces p.x (p.ref (p.t.addr f.aD)) (o.getD 0 0) (o.getD 1 0) (f.rows + 1) (rotCols f)
  | .quant f =>
    let d := p.ref (p.t.addr f.aD); let o := p.t.origins f.sb 4
    (positions (f.rows + 1) (ceilDiv (rotCols f) (quireElems (effective p.x d.e).1.f))).flatMap fun q =>
      quirePlaces p.x d (o.getD 0 0 + q.1) (o.getD 1 0 / quireElems (effective p.x d.e).1.f + q.2)
  | .deq f =>
    let d := p.ref (p.t.addr f.aD); let u := p.ref (p.t.addr f.aS); let o := p.t.origins f.sb 4
    (positions (f.rows + 1) (rotCols f)).flatMap fun q =>
      let ij := linePos u.e.gaxis (o.getD 0 0 + q.1) (o.getD 1 0 + q.2)
      elemPlaces p.x d ij.1 ij.2
  | .vec op f =>
    let d := p.ref (p.t.addr f.aD); let r := p.t.reg f.sb; let k := p.t.reg (f.sb + 1)
    if op = .split then
      let y := p.ref (p.t.addr f.aY); let w := p.t.reg f.ys
      if bitOf w 3 then extPlaces p.x d 0 0 (ctlSlices w * (f.rows + 1)) (f.cols + 1) ++ extPlaces p.x y 0 k 1 (f.cols + 1)
      else extPlaces p.x d 0 0 (f.rows + 1) (ctlSlices w * (f.cols + 1)) ++ extPlaces p.x y r 0 (f.rows + 1) 1
    else extPlaces p.x d r k (f.rows + 1) (f.cols + 1)
  | _ => []

/-- The call numbers that an operation reads and writes (R235); none for an instruction that is no operation of the window, or a COLL. -/
def opCalls (n : Ins) (p : At) : Option (List Nat × List Nat) :=
  match n with
  | .copy f => some ([p.t.addr f.aS], [p.t.addr f.aD])
  | .fill f => some ([], [p.t.addr f.aD])
  | .fold _ f => some (foldReads p f, foldWrites p f)
  | .rot _ f | .quant f | .deq f => some ([p.t.addr f.aS], [p.t.addr f.aD])
  | .red .stats f => some ([p.t.addr f.aS], [])
  | .red _ f => some ([p.t.addr f.aS], [p.t.addr f.aD])
  | .vec .split f => some ([p.t.addr f.aX], [p.t.addr f.aD, p.t.addr f.aY])
  | .vec .merge f => some ([p.t.addr f.aX, p.t.addr f.aY, p.t.addr f.aZ], [p.t.addr f.aD])
  | .vec o f => some (vecReads p o f, [p.t.addr f.aD])
  | _ => none

/-- The elements of an extent lie apart: no two share a stored bit. -/
def Apart (x : Ctx) (t : TRef) (r c nr nc : Nat) : Prop :=
  ∀ q ∈ positions nr nc, ∀ v ∈ (codeUnits x t (r + q.1) (c + q.2) 0).getD [], ∀ q' ∈ positions nr nc,
    ∀ v' ∈ (codeUnits x t (r + q'.1) (c + q'.2) 0).getD [], (q ≠ q' ∨ v ≠ v') → v.p ≠ v'.p ∨ v.m &&& v'.m = 0

/-! ### Host commands -/

/-- A command of queue `q` of context `c` is offered: the circulation core serves, the queue exists and no command holds it (R526, R534). -/
structure Offered (s : State) (sub : Sub) (c q : Nat) (x : Ctx) : Prop where
  serve : serving s = true
  queue : sub.q = .ctx c q
  exists' : (getQueue s sub.q).isSome = true
  free : queueHeld s sub.q = false
  ctx : getCtx s c = some x

/-- It is taken: the context's state allows it, and no LOAD_PROGRAM or RESTORE runs (R535, R553). -/
structure Taken (s : State) (sub : Sub) (c q : Nat) (x : Ctx) (legal : Ctx → Bool) : Prop extends Offered s sub c q x where
  legal : legal x = true
  noLoad : loadRuns x = false

/-- A command of function `fn`'s admin queue is taken. -/
structure TakenAdmin (s : State) (sub : Sub) (fn : Nat) : Prop where
  serve : serving s = true
  queue : sub.q = .admin fn
  exists' : (getQueue s sub.q).isSome = true
  free : queueHeld s sub.q = false

/-- In `t` context `c` is `y`, up to its queues, its commands in flight, its transcript and the mark of a
SET_POLICY (R492); no other context changes, and of the rest of
the machine only host memory, counters, interrupt messages, the journal and messages to peers do. -/
structure Served (s t : State) (c : Nat) (y : Ctx) : Prop where
  ctx : ∃ z, getCtx t c = some z ∧ z = { y with queues := z.queues, cmds := z.cmds, tr := z.tr, vols := { y.vols with resize := z.vols.resize } }
  others : ∀ d, d ≠ c → getCtx t d = getCtx s d
  posted : Posted s t
  rest : t = { s with ctxs := t.ctxs, hostMem := t.hostMem, regs := t.regs, out := t.out, fabric := t.fabric, journal := t.journal, mirror := t.mirror }

/-- A command of context `c` has started and runs on: its start is in the journal, it stands last among the commands in flight, and the context
is otherwise `y`, up to its transcript. -/
def Started (s t : State) (sub : Sub) (c opcode : Nat) (y : Ctx) (work : Option Sliced := none) : Prop :=
  ∃ z k, t = { journalWrite s (.started sub.q sub.cid opcode) with ctxs := tset s.ctxs c z } ∧ z = { y with cmds := y.cmds ++ [k], tr := z.tr }
    ∧ k.q = sub.q ∧ k.cid = sub.cid ∧ k.prog = sub.prog ∧ k.opcode = opcode ∧ k.started = true ∧ k.units = 0 ∧ k.work = work

/-- The last thing that happens is the command's completion with a status and a result, over the queue and the host memory as they
were. -/
def Answered (s t : State) (sub : Sub) (e : Status) (result : Nat) : Prop :=
  ∃ u, getQueue u sub.q = getQueue s sub.q ∧ u.hostMem = s.hostMem ∧ t = complete u sub.q sub.cid e result

/-- The context with the state READY where it is OPENED and has its program, job record and both keys (R554). -/
def Ctx.readied (x : Ctx) : Ctx :=
  if x.ident.st = .opened ∧ x.ident.standby = false ∧ (x.prog.isSome = true ∨ x.progNext.isSome = true) ∧ x.pol.job.isSome = true
    ∧ x.ident.jobKey.isSome = true ∧ x.ident.volKey.isSome = true then x.setSt .ready else x

/-- The places of `n` bytes at a virtual address. -/
def vaPlaces (x : Ctx) (va n : Nat) : List Place := (List.range n).filterMap fun k => translate x (va + k) true

/-! ### The fabric -/

/-- The port `p` of `u` is down for `cause`, with nothing left of its traffic; no other port, no context and no memory has changed. -/
def PortDown (s u : State) (p cause : Nat) : Prop :=
  (getPort u p).st = .down ∧ (getPort u p).cause = cause ∧ (getPort u p).retry = [] ∧ (getPort u p).rxMsg = []
  ∧ (getPort u p).credits = [] ∧ (∀ k, k ≠ p → getPort u k = getPort s k) ∧ u.ctxs = s.ctxs ∧ u.mem = s.mem

end Sys2Proof.Machine
end

