-- ==== Sys2Proof/Certificates/Slice0/Obligations.lean ====
section
/-! DEFINITION. The statements for the provers, by family of commands. -/

open Sys2Proof Sys2Proof.Machine

/-! ### The machine -/

/-- A step takes the command at the front of the queue and runs it with the rest of the queue (the model's own queue, log 3). -/
def Obligations.StepRunsFront : Prop :=
  ∀ (i : Instr) (r : List Instr) (s : State), s.pending = i :: r → step s = exec i { s with pending := r }

/-- With nothing waiting, a running device's time advances by one count, or its hold shrinks by one, and its ports take up the first message
that can leave; a device that does not run stays (the model's choice, log 3). -/
def Obligations.IdleTick : Prop :=
  ∀ s : State, s.pending = [] →
    (s.running = true → s.clock.hold = 0 → step s = .next (launch { s with clock := { s.clock with now := s.clock.now + 1 } }))
    ∧ (∀ n, s.running = true → s.clock.hold = n + 1 → step s = .next (launch { s with clock := { s.clock with hold := n } }))
    ∧ (s.running = false → step s = .next s)
    ∧ ((∀ o ∈ s.fabric.queued, readyToGo s o = none) → launch s = s)

/-! ### Control instructions of a stream -/

/-- NOP, LI, ALU, BR, MOVA, MOVS and TIME: the one register each writes, the word each goes to, and that nothing else of the machine
changes (R199, R209, R211).
The functions of the ALU on 64-bit registers, and the conditions of BR (R209).
Register s0 reads 0 whatever is written to it, a written register reads its value modulo 2^64, and every other keeps its own; an
address register holds its value modulo 2^32 (R199, R200). -/
def Obligations.ScalarInstructions : Prop :=
  (∀ (s : State) (c st : Nat) (h : Hdr) (p : At),
     (Ready s c st h .nop p → exec (.ctrlNop c st h) s = .next (putStream p (nextWord p)))
     ∧ (∀ rd imm, Ready s c st h (.li rd false imm) p →
         exec (.ctrlLi c st h rd false imm) s = .next (putStream p ((nextWord p).setReg rd imm)))
     ∧ (∀ rd imm, Ready s c st h (.li rd true imm) p →
         exec (.ctrlLi c st h rd true imm) s = .next (putStream p ((nextWord p).setAddr rd imm)))
     ∧ (∀ f : AluF, Ready s c st h (.alu f) p →
         exec (.ctrlAlu c st h f) s = .next (putStream p ((nextWord p).setReg f.rd
           (aluFn f.fn (p.t.reg f.rs1) (if f.im then twos 64 (sext 32 f.imm) else p.t.reg f.rs2)))))
     ∧ (∀ f : BrF, Ready s c st h (.br f) p →
         exec (.ctrlBr c st h f) s = .next (putStream p { nextWord p with
           pc := if brTaken f.cond (p.t.reg f.rs1) (p.t.reg f.rs2) then f.target else p.t.pc + 1 }))
     ∧ (∀ ad rs, Ready s c st h (.mova ad rs) p →
         exec (.ctrlMova c st h ad rs) s = .next (putStream p ((nextWord p).setAddr ad (p.t.reg rs))))
     ∧ (∀ rd as, Ready s c st h (.movs rd as) p →
         exec (.ctrlMovs c st h rd as) s = .next (putStream p ((nextWord p).setReg rd (p.t.addr as))))
     ∧ (∀ rd, Ready s c st h (.time rd 0) p → p.x.verbatim = false →
         exec (.ctrlTime c st h rd 0) s = .next (putStream p ((nextWord p).setReg rd s.now)))
     ∧ (∀ rd, Ready s c st h (.time rd 1) p →
         exec (.ctrlTime c st h rd 1) s = .next (putStream p ((nextWord p).setReg rd p.x.gate.step)))
     ∧ (∀ rd, Ready s c st h (.time rd 2) p →
         exec (.ctrlTime c st h rd 2) s = .next (putStream p ((nextWord p).setReg rd st))))
  ∧ (∀ a b : Nat, a < 2 ^ 64 → b < 2 ^ 64 →
       aluFn 0 a b = (a + b) % 2 ^ 64 ∧ (aluFn 1 a b + b) % 2 ^ 64 = a ∧ aluFn 2 a b = a * b % 2 ^ 64
       ∧ aluFn 3 a b = a &&& b ∧ aluFn 4 a b = a ||| b ∧ aluFn 5 a b = a ^^^ b
       ∧ aluFn 6 a b = a * 2 ^ (b % 64) % 2 ^ 64 ∧ aluFn 7 a b = a / 2 ^ (b % 64)
       ∧ sext 64 (aluFn 8 a b) = sext 64 a / 2 ^ (b % 64)
       ∧ aluFn 9 a b = (if sext 64 a < sext 64 b then 1 else 0) ∧ aluFn 10 a b = (if a < b then 1 else 0)
       ∧ sext 64 (aluFn 11 a b) = min (sext 64 a) (sext 64 b) ∧ sext 64 (aluFn 12 a b) = max (sext 64 a) (sext 64 b)
       ∧ (brTaken 0 a b = true ↔ a = b) ∧ (brTaken 1 a b = true ↔ a ≠ b)
       ∧ (brTaken 2 a b = true ↔ sext 64 a < sext 64 b) ∧ (brTaken 3 a b = true ↔ sext 64 b ≤ sext 64 a)
       ∧ (brTaken 4 a b = true ↔ a < b) ∧ (brTaken 5 a b = true ↔ b ≤ a) ∧ brTaken 6 a b = true)
  ∧ (∀ (t : Stream) (r q v : Nat),
       (t.setReg 0 v = t ∧ t.reg 0 = 0)
       ∧ (0 < r → r < t.s.length → (t.setReg r v).reg r = v % 2 ^ 64)
       ∧ (q ≠ r → (t.setReg r v).reg q = t.reg q)
       ∧ (r < t.a.length → (t.setAddr r v).addr r = v % 2 ^ 32)
       ∧ (q ≠ r → (t.setAddr r v).addr q = t.addr q)
       ∧ (t.setReg r v).a = t.a ∧ (t.setAddr r v).s = t.s)

/-- FLAGS reads the word of the carrel at which it issues, and with clr clears that word and no other: the bay and device aggregates,
and every other carrel's word, stand (R210, R67).
WATCH.RUNG reads the rung in force for a layer; a layer without a watch entry faults with EARG (R227). -/
def Obligations.FlagsAndRung : Prop :=
  (∀ (s : State) (c st rd : Nat) (h : Hdr) (clr : Bool) (p : At), Ready s c st h (.flags rd clr) p →
     exec (.ctrlFlags c st h rd clr) s = .next { s with ctxs := tset s.ctxs c { p.x with
       flags := if clr then { p.x.flags with carrel := tdel p.x.flags.carrel p.t.issue } else p.x.flags,
       att := some { p.a with
         streams := p.a.streams.set st ((nextWord p).setReg rd (tgetD p.x.flags.carrel p.t.issue 0)) } } })
  ∧ (∀ (s : State) (c st rd layer : Nat) (h : Hdr) (p : At), Ready s c st h (.rung rd layer) p →
       (∀ r, rungOf p.x layer = some r → exec (.watchRung c st h rd layer) s = .next (putStream p ((nextWord p).setReg rd r)))
       ∧ (rungOf p.x layer = none →
           exec (.watchRung c st h rd layer) s = .next (recordFault s c st p.t.pc p.w p.t.issue ⟨.earg, 0, 0⟩)))

/-- An instruction whose predicate does not let it execute only goes to the next word: whatever the instruction (R204).
A fenced instruction waits, with no effect, while an operation of its stream is in flight: whatever the instruction (R205).
A PRE, EPI or FOLD that names a busy tile waits, with no effect (R237).
A data operation or FOLD that conflicts with an earlier operation of its stream, or that finds 32 in flight, waits, with no effect: it
reads or writes a call number that an earlier one writes, or writes one that an earlier one still reads (R235, R238; every operation but a
folio reads at its issue, log 6). -/
def Obligations.Withheld : Prop :=
  (∀ (s : State) (i : Instr) (c st : Nat) (h : Hdr) (n : Ins) (p : At), i.ins? = some (c, st, h, n) →
     issueAt s c st h n = some p → h.pe = true → ((p.t.reg h.ps ≠ 0) ↔ h.pn = true) →
       exec i s = .next (putStream p (nextWord p)))
  ∧ (∀ (s : State) (i : Instr) (c st : Nat) (h : Hdr) (n : Ins) (p : At), i.ins? = some (c, st, h, n) →
       issueAt s c st h n = some p → predOk h p.t = true → h.fw = true → p.t.window ≠ [] →
         exec i s = .next (putStream p { p.t with waiting := true }))
  ∧ (∀ (s : State) (i : Instr) (c st : Nat) (h : Hdr) (n : Ins) (p : At) (k : Nat), i.ins? = some (c, st, h, n) → Ready s c st h n p →
       ((∃ o f, n = .pre o f ∧ f.tile = k) ∨ (∃ f, n = .epiArith f ∧ f.tile = k) ∨ (∃ f, n = .epiTap f ∧ f.tile = k) ∨ n = .epiReset k
         ∨ ∃ o f, n = .fold o f ∧ f.tile = k) →
       (p.t.tile k).busy = true → exec i s = .next (putStream p { p.t with waiting := true }))
  ∧ (∀ (s : State) (i : Instr) (c st : Nat) (h : Hdr) (n : Ins) (p : At) (reads writes : List Nat), i.ins? = some (c, st, h, n) →
       Ready s c st h n p → opCalls n p = some (reads, writes) →
       (32 ≤ p.t.window.length
         ∨ ∃ o ∈ p.t.window, (∃ k ∈ o.writes, k ∈ reads ∨ k ∈ writes)
           ∨ (stillReads p.a o = true ∧ ∃ k ∈ o.reads, k ∈ writes)) →
         exec i s = .next (putStream p { p.t with waiting := true }))

/-! ### Waiting, barriers and the end of a stream -/

/-- FENCE goes on once nothing it names is in flight: every operation, or every operation that writes; else it waits. WAITT waits on
busy tiles. Neither changes anything else (R231, R233).
WAITC and END: with every named slot's collective ended in success, the named slots become free (END: all 16) and the stream goes on
(END: it ends); with a collective still open they wait; with all ended and one not a success the stream faults with the status of the
lowest such slot, and what that slot holds for the record: the collective's id, or the address of an EPOISON or EACCESS (R229, R231, R245). -/
def Obligations.WaitInstructions : Prop :=
  (∀ (s : State) (c st : Nat) (h : Hdr) (p : At),
     (∀ w, Ready s c st h (.fence w) p → (∀ o ∈ p.t.window, w = true ∧ o.writes = []) →
       exec (.syncFence c st h w) s = .next (putStream p (nextWord p)))
     ∧ (∀ w, Ready s c st h (.fence w) p → (∃ o ∈ p.t.window, w = false ∨ o.writes ≠ []) →
       exec (.syncFence c st h w) s = .next (putStream p { p.t with waiting := true }))
     ∧ (∀ m, Ready s c st h (.waitt m) p → (∀ k < 16, bitOf m k = true → (p.t.tile k).busy = false) →
       exec (.syncWaitt c st h m) s = .next (putStream p (nextWord p)))
     ∧ (∀ m, Ready s c st h (.waitt m) p → (∃ k < 16, bitOf m k = true ∧ (p.t.tile k).busy = true) →
       exec (.syncWaitt c st h m) s = .next (putStream p { p.t with waiting := true })))
  ∧ (∀ (s : State) (c st : Nat) (h : Hdr) (p : At),
       (∀ m, Ready s c st h (.waitc m) p →
         (∀ k < 16, bitOf m k = true → (p.t.slot k).busy = true → (p.t.slot k).status = some .success) →
         exec (.syncWaitc c st h m) s = .next (putStream p (freeSlots (nextWord p) (maskList m))))
       ∧ (Ready s c st h .endS p → (∀ k < 16, (p.t.slot k).busy = true → (p.t.slot k).status = some .success) →
         exec (.ctrlEnd c st h) s = .next (putStream p { freeSlots (nextWord p) (List.range 16) with ended := true }))
       ∧ (∀ m k, Ready s c st h (.waitc m) p → k < 16 → bitOf m k = true → (p.t.slot k).busy = true → (p.t.slot k).status = none →
         exec (.syncWaitc c st h m) s = .next (putStream p { p.t with waiting := true }))
       ∧ (∀ m k e, Ready s c st h (.waitc m) p → k < 16 → bitOf m k = true → (p.t.slot k).busy = true → (p.t.slot k).status = some e →
         e ≠ .success → (∀ j < 16, bitOf m j = true → (p.t.slot j).busy = true → (p.t.slot j).status ≠ none) →
         (∀ j < k, bitOf m j = true → (p.t.slot j).busy = true → (p.t.slot j).status = some .success) →
         exec (.syncWaitc c st h m) s = .next (recordFault s c st p.t.pc p.w p.t.issue ⟨e, 0, (p.t.slot k).detail⟩))
       ∧ (∀ (t : Stream) ks k, k < t.slots.length → (k ∈ ks → (freeSlots t ks).slot k = Slot.free)
         ∧ (k ∉ ks → (freeSlots t ks).slot k = t.slot k)))

/-- BAR counts a stream's arrival once and stands; BAR_RELEASE, once every stream has reached its k-th BAR or its END and no operation
issued before is in flight, lets the streams that stand there go on, and does nothing before that (R230). -/
def Obligations.BarAndRelease : Prop :=
  ∀ (s : State) (c : Nat),
    (∀ (st : Nat) (h : Hdr) (p : At), Ready s c st h .bar p → p.t.bars = p.t.barsDone →
      exec (.syncBar c st h) s = .next (putStream p { p.t with bars := p.t.bars + 1, waiting := false }))
    ∧ (∀ (x : Ctx) (a : Attempt) (k : Nat), Running s c x a → a.phase = .program → a.status = .success → barNext a = some k →
      (∀ t ∈ a.streams, (t.ended = true ∨ k ≤ t.bars) ∧ (k < t.bars ∨ t.window = [])) →
      exec (.barRelease c) s = .next { s with ctxs := tset s.ctxs c { x with
        att := some { a with streams := a.streams.map fun t =>
          if t.bars = k ∧ t.barsDone + 1 = k then { t with barsDone := k, pc := t.pc + 1, waiting := false } else t } } })
    ∧ (∀ (x : Ctx) (a : Attempt) (k : Nat), Running s c x a → barNext a = some k →
      (∃ t ∈ a.streams, (t.ended = false ∧ t.bars < k) ∨ (t.bars ≤ k ∧ t.window ≠ [])) → exec (.barRelease c) s = .next s)

/-- A stream whose next word lies beyond its last faults with EPC at that word: it stops, and its record and the attempt's status take the
fault where they hold none (R197, R244).
The first fault of a stream keeps its record for the step, and the first failure of an attempt its status and time; a later fault
changes neither, and always stops the stream; then no stream of the context issues (R244, R245). -/
def Obligations.StreamFaults : Prop :=
  (∀ (s : State) (c st : Nat) (x : Ctx) (a : Attempt) (t : Stream), Running s c x a → x.ident.st = .running → a.phase = .program →
     a.status = .success → a.streams[st]? = some t → t.ended = false → t.stopped = false → wordAt x st t.pc = none →
     tget x.faults st = none →
       exec (.streamFallThrough c st) s = .next { s with ctxs := tset s.ctxs c { x with
         faults := tset x.faults st { word := 0, pc := t.pc, stream := st, status := .epc, check := 0, detail := 0, time := s.now,
                                      carrel := t.issue, step := x.gate.step },
         att := some { a with status := .epc, firstFault := s.now,
                              streams := a.streams.set st { t with stopped := true, waiting := false } } } })
  ∧ (∀ (s : State) (c st pc word carrel : Nat) (f : XFault) (x : Ctx) (a : Attempt), Running s c x a →
       ∃ y b, getCtx (recordFault s c st pc word carrel f) c = some y ∧ y.att = some b
         ∧ (∀ r, tget x.faults st = some r → y.faults = x.faults)
         ∧ (a.status ≠ .success → b.status = a.status ∧ b.firstFault = a.firstFault)
         ∧ (a.status = .success → b.status = f.status ∧ b.firstFault = s.now)
         ∧ (∀ t, a.streams[st]? = some t → b.streams[st]? = some { t with stopped := true, waiting := false })
         ∧ (∀ k, k ≠ st → b.streams[k]? = a.streams[k]? ∧ tget y.faults k = tget x.faults k)
         ∧ (recordFault s c st pc word carrel f).mem = s.mem ∧ (recordFault s c st pc word carrel f).hostMem = s.hostMem
         ∧ (∀ d, d ≠ c → getCtx (recordFault s c st pc word carrel f) d = getCtx s d)
         ∧ (f.status ≠ .success → ∀ k h i, issueAt (recordFault s c st pc word carrel f) c k h i = none))

/-! ### Tiles -/

/-- PRE and EPI set the configuration of an idle tile, and nothing else; a register they name is read at their issue (R217–R219). -/
def Obligations.TilesConfigured : Prop :=
  ∀ (s : State) (c st : Nat) (h : Hdr) (p : At),
    (∀ f : PreF, Ready s c st h (.pre .zero f) p → (p.t.tile f.tile).busy = false → exec (.preZero c st h f) s
      = .next (putStream p ((nextWord p).setTile f.tile { p.t.tile f.tile with pre := .zero })))
    ∧ (∀ f : PreF, Ready s c st h (.pre .brow f) p → (p.t.tile f.tile).busy = false → exec (.preBrow c st h f) s
      = .next (putStream p ((nextWord p).setTile f.tile { p.t.tile f.tile with pre := .brow (p.t.addr f.aP) })))
    ∧ (∀ f : PreF, Ready s c st h (.pre .bcol f) p → (p.t.tile f.tile).busy = false → exec (.preBcol c st h f) s
      = .next (putStream p ((nextWord p).setTile f.tile { p.t.tile f.tile with pre := .bcol (p.t.addr f.aP) })))
    ∧ (∀ f : PreF, Ready s c st h (.pre .res f) p → (p.t.tile f.tile).busy = false → exec (.preRes c st h f) s
      = .next (putStream p ((nextWord p).setTile f.tile
          { p.t.tile f.tile with pre := .res (p.t.addr f.aP) (p.t.reg f.sp) (p.t.reg (f.sp + 1)) })))
    ∧ (∀ f : PreF, Ready s c st h (.pre .self f) p → (p.t.tile f.tile).busy = false → exec (.preSelf c st h f) s
      = .next (putStream p ((nextWord p).setTile f.tile { p.t.tile f.tile with pre := .self })))
    ∧ (∀ f : EpiArithF, Ready s c st h (.epiArith f) p → (p.t.tile f.tile).busy = false → exec (.epiArith c st h f) s
      = .next (putStream p ((nextWord p).setTile f.tile { p.t.tile f.tile with epi := { (p.t.tile f.tile).epi with
          saxis := f.saxis, scale := if f.saxis = 0 then 0 else p.t.addr f.scale, baxis := f.baxis,
          bias := if f.baxis = 0 then 0 else p.t.addr f.bias, slot := f.slot, target := f.target, round := f.round,
          stream := f.stream } })))
    ∧ (∀ f : EpiTapF, Ready s c st h (.epiTap f) p → (p.t.tile f.tile).busy = false → exec (.epiTap c st h f) s
      = .next (putStream p ((nextWord p).setTile f.tile { p.t.tile f.tile with epi := { (p.t.tile f.tile).epi with
          reduction := f.reduction, raxis := f.raxis, merge := f.merge, result := if f.reduction = 0 then 0 else p.t.addr f.result,
          tap := f.tap, qtensor := if f.tap then p.t.addr f.qtensor else 0, taxis := f.taxis, stats := f.stats, skind := f.skind,
          layer := f.layer } })))
    ∧ (∀ k, Ready s c st h (.epiReset k) p → (p.t.tile k).busy = false → exec (.epiReset c st h k) s
      = .next (putStream p ((nextWord p).setTile k { p.t.tile k with epi := Epi.default })))

/-! ### Data operations -/

/-- COPY, FILL, ROT, QUANT and DEQ run through: each may enter the window, passes its checks at issue and meets no fault; then it enters the
window with the call numbers it reads and writes, its stream goes on, and nothing but its work changes (R212, R220–R222, R234, R235). -/
def Obligations.MovesRun : Prop :=
  ∀ (s : State) (c st : Nat) (h : Hdr) (p : At),
    (∀ f : MoveF, Ready s c st h (.copy f) p →
      Clean p (checkOpnds p [p.t.addr f.aD, p.t.addr f.aS] (copyChecks p.x (p.t.origins f.sb 4) (f.rows + 1) (f.cols + 1)))
        [p.t.addr f.aS] [p.t.addr f.aD] (copyWork f p) →
      ∃ t, exec (.moveCopy c st h f) s = .next t ∧ Issued s p [p.t.addr f.aS] [p.t.addr f.aD] (copyWork f p) t [])
    ∧ (∀ f : MoveF, Ready s c st h (.fill f) p →
      Clean p (checkOpnds p [p.t.addr f.aD]
          (fillChecks (p.t.reg f.rv) (p.t.reg f.sb) (p.t.reg (f.sb + 1)) (f.rows + 1) (f.cols + 1)))
        [] [p.t.addr f.aD] (fillWork f p) →
      ∃ t, exec (.moveFill c st h f) s = .next t ∧ Issued s p [] [p.t.addr f.aD] (fillWork f p) t [])
    ∧ (∀ f : RotF, Ready s c st h (.rot false f) p →
      Clean p (checkOpnds p [p.t.addr f.aD, p.t.addr f.aS] (rotChecks p.x f (p.t.origins f.sb 4)))
        [p.t.addr f.aS] [p.t.addr f.aD] (rotWork false f p) →
      ∃ t, exec (.rotFwd c st h f) s = .next t ∧ Issued s p [p.t.addr f.aS] [p.t.addr f.aD] (rotWork false f p) t)
    ∧ (∀ f : RotF, Ready s c st h (.rot true f) p →
      Clean p (checkOpnds p [p.t.addr f.aD, p.t.addr f.aS] (rotChecks p.x f (p.t.origins f.sb 4)))
        [p.t.addr f.aS] [p.t.addr f.aD] (rotWork true f p) →
      ∃ t, exec (.rotInv c st h f) s = .next t ∧ Issued s p [p.t.addr f.aS] [p.t.addr f.aD] (rotWork true f p) t)
    ∧ (∀ f : RotF, Ready s c st h (.quant f) p →
      Clean p (checkOpnds p [p.t.addr f.aD, p.t.addr f.aS] (quantChecks p.x f (p.t.origins f.sb 4)))
        [p.t.addr f.aS] [p.t.addr f.aD] (quantWork f p) →
      ∃ t, exec (.qntQuant c st h f) s = .next t ∧ Issued s p [p.t.addr f.aS] [p.t.addr f.aD] (quantWork f p) t)
    ∧ (∀ f : RotF, Ready s c st h (.deq f) p →
      Clean p (checkOpnds p [p.t.addr f.aD, p.t.addr f.aS] (deqChecks p.x f (p.t.origins f.sb 4)))
        [p.t.addr f.aS] [p.t.addr f.aD] (deqWork f p) →
      ∃ t, exec (.qntDeq c st h f) s = .next t ∧ Issued s p [p.t.addr f.aS] [p.t.addr f.aD] (deqWork f p) t)

/-- The eight RED operations run through, in the sense of `MovesRun` (R223–R225). -/
def Obligations.ReductionsRun : Prop :=
  ∀ (s : State) (c st : Nat) (h : Hdr) (p : At) (f : RedF),
    let ok (o : RedOp) : Prop := Ready s c st h (.red o f) p
      ∧ Clean p (checkOpnds p [p.t.addr f.aD, p.t.addr f.aS] (redChecks f (p.t.origins f.sb 4)))
          [p.t.addr f.aS] [p.t.addr f.aD] (redWork o f p)
    let out (o : RedOp) (t : State) : Prop := Issued s p [p.t.addr f.aS] [p.t.addr f.aD] (redWork o f p) t
    let d := p.ref (p.t.addr f.aD); let u := p.ref (p.t.addr f.aS)
    let ladd := addWork p u (p.t.origins f.sb 4) (f.rows + 1) (f.cols + 1)
      fun s i j v => ledgerCell s c p.x d i j fun l => l.add32 v
    let fadd := addWork p u (p.t.origins f.sb 4) (f.rows + 1) (f.cols + 1) fun s i j v => floatCell s c p.x d i j v
    (ok .sum → ∃ t, exec (.redSum c st h f) s = .next t ∧ out .sum t)
    ∧ (ok .sumsq → ∃ t, exec (.redSumsq c st h f) s = .next t ∧ out .sumsq t)
    ∧ (ok .max → ∃ t, exec (.redMax c st h f) s = .next t ∧ out .max t)
    ∧ (ok .min → ∃ t, exec (.redMin c st h f) s = .next t ∧ out .min t)
    ∧ (ok .amax → ∃ t, exec (.redAmax c st h f) s = .next t ∧ out .amax t)
    ∧ (Ready s c st h (.red .stats f) p →
        Clean p (checkOpnds p [p.t.addr f.aS] fun l => l.flatMap fun u =>
            [(u.isFloat && (tget p.x.pol.watch f.layer).isSome, eargF),
             inView u (p.t.reg f.sb) (p.t.reg (f.sb + 1)) (f.rows + 1) (f.cols + 1)])
          [p.t.addr f.aS] [] (statsWork f p) →
        ∃ t, exec (.redStats c st h f) s = .next t ∧ Issued s p [p.t.addr f.aS] [] (statsWork f p) t)
    ∧ (Ready s c st h (.red .ladd f) p →
        Clean p (checkOpnds p [p.t.addr f.aD, p.t.addr f.aS] (addChecks true p.s p.x f (p.t.origins f.sb 4)))
          [p.t.addr f.aS] [p.t.addr f.aD] ladd →
        ∃ t, exec (.redLadd c st h f) s = .next t ∧ Issued s p [p.t.addr f.aS] [p.t.addr f.aD] ladd t)
    ∧ (Ready s c st h (.red .fadd f) p → p.x.verbatim = false →
        Clean p (checkOpnds p [p.t.addr f.aD, p.t.addr f.aS] (addChecks false p.s p.x f (p.t.origins f.sb 4)))
          [p.t.addr f.aS] [p.t.addr f.aD] fadd →
        ∃ t, exec (.redFadd c st h f) s = .next t ∧ Issued s p [p.t.addr f.aS] [p.t.addr f.aD] fadd t)

/-- The twelve VEC operations run through, in the sense of `MovesRun` (R226, R250–R267). -/
def Obligations.VectorsRun : Prop :=
  ∀ (s : State) (c st : Nat) (h : Hdr) (p : At) (f : VecF),
    let ok (o : VecOp) : Prop := Ready s c st h (.vec o f) p
      ∧ Clean p (checkOpnds p (p.t.addr f.aD :: vecReads p o f) (vecChecks p o f)) (vecReads p o f) [p.t.addr f.aD] (vecWork o f p)
    let out (o : VecOp) (t : State) : Prop := Issued s p (vecReads p o f) [p.t.addr f.aD] (vecWork o f p) t
    (ok .add → ∃ t, exec (.vecAdd c st h f) s = .next t ∧ out .add t)
    ∧ (ok .sub → ∃ t, exec (.vecSub c st h f) s = .next t ∧ out .sub t)
    ∧ (ok .mul → ∃ t, exec (.vecMul c st h f) s = .next t ∧ out .mul t)
    ∧ (ok .fma → ∃ t, exec (.vecFma c st h f) s = .next t ∧ out .fma t)
    ∧ (ok .max → ∃ t, exec (.vecMax c st h f) s = .next t ∧ out .max t)
    ∧ (ok .min → ∃ t, exec (.vecMin c st h f) s = .next t ∧ out .min t)
    ∧ (ok .cvt → ∃ t, exec (.vecCvt c st h f) s = .next t ∧ out .cvt t)
    ∧ (ok .exp → ∃ t, exec (.vecExp c st h f) s = .next t ∧ out .exp t)
    ∧ (ok .rcp → ∃ t, exec (.vecRcp c st h f) s = .next t ∧ out .rcp t)
    ∧ (ok .rsqrt → ∃ t, exec (.vecRsqrt c st h f) s = .next t ∧ out .rsqrt t)
    ∧ (Ready s c st h (.vec .split f) p →
        Clean p (checkOpnds p [p.t.addr f.aD, p.t.addr f.aX, p.t.addr f.aY] (splitChecks p f))
          [p.t.addr f.aX] [p.t.addr f.aD, p.t.addr f.aY] (splitWork f p) →
        ∃ t, exec (.vecSplit c st h f) s = .next t ∧ Issued s p [p.t.addr f.aX] [p.t.addr f.aD, p.t.addr f.aY] (splitWork f p) t)
    ∧ (Ready s c st h (.vec .merge f) p →
        Clean p (checkOpnds p [p.t.addr f.aD, p.t.addr f.aX, p.t.addr f.aY, p.t.addr f.aZ] (mergeChecks p f))
          [p.t.addr f.aX, p.t.addr f.aY, p.t.addr f.aZ] [p.t.addr f.aD] (mergeWork f p) →
        ∃ t, exec (.vecMerge c st h f) s = .next t
          ∧ Issued s p [p.t.addr f.aX, p.t.addr f.aY, p.t.addr f.aZ] [p.t.addr f.aD] (mergeWork f p) t)

/-- Every carrel instruction but a collective's leaves every byte outside the places it stores to, whether it runs through, waits or
faults; an instruction that stores nothing leaves every byte (R212–R226, R243). -/
def Obligations.MemoryFrame : Prop :=
  ∀ (s : State) (i : Instr) (c st : Nat) (h : Hdr) (n : Ins) (p : At) (t : State), i.ins? = some (c, st, h, n) →
    (∀ o f, n ≠ .coll o f) → issueAt s c st h n = some p → exec i s = .next t →
      ∃ y, getCtx t c = some y ∧ ∀ q, q ∉ storePlaces n p → peek t y q = peek s p.x q

/-- After FILL of a plain tensor whose elements lie apart, every element of the extent reads the register's low bits (R212).
After COPY between plain tensors, every element of the destination's extent reads the code that the source's element had before, also
where the two overlap (R212, R213). -/
def Obligations.FillAndCopyWrite : Prop :=
  (∀ (s : State) (c st : Nat) (h : Hdr) (f : MoveF) (p : At), Memory.wf s.mem.bytes → Memory.wf s.hostMem → p.x.memOk = true →
     Ready s c st h (.fill f) p →
     Clean p (checkOpnds p [p.t.addr f.aD]
         (fillChecks (p.t.reg f.rv) (p.t.reg f.sb) (p.t.reg (f.sb + 1)) (f.rows + 1) (f.cols + 1))) [] [p.t.addr f.aD] (fillWork f p) →
     (p.ref (p.t.addr f.aD)).isPlain = true →
     Apart p.x (p.ref (p.t.addr f.aD)) (p.t.reg f.sb) (p.t.reg (f.sb + 1)) (f.rows + 1) (f.cols + 1) →
       ∃ t y, exec (.moveFill c st h f) s = .next t ∧ getCtx t c = some y ∧
         ∀ i j, i ≤ f.rows → j ≤ f.cols →
           (readCode t y (p.ref (p.t.addr f.aD)) (p.t.reg f.sb + i) (p.t.reg (f.sb + 1) + j)).map (·.1)
             = some (p.t.reg f.rv % 2 ^ (p.ref (p.t.addr f.aD)).e.width))
  ∧ (∀ (s : State) (c st : Nat) (h : Hdr) (f : MoveF) (p : At), Memory.wf s.mem.bytes → Memory.wf s.hostMem → p.x.memOk = true →
       let d := p.ref (p.t.addr f.aD); let u := p.ref (p.t.addr f.aS)
       let r (k : Nat) : Nat := p.t.reg (f.sb + k)
       Ready s c st h (.copy f) p →
       Clean p (checkOpnds p [p.t.addr f.aD, p.t.addr f.aS] (copyChecks p.x (p.t.origins f.sb 4) (f.rows + 1) (f.cols + 1)))
         [p.t.addr f.aS] [p.t.addr f.aD] (copyWork f p) →
       u.e.kind ≠ 1 → d.e.kind ≠ 1 → Apart p.x d (r 0) (r 1) (f.rows + 1) (f.cols + 1) →
         ∃ t y, exec (.moveCopy c st h f) s = .next t ∧ getCtx t c = some y ∧
           ∀ i j, i ≤ f.rows → j ≤ f.cols →
             (readCode t y d (r 0 + i) (r 1 + j)).map (·.1) = (readCode s p.x u (r 2 + i) (r 3 + j)).map (·.1))

/-- After an elementwise VEC, every element of the destination's extent reads the exact result rounded once to the destination format where
that is the precision or the op is CVT, else first to the precision by RNE; a stochastic rounding takes the draw of the element's logical
index; the operands are those read at issue (R226, R263).
The value of each elementwise VEC operation before rounding (R226, R264): MAX and MIN give NaN where an operand is one, and rank −0
below +0. -/
def Obligations.VectorResults : Prop :=
  (∀ (s : State) (i : Instr) (c st : Nat) (h : Hdr) (o : VecOp) (f : VecF) (p : At), Memory.wf s.mem.bytes → Memory.wf s.hostMem →
     p.x.memOk = true → i.ins? = some (c, st, h, .vec o f) → o ≠ .split → o ≠ .merge →
     let d := p.ref (p.t.addr f.aD)
     let r := p.t.reg f.sb; let k := p.t.reg (f.sb + 1)
     Ready s c st h (.vec o f) p →
     Clean p (checkOpnds p (p.t.addr f.aD :: vecReads p o f) (vecChecks p o f)) (vecReads p o f) [p.t.addr f.aD] (vecWork o f p) →
     Apart p.x d r k (f.rows + 1) (f.cols + 1) →
       ∃ t y, exec i s = .next t ∧ getCtx t c = some y ∧
         ∀ m n, m ≤ f.rows → n ≤ f.cols → ∃ a b z, valAt p.s p.x (p.ref (p.t.addr f.aX)) (r + m) (k + n) = .ok a ∧
           vecY p o f (r + m) (k + n) = .ok b ∧
           (o = .fma → valAt p.s p.x (p.ref (p.t.addr f.aZ)) (r + m) (k + n) = .ok z) ∧
           let e := (vecExact o a.1 b.1 z.1).1
           let g := precFmt f.prec
           let rm := (RM.ofCode f.round).getD .rne
           let dr := if rm = .sr then draw p.x.ident.seed f.stream p.x.gate.step (logicalIdx d.e (r + m) (k + n)) else 0
           (readCode t y d (r + m) (k + n)).map (·.1) = some ((if o = .cvt ∨ g = d.fmt then (convert d.fmt rm dr e).1
             else (convert d.fmt rm dr (decode g (convert g .rne 0 e).1)).1) % 2 ^ d.e.width))
  ∧ (∀ a b z : XReal,
       vecExact .add a b z = (a.add b, Flags.none) ∧ vecExact .sub a b z = (a.sub b, Flags.none)
       ∧ vecExact .mul a b z = (a.mul b, Flags.none) ∧ vecExact .fma a b z = ((a.mul b).add z, Flags.none)
       ∧ (a.isNan = true ∨ b.isNan = true → vecMaxMin true a b = .nan ∧ vecMaxMin false a b = .nan)
       ∧ (a.isNan = false → b.isNan = false → XReal.lt a b = true → vecMaxMin true a b = b ∧ vecMaxMin false a b = a)
       ∧ (a.isNan = false → b.isNan = false → XReal.lt a b = false → XReal.lt b a = true →
           vecMaxMin true a b = a ∧ vecMaxMin false a b = b))

/-- STAGE stages the named rows of a live source whose extent lies inside it, writes no tensor and enters no window; LOOKAHEAD_STAGE does
the same for the word at which a stream waits and the words ahead of it, and changes placement only (R214, R240). -/
def Obligations.Staging : Prop :=
  ∀ (s : State) (c st : Nat),
    (∀ (h : Hdr) (f : MoveF) (p : At) (e : TRef), Ready s c st h (.stage f) p → tensor p.x (p.t.addr f.aS) = some e →
      extentOk e.e (p.t.reg (f.sb + 2)) (p.t.reg (f.sb + 3)) (f.rows + 1) (f.cols + 1) = true →
        exec (.moveStage c st h f) s = .next { s with ctxs := tset s.ctxs c { p.x with
          cat := { p.x.cat with staged :=
            if p.x.cat.staged.contains (p.t.addr f.aS, p.t.reg (f.sb + 2), f.rows + 1) then p.x.cat.staged
            else p.x.cat.staged ++ [(p.t.addr f.aS, p.t.reg (f.sb + 2), f.rows + 1)] },
          att := some { p.a with streams := p.a.streams.set st (nextWord p) } } })
    ∧ (∀ (x : Ctx) (a : Attempt) (t : Stream), Running s c x a → a.phase = .program → a.streams[st]? = some t →
        (t.waiting = true ∨ t.barsDone < t.bars) →
        ∃ u l, exec (.lookaheadStage c st) s = .next u
          ∧ u = { s with ctxs := u.ctxs } ∧ (∀ d, d ≠ c → getCtx u d = getCtx s d)
          ∧ getCtx u c = some { x with cat := { x.cat with staged := l } }
          ∧ (∀ g, g ∈ l ↔ g ∈ x.cat.staged ∨ g ∈ lookaheadOf x st t)
          ∧ ∀ g ∈ lookaheadOf x st t, (liveEntry x g.1).isSome = true)

/-! ### Folios -/

/-- The six FOLD operations: with the tile idle, the window free of conflicts and the checks passed, a FOLD captures its tile's configuration
in a new folio, marks the tile busy and enters the window with the folio's assignment set, P carrels of the grant; nothing else changes but
what the reads of its operands' tensor scales warm and count, and nothing at all where it reads none (R79, R216, R235, R333). -/
def Obligations.FoldsIssue : Prop :=
  ∀ (s : State) (c st : Nat) (h : Hdr) (p : At) (f : FoldF),
    let ok (o : FoldOp) : Prop := Ready s c st h (.fold o f) p ∧ (p.t.tile f.tile).busy = false
      ∧ p.clear (foldReads p f) (foldWrites p f) = true
      ∧ checkOpnds p ([p.t.addr f.aA, p.t.addr f.aB, p.t.addr f.aC] ++ tileCalls (p.t.tile f.tile) ++ tileResult (p.t.tile f.tile))
          (foldChecks p o f) = none
    let out (o : FoldOp) (t : State) : Prop :=
      let g := newFolio p o f
      ∃ y, getCtx t c = some y
        ∧ y.att = some { p.a with
            opSeq := p.a.opSeq + 1, folios := p.a.folios ++ [g],
            streams := p.a.streams.set st { (nextWord p).setTile f.tile { p.t.tile f.tile with busy := true } with
              window := p.t.window ++ [⟨p.a.opSeq, foldReads p f, foldWrites p f, true, none, g.set⟩] } }
        ∧ { p.x with cat := y.cat, att := y.att } = y ∧ (∀ d, d ≠ c → getCtx t d = getCtx s d)
        ∧ t.free = s.free + 2 ∧ { s.mem with lines := t.mem.lines } = t.mem
        ∧ Posted s t ∧ { s with ctxs := t.ctxs, mem := t.mem, regs := t.regs, free := t.free, out := t.out, fabric := t.fabric } = t
        ∧ (g.scaleA = none → g.scaleB = none → g.scaleT = none →
            y.cat = p.x.cat ∧ t.mem = s.mem ∧ t.regs = s.regs ∧ t.out = s.out ∧ t.fabric = s.fabric)
    (ok .dot → ∃ t, exec (.foldDot c st h f) s = .next t ∧ out .dot t)
    ∧ (ok .l1 → ∃ t, exec (.foldL1 c st h f) s = .next t ∧ out .l1 t)
    ∧ (ok .l2 → ∃ t, exec (.foldL2 c st h f) s = .next t ∧ out .l2 t)
    ∧ (ok .maxp → ∃ t, exec (.foldMaxp c st h f) s = .next t ∧ out .maxp t)
    ∧ (ok .minp → ∃ t, exec (.foldMinp c st h f) s = .next t ∧ out .minp t)
    ∧ (ok .xpop → ∃ t, exec (.foldXpop c st h f) s = .next t ∧ out .xpop t)
    ∧ (∀ o, (newFolio p o f).id = p.a.opSeq ∧ (newFolio p o f).op = o ∧ (newFolio p o f).pre = (p.t.tile f.tile).pre
        ∧ (newFolio p o f).epi = (p.t.tile f.tile).epi ∧ (f.pmax ≠ 0 → (newFolio p o f).p = min f.pmax p.x.g)
        ∧ (f.pmax = 0 → (newFolio p o f).p = p.x.g) ∧ (newFolio p o f).set.length = (newFolio p o f).p
        ∧ (∀ k ∈ (newFolio p o f).set, k ∈ p.x.ident.grant) ∧ (p.x.ident.grant.Nodup → (newFolio p o f).set.Nodup)
        ∧ ∀ leaf, carrelOf (newFolio p o f) leaf 0 = homeCarrel (newFolio p o f) leaf)

/-- A piece of a folio arrives once: its partial cells join the folio's. A carrel of the assignment set with nothing queued takes, from the
carrel with the most work left, the last piece it would run, never that of span 0; the move changes no partial and no memory (R163, R167,
R335, R336). -/
def Obligations.PiecesArriveAndMove : Prop :=
  ∀ (s : State) (c folio : Nat) (x : Ctx) (f : Folio), folioOf s c folio = some (x, f) →
    (∀ leaf span r, pieceOpen f leaf span = true → pieceWork s x f leaf span = .ok r →
      ∃ t y g, exec (.piecePartialArrival c folio leaf span) s = .next t ∧ folioOf t c folio = some (y, g)
        ∧ g.partials = f.partials ++ [(leaf, span, r.cells)] ∧ pieceOpen g leaf span = false)
    ∧ (∀ leaf span, pieceOpen f leaf span = false → exec (.piecePartialArrival c folio leaf span) s = .next s)
    ∧ (∀ thief victim q, balanceOn x = true → thief ∈ f.set → queued f thief = [] → busiest x f = some victim →
      givenUp f victim = some q →
      q.2 ≠ 0 ∧ q ∈ queued f victim ∧ ∃ t y g, exec (.loadBalanceSteal c folio thief) s = .next t ∧ folioOf t c folio = some (y, g)
        ∧ g = { f with carrels := f.carrels ++ [(q.1, q.2, thief)] } ∧ carrelOf g q.1 q.2 = thief
        ∧ (∀ leaf span, (leaf, span) ≠ q → carrelOf g leaf span = carrelOf f leaf span) ∧ t.mem = s.mem)
    ∧ (∀ thief, thief ∉ f.set ∨ queued f thief ≠ [] ∨ balanceOn x = false → exec (.loadBalanceSteal c folio thief) s = .next s)
    ∧ (∀ v, busiest x f = some v → v ∈ f.set ∧ ∀ k ∈ f.set, workLeft x f k ≤ workLeft x f v)

/-- A folio whose leaves are all delivered, or that has faulted, and whose records have all arrived leaves its stream's window and its tile
becomes idle; an operation that is no folio leaves the window once its records have arrived and its collective, if it has one, has ended
(R216, R229, R234). -/
def Obligations.OperationsLeave : Prop :=
  ∀ (s : State) (c : Nat) (x : Ctx) (a : Attempt), Running s c x a →
    (∀ folio f q, a.folios.find? (·.id == folio) = some f → (f.status ≠ .success ∨ f.leavesDone.length = f.leaves) →
      (∀ r ∈ a.records, r.op ≠ f.id) → a.streams[f.stream]? = some q →
        exec (.foldComplete c folio) s = .next { s with ctxs := tset s.ctxs c { x with att := some { a with
          folios := a.folios.filter fun g => g.id != f.id,
          streams := a.streams.set f.stream { q.setTile f.tile { q.tile f.tile with busy := false } with
            window := q.window.filter fun o => o.id != f.id } } } })
    ∧ (∀ st op q o, a.streams[st]? = some q → q.window.find? (·.id == op) = some o → o.folio = false →
      (∀ r ∈ a.records, r.op ≠ o.id) →
      (∀ id k, o.coll = some id → x.colls.find? (·.id == id) = some k → k.ended ≠ none) →
        exec (.operationComplete c st op) s = .next { s with ctxs := tset s.ctxs c { x with att := some { a with
          streams := a.streams.set st { q with window := q.window.filter fun o => o.id != op } } } })
    ∧ (∀ st op q o r, a.streams[st]? = some q → q.window.find? (·.id == op) = some o → r ∈ a.records → r.op = o.id →
        exec (.operationComplete c st op) s = .next s)

/-! ### Annex atomics -/

/-- Integer add, minimum and maximum, and compare and swap: with the cell cached or pinned, aligned, readable and writable, the cell takes
the new value, wrapping without a flag, the old value is returned, and every other byte keeps its own (R281–R284).
Ledger add, ledger combine and float add: with the cell cached or pinned, inside the tensor, unpoisoned and writable, the cell takes the
new value and every byte outside it keeps its own (R281–R285, R48).
A refused or failed atomic only answers: EARG for a target that is no annex tensor or no cell of the operation's kind, EPOISON for a
poisoned cell, EVERBATIM for a float add in Verbatim mode (R281, R282, R305). -/
def Obligations.AnnexAtomics : Prop :=
  (∀ (s : State) (c cn row col w v e off old : Nat) (x : Ctx) (t : TRef), Memory.wf s.mem.bytes → Memory.wf s.hostMem →
     x.memOk = true → getCtx s c = some x → atomCell s x cn row col w = .ok (t, off, old) → (byteUnits x t off (zeros (w / 8))).isSome = true →
     let after (new : Nat) (u : State) : Prop := ∃ y, getCtx u c = some y
       ∧ atomCell u y cn row col w = .ok (t, off, new) ∧ u.out.getLast? = some (.atomic c .success (some old))
       ∧ (∀ q, q ∉ runPlaces x t off (w / 8) → peek u y q = peek s x q) ∧ y.flags = x.flags ∧ y.att = x.att
     (∃ u, exec (.annexIntAdd c cn row col w v) s = .next u ∧ after ((old + v) % 2 ^ w) u)
     ∧ (∃ u, exec (.annexIntMinmax c cn row col w false true v) s = .next u ∧ after (max old (v % 2 ^ w)) u)
     ∧ (∃ u, exec (.annexIntMinmax c cn row col w false false v) s = .next u ∧ after (min old (v % 2 ^ w)) u)
     ∧ (∃ u, exec (.annexIntMinmax c cn row col w true true v) s = .next u ∧ after (if sext w old < sext w (v % 2 ^ w) then v % 2 ^ w else old) u)
     ∧ (∃ u, exec (.annexIntMinmax c cn row col w true false v) s = .next u ∧ after (if sext w old < sext w (v % 2 ^ w) then old else v % 2 ^ w) u)
     ∧ (∃ u, exec (.annexCas c cn row col w e v) s = .next u ∧ after (if old = e % 2 ^ w then v % 2 ^ w else old) u))
  ∧ (∀ (s : State) (c cn row col v : Nat) (img : Bytes) (x : Ctx) (t : TRef), Memory.wf s.mem.bytes → Memory.wf s.hostMem →
       x.memOk = true → getCtx s c = some x →
       (∀ l, cellTarget s x cn row col (·.kind == 2) = .ok t → frozenCells x cn = false → readCell s x t row col = some (l, false) →
         (byteUnits x t (cellOff t.e row col) (zeros 40)).isSome = true → (runPlaces x t (cellOff t.e row col) 40).Nodup →
         let after (new : Ledger) (u : State) : Prop := ∃ y, getCtx u c = some y
           ∧ readCell u y t row col = some (new, false) ∧ u.out.getLast? = some (.atomic c .success none)
           ∧ ∀ q, q ∉ runPlaces x t (cellOff t.e row col) 40 → peek u y q = peek s x q
         (∃ u, exec (.annexLedgerAdd c cn row col v) s = .next u ∧ after (l.add32 v).1 u)
         ∧ (∃ u, exec (.annexLedgerCombine c cn row col img) s = .next u ∧ after (l.combine (Ledger.ofImage img)) u))
       ∧ (∀ o, tensor x cn = some t → t.e.kind = 0 → t.e.fmt = 11 → annexTensor t = true → atomicsOk s x = true → row < t.e.rows →
         col < t.e.cols → x.verbatim = false → readCode s x t row col = some (o, false) →
         (codeUnits x t row col 0).isSome = true → (elemPlaces x t row col).Nodup →
         ∃ u y, exec (.annexFloatAdd c cn row col v) s = .next u ∧ getCtx u c = some y
           ∧ (readCode u y t row col).map (·.1) = some ((add32 o v).1 % 2 ^ 32) ∧ u.out.getLast? = some (.atomic c .success none)
           ∧ ∀ q, q ∉ elemPlaces x t row col → peek u y q = peek s x q))
  ∧ (∀ (s : State) (c cn row col w v e : Nat) (img : Bytes) (x : Ctx) (q : XFault), getCtx s c = some x →
       let refused (i : Instr) : Prop := exec i s = .next (atomicFails s c q)
       (atomCell s x cn row col w = .error q → refused (.annexIntAdd c cn row col w v) ∧ refused (.annexCas c cn row col w e v)
         ∧ (∀ sg mx, refused (.annexIntMinmax c cn row col w sg mx v)))
       ∧ (cellTarget s x cn row col (·.kind == 2) = .error q →
           refused (.annexLedgerAdd c cn row col v) ∧ refused (.annexLedgerCombine c cn row col img))
       ∧ (cellTarget s x cn row col (fun e => e.kind == 0 && e.fmt == 11) = .error q → refused (.annexFloatAdd c cn row col v))
       ∧ (∀ t, tensor x cn = some t → annexTensor t = false →
           atomCell s x cn row col w = .error ⟨.earg, 0, 0⟩ ∧ ∀ k, cellTarget s x cn row col k = .error ⟨.earg, 0, 0⟩)
       ∧ (∀ t, cellTarget s x cn row col (fun e => e.kind == 0 && e.fmt == 11) = .ok t → x.verbatim = true →
           exec (.annexFloatAdd c cn row col v) s = .next (s.emit (.atomic c .everbatim none))))

/-- A sum of FP32 terms in a ledger does not depend on the order in which they are added: the value and the state bits of the cell are the
same for every order (R45, R46).
Combining ledgers is associative and commutative with the empty ledger as its unit, and adding to a combination is adding to a part
(R47, R48). -/
def Obligations.LedgerAlgebra : Prop :=
  (∀ (l : Ledger) (a b : List Nat), a.Perm b → a.foldl (fun (l : Ledger) v => (l.add32 v).1) l = b.foldl (fun (l : Ledger) v => (l.add32 v).1) l)
  ∧ (∀ (a b d : Ledger) (v : Nat),
       (a.combine b).combine d = a.combine (b.combine d) ∧ a.combine b = b.combine a ∧ a.combine Ledger.empty = a
       ∧ ((a.combine b).add32 v).1 = a.combine (b.add32 v).1 ∧ Ledger.ofImage a.image = a
       ∧ (a.combine b).l.toNat = (a.l.toNat + b.l.toNat) % 2 ^ 320 ∧ (a.combine b).nan = (a.nan || b.nan)
       ∧ (a.combine b).pinf = (a.pinf || b.pinf) ∧ (a.combine b).ninf = (a.ninf || b.ninf))

/-! ### Collectives -/

/-- The nine COLL operations: with the checks passed, the window free and the source readable, a COLL marks its slot busy with its id,
enters the window and goes on; a member that is not the root sends the root its notice, and the root keeps its own; no memory changes, and
beside the notice only the reads of the source on peers leave the device (R228, R406, R407, R409). -/
def Obligations.CollsIssue : Prop :=
  ∀ (s : State) (c st : Nat) (h : Hdr) (p : At) (f : CollF) (k : Member),
    let id := collId p.x f.desc (p.t.descs.filter (· == f.desc)).length
    let ok (o : CollOp) : Prop := Ready s c st h (.coll o f) p ∧ f.slot < p.t.slots.length ∧ collBad p o f = none
      ∧ memberOf s p.x f.desc = some k ∧ p.clear (collReads k f p.t) (collWrites k f p.t) = true
      ∧ (o = .normReduce → (∀ t ∈ p.a.streams, t.window = []) ∧ ∀ j, p.x.pol.job = some j → lossState s p.x j ≠ none)
      ∧ checkOpnds p (if k.d.op = 5 then [] else [p.t.addr f.aS, p.t.addr f.aD] ++ (tokenCalls k.d).map (·.1)) (collChecks p.x k) = none
      ∧ (k.d.op = 5 ∨ (ownBodies s p.x k (p.ref (p.t.addr f.aS))).isSome = true)
    let out (t : State) : Prop := ∃ y b q, getCtx t c = some y ∧ y.att = some b ∧ b.streams[st]? = some q
      ∧ q.pc = p.t.pc + 1 ∧ q.waiting = false ∧ q.s = p.t.s ∧ q.a = p.t.a ∧ q.tiles = p.t.tiles ∧ q.descs = p.t.descs ++ [f.desc]
      ∧ (q.slot f.slot).busy = true ∧ (q.slot f.slot).id = id ∧ (∀ j, j ≠ f.slot → q.slot j = p.t.slot j)
      ∧ q.window = p.t.window ++ [⟨p.a.opSeq, collReads k f p.t, collWrites k f p.t, false, some id, []⟩] ∧ b.opSeq = p.a.opSeq + 1
      ∧ (getColl p.x id = none → { s.mem with lines := t.mem.lines } = t.mem ∧ t.hostMem = s.hostMem
          ∧ ∃ l, (∀ o ∈ l, ∃ d va n, o = Out.remote p.x.ident.job d false va n)
            ∧ (k.me ≠ 0 → t.out = s.out ++ .notice (k.coord 0) (noticeBytes (noticeFor s p.x k id false false)) :: l)
            ∧ (k.me = 0 → t.out = s.out ++ l ∧ ∃ g, getColl y id = some g ∧ g.notices = [noticeFor s p.x k id false false]))
    (ok .allReduce → ∃ t, exec (.collAllReduce c st h f) s = .next t ∧ out t)
    ∧ (ok .reduceScatter → ∃ t, exec (.collReduceScatter c st h f) s = .next t ∧ out t)
    ∧ (ok .allGather → ∃ t, exec (.collAllGather c st h f) s = .next t ∧ out t)
    ∧ (ok .broadcast → ∃ t, exec (.collBroadcast c st h f) s = .next t ∧ out t)
    ∧ (ok .allToAll → ∃ t, exec (.collAllToAll c st h f) s = .next t ∧ out t)
    ∧ (ok .barrier → ∃ t, exec (.collBarrier c st h f) s = .next t ∧ out t)
    ∧ (ok .normReduce → ∃ t, exec (.collNormReduce c st h f) s = .next t ∧ out t)
    ∧ (ok .tokenDispatch → ∃ t, exec (.collTokenDispatch c st h f) s = .next t ∧ out t)
    ∧ (ok .tokenCombine → ∃ t, exec (.collTokenCombine c st h f) s = .next t ∧ out t)

/-- A notice, a verdict, a data message and an abort of an older layout epoch change nothing but the stale-epoch counter's page; of a newer
epoch they are held until the epoch changes; of this epoch they take effect: a notice joins the root's, once for each member, a verdict
becomes the collective's, and a message its data, once; the message that a deferred contribution found no room marks that deferral (R409,
R410, R430, R431). A RESHARD that waits still waits after a message that takes no effect. -/
def Obligations.CollMessages : Prop :=
  ∀ (s : State) (c : Nat) (x : Ctx), getCtx s c = some x →
    let settled := ∀ r, x.reshard = some r → reshardWaits x r.2.2 = true
    (∀ n v m, settled → n.epoch < x.gate.epoch → v.epoch < x.gate.epoch → m.epoch < x.gate.epoch →
      (∃ t, exec (.collNoticeReceive c n) s = .next t ∧ t = { s with regs := t.regs })
      ∧ (∃ t, exec (.collVerdictReceive c v) s = .next t ∧ t = { s with regs := t.regs })
      ∧ (∃ t, exec (.collMessageReceive c m) s = .next t ∧ t = { s with regs := t.regs })
      ∧ (∃ t, exec (.voteResult c v) s = .next t ∧ t = { s with regs := t.regs })
      ∧ ∀ id e, e < x.gate.epoch → ∃ t, exec (.epochAbort c id e) s = .next t ∧ t = { s with regs := t.regs })
    ∧ (∀ n v m, settled → x.gate.epoch < n.epoch → x.gate.epoch < v.epoch → x.gate.epoch < m.epoch →
      exec (.collNoticeReceive c n) s = .next { s with ctxs := tset s.ctxs c { x with heldNotices := x.heldNotices ++ [n] } }
      ∧ exec (.collVerdictReceive c v) s = .next { s with ctxs := tset s.ctxs c { x with heldVerdicts := x.heldVerdicts ++ [v] } }
      ∧ exec (.voteResult c v) s = .next { s with ctxs := tset s.ctxs c { x with heldVerdicts := x.heldVerdicts ++ [v] } }
      ∧ exec (.collMessageReceive c m) s = .next { s with ctxs := tset s.ctxs c { x with heldMsgs := x.heldMsgs ++ [m] } }
      ∧ ∀ id e, x.gate.epoch < e →
        exec (.epochAbort c id e) s = .next { s with ctxs := tset s.ctxs c { x with heldAborts := x.heldAborts ++ [(id, e)] } })
    ∧ (∀ n k, n.epoch = x.gate.epoch → memberOf s x (idDesc n.id) = some k → k.me = 0 →
      ∃ t y q, exec (.collNoticeReceive c n) s = .next t ∧ t = { s with ctxs := tset s.ctxs c y } ∧ getColl y n.id = some q
        ∧ q.notices = (if (collOr x n.id).notices.any (·.rank == n.rank) then (collOr x n.id).notices
            else (collOr x n.id).notices ++ [n]))
    ∧ (∀ v k, x.reshard = none → v.epoch = x.gate.epoch → memberOf s x (idDesc v.id) = some k → (collOr x v.id).verdict = none →
      ∃ t y q, exec (.collVerdictReceive c v) s = .next t ∧ getCtx t c = some y ∧ getColl y v.id = some q ∧ q.verdict = some v
        ∧ t.mem = s.mem ∧ t.hostMem = s.hostMem
        ∧ (isVote v.id = false → (collOr x v.id).ended = none →
            (v.outcome = .group → q.ended = some .ecollGroup) ∧ (v.outcome = .timeout → q.ended = some .ecollTimeout)
            ∧ (v.outcome = .abort → q.ended = some .eepoch) ∧ (v.outcome = .failed → q.ended = some .success)))
    ∧ (∀ m n p, m.epoch = x.gate.epoch → m.body = .rows n true [] p → exec (.collMessageReceive c m) s
        = .next { s with ctxs := tset s.ctxs c { x with gate := x.gate.noRoom (idDesc m.id) (idSeq m.id) n } })
    ∧ (∀ m, m.epoch = x.gate.epoch → (∀ n p, m.body ≠ .rows n true [] p) →
      ∃ t y q, exec (.collMessageReceive c m) s = .next t ∧ t = { s with ctxs := tset s.ctxs c y } ∧ getColl y m.id = some q
        ∧ q.bodies = (if (collOr x m.id).bodies.contains m then (collOr x m.id).bodies else (collOr x m.id).bodies ++ [m]))

/-- The root's verdict (R410): with no notice it gives none; a differing digest gives group at once; then a notice with fl gives failed for
a norm-reduce or a vote; then every member's notice gives go; else nothing comes before the deadline after the earliest notice, and then a
go, partial of a late-tolerant descriptor or a timeout. Its fl and un are the OR of its notices'. -/
def Obligations.VerdictRule : Prop :=
  ∀ (k : Member) (q : Coll) (n0 : Notice) (r : List Notice) (t : Nat), q.notices = n0 :: r →
    let T := r.foldl (fun a n => min a n.time) n0.time
    let differ := ∃ n ∈ r, n.digest ≠ n0.digest
    let failing := (k.d.op = 6 ∨ isVote q.id = true) ∧ ∃ n ∈ q.notices, n.fl = true
    let full := ∀ m < k.g.members.length, ∃ n ∈ q.notices, n.rank = m
    verdictNow k { q with notices := [] } t none = none
    ∧ (differ → ∃ v, verdictNow k q t none = some v ∧ v.outcome = .group)
    ∧ (¬ differ → failing → ∃ v, verdictNow k q t none = some v ∧ v.outcome = .failed)
    ∧ (¬ differ → ¬ failing → full → ∃ v, verdictNow k q t none = some v ∧ v.outcome = .go ∧ v.included = List.range k.g.members.length)
    ∧ (¬ differ → ¬ failing → ¬ full → t < T + k.d.deadlineNs → verdictNow k q t none = none)
    ∧ (¬ differ → ¬ failing → ¬ full → T + k.d.deadlineNs ≤ t → ∃ v, verdictNow k q t none = some v
        ∧ (k.d.late = true → isVote q.id = false → (∃ n ∈ q.notices, n.rank < k.g.members.length) → v.outcome = .partialGo)
        ∧ (k.d.late = false ∨ isVote q.id = true → v.outcome = .timeout))
    ∧ (∀ v, verdictNow k q t none = some v → (v.fl = true ↔ ∃ n ∈ q.notices, n.fl = true) ∧ (v.un = true ↔ ∃ n ∈ q.notices, n.un = true)
        ∧ ∀ m, m ∈ v.included ↔ m < k.g.members.length ∧ ∃ n ∈ q.notices, n.rank = m)

/-- COLL_VERDICT on a root whose verdict is due sends it and takes it; COLL_DATA_PHASE_DONE with everything there delivers; a collective
without a verdict past its time ends with ECOLL_TIMEOUT; EPOCH_ABORT on the root ends it with EEPOCH (R410, R411, R430).
A go verdict that comes after a member's own time has passed still delivers there (R662).
NORM_CONTROL_PHASE, with the data phase delivered and every member's item there, leaves the norm result and ends the collective: its
fl, nf and ws are the OR of the items' (a count that is not the norm set's sets fl), its ss their exact combination (R424, R425).
No RESHARD is under way in these clauses; one that waits for the collective may raise the epoch when it ends. -/
def Obligations.CollEnds : Prop :=
  (∀ (s : State) (c id t : Nat) (x : Ctx) (k : Member), getCtx s c = some x → x.reshard = none → memberOf s x (idDesc id) = some k →
     (∀ q v, getColl x id = some q → k.me = 0 → q.verdict = none → x.pol.mode.replay = false →
       verdictNow k q (max s.clock.now t) none = some v →
         ∃ u y g, exec (.collVerdict c id t) s = .next u ∧ Out.verdict v ∈ u.out ∧ getCtx u c = some y ∧ getColl y id = some g
           ∧ g.verdict = some v)
     ∧ (∀ q v l, getColl x id = some q → q.verdict = some v → q.delivered = false → isVote id = false →
       (v.outcome = .go ∨ v.outcome = .partialGo) → contributions x k q v = some l →
         ∃ u y g, exec (.collDataPhaseDone c id) s = .next u ∧ getCtx u c = some y ∧ getColl y id = some g ∧ g.delivered = true
           ∧ (k.d.op ≠ 6 → g.ended ≠ none))
     ∧ (∀ n, isVote id = false → issueTime x k id = some n → (collOr x id).verdict = none →
       (collOr x id).ended = none → pastVerdict k n (max s.clock.now t) = true →
         ∃ u y g, exec (.collNoVerdictTimeout c id t) s = .next u ∧ getCtx u c = some y ∧ getColl y id = some g
           ∧ g.ended = some .ecollTimeout)
     ∧ (k.me = 0 → (collOr x id).ended = none →
         ∃ u y g, exec (.epochAbort c id x.gate.epoch) s = .next u ∧ getCtx u c = some y ∧ getColl y id = some g
           ∧ g.ended = some .eepoch ∧ u.mem = s.mem))
  ∧ (∀ (s : State) (c : Nat) (x : Ctx) (j : Job) (k : Member) (q : Coll) (v : Verdict) (items : List NormItem),
       getCtx s c = some x → x.pol.job = some j → memberOf s x j.normDesc = some k → getColl x (collId x j.normDesc 0) = some q →
       q.verdict = some v → k.d.op = 6 → q.delivered = true → q.norm = none → x.reshard = none → controlItems x k q v = some items →
         ∃ t y g r, exec (.normControlPhase c) s = .next t ∧ getCtx t c = some y ∧ getColl y (collId x j.normDesc 0) = some g
           ∧ g.norm = some r ∧ g.ended ≠ none
           ∧ (r.fl = true ↔ (∃ i ∈ items, i.fl = true) ∨ (items.map (·.count)).sum ≠ normSet x)
           ∧ ((∃ i ∈ items, i.nf = true) → r.nf = true) ∧ (r.ws = true ↔ ∃ i ∈ items, i.ws = true)
           ∧ (r.enorm = true ↔ (items.map (·.count)).sum ≠ normSet x)
           ∧ r.ss = items.foldl (fun (l : Ledger) i => l.combine (Ledger.ofImage i.ss)) Ledger.empty)

/-! ### The training step -/

/-- STEP_ADMIT: a RUN_STEP that may go on, whose checks hold, begins an attempt: the attempt counter rises by one, the step number and the
loss-scale state stand, the old fault records are gone, and every stream of the program stands at word 0 with s1 the step and s2 its index
(R194, R353). -/
def Obligations.StepAdmits : Prop :=
  ∀ (s : State) (c t : Nat) (x : Ctx) (j : Job) (v : Admission), getCtx s c = some x → coreUp s .circulation = true →
    canAdmit x = true → x.pol.job = some j → (boundary (s.at t) x).ident.grant ≠ [] →
    admission (atStepBoundary (s.at t) c x) c (boundary (s.at t) x) j = .ok v →
      ∃ u y a, exec (.stepAdmit c t) s = .next u ∧ getCtx u c = some y ∧ y.att = some a
        ∧ a.phase = .program ∧ a.eUsed = x.gate.exp ∧ a.start = max s.clock.now t ∧ a.folios = [] ∧ a.records = [] ∧ a.opSeq = 0
        ∧ a.contributed = false ∧ a.normIssued = false ∧ a.decision = none ∧ a.voted = false
        ∧ y.gate = { x.gate with attempt := x.gate.attempt + 1, ranStep := true } ∧ y.faults = []
        ∧ (∀ q, (boundary (s.at t) x).prog = some q → a.streams.length = q.streams.length
            ∧ ∀ k w r, a.streams[k]? = some w → q.streams[k]? = some r → w.pc = 0 ∧ w.ended = false ∧ w.stopped = false ∧ w.window = []
                ∧ w.s = (0 :: x.gate.step :: k :: r.s).take 32 ∧ w.a = r.a)
        ∧ u.clock.now = max s.clock.now t ∧ (∀ d, d ≠ c → (getCtx u d).map (·.gate) = (getCtx s d).map (·.gate))

/-- The end of the program phase: once every stream has ended and nothing is in flight it ends; in a train or wide job without its
norm-reduce the attempt then has ENORM; a failed attempt's phase ends once nothing is in flight. A record on its way reaches its entry once
(R196, R244, R362, R382).
A failed attempt that has not contributed sends its norm contribution itself, with fl set, once (R362). -/
def Obligations.ProgramPhaseEnds : Prop :=
  (∀ (s : State) (c : Nat) (x : Ctx) (a : Attempt), Running s c x a →
     (a.phase = .program → a.status = .success → (∀ t ∈ a.streams, t.ended = true ∧ t.window = []) → a.records = [] →
       exec (.programPhaseEnd c) s = .next { s with ctxs := tset s.ctxs c { x with att := some { a with
         phase := .decide,
         status := if x.edition ≠ 1 ∧ a.normIssued = false then .enorm else .success,
         firstFault := if x.edition ≠ 1 ∧ a.normIssued = false then s.now else a.firstFault } } })
     ∧ (a.phase = .program → a.status ≠ .success → (∀ t ∈ a.streams, t.window = []) → a.records = [] →
       exec (.programPhaseFail c) s = .next { s with ctxs := tset s.ctxs c { x with att := some { a with phase := .decide } } })
     ∧ (∀ n r, a.records[n]? = some r →
       ∃ t y b, exec (.statsRecordArrival c n) s = .next t ∧ t = { s with ctxs := tset s.ctxs c y } ∧ y = { x with att := some b }
         ∧ b.records = a.records.eraseIdx n ∧ b.streams = a.streams ∧ (a.contributed = true → b.acc = a.acc)))
  ∧ (∀ (s : State) (c t : Nat) (x : Ctx) (a : Attempt) (j : Job) (k : Member), Running s c x a → x.pol.job = some j → x.edition ≠ 1 →
       a.contributed = false → a.status ≠ .success → memberOf s x j.normDesc = some k → k.d.op = 6 →
         ∃ u y b i, exec (.normContributionSelf c t) s = .next u ∧ getCtx u c = some y ∧ y.att = some b ∧ b.contributed = true
           ∧ b.item = some i ∧ i.fl = true
           ∧ (k.me ≠ 0 → getColl x (collId x j.normDesc 0) = none → ∃ n, u.out = s.out ++ [.notice (k.coord 0) (noticeBytes n)] ∧ n.fl = true
               ∧ n.id = collId x j.normDesc 0 ∧ n.rank = k.me)
           ∧ exec (.normContributionSelf c t) u = .next u)

/-- The gate's decision from the reduced result: nf or a state bit of ss gives a non-finite skip; else ws or the watch gives a watch skip;
else a commit, with the norm rounded to FP64 once, k = 1 where clip is 0 or the unscaled norm is within it and RNE64(clip ÷ u) beyond it,
and f = RNE32(k32 · 2^−e).
GATE_DECIDE takes that decision from the norm-reduce's result where it carries no fl: a skip waits for its end, a commit goes on to the
update, or to the vote where the member has failed; with fl the attempt ends as failed. A serve job goes on to its vote (R350, R363). -/
def Obligations.GateDecisions : Prop :=
  (∀ (r : NormResult) (w : Bool) (e : Int) (clip : Nat),
     (r.nf = true ∨ r.ss.state = true → (decideFrom r w e clip).outcome = 1)
     ∧ (r.nf = false → r.ss.state = false → (r.ws = true ∨ w = true) → (decideFrom r w e clip).outcome = 2)
     ∧ (r.nf = false → r.ss.state = false → r.ws = false → w = false →
         let d := decideFrom r w e clip
         let q := (r.ss.round .fp64).1
         let n := decode .fp64 (roundTo .fp64 (sqrtX (decode .fp64 q))).1
         let u := n.scale (-e)
         d.outcome = 0 ∧ d.q = q ∧ d.u32 = (roundTo .fp32 u).1
         ∧ (clip = 0 ∨ u.le (v32 clip) = true → d.k32 = (roundTo .fp32 (decode .fp64 0x3FF0000000000000)).1)
         ∧ (clip ≠ 0 → u.le (v32 clip) = false →
             d.k32 = (roundTo .fp32 (decode .fp64 (roundTo .fp64 ((v32 clip).div u)).1)).1)
         ∧ d.f = (roundTo .fp32 ((v32 d.k32).scale (-e))).1))
  ∧ (∀ (s : State) (c : Nat) (x : Ctx) (a : Attempt) (j : Job), Running s c x a → coreUp s .circulation = true → a.phase = .decide →
       a.decision = none → x.pol.job = some j →
       (∀ k q r, j.edition ≠ 1 → memberOf s x j.normDesc = some k → getColl x (collId x j.normDesc 0) = some q → q.norm = some r →
         r.fl = false →
           let w := watchDecide x a.eUsed r.block
           let d := decideFrom r w.2.2 a.eUsed j.clip
           exec (.gateDecide c) s = .next { s with ctxs := tset s.ctxs c { x with att := some { a with
             decision := some d, rungs := w.1, watchRecs := w.2.1,
             phase := if d.outcome ≠ 0 then .decide else if a.status = .success then .update else .vote } } })
       ∧ (∀ k q r, j.edition ≠ 1 → memberOf s x j.normDesc = some k → getColl x (collId x j.normDesc 0) = some q → q.norm = some r →
         r.fl = true → ∃ t y g, exec (.gateDecide c) s = .next t ∧ getCtx t c = some y ∧ y.att = none ∧ y.report = some g ∧ g.outcome = 4
           ∧ y.gate.exp = x.gate.exp ∧ y.gate.step = x.gate.step)
       ∧ (j.edition = 1 → ownStatus x a = .success →
           exec (.gateDecide c) s = .next { s with ctxs := tset s.ctxs c { x with att := some { a with
             decision := some ⟨0, 0, 0, 0, 0⟩, phase := .vote } } }))

/-- OPTIMISER_UPDATE runs phase D on every group and makes the vote due; the committed scales are kept for a rollback, un is the update's
non-finite bit, and a fault of the update fails the attempt (R364, R367, R368).
COMMIT_VOTE casts the member's vote once, when no drain it waits for is open: fl where its attempt has failed, un as its update left it
(R367, R369). -/
def Obligations.UpdateAndVote : Prop :=
  (∀ (s : State) (c : Nat) (x : Ctx) (a : Attempt) (d : Decision), Running s c x a → coreUp s .circulation = true → a.phase = .update →
     a.decision = some d →
       ∃ t y b, exec (.optimiserUpdate c) s = .next t ∧ getCtx t c = some y ∧ y.att = some b ∧ b.phase = .vote ∧ b.updated = true
         ∧ b.saved = savedScales s x ∧ b.un = (runUpdate s c a d.f).un ∧ b.decision = some d
         ∧ ((runUpdate s c a d.f).fault = none → b.status = a.status) ∧ y.gate = x.gate ∧ t.mem = (runUpdate s c a d.f).s.mem)
  ∧ (∀ (s : State) (c t : Nat) (x : Ctx) (a : Attempt) (j : Job) (k : Member), Running s c x a → coreUp s .circulation = true →
       a.phase = .vote → a.voted = false → x.pol.job = some j → memberOf s x j.normDesc = some k →
       (voteWaits x = false →
         ∃ u y b, exec (.commitVote c t) s = .next u ∧ getCtx u c = some y ∧ y.att = some b ∧ b.voted = true
           ∧ b.voteTime = max s.clock.now t ∧ b.phase = .vote
           ∧ (k.me ≠ 0 → getColl x (voteId x j) = none → ∃ n, u.out = s.out ++ [.notice (k.coord 0) (noticeBytes n)] ∧ n.id = voteId x j
               ∧ (n.fl = true ↔ a.status ≠ .success ∨ slotPoisoned x = true) ∧ (n.un = true ↔ a.un = true ∧ j.edition ≠ 1)))
       ∧ (voteWaits x = true → exec (.commitVote c t) s = .next (s.at t)))

/-- VOTE_RESULT on a member that has voted: go without un seals; go with un rolls the update back, and the step is then skipped as the
update-non-finite outcome; any other verdict ends the attempt, rolled back, and the gate state stands (R367, R368). -/
def Obligations.VoteTakes : Prop :=
  ∀ (s : State) (c : Nat) (x : Ctx) (a : Attempt) (j : Job) (v w : Verdict), Running s c x a → a.phase = .vote → a.voted = true →
    x.pol.job = some j → v.epoch = x.gate.epoch → v.id = voteId x j → voteVerdict s x j v = some w →
    (w.outcome = .go → w.un = false →
      exec (.voteResult c v) s = .next { s with ctxs := tset s.ctxs c { x with att := some { a with vote := some .go, phase := .seal } } })
    ∧ (w.outcome = .go → w.un = true → j.edition ≠ 1 → ∀ d, a.decision = some d →
      ∃ t y b, exec (.voteResult c v) s = .next t ∧ getCtx t c = some y ∧ y.att = some b ∧ b.phase = .skip
        ∧ b.decision = some { d with outcome := 3 } ∧ y.gate = x.gate)
    ∧ (w.outcome = .failed ∨ w.outcome = .timeout ∨ w.outcome = .group ∨ w.outcome = .abort →
      ∃ t y g, exec (.voteResult c v) s = .next t ∧ getCtx t c = some y ∧ y.att = none ∧ y.report = some g ∧ 4 ≤ g.outcome
        ∧ y.gate.exp = x.gate.exp ∧ y.gate.clean = x.gate.clean ∧ y.gate.step = x.gate.step ∧ y.gate.skips = x.gate.skips)

/-- The loss-scale state after a commit and after a skip: with dyn, a non-finite skip halves the scale down to 2^−24 and clears the clean count,
and growth clean commits in a row double it up to 2^40; without dyn, e stands; a watch skip, a non-finite update and a failure leave both; the
report's bound bit tells a change that its bound held back (R356, R358, R359). -/
def Obligations.LossScale : Prop :=
  (∀ (j : Job) (g : Gate) (n : Nat), j.edition ≠ 1 →
      (-24 ≤ g.exp ∧ g.exp ≤ 40 →
       (-24 ≤ (commitScale j g).exp ∧ (commitScale j g).exp ≤ 40) ∧ -24 ≤ (skipScale j n g).exp ∧ (skipScale j n g).exp ≤ 40)
     ∧ (j.dyn = false → (commitScale j g).exp = g.exp ∧ (skipScale j n g).exp = g.exp)
     ∧ (j.dyn = true → g.exp ≠ -24 → -24 ≤ g.exp → (skipScale j 1 g).exp = g.exp - 1 ∧ (skipScale j 1 g).clean = 0)
     ∧ (g.exp = -24 → (skipScale j 1 g).exp = -24)
     ∧ (n ≠ 1 → (skipScale j n g).exp = g.exp ∧ (skipScale j n g).clean = g.clean)
     ∧ (g.clean + 1 < j.growthOf → (commitScale j g).clean = g.clean + 1 ∧ (commitScale j g).exp = g.exp)
     ∧ (j.growthOf ≤ g.clean + 1 → (commitScale j g).clean = 0
         ∧ (j.dyn = true → g.exp < 40 → (commitScale j g).exp = g.exp + 1) ∧ (g.exp = 40 → (commitScale j g).exp = 40))
     ∧ (skipScale j n g).skips = g.skips + 1 ∧ (skipScale j n g).consec = g.consec + 1 ∧ (skipScale j n g).step = g.step)
  ∧ (∀ (s : State) (c n : Nat) (x : Ctx) (a : Attempt) (e : Status), Running s c x a → 4 ≤ n →
      ∃ y, getCtx (finishAttempt s c n e) c = some y ∧ y.gate.exp = x.gate.exp ∧ y.gate.clean = x.gate.clean)
  ∧ (∀ (x : Ctx) (a : Attempt) (j : Job) (n : Nat) (e : Status), x.pol.job = some j → j.edition ≠ 1 → j.dyn = true →
      ((reportOf x a n e).bound = true ↔ (n = 1 ∧ a.eUsed = -24) ∨ (n = 0 ∧ a.eUsed = 40 ∧ x.gate.clean = 0)))

/-- STEP_SEAL publishes the commit: the step number rises by one, the consecutive skips are 0, the run has one commit more, the carry set is
what the attempt deferred, and phase G is due. STEP_SKIP ends the attempt with its outcome: the step number stands, and the skips and the
loss-scale state follow R358. STEP_SKIP waits while the staging buffer has no room for the records of that end (R358, R370, R372,
R482). -/
def Obligations.SealAndSkip : Prop :=
  ∀ (s : State) (c t : Nat) (x : Ctx) (a : Attempt) (j : Job), Running s c x a → coreUp s .circulation = true → x.pol.job = some j →
    (∀ r, x.run = some r → a.phase = .seal →
      ∃ u y b q, exec (.stepSeal c t) s = .next u ∧ getCtx u c = some y ∧ y.att = some b ∧ b.phase = .copy ∧ y.run = some q
        ∧ q.commits = r.commits + 1 ∧ y.gate.step = (x.gate.step + 1) % 2 ^ 48 ∧ y.gate.consec = 0 ∧ y.gate.skips = x.gate.skips
        ∧ y.gate.exp = (commitScale j x.gate).exp ∧ y.gate.clean = (commitScale j x.gate).clean
        ∧ y.gate.cursor = (r.base + r.commits) % 2 ^ 128 ∧ (∀ k ∈ y.gate.carry, k.fresh = false ∧ { k with fresh := true } ∈ x.gate.carry)
        ∧ (∀ k ∈ y.gate.owed, k.fresh = false ∧ { k with fresh := true } ∈ x.gate.owed)
        ∧ y.vols.snapshot = none ∧ u.mem = s.mem ∧ u.hostMem = s.hostMem)
    ∧ (∀ d, a.phase = .decide ∨ a.phase = .skip → a.decision = some d → 1 ≤ d.outcome → d.outcome ≤ 3 →
      stagingHolds (s.at t) (skipped x a j d.outcome) a d.outcome = true →
      ∃ u y g, exec (.stepSkip c t) s = .next u ∧ getCtx u c = some y ∧ y.att = none ∧ y.report = some g ∧ g.outcome = d.outcome
        ∧ y.gate.step = x.gate.step ∧ y.gate.skips = x.gate.skips + 1 ∧ y.gate.consec = x.gate.consec + 1
        ∧ y.gate.exp = (skipScale j d.outcome x.gate).exp ∧ y.gate.clean = (skipScale j d.outcome x.gate).clean)
    ∧ (∀ d, a.decision = some d → stagingHolds (s.at t) (skipped x a j d.outcome) a d.outcome = false →
      exec (.stepSkip c t) s = .next (s.at t))

/-- Phase G: SECOND_COPY fills slot k mod 2 with the whole member volume, as the records of the commit leave the context, and ends the attempt as
a commit; without a second copy it only ends it; while the slot's old contents drain or are read, or the staging buffer has no room for those
records, it waits (R482, R483, R493, R494).
Drains: DRAIN_START opens the drain of a filled slot and, to a buddy over a port that is up, sends the volume in messages of kind 7;
DRAIN_COMPLETE closes it once the target acknowledges it; DRAIN_RECEIVE keeps a partner's parts, and acknowledges a volume whose colophon and digests hold (R497–R500). -/
def Obligations.VolumesKept : Prop :=
  (∀ (s : State) (c t : Nat) (x : Ctx) (a : Attempt), Running s c x a → coreUp s .circulation = true → a.phase = .copy →
     let n := endedStep x 0 % 2
     let w := modCtx (recordEnd (s.at t) c x a (reportOf x a 0 .success)) c fun y => { y with att := none, tr := { y.tr with attemptRecs := [] } }
     let room := stagingHolds (s.at t) x a 0
     (copyReady x = true ↔ (getSlot x n).vol = none ∨ ((getSlot x n).drained = true ∧ (getSlot x n).readers = 0))
     ∧ (room = true → x.pol.vol.copy = true → copyReady x = true →
       ∃ u y g z, exec (.secondCopy c t) s = .next u ∧ getCtx u c = some y ∧ y.att = none ∧ y.report = some g ∧ g.outcome = 0
         ∧ getCtx w c = some z ∧ (getSlot y n).vol = some (formVolume w z 0) ∧ (getSlot y n).step = x.gate.step
         ∧ (getSlot y n).target = x.vols.target)
     ∧ (room = true → x.pol.vol.copy = false → ∃ u y g, exec (.secondCopy c t) s = .next u ∧ getCtx u c = some y ∧ y.att = none ∧ y.report = some g
         ∧ g.outcome = 0)
     ∧ ((x.pol.vol.copy = true ∧ copyReady x = false) ∨ room = false → exec (.secondCopy c t) s = .next (s.at t)))
  ∧ (∀ (s : State) (c slot : Nat) (x : Ctx), getCtx s c = some x → slot < 2 →
       let v := getSlot x slot
       (∀ w, v.vol = some w → v.drained = false → v.draining = false → w.poisoned = false →
         (v.target = 1 ∧ buddyPort s (buddyCoord s x) = true) ∨ (v.target = 2 ∧ x.ident.st ≠ .orphaned) →
           ∃ u y, exec (.drainStart c slot) s = .next u ∧ getCtx u c = some y ∧ getSlot y slot = { v with draining := true }
             ∧ (v.target = 1 → u.out = s.out ++ [.volume (buddyCoord s x) w.step (w.shards.map (·.bytes)) w.colophon] ∧ u.mem = s.mem
                 ∧ ∃ l, u.fabric.queued = s.fabric.queued ++ l ∧ ∀ o ∈ l, o.msg.kind = 7 ∧ o.msg.dest = buddyCoord s x ∧ o.msg.job = x.ident.job))
       ∧ (v.target = 1 → buddyPort s (buddyCoord s x) = false → exec (.drainStart c slot) s = .next s)
       ∧ (v.draining = true → v.target = 1 →
           exec (.drainComplete c slot true) s = .next { s with ctxs := tset s.ctxs c (putSlot x slot
             { v with drained := true, draining := false }) }
           ∧ exec (.drainComplete c slot false) s = .next s)
       ∧ (v.draining = true → v.target ≠ 1 → x.ident.st ≠ .orphaned → v.step ≤ areaAcked s x → ∀ b,
           exec (.drainComplete c slot b) s = .next { s with ctxs := tset s.ctxs c (putSlot x slot
             { v with drained := true, draining := false }) })
       ∧ (∀ rank part data, ∃ u p, exec (.drainReceive c rank part false data) s = .next u ∧ p ∈ u.fabric.partners ∧ p.ctx = c
           ∧ p.rank = rank ∧ p.complete = false ∧ (part, data) ∈ p.data ∧ u = { s with fabric := { s.fabric with partners := u.fabric.partners } })
       ∧ (∀ rank part data p, s.fabric.partners.find? (fun p => p.ctx == c && p.rank == rank && !p.complete) = some p →
           colophonOk (x.ident.volKey.getD []) data p.data = true →
           ∃ u q, exec (.drainReceive c rank part true data) s = .next u ∧ u.out = s.out ++ [.drainAck c rank (fld data 24 6)]
             ∧ q ∈ u.fabric.partners ∧ q.ctx = c ∧ q.rank = rank ∧ q.complete = true ∧ q.step = fld data 24 6 ∧ u.ctxs = s.ctxs))

/-! ### Host commands -/

/-- A command whose context's state does not allow it completes with ESTATE and does nothing else: the cells of the state matrix, and what runs
already: while a LOAD_PROGRAM or a RESTORE runs, every command but QUERY and FENCE (R535, R553). -/
def Obligations.StateMatrix : Prop :=
  ∀ (s : State) (sub : Sub) (c q : Nat) (x : Ctx), Offered s sub c q x →
    let no (i : Instr) : Prop := exec i s = .next (complete s sub.q sub.cid .estate 0)
    let out (l : List CtxSt) : Prop := x.ident.st ∉ l ∨ loadRuns x = true
    let long : Prop := x.long ≠ none ∨ x.reshard ≠ none
    let runs : Prop := x.run ≠ none
    (out [.opened, .ready, .running, .paused] → (∀ f, f.loc ≤ 3 → no (.map sub f)) ∧ (∀ va n, no (.unmap sub va n)) ∧ (∀ b, no (.bind sub b))
      ∧ ∀ cn, no (.bindRelease sub cn))
    ∧ (out [.opened, .ready, .paused] ∨ long ∨ runs → ∀ a n, no (.loadProgram sub a n))
    ∧ (out [.ready] ∨ long ∨ runs → ∀ n k, no (.runStep sub n k))
    ∧ (out [.ready, .running, .paused] → no (.pause sub))
    ∧ (out [.paused] ∨ x.ident.awaitReady = true → no (.resume sub))
    ∧ (out [.ready, .running, .paused] ∨ long → (∀ a n, no (.checkpoint sub a n)) ∧ (∀ a n d, no (.preempt sub a n d))
      ∧ no (.reshardComplete sub) ∧ no (.reshardAbort sub))
    ∧ (out [.opened, .ready, .paused, .faulted] ∨ long ∨ runs → ∀ a n b m, no (.restore sub a n b m))
    ∧ (x.ident.st ∉ [CtxSt.opened, .ready, .running, .paused, .checkpointing, .faulted] → no (.fence sub))
    ∧ (out [.opened, .ready, .running, .paused, .checkpointing, .faulted, .orphaned] → no (.close sub 0))
    ∧ (out [.opened, .ready, .paused] → ∀ f, f.target = 0 → no (.setJobRecord sub f) ∧ no (.setParameterGroup sub f) ∧ no (.setWatchEntry sub f)
      ∧ no (.setCollectiveDescriptor sub f) ∧ no (.setGroupRecord sub f) ∧ no (.setModeRecord sub f) ∧ no (.setVolumePolicy sub f))
    ∧ (out [.opened, .ready, .running, .paused] → ∀ f, f.target = 0 → no (.setRotationEntry sub f) ∧ no (.setActivationTable sub f)
      ∧ no (.setScheduling sub f))

/-- RUN_STEP, PAUSE and RESUME: a RUN_STEP of a READY context is in flight with its count and cursor base, and the context RUNNING; PAUSE of a
running attempt waits for its end, and takes any other context at once; RESUME makes a PAUSED context READY. A command that has started is
written in the circulation journal (R544, R545, R572). -/
def Obligations.RunPauseResume : Prop :=
  ∀ (s : State) (sub : Sub) (c q : Nat) (x : Ctx),
    (∀ n k, Taken s sub c q x (fun y => y.ident.st = .ready ∧ y.long = none ∧ y.reshard = none ∧ y.run = none) → n ≠ 0 →
      ∃ t, exec (.runStep sub n k) s = .next t ∧ Started s t sub c 0x07 { x with
        ident := { x.ident with st := .running }
        run := some ⟨sub.q, sub.cid, sub.prog, n, k, 0, false, none⟩ })
    ∧ (∀ r a, Taken s sub c q x (fun y => y.ident.st = .running) → x.run = some r → x.att = some a →
      ∃ t, exec (.pause sub) s = .next t ∧ Started s t sub c 0x08 { x with run := some { r with pause := true } })
    ∧ (∀ r, Taken s sub c q x (fun y => y.ident.st = .running) → x.run = some r → x.att = none →
      ∃ t z, exec (.pause sub) s = .next t ∧ getCtx t c = some z ∧ z.ident.st = .paused ∧ z.run = none)
    ∧ (Taken s sub c q x (fun y => y.ident.st = .ready ∨ y.ident.st = .paused) →
      ∃ t, exec (.pause sub) s = .next t ∧ Served s t c (x.setSt .paused) ∧ Answered s t sub .success 0)
    ∧ (Taken s sub c q x (fun y => y.ident.st = .paused ∧ y.ident.awaitReady = false) →
      ∃ t, exec (.resume sub) s = .next t ∧ Served s t c { x with ident := { x.ident with st := .ready, reshardOpen := false } }
        ∧ Answered s t sub .success 0)

/-- CLOSE takes a context to DRAINING on either queue: its own, naming context 0, or the admin queue of a function that may name it; a
running attempt before its seal is abandoned (R551). -/
def Obligations.CloseDrains : Prop :=
  ∀ (s : State) (sub : Sub) (c q fn : Nat) (x : Ctx), x.inState [.opened, .ready, .running, .paused, .checkpointing, .faulted, .orphaned] = true →
    let out (t : State) : Prop := ∃ z, getCtx t c = some z ∧ z.ident.st = .draining ∧ z.ident.prior = x.ident.prior
      ∧ z.closing = some (sub.q, sub.cid) ∧ z.long = none ∧ (x.att = none → z.run = none)
      ∧ (∀ a, x.att = some a → ∃ b, z.att = some b
          ∧ (a.status = .success → beforeSeal a.phase = true → b.status = .eaborted) ∧ (beforeSeal a.phase = false → b = a))
    (Taken s sub c q x (fun _ => true) → ∃ t, exec (.close sub 0) s = .next t ∧ out t)
    ∧ (TakenAdmin s sub fn → c < 4096 → getCtx s c = some x → mayName s fn x = true → ∃ t, exec (.close sub c) s = .next t ∧ out t)
    ∧ (TakenAdmin s sub fn → c < 4096 → getCtx s c = some x → mayName s fn x = false →
        exec (.close sub c) s = .next (complete s sub.q sub.cid .earg 0))

/-- CHECKPOINT, PREEMPT, RESHARD and FENCE, accepted: a CHECKPOINT holds the volume it writes, or ends with EBOUND where its buffers are too
small; a PREEMPT of a running attempt before phase D abandons it and keeps its deadline; a RESHARD without a RUN_STEP and without
a collective under way raises the epoch at once and leaves the context PAUSED, and one with a running attempt, or a complete one with a
collective of the old epoch under way, waits for its end; a FENCE completes at once where its queue has no
earlier command, and else waits (R430, R507, R508, R550, R553).
PREEMPT_DEADLINE: a PREEMPT past its deadline stops, and its context is PAUSED where it was CHECKPOINTING (R508). -/
def Obligations.LongRuns : Prop :=
  (∀ (s : State) (sub : Sub) (c q : Nat) (x : Ctx),
     let free (y : Ctx) : Bool := y.inState [.ready, .running, .paused] && y.long.isNone && y.reshard.isNone
     (∀ l n, Taken s sub c q x free → listCheck s x l n = none →
       ∃ t z, exec (.checkpoint sub l n) s = .next t ∧ getCtx t c = some z ∧ z.ident.st = x.ident.st ∧ z.gate = x.gate ∧ z.att = x.att
         ∧ { s.mem with lines := t.mem.lines } = t.mem
         ∧ ((∃ k v, z.long = some k ∧ k.q = sub.q ∧ k.cid = sub.cid ∧ k.opcode = 0x0A ∧ k.pos = 0 ∧ k.vol = some v ∧ t.hostMem = s.hostMem)
           ∨ (z.long = none ∧ ∃ u, t = completePauses (complete u sub.q sub.cid .ebound 0) c)))
     ∧ (∀ l n d a r, Taken s sub c q x free → 1000 ≤ d → d ≤ 600000000 → listCheck s x l n = none → x.att = some a → x.run = some r →
       ∃ t z b k, exec (.preempt sub l n d) s = .next t ∧ getCtx t c = some z ∧ z.ident.st = .checkpointing ∧ z.att = some b
         ∧ z.run = some { r with ending := some .eaborted } ∧ z.long = some k ∧ k.opcode = 0x0C ∧ k.deadline = s.now + d * 1000
         ∧ k.vol = none
         ∧ (a.status = .success → (a.phase = .program ∨ a.phase = .decide) → b.status = .eaborted)
         ∧ (a.phase ≠ .program → a.phase ≠ .decide → b = a))
     ∧ (Taken s sub c q x free → x.run = none → x.att = none → (∀ k ∈ x.colls, k.epoch = x.gate.epoch → k.running = false) →
       ∃ t z, exec (.reshardComplete sub) s = .next t ∧ getCtx t c = some z ∧ z.gate.epoch = (x.gate.epoch + 1) % 2 ^ 32
         ∧ z.ident.st = .paused ∧ z.ident.reshardOpen = true ∧ z.reshard = none ∧ (x.heldVerdicts = [] → z.gate.carry = []))
     ∧ (∀ k ∈ x.colls, Taken s sub c q x free → x.run = none → x.att = none → k.epoch = x.gate.epoch → k.running = true →
       ∃ t, exec (.reshardComplete sub) s = .next t ∧ Started s t sub c 0x0D { x with reshard := some (sub.q, sub.cid, false) })
     ∧ (∀ a r, Taken s sub c q x free → x.att = some a → x.run = some r →
       (∃ t, exec (.reshardComplete sub) s = .next t ∧ Started s t sub c 0x0D { x with
         reshard := some (sub.q, sub.cid, false)
         run := some { r with ending := some .success } })
       ∧ ∃ t z b, exec (.reshardAbort sub) s = .next t ∧ getCtx t c = some z ∧ z.reshard = some (sub.q, sub.cid, true)
         ∧ z.run = some { r with ending := some .eepoch } ∧ z.att = some b ∧ z.gate = x.gate
         ∧ (a.status = .success → beforeSeal a.phase = true → b.status = .eepoch))
     ∧ (Taken s sub c q x (fun y => y.inState [.opened, .ready, .running, .paused, .checkpointing, .faulted]) →
       ((∀ k ∈ x.cmds, k.q ≠ sub.q) → ∃ t, exec (.fence sub) s = .next t ∧ Served s t c x ∧ Answered s t sub .success 0)
       ∧ ((∃ k ∈ x.cmds, k.q = sub.q) → ∃ t, exec (.fence sub) s = .next t ∧ Started s t sub c 0x10 x)))
  ∧ (∀ (s : State) (c t : Nat) (x : Ctx) (l : LongCmd), getCtx s c = some x → x.long = some l → l.opcode = 0x0C →
       (l.deadline ≤ max s.clock.now t → ∃ u y, exec (.preemptDeadline c t) s = .next u ∧ getCtx u c = some y ∧ y.long = none
         ∧ (x.ident.st = .checkpointing → y.ident.st = .paused))
       ∧ (max s.clock.now t < l.deadline → exec (.preemptDeadline c t) s = .next (s.at t)))

/-- BIND and its release, accepted: the entry stands at the lowest free index under the index's next tag and its call number is the result; a
release takes it out, and no cached line of it stays. MAP, UNMAP, LOAD_PROGRAM and RESTORE, accepted, start and run in slices, counting their
units, and take effect wholly at the last: MAP adds the pages it placed and UNMAP takes its pages out, their frames zeroed; a loaded program
waits for the step boundary; RESTORE leaves what it rebuilt, READY where both keys are there and the context is no standby (R297, R313–R315,
R488, R536, R543, R546, R556, R557). -/
def Obligations.MemoryCommands : Prop :=
  ∀ (s : State) (sub : Sub) (c q : Nat) (x : Ctx),
    (∀ buf e, Taken s sub c q x memLegal → vaOk buf = true → bufferOk x buf 128 false = true → bindCheck s x (readVa s x buf 96) = none →
      Entry.ofBytes (readVa s x buf 96) = some e →
        let idx := freeIndex 0 (x.cat.live.map (·.1))
        let tag := nextTag (tgetD x.cat.tags idx 0)
        ∃ t, exec (.bind sub buf) s = .next t ∧ Served s t c (putEntryAt x idx tag e) ∧ Answered s t sub .success (callNo tag idx)
          ∧ (tget (putEntryAt x idx tag e).cat.live idx).map (·.dims) = some e.dims)
    ∧ (∀ cn e, Taken s sub c q x memLegal → tensor x cn = some e → x.stepRuns = false → referenced x cn = false →
        ∃ t z, exec (.bindRelease sub cn) s = .next t ∧ getCtx t c = some z
          ∧ z = { dropEntry x cn with queues := z.queues, cmds := z.cmds, tr := z.tr } ∧ Answered s t sub .success 0
          ∧ (e.e.cls ≠ 1 → e.e.cls ≠ 2 → t.mem = s.mem)
          ∧ (e.e.cls = 1 ∨ e.e.cls = 2 → ∀ l ∈ t.mem.lines, ∀ k < 64, inTensor x e.e (64 * l.line + k) = false))
    ∧ (let start (i : Instr) (op : Nat) (w : Sliced) : Prop := ∃ t, exec i s = .next t ∧ Started s t sub c op x (some w)
      (∀ f, Taken s sub c q x memLegal → f.loc ≤ 3 → mapFound s c x f = none → start (.map sub f) 0x05 (.map f))
      ∧ (∀ va n, Taken s sub c q x memLegal → unmapOk x va n = true → unmapFree x va n = true → start (.unmap sub va n) 0x06 (.unmap va n))
      ∧ (∀ a n, Taken s sub c q x (fun y => y.inState [.opened, .ready, .paused] && !exclusiveRuns y) → progCheck s x a n = none →
          start (.loadProgram sub a n) 0x04 (.load a n))
      ∧ ∀ l n mb mn, Taken s sub c q x restoreLegal → restoreCheck s c x l n mb mn = none →
          start (.restore sub l n mb mn) 0x0B (.restore l n mb mn))
    ∧ (∀ k w units, serving s = true → sub.q = .ctx c q → getCtx s c = some x → startedCmd s sub.q sub.cid = some k → k.prog = sub.prog →
      k.work = some w →
        let slice (u : State) : Prop := exec (.commandSlice sub.q sub.cid units) s = .next (progressAfter u sub.q sub.cid 100000000)
        (k.units + units < w.units s x → slice (addUnits s sub.q sub.cid units))
        ∧ (w.units s x ≤ k.units + units → slice (endSliced s sub c x w)))
    ∧ (sub.q = .ctx c q → getCtx s c = some x → (getQueue s sub.q).isSome = true →
      (∀ f p, mapOk s x f = true → placeRange s c x (f.va / frameBytes) f.frames f.loc f.w f.remote f.peer f.target = some p →
        let u := endSliced s sub c x (.map f)
        ∃ z, getCtx u c = some z ∧ z = { x with maps := z.maps, queues := z.queues, cmds := z.cmds }
          ∧ (∀ k, tget p.2.1 k = none → tget z.maps k = tget x.maps k) ∧ (∀ k l, (k, l) ∈ p.2.1 → tget z.maps k ≠ none)
          ∧ u.mem = p.1.mem ∧ Answered s u sub .success p.2.2)
      ∧ (∀ va n, va % frameBytes = 0 → n ≠ 0 → va + n * frameBytes ≤ 2 ^ 48 → mappedPages x (va / frameBytes) false n = true →
        occupied x (va / frameBytes) n = false →
        let u := endSliced s sub c x (.unmap va n)
        ∃ z, getCtx u c = some z
          ∧ z = { x with maps := x.maps.filter fun m => !(va / frameBytes ≤ m.1 && m.1 < va / frameBytes + n),
                         peerMem := z.peerMem, peerPoison := z.peerPoison, queues := z.queues, cmds := z.cmds }
          ∧ Answered s u sub .success 0
          ∧ ∀ m ∈ x.maps, va / frameBytes ≤ m.1 → m.1 < va / frameBytes + n → m.2.loc ≤ 1 →
              ∀ a, m.2.frame ≤ a → a < m.2.frame + frameBytes → mget u.mem.bytes a = 0)
      ∧ (∀ a n p, progCheck s x a n = none → parseProgram (readVa s x a n) = .ok p →
        let u := endSliced s sub c x (.load a n)
        Served s u c ({ x with progNext := some p } : Ctx).readied ∧ Answered s u sub .success 0)
      ∧ ∀ l n mb mn v y, restoreCheck s c x l n mb mn = none →
        rebuild (readVolumes s c x l n mb mn) c x ((volumeBytes s x l n).map fun b => (readVolume b).v) (readMapEnts s x mb mn) true = .ok v →
        getCtx v c = some y →
        let u := endSliced s sub c x (.restore l n mb mn)
        ∃ z, getCtx u c = some z ∧ z.ident = { y.ident with st := restoredSt y } ∧ z.gate = y.gate ∧ z.cat = y.cat ∧ z.pol = y.pol
          ∧ u.mem = v.mem)

/-- SET_POLICY of a context's queue, accepted: each selector's record stands, and nothing else of the context but the state READY that a job
record can complete, and the marks of images that groups and watch entries form (R347, R348, R547, R554). -/
def Obligations.PoliciesSet : Prop :=
  ∀ (s : State) (sub : Sub) (c q : Nat) (x : Ctx) (f : SetF),
    let idle (y : Ctx) : Bool := y.inState [.opened, .ready, .paused]
    let any (y : Ctx) : Bool := y.inState [.opened, .ready, .paused, .running]
    let rec_ (n : Nat) : Bytes := readVa s x f.record n
    let out (i : Instr) (y : Ctx) : Prop := ∃ t, exec i s = .next t ∧ Served s t c y ∧ Answered s t sub .success 0
    let okBuf (n : Nat) : Prop := f.target = 0 ∧ f.length = n ∧ vaOk f.record = true ∧ bufferOk x f.record n false = true
    (∀ j, Taken s sub c q x idle → jobFree s f x = true → okBuf 64 → f.index = 0 → Job.ofBytes (rec_ 64) = some j → jobOk x j = true →
      out (.setJobRecord sub f) ({ x with
        pol := { x.pol with job := some j }
        gate := if x.gate.ranStep then x.gate else { x.gate with exp := j.startExp, clean := 0 } } : Ctx).readied)
    ∧ (∀ g, Taken s sub c q x idle → x.gate.ranStep = false → okBuf 64 → f.index < 4096 → Group.ofBytes (rec_ 64) = some g →
      groupOk x f.index g = true →
      out (.setParameterGroup sub f) (markImages { x with pol := { x.pol with groups := tset x.pol.groups f.index g } }))
    ∧ (∀ w, Taken s sub c q x idle → okBuf 64 → f.index < 65535 → Watch.ofHost (rec_ 64) = some w → watchOk x w = true →
      out (.setWatchEntry sub f) (match tget x.pol.watch f.index with
        | none => markImages { x with pol := { x.pol with watch := tset x.pol.watch f.index { w with rung := w.init, lastChange := x.gate.step } } }
        | some o => { x with pol := { x.pol with watch := tset x.pol.watch f.index (redefine x.gate.step o w) } }))
    ∧ (Taken s sub c q x any → tget x.pol.rot f.index = none → okBuf 16 → rotRecOk f.index (rec_ 16) = true →
      out (.setRotationEntry sub f) { x with pol := { x.pol with
        rot := tset x.pol.rot f.index ⟨fld (rec_ 16) 2 1, fld (rec_ 16) 8 8⟩ } })
    ∧ (Taken s sub c q x any → okBuf 1552 → 8 ≤ f.index → f.index ≤ 15 → actOk (rec_ 1552) = true →
      out (.setActivationTable sub f) { x with pol := { x.pol with actNext := tset x.pol.actNext f.index (some (rec_ 1552)) } })
    ∧ (∀ d, Taken s sub c q x idle → okBuf 64 → f.index < 4096 → Desc.ofBytes (rec_ 64) = some d → descOk x d = true →
      out (.setCollectiveDescriptor sub f) { x with pol := { x.pol with descs := tset x.pol.descs f.index d } })
    ∧ (∀ g, Taken s sub c q x idle → groupNamed x f.index = false → okBuf f.length → 20 ≤ f.length → f.length ≤ 16 + 4 * 65536 →
      f.length % 4 = 0 → groupRecOf (rec_ f.length) = some g → groupRecOk s f.index (rec_ f.length) g = true →
      out (.setGroupRecord sub f) { x with pol := { x.pol with grps := tset x.pol.grps f.index g } })
    ∧ (∀ m, Taken s sub c q x idle → ModeRec.ofBytes (rec_ 32) = some m → modeFixed x m = false → okBuf 32 → f.index = 0 →
      modeOk x m = true → out (.setModeRecord sub f) (setMode x m))
    ∧ (∀ p, Taken s sub c q x idle → okBuf 32 → f.index = 0 → VolPolicy.ofBytes (rec_ 32) = some p → volPolicyOk s x p = true →
      out (.setVolumePolicy sub f) { x with pol := { x.pol with vol := p } })
    ∧ (Taken s sub c q x any → okBuf 8 → f.index = 0 → bitsOf (fld (rec_ 8) 0 1) 7 2 = 0 → zeroAt (rec_ 8) 1 7 = true →
      out (.setScheduling sub f) { x with cat := { x.cat with
        schedNext := some (bitOf (fld (rec_ 8) 0 1) 0, bitOf (fld (rec_ 8) 0 1) 1) } })
    ∧ (∀ sel, Taken s sub c q x (setLegal (selRuns sel)) → f.target = 0 → f.length ≠ 0 → deletable x sel f.index = true → delFree x sel f.index = true →
      out (.setPolicyDelete sub sel f) (markImages { x with pol := deleteRec x.pol sel f.index }))

/-- QUERY of either queue, with its fields in order: the subject's record stands in the buffer when the command completes, its length is the
result, and a clear of flags has been made; a buffer that is shorter than the record, or not mapped over the length it is given, gives EBOUND, a
call number that is not live EARG, and nothing else (R67, R536, R549, R552). -/
def Obligations.QueriesAnswer : Prop :=
  ∀ (s : State) (sub : Sub) (c q fn : Nat) (x : Ctx) (f : QueryF) (i : Instr) (b : Bytes) (clr : FlagWords → FlagWords),
    Memory.wf s.mem.bytes → Memory.wf s.hostMem → x.memOk = true →
    ((i = .queryContext sub f ∧ contextRecord s c x = .ok b ∧ f.index = 0 ∧ f.clear = false ∧ clr = id)
      ∨ (∃ w, i = .queryFlags sub f ∧ flagWord x f.index = some w ∧ b = leBytes 4 w ∧ clr = clearWord f.index)
      ∨ (∃ e, i = .queryCatalogueEntry sub f ∧ tensor x f.index = some e ∧ f.clear = false ∧ clr = id
          ∧ b = { e.e with abandoned := e.e.abandoned + pendingAbandoned x f.index }.toBytes (tgetD x.cat.shards e.idx []).length)
      ∨ (∃ e, i = .queryShards sub f ∧ tensor x f.index = some e ∧ f.clear = false ∧ clr = id
          ∧ b = (tgetD x.cat.shards e.idx []).flatMap Shard.toBytes)
      ∨ (∃ w, i = .queryWatchEntry sub f ∧ tget x.pol.watch f.index = some w ∧ f.clear = false ∧ clr = id ∧ b = w.toBytes)
      ∨ (i = .queryWatchBlock sub f ∧ f.index = 0 ∧ f.clear = false ∧ clr = id ∧ b = x.block)
      ∨ (i = .queryStepReport sub f ∧ f.index = 0 ∧ f.clear = false ∧ clr = id
          ∧ b = match x.report with | some r => r.toBytes | none => zeros 64)
      ∨ (i = .queryMeter sub f ∧ f.index = 0 ∧ f.clear = false ∧ clr = id ∧ b = match x.meter with | some m => m.toBytes | none => zeros 48)
      ∨ (i = .queryDivergence sub f ∧ f.index = 0 ∧ f.clear = false ∧ clr = id
          ∧ b = match x.divergence with | some d => d.toBytes | none => zeros 32)
      ∨ (i = .queryFaultRecords sub f ∧ f.clear = false ∧ clr = id
          ∧ f.index < (match x.prog with | some p => p.streams.length | none => 0)
          ∧ b = match tget x.faults f.index with | some r => r.toBytes | none => zeros 48)
      ∨ (i = .queryActivationTable sub f ∧ f.clear = false ∧ clr = id ∧ actTable x f.index = some b)
      ∨ (i = .queryDevice sub f ∧ f.index = 0 ∧ f.clear = false ∧ clr = id ∧ b = deviceRecord s)) →
    f.length ≠ 0 →
      (Offered s sub c q x → f.ctx = 0 → vaOk f.buffer = true →
        (b.length ≤ f.length → bufferOk x f.buffer f.length true = true → (vaPlaces x f.buffer b.length).Nodup →
          (∀ k < b.length, (translate x (f.buffer + k) true).isSome = true) →
          ∃ u y, exec i s = .next (complete u sub.q sub.cid .success b.length) ∧ getCtx u c = some y ∧ readVa u y f.buffer b.length = b
            ∧ y.flags = (if f.clear then clr x.flags else x.flags))
        ∧ (f.length < b.length ∨ bufferOk x f.buffer f.length true = false → exec i s = .next (complete s sub.q sub.cid .ebound 0))
        ∧ (tensor x f.index = none → f.clear = false →
          exec (.queryCatalogueEntry sub f) s = .next (complete s sub.q sub.cid .earg 0)
          ∧ exec (.queryShards sub f) s = .next (complete s sub.q sub.cid .earg 0)))
      ∧ (TakenAdmin s sub fn → f.ctx = c → c < 4096 → getCtx s c = some x → mayName s fn x = true → b.length ≤ f.length →
          ∃ u y, exec i s = .next (complete u sub.q sub.cid .success b.length) ∧ getCtx u c = some y
            ∧ u.hostMem = mwrite s.hostMem f.buffer b ∧ u.mem = s.mem ∧ y.flags = (if f.clear then clr x.flags else x.flags))

/-- OPEN takes the lowest FREE context and leaves it OPENED with the identity it names, a grant of the carrels it asks for (apart from every
other grant in partition mode), a token of its own and a memory key of its own in every
controller's slot (free values, log 12), and everything else empty; its record stands in host memory. A
reclaim of an ORPHANED context with its token, function and time gives it new queues, PASID and token and its former state; one that fails
leaves the context as it was (R540, R541, R554, R561). -/
def Obligations.OpensAndReclaims : Prop :=
  ∀ (s : State) (sub : Sub) (fn : Nat), TakenAdmin s sub fn → Sound s →
    (∀ f e, openCheck s fn f = some e → exec (.openCtx sub f) s = .next (complete s sub.q sub.cid e 0))
    ∧ (∀ f c, openCheck s fn f = none → freeCtx s = some c → coreUp s .keeper = true →
      ∃ t u z, exec (.openCtx sub f) s = .next t ∧ t = complete u sub.q sub.cid .success c ∧ getCtx t c = some z
        ∧ u.hostMem = mwrite s.hostMem f.record
            (openRecord c fn (versionServed f.version) (Config.token s.free).toNat f.patron)
        ∧ getQueue u sub.q = getQueue s sub.q
        ∧ z.ident.st = .opened ∧ z.ident.fn = fn ∧ z.ident.pasid = f.pasid ∧ z.ident.standby = f.standby ∧ z.ident.job = f.job
        ∧ z.ident.seed = f.seed ∧ z.ident.patron = f.patron ∧ z.ident.version = min f.version 0x0302
        ∧ z.ident.token = (Config.token s.free).toNat ∧ z.ident.jobKey = none ∧ z.ident.volKey = none
        ∧ z.ident.grant.length = f.carrels ∧ (∀ k ∈ z.ident.grant, carrelIn s k = true)
        ∧ (s.host.partition = true → ∀ k ∈ z.ident.grant, k ∉ takenBy s none)
        ∧ z.tableMoves = s.si.devMoves ∧ z.queues.length = f.queues ∧ z.maps = [] ∧ z.cat = Catalogue.empty ∧ z.pol = Policies.empty ∧ z.prog = none ∧ z.progNext = none
        ∧ z.gate = Gate.zero ∧ z.flags = FlagWords.zero ∧ z.run = none ∧ z.att = none ∧ z.faults = []
        ∧ tget t.si.keySlots (c + 1) = some (leBytes 64 (Config.xtsKey (s.free + 1)).toNat) ∧ isReserved z.root = true
        ∧ (∀ d, d ≠ c → getCtx t d = getCtx s d) ∧ (∀ d < c, getCtx s d ≠ none) ∧ getCtx s c = none ∧ t.mem = s.mem)
    ∧ (∀ f x, getCtx s f.ctx = some x → x.ident.st = .orphaned → s.now < x.ident.deadline → f.version / 256 = 3 → x.ident.fn = fn →
      x.ident.token = f.token → 1 ≤ f.queues → f.queues ≤ 8 → f.pasid < 2 ^ 20 →
      (queueTable s f.qtable f.queues).all queueEntryOk = true → pasidFree s fn f.pasid (some f.ctx) = true → coreUp s .keeper = true →
      ∃ t u z, exec (.openReclaim sub f) s = .next t ∧ t = complete u sub.q sub.cid .success f.ctx ∧ getCtx t f.ctx = some z
        ∧ z.ident.pasid = f.pasid ∧ z.ident.token = (Config.token s.free).toNat ∧ z.ident.fn = fn ∧ z.queues.length = f.queues
        ∧ z.ident.st = (if x.ident.prior = .running ∨ x.ident.prior = .checkpointing then .paused else x.ident.prior)
        ∧ z.maps = x.maps ∧ z.cat = x.cat ∧ z.pol = x.pol ∧ z.gate = x.gate ∧ z.prog = x.prog ∧ t.mem = s.mem
        ∧ ∀ d, d ≠ f.ctx → getCtx t d = getCtx s d)
    ∧ (∀ f, (∀ x, getCtx s f.ctx = some x → x.ident.st ≠ .orphaned ∨ x.ident.deadline ≤ s.now ∨ f.version / 256 ≠ 3 ∨ x.ident.fn ≠ fn
        ∨ x.ident.token ≠ f.token) →
      ∃ t e r u, exec (.openReclaim sub f) s = .next t ∧ t = complete u sub.q sub.cid e r ∧ e ≠ .success ∧ u.mem = s.mem
        ∧ u.hostMem = s.hostMem ∧ ∀ x, getCtx s f.ctx = some x → ∃ z, getCtx t f.ctx = some z ∧ z = { x with tr := z.tr })

/-- Quotas, allotments, the device setup and RETIRE are for a physical function's admin queue alone, the last two for port 0's. A quota waits
for the step boundary; an allotment and a setup stand at once; partition mode keeps every grant until its boundary and deals disjoint ones of
the same sizes. RETIRE takes a frame out of its pool: at once where nothing uses it, after a migration that moves its bytes and its leaf where
something does; a second RETIRE of a migrating frame waits for the same migration (log 115); a migration into a frame that is retired goes to
another; a frame of device data takes its page tables along (R295, R308–R312, R547, R548, R566, R568). -/
def Obligations.QuotasAndRetire : Prop :=
  ∀ (s : State) (sub : Sub),
    (∀ c q f frame cause, serving s = true → sub.q = .ctx c q → (getQueue s sub.q).isSome = true → queueHeld s sub.q = false →
      let no (i : Instr) : Prop := exec i s = .next (complete s sub.q sub.cid .eaccess 0)
      no (.setQuota sub f) ∧ no (.setFunctionAllotment sub f) ∧ no (.setDeviceSetup sub f) ∧ no (.retire sub frame cause))
    ∧ (∀ fn f frame cause, TakenAdmin s sub fn → fn ≠ 0 →
      let no (i : Instr) : Prop := exec i s = .next (complete s sub.q sub.cid .eaccess 0)
      no (.setDeviceSetup sub f) ∧ no (.retire sub frame cause)
      ∧ (isPf s fn = false → no (.setQuota sub f) ∧ no (.setFunctionAllotment sub f)))
    ∧ (∀ fn f x, TakenAdmin s sub fn → isPf s fn = true → f.target < 4096 → getCtx s f.target = some x → samePort s fn x.ident.fn = true →
      setState true x = none → f.length = 8 → f.index = 0 → quotaCheck s f.target x (quotaOf (mread s.hostMem f.record 8)) = none →
      ∃ t z, exec (.setQuota sub f) s = .next t ∧ getCtx t f.target = some z ∧ Answered s t sub .success 0
        ∧ z.ident.quotaNext = some (quotaOf (mread s.hostMem f.record 8))
        ∧ z.ident = { x.ident with quotaNext := z.ident.quotaNext, grantNext := z.ident.grantNext, maskNext := z.ident.maskNext }
        ∧ z = { x with ident := z.ident, tr := z.tr, vols := { x.vols with resize := true } })
    ∧ (∀ fn f, TakenAdmin s sub fn → isPf s fn = true → f.index < 256 → samePort s fn f.index = true → f.length = 16 →
      let b := mread s.hostMem f.record 16
      zeroAt b 6 2 = true → zeroAt b 12 4 = true →
      ∃ t, exec (.setFunctionAllotment sub f) s = .next t ∧ t.ctxs = s.ctxs ∧ t.mem = s.mem
        ∧ (tget t.host.funs f.index).bind (·.allot) = some (fld b 0 2, fld b 2 2, fld b 4 1, fld b 5 1, fld b 8 4))
    ∧ (∀ f s1, TakenAdmin s sub 0 → f.length = 16 → f.index = 0 →
      let b := mread s.hostMem f.record 16
      let on := fld b 8 1 == 1
      setupOk b = true → (on = s.host.partition ∨ holdsLines s = false) → setPartition s on = some s1 →
      ∃ t, exec (.setDeviceSetup sub f) s = .next t ∧ t.host.address = some (fld b 0 4) ∧ t.host.partition = on
        ∧ t.host.axes = (List.range 4).map (fun i => fld b (4 + i) 1 + 1) ∧ t.host.grace = (if fld b 10 2 = 0 then 60 else fld b 10 2)
        ∧ (∀ c x, getCtx s c = some x → ∃ z, getCtx t c = some z ∧ z.ident.grant = x.ident.grant
            ∧ (on ≠ s.host.partition → on = true → z.ident.grantNext.map List.length = some (x.ident.grantNext.getD x.ident.grant).length))
        ∧ (on ≠ s.host.partition → on = true → ∀ c d y z g l, c ≠ d → getCtx t c = some y → getCtx t d = some z →
            y.ident.grantNext = some g → z.ident.grantNext = some l → ∀ k ∈ g, k ∉ l))
    ∧ (∀ f, TakenAdmin s sub 0 → f.length = 16 → f.index = 0 → setupReserved (mread s.hostMem f.record 16) = true → holdsLines s = true →
      (fld (mread s.hostMem f.record 16) 8 1 == 1) ≠ s.host.partition →
      exec (.setDeviceSetup sub f) s = .next (complete s sub.q sub.cid .estate 0))
    ∧ (∀ frame cause k, TakenAdmin s sub 0 → stackOf frame = some k → frame % frameBytes = 0 → 1 ≤ cause → cause ≤ 3 →
      (frame ∈ s.si.retired → exec (.retire sub frame cause) s = .next (complete s sub.q sub.cid .success 0))
      ∧ (frame ∉ s.si.retired → (∀ m ∈ s.si.migrations, m.1 ≠ frame) → 1024 ≤ retiredIn s k → exec (.retire sub frame cause) s = .next (complete s sub.q sub.cid .elimit 0))
      ∧ (frame ∉ s.si.retired → retiredIn s k < 1024 → inUse s frame = false → (∀ m ∈ s.si.migrations, m.1 ≠ frame) →
        ((∀ m ∈ s.si.migrations, m.2.1 ≠ frame) ∨ ∃ new, migrationTarget s frame k = some new) →
        ∃ t r, exec (.retire sub frame cause) s = .next t ∧ frame ∈ t.si.retired ∧ t.si.ring.getLast? = some r ∧ r.frame = frame
          ∧ r.cause = cause ∧ r.migrated = false ∧ r.time = s.now ∧ t.mem = s.mem ∧ Answered s t sub .success 0
          ∧ (∀ new, migrationTarget s frame k = some new → new ≠ frame → ∀ m ∈ t.si.migrations, m.2.1 ≠ frame)
          ∧ ∀ c x, getCtx s c = some x → ∃ z, getCtx t c = some z ∧ z = { x with cat := { x.cat with round := z.cat.round } })
      ∧ (∀ new, frame ∉ s.si.retired → retiredIn s k < 1024 → (∀ m ∈ s.si.migrations, m.1 ≠ frame) → inUse s frame = true →
        migrationTarget s frame k = some new →
        ∃ t, exec (.retire sub frame cause) s = .next t ∧ (frame, new, cause, [(sub.q, sub.cid)]) ∈ t.si.migrations
          ∧ t.si.retired = s.si.retired ∧ t.mem = s.mem ∧ t.hostMem = s.hostMem
          ∧ ∀ c x, getCtx s c = some x → ∃ z, getCtx t c = some z
              ∧ z = { x with cat := { x.cat with round := z.cat.round }, maps := z.maps }
              ∧ z.maps.map (fun l => (l.1, { l.2 with size := 0 })) = x.maps.map fun l => (l.1, { l.2 with size := 0 }))
      ∧ (∀ m ∈ s.si.migrations, m.1 = frame → frame ∉ s.si.retired →
        ∃ t n, exec (.retire sub frame cause) s = .next t ∧ n ∈ t.si.migrations ∧ n = (frame, m.2.1, m.2.2.1, m.2.2.2 ++ [(sub.q, sub.cid)])
          ∧ t.si.retired = s.si.retired ∧ t.ctxs = s.ctxs ∧ t.mem = s.mem))
    ∧ (∀ old new cause cmds c x m, Memory.wf s.mem.bytes → s.si.migrations.find? (·.1 == old) = some (old, new, cause, cmds) →
      isReserved old = false → frameOwner s old = some c → (old + frameBytes ≤ new ∨ new + frameBytes ≤ old) → getCtx s c = some x →
      (x.maps.find? fun m => m.2.loc == 0 && m.2.frame == old) = some m → tget x.maps m.1 = some m.2 →
      ∃ t z, exec (.retireMigrationDone old) s = .next t ∧ old ∈ t.si.retired ∧ (t.si.migrations.find? (·.1 == old)) = none
        ∧ getCtx t c = some z ∧ (tget z.maps m.1).map (fun l => (l.frame, l.size)) = some (new, 0)
        ∧ (∀ k < frameBytes, mget t.mem.bytes (new + k) = mget s.mem.bytes (old + k) ∧ mget t.mem.bytes (old + k) = 0)
        ∧ (∀ a, (a < old ∨ old + frameBytes ≤ a) → (a < new ∨ new + frameBytes ≤ a) → mget t.mem.bytes a = mget s.mem.bytes a))
    ∧ (∀ old new cause cmds, s.si.migrations.find? (·.1 == old) = some (old, new, cause, cmds) → isReserved old = true →
      ∃ t, exec (.retireMigrationDone old) s = .next t ∧ old ∈ t.si.retired ∧ t.si.devMoves = s.si.devMoves ++ [(old, new)]
        ∧ ∀ c x, getCtx s c = some x → ∃ z, getCtx t c = some z ∧ z.tableMoves = x.tableMoves ++ [(old, new)] ∧ z.maps = x.maps)

/-- Queues: a doorbell moves its tail or its completion head, and an out-of-range one is ignored and counted; the command at the head of a
ring runs and the head goes on, in the context's turn (log 13), but for an OPEN while the keeper is down, which waits; a slice moves a volume on;
a progress entry and a final entry go into the next free slot of the completion ring, under the PASID of the context, whose phase turns at its
end, with a journal entry, mirrored, and are held while it is full, a progress entry replacing the held one of its command (R528, R530–R534,
R539, R556, R557, R572). -/
def Obligations.QueueTraffic : Prop :=
  ∀ (s : State),
    (∀ c q fn x v value hw, s.running = true → fnUp s fn = true → getCtx s c = some x → x.ident.fn = fn → x.ident.st ≠ .orphaned →
      q < 8 → getQueue s (.ctx c q) = some v →
      let s1 := hostWrites s hw
      let tail := exec (.doorbellWrite fn (4096 * c + 16 * q) value hw) s
      let head := exec (.doorbellWrite fn (4096 * c + 16 * q + 8) value hw) s
      let freed := (value + v.cqn - v.cqHead) % v.cqn
      (value < v.sqn → tail = .next (setQueue s1 (.ctx c q) { v with tail := value }))
      ∧ (v.sqn ≤ value → ∃ t, tail = .next t ∧ t = { s1 with regs := t.regs, out := t.out })
      ∧ (value < v.cqn → freed ≤ v.used → v.held = [] →
          head = .next (setQueue s1 (.ctx c q) { v with cqHead := value, used := v.used - freed }))
      ∧ (v.cqn ≤ value ∨ v.used < freed → ∃ t, head = .next t ∧ t = { s1 with regs := t.regs, out := t.out }))
    ∧ (∀ q v, getQueue s q = some v → (v.head = v.tail ∨ queueHeld s q = true ∨ waitsKeeper s q v = true ∨ itsTurn s q = false) →
      exec (.commandFetch q) s = .next s)
    ∧ (∀ q v, getQueue s q = some v → serving s = true → v.head ≠ v.tail → queueHeld s q = false → waitsKeeper s q v = false →
      itsTurn s q = true →
      let b := descriptorAt s q v
      let s1 := tookFrom (setQueue s q { v with head := if v.head + 1 = v.sqn then 0 else v.head + 1 }) q
      let sub : Sub := { q := q, cid := fld b 2 2, prog := bitOf (fld b 1 1) 0 }
      let out (op : Nat) (i : Instr) : Prop := fld b 0 1 = op → exec (.commandFetch q) s = exec i s1
      let clean : Prop := fld b 1 1 ≤ 1 ∧ zeroAt b 4 4 = true ∧ reservedOk (fld b 0 1) b = true
      (¬ clean → exec (.commandFetch q) s = .next (complete s1 sub.q sub.cid .earg 0))
      ∧ (clean → (∃ t, exec (.commandFetch q) s = .next t)
        ∧ (bitOf (fld b 25 1) 0 = false → out 0x01 (.openCtx sub (openFields b)))
        ∧ (bitOf (fld b 25 1) 0 = true → out 0x01 (.openReclaim sub (reclaimFields b)))
        ∧ out 0x02 (.close sub (fld b 8 2)) ∧ (fld b 16 1 ≠ 1 → out 0x03 (.bind sub (fld b 8 8)))
        ∧ (fld b 16 1 = 1 → out 0x03 (.bindRelease sub (fld b 20 4))) ∧ out 0x04 (.loadProgram sub (fld b 8 8) (fld b 16 4))
        ∧ out 0x05 (.map sub (mapFields b)) ∧ out 0x06 (.unmap sub (fld b 8 8) (fld b 16 4))
        ∧ out 0x07 (.runStep sub (fld b 8 4) (fld b 16 16)) ∧ out 0x08 (.pause sub) ∧ out 0x09 (.resume sub)
        ∧ out 0x0A (.checkpoint sub (fld b 8 8) (fld b 16 4))
        ∧ out 0x0B (.restore sub (fld b 8 8) (fld b 16 4) (fld b 24 8) (fld b 32 4))
        ∧ out 0x0C (.preempt sub (fld b 8 8) (fld b 16 4) (fld b 20 4)) ∧ (fld b 8 1 = 0 → out 0x0D (.reshardComplete sub))
        ∧ (fld b 8 1 = 1 → out 0x0D (.reshardAbort sub)) ∧ out 0x10 (.fence sub) ∧ out 0x11 (.retire sub (fld b 8 8) (fld b 16 1))
        ∧ (fld b 10 1 = 0 → fld b 8 2 = 1 → out 0x0E (.setJobRecord sub (setFields b)))
        ∧ (fld b 10 1 = 1 → 1 ≤ fld b 8 2 → fld b 8 2 ≤ 10 → out 0x0E (.setPolicyDelete sub (fld b 8 2) (setFields b)))
        ∧ (fld b 8 2 = 0x0C → out 0x0F (.queryDevice sub (queryFieldsOf b)))))
    ∧ (∀ c q cid units x k l v, serving s = true → getCtx s c = some x → startedCmd s (.ctx c q) cid = some k → k.work = none →
      x.long = some l → l.q = .ctx c q → l.cid = cid → l.vol = some v →
      (l.pos + units < v.size → ∃ t z, exec (.commandSlice (.ctx c q) cid units) s = .next t ∧ getCtx t c = some z
        ∧ z.long = some { l with pos := l.pos + units } ∧ z.gate = x.gate)
      ∧ (l.pos ≤ v.size → v.size ≤ l.pos + units → ∃ t z, exec (.commandSlice (.ctx c q) cid units) s = .next t ∧ getCtx t c = some z
        ∧ z.long = none))
    ∧ (∀ q cid t k v, serving s = true → startedCmd s q cid = some k → k.prog = true → k.opcode ≠ opRunStep →
      getQueue s q = some v → v.used < v.cqn → v.held = [] →
      (k.lastProgress + 1000000 ≤ max s.clock.now t → ∃ u, exec (.progressEntry q cid t) s = .next u
        ∧ u.hostMem = mwrite s.hostMem (ringAt s q (v.cq + 16 * v.cqTail))
            (Compl.toBytes { cid := cid, status := .success, progress := true, queue := queueNum q, sqhead := v.head, result := k.units } v.phase))
      ∧ (max s.clock.now t < k.lastProgress + 1000000 → exec (.progressEntry q cid t) s = .next (s.at t)))
    ∧ (∀ q v e, getQueue s q = some v →
      (v.used < v.cqn → v.held = [] →
        (postEntry s q e).hostMem = mwrite s.hostMem (ringAt s q (v.cq + 16 * v.cqTail)) (e.toBytes v.phase) ∧ (e.toBytes v.phase).length = 16
        ∧ getQueue (postEntry s q e) q = some { v with
            cqTail := if v.cqTail + 1 = v.cqn then 0 else v.cqTail + 1
            phase := if v.cqTail + 1 = v.cqn then !v.phase else v.phase
            used := v.used + 1 }
        ∧ (v.irq = true → (postEntry s q e).out = s.out ++ [.msix (queueFn s q) (ringVector q v)])
        ∧ (postEntry s q e).journal = s.journal.push (.written q v.cqTail (e.toBytes v.phase))
        ∧ (postEntry s q e).mirror = (postEntry s q e).journal)
      ∧ (v.cqn ≤ v.used → (postEntry s q e).hostMem = s.hostMem ∧ (postEntry s q e).out = s.out
        ∧ ∃ w, getQueue (postEntry s q e) q = some w ∧ w = { v with held := w.held } ∧ e ∈ w.held
          ∧ (∀ h ∈ v.held, h.progress = false ∨ h.cid ≠ e.cid ∨ e.progress = false → h ∈ w.held)
          ∧ (e.progress = true → ∀ h ∈ w.held, h.progress = true → h.cid = e.cid → h = e)))

/-! ### Registers and memory services -/

/-- A register access by a firmware core that protection refuses (R588, R589): the core is trapped, with a crash record of cause 3 that names
the page, and stops; no register, context or memory changes. -/
def CoreTrapped (s t : State) (n page : Nat) : Prop :=
  (∃ r, t.fw.crashLog.getLast? = some r ∧ r.cause = 3 ∧ r.addr = 4096 * page ∧ r.core = coreClass (reqCore n) ∧ r.index = coreIndex (reqCore n))
  ∧ coreRunsUp t (reqCore n) = false ∧ (∀ j, j ≠ reqCore n → coreRunsUp t j = coreRunsUp s j) ∧ getPage t page = getPage s page
  ∧ t.ctxs = s.ctxs ∧ t.mem = s.mem ∧ t.fabric = s.fabric

/-- Writes of a page's common registers and their own rows: each changes the page it names and nothing else but what it raises; a W1C bit
that hardware sets at the same edge is 1 afterwards; a forced bit that becomes 1 while enabled raises one event, of which no message leaves for a
function that was reset and not set up again (R559); a write of a page that the
port's function may not write does nothing, and one that protection keeps from a firmware core traps it (R449, R588, R589, R601, R603, R605,
R606, R608, R611, R617, R621). -/
def Obligations.PageWrites : Prop :=
  ∀ (s : State) (req : Req) (fn page value : Nat),
    let g := getPage s page
    (writes s req fn page = true →
      exec (.evClear req fn page) s = .next (setPage s page { g with cnt := List.replicate 8 0 })
      ∧ (∀ k < 8, exec (.eventSelWrite req fn page k value) s
          = .next (setPage s page { g with sel := g.sel.set k (value &&& selMask page), cnt := g.cnt.set k 0 }))
      ∧ exec (.errSummaryClear req fn page) s
          = .next (setPage s page { g with errCount := 0, errCode := 0, errValid := false, errAddr := 0, errSyn := 0 })
      ∧ (∀ hw, ∃ t, exec (.intStatusClear req fn page value hw) s = .next t ∧ t = { s with regs := t.regs, out := t.out }
          ∧ (∀ p, p ≠ page → getPage t p = getPage s p)
          ∧ ∀ k < 32, bitOf (getPage t page).intStatus k = true ↔
              (bitOf hw k = true ∧ bitOf (intMask s page) k = true)
              ∨ (bitOf g.intStatus k = true ∧ ¬ (bitOf value k = true ∧ bitOf (intMask s page) k = true)))
      ∧ (∃ t, exec (.intForceWrite req fn page value) s = .next t ∧ t = { s with regs := t.regs, out := t.out }
          ∧ (∀ p, p ≠ page → getPage t p = getPage s p)
          ∧ (∀ k < 32, bitOf (getPage t page).intStatus k = true ↔
              bitOf g.intStatus k = true ∨ (bitOf value k = true ∧ bitOf (intMask s page) k = true))
          ∧ (g.intEn = true → muted s (pageOwner s page) = false → t.out = s.out ++ List.replicate ((List.range 32).filter fun k =>
              bitOf value k && bitOf (intMask s page) k && bitOf g.intEnable k && !bitOf g.intStatus k).length (.msix (pageOwner s page) 0))
          ∧ (g.intEn = false ∨ muted s (pageOwner s page) = true → t.out = s.out))
      ∧ (∀ hw, exec (.registerWrite req fn (4096 * page + 0x014) 4 value true hw) s
          = .next (setPage (hostWrites s hw) page { g with intEnable := value % 2 ^ 32 &&& intMask s page }))
      ∧ (∀ off size whole hw, off / 4096 = page → whole = false ∨ ¬ ((size = 4 ∧ off % 4 = 0) ∨ (size = 8 ∧ off % 8 = 0)) →
          ∃ t, exec (.registerWrite req fn off size value whole hw) s = .next t ∧ t = { hostWrites s hw with regs := t.regs }))
    ∧ (∀ n, req = .port n → writes s req fn page = false →
        exec (.evClear req fn page) s = .next s ∧ (∀ k, exec (.eventSelWrite req fn page k value) s = .next s)
        ∧ exec (.errSummaryClear req fn page) s = .next s ∧ (∀ hw, exec (.intStatusClear req fn page value hw) s = .next s)
        ∧ exec (.intForceWrite req fn page value) s = .next s)
    ∧ (∀ n, req = .core n → coreReaches s n page true = false → coreRuns s (reqCore n) = true →
        ∃ t, CoreTrapped s t n page ∧ exec (.evClear req fn page) s = .next t ∧ (∀ k, exec (.eventSelWrite req fn page k value) s = .next t)
          ∧ exec (.errSummaryClear req fn page) s = .next t ∧ (∀ hw, exec (.intStatusClear req fn page value hw) s = .next t)
          ∧ exec (.intForceWrite req fn page value) s = .next t)
    ∧ (writes s req fn (pgFun fn) = true → s.fw.recovery = false → (getFun s fn).en = false →
      (adminOk (getFun s fn).adm = true → ∃ t, exec (.adminCtrlEnable req fn) s = .next t ∧ t = { s with host := t.host }
        ∧ (getFun t fn).en = true ∧ (getFun t fn).adm.head = 0 ∧ (getFun t fn).adm.tail = 0 ∧ (getFun t fn).adm.used = 0
        ∧ (getFun t fn).adm.sq = (getFun s fn).adm.sq ∧ (getFun t fn).allot = (getFun s fn).allot
        ∧ ∀ k, k ≠ fn → tget t.host.funs k = tget s.host.funs k)
      ∧ (adminOk (getFun s fn).adm = false → ∃ t, exec (.adminCtrlEnable req fn) s = .next t ∧ t = { s with regs := t.regs, out := t.out }
        ∧ (getPage t (pgFun fn)).errValid = true
        ∧ ((getPage s (pgFun fn)).errValid = false → (getPage t (pgFun fn)).errCode = 1)))
    ∧ (∀ port, port < 64 → writes s req 0 (pgPort port) = true → (getPort s port).st = .down →
      (getPort s port).cause = 2 ∨ (getPort s port).cause = 3 →
      ∃ t, exec (.portClear req port) s = .next t ∧ t.out = s.out ++ [.train port s.host.address s.host.axes ownSizes]
        ∧ (getPort s port).cert ∉ t.fabric.refused
        ∧ getPort t port = { getPort s port with st := .training, cause := 0, retrainAt := some s.now }
        ∧ (∀ k, k ≠ port → getPort t k = getPort s k) ∧ t = { s with fabric := t.fabric, out := t.out })
    ∧ (writes s req 0 page = true → hasPerturb page = true → value < 2 ^ 32 →
      (s.fw.unlocked = true → exec (.perturbEccArm req page value) s = .next (setPage s page
          { g with pEcc := (if bitOf value 31 = true ∨ bitOf g.pEcc 31 = true then 2 ^ 31 else 0) + value % 8 }))
      ∧ (s.fw.unlocked = false → exec (.perturbEccArm req page value) s
          = .next { s with regs := { s.regs with perturbRefused := min (2 ^ 32 - 1) (s.regs.perturbRefused + 1) } }))
    ∧ (∀ k, regsUp s = true → hasPerturb page = true → s.fw.unlocked = true → bitOf g.pEcc 31 = true → bitOf g.pCtrl 4 = true →
      pageClass page = some (0x0B, k) → stackOf g.pEccAddr = some k →
      let n := g.pEcc % 8
      ∃ t, exec (.eccInjection page) s = .next t ∧ (getPage t page).pEcc = n ∧ t.ctxs = s.ctxs ∧ t.mem.bytes = s.mem.bytes
        ∧ (getPage t page).pInjected = (if n = 0 then min 0xFFFF g.pInjected else min 0xFFFF (g.pInjected + 1))
        ∧ (n ≤ 3 → t.mem = s.mem) ∧ (3 < n → g.pEccAddr / 64 ∈ t.mem.poison))

/-- A write of a register page reaches it (R525, R588, R601): registers are presented, and the requester is a firmware core that protection
lets read and write the page, or the port that presents the function, for a physical function or for a page of the function's own. -/
def MayWrite (s : State) (req : Req) (fn page : Nat) : Prop :=
  regsUp s = true ∧ (pageClass page).isSome = true
  ∧ ((∃ n, req = .core n ∧ coreReaches s n page false = true ∧ coreReaches s n page true = true)
    ∨ (req = .port (fnPort s fn) ∧ fn < 256 ∧ fnUp s fn = true ∧ (isPf s fn = true ∨ ownPage s fn page = true)
        ∧ (s.host.twoHost = true → fn = port1Fn → portPage s fn page = true)))

/-- CLOSE of an idle context on its own queue, and the commands of a register page from a requester that may write it, complete with the
effect of the register, whatever the values written (R525, R551, R605, R606, R608, R611, R613, R617, R621, R623). -/
def Obligations.RegisterCommandsComplete : Prop :=
  (∀ (s : State) (sub : Sub) (c q : Nat) (x : Ctx), Taken s sub c q x closeLegal → x.att = none → x.run = none → x.long = none →
    ∃ t z, exec (.close sub 0) s = .next t ∧ getCtx t c = some z ∧ z.ident = { x.ident with st := .draining }
      ∧ z.closing = some (sub.q, sub.cid) ∧ (∀ d, d ≠ c → getCtx t d = getCtx s d) ∧ t.mem = s.mem)
  ∧ ∀ (s : State) (req : Req) (fn page : Nat), MayWrite s req fn page →
    let g := getPage s page
    (page = pgFun fn → s.fw.recovery = false → (getFun s fn).en = false → adminOk (getFun s fn).adm = true →
      ∃ t, exec (.adminCtrlEnable req fn) s = .next t ∧ (getFun t fn).en = true ∧ t.regs = s.regs ∧ t.ctxs = s.ctxs)
    ∧ (page = 0 → fn = 0 → s.regs.snapPending = false →
      ∃ t, exec (.snapTrigger req) s = .next t ∧ t.regs.snapPending = true ∧ t.regs.snapTime = s.now + 2000)
    ∧ (∀ k value, ∃ t, exec (.eventSelWrite req fn page k value) s = .next t ∧ t = { s with regs := t.regs }
      ∧ (k < 8 → k < g.sel.length → (getPage t page).sel[k]? = some (value &&& selMask page))
      ∧ ∀ j, j ≠ k → (getPage t page).sel[j]? = g.sel[j]? ∧ (getPage t page).cnt[j]? = g.cnt[j]?)
    ∧ (∃ t, exec (.evClear req fn page) s = .next t ∧ t = { s with regs := t.regs } ∧ (getPage t page).cnt = List.replicate 8 0
      ∧ (getPage t page).sel = g.sel)
    ∧ (∀ value, ∃ t, exec (.intStatusClear req fn page value 0) s = .next t ∧ t = { s with regs := t.regs }
      ∧ ∀ k < 32, bitOf (getPage t page).intStatus k = true ↔
          bitOf g.intStatus k = true ∧ ¬ (bitOf value k = true ∧ bitOf (intMask s page) k = true))
    ∧ (∀ value, ∃ t, exec (.intForceWrite req fn page value) s = .next t ∧ t.ctxs = s.ctxs ∧ t.mem = s.mem
      ∧ ∀ k < 32, bitOf (getPage t page).intStatus k = true ↔
          bitOf g.intStatus k = true ∨ (bitOf value k = true ∧ bitOf (intMask s page) k = true))
    ∧ (∃ t, exec (.errSummaryClear req fn page) s = .next t ∧ t = { s with regs := t.regs } ∧ (getPage t page).errValid = false
      ∧ (getPage t page).errCount = 0 ∧ (getPage t page).cnt = g.cnt)
    ∧ (∀ port, fn = 0 → port < 64 → page = pgPort port →
      ∃ t, exec (.portClear req port) s = .next t ∧ (getPort s port).cert ∉ t.fabric.refused
        ∧ (getPort t port).st = (if (getPort s port).st = .down ∧ ((getPort s port).cause = 2 ∨ (getPort s port).cause = 3) then .training
            else (getPort s port).st))
    ∧ (∀ value, fn = 0 → hasPerturb page = true → s.fw.unlocked = true →
      ∃ t, exec (.perturbEccArm req page value) s = .next t ∧ t = { s with regs := t.regs } ∧ (getPage t page).pEcc % 8 = value % 8
        ∧ (bitOf value 31 = true → bitOf (getPage t page).pEcc 31 = true))
    ∧ (∀ n, pageClass page = some (0x0F, n) → s.fw.unlocked = true → bitOf g.pEcc 31 = true → bitOf g.pCtrl 4 = true →
      ∃ t, exec (.eccInjection page) s = .next t ∧ (getPage t page).pEcc = g.pEcc % 8 ∧ t.mem = s.mem
        ∧ (2 ≤ g.pEcc % 8 → (n, g.pEccAddr / 64, s.now) ∈ t.si.storeErrs) ∧ (g.pEcc % 8 ≤ 1 → t.si = s.si ∧ t.ctxs = s.ctxs))
    ∧ (∀ value, ∃ t, exec (.registerWrite req fn (4096 * page + 0x014) 4 value true []) s = .next t ∧ t = { s with regs := t.regs }
      ∧ (getPage t page).intEnable = value % 2 ^ 32 &&& intMask s page)

/-- Snapshots and reads: a trigger with none pending sets the time, pending and the generation, another is ignored and counted; at its time
every powered page copies its counters and the generation, and pending clears; a read of a live register's low word latches the high word,
and the next read of the high word by the same requester returns and drops it; a read of a page that the port's function may not read answers
0, and one that protection keeps from a firmware core traps it; a doorbell page reads as its queues' tails and heads, and 0 for a context of
another function (log 153) (R525, R588, R589, R610, R613–R616). -/
def Obligations.SnapshotsAndReads : Prop :=
  ∀ (s : State) (req : Req) (fn : Nat),
    (writes s req 0 0 = true →
      (s.regs.snapPending = false → exec (.snapTrigger req) s = .next { s with regs := { s.regs with
          snapPending := true, snapTime := s.now + 2000, gen := (s.regs.gen + 1) % 2 ^ 32 } })
      ∧ (s.regs.snapPending = true → exec (.snapTrigger req) s = .next { s with regs := { s.regs with
          snapIgnored := min 0xFFFF (s.regs.snapIgnored + 1) } }))
    ∧ (∀ t, Sound s → regsUp s = true → s.regs.snapPending = true → s.regs.gen < 2 ^ 32 →
      (s.regs.snapTime ≤ max s.clock.now t → ∃ u, exec (.snapshotLatch t) s = .next u ∧ u.regs.snapPending = false
        ∧ u.ctxs = s.ctxs ∧ u.mem = s.mem
        ∧ ∀ p, (pageAsleep s p = false → (getPage u p).snap = (getPage s p).cnt ∧ (getPage u p).snapGen = s.regs.gen
              ∧ bitOf (getPage u p).intStatus 30 = true)
            ∧ (pageAsleep s p = true → getPage u p = getPage s p))
      ∧ (max s.clock.now t < s.regs.snapTime → exec (.snapshotLatch t) s = .next (s.at t)))
    ∧ (∀ page o v, reads s req fn page = true → o < 4096 → o % 8 = 0 → reg64 s page o = some v →
      (∃ t, exec (.lowWordReadLatch req fn (4096 * page + o)) s = .next t ∧ t.out = s.out ++ [.read req (4096 * page + o) (v % 2 ^ 32)]
        ∧ t = { s with regs := { s.regs with readLatch := t.regs.readLatch }, out := t.out }
        ∧ (isLive page o = true → latchOf t req (4096 * page + o + 4) = some ⟨req, 4096 * page + o + 4, v / 2 ^ 32 % 2 ^ 32⟩)
        ∧ (isLive page o = false → t.regs.readLatch = s.regs.readLatch))
      ∧ (∀ h, latchOf s req (4096 * page + o + 4) = some h →
          ∃ t, exec (.lowWordReadLatch req fn (4096 * page + o + 4)) s = .next t
            ∧ t.out = s.out ++ [.read req (4096 * page + o + 4) h.value] ∧ latchOf t req (4096 * page + o + 4) = none)
      ∧ (latchOf s req (4096 * page + o + 4) = none →
          exec (.lowWordReadLatch req fn (4096 * page + o + 4)) s
            = .next { s with out := s.out ++ [.read req (4096 * page + o + 4) (v / 2 ^ 32 % 2 ^ 32)] }))
    ∧ (∀ page o, page < 16384 → o < 4096 → o % 4 = 0 →
      (∀ n, req = .port n → reads s req fn page = false →
        exec (.lowWordReadLatch req fn (4096 * page + o)) s = .next { s with out := s.out ++ [.read req (4096 * page + o) 0] })
      ∧ (∀ n, req = .core n → coreReaches s n page false = false → coreRuns s (reqCore n) = true →
        ∃ t, exec (.lowWordReadLatch req fn (4096 * page + o)) s = .next t ∧ CoreTrapped s t n page
          ∧ t.out.getLast? = some (.read req (4096 * page + o) 0)))
    ∧ (∀ n c q x v, req = .port n → speaks s req fn = true → getCtx s c = some x → q < 8 → getQueue s (.ctx c q) = some v →
      let read (off value : Nat) : Prop := exec (.lowWordReadLatch req fn off) s = .next (s.emit (.read req off value))
      (x.ident.fn = fn → x.ident.st ≠ .orphaned →
        read (bar2 + 4096 * c + 16 * q) v.tail ∧ read (bar2 + 4096 * c + 16 * q + 8) v.cqHead)
      ∧ (x.ident.fn ≠ fn → read (bar2 + 4096 * c + 16 * q) 0 ∧ read (bar2 + 4096 * c + 16 * q + 8) 0))

/-- Memory services: patrol scrub counts as refresh, corrects up to 3 symbol errors and poisons more, and an address outside HBM stops it; a
round of re-shelving takes at most 256 moves, marks them and changes no memory before its flip; a flip changes the leaves of completed moves
alone and raises the generation; vacated frames are overwritten once no operation that translated before their flip is left, and not before; a
switch of a carrel carries the outgoing context's new flags, its bay vector unit's among them, to its aggregates and touches no other context
(R65, R66, R267, R287, R290, R301–R303, R307, R339–R343). -/
def Obligations.MemoryServices : Prop :=
  ∀ (s : State),
    (∀ atom symbols lane t,
      (stackOf atom = none → exec (.patrolScrub atom symbols lane t) s = .fault .reservedPhysical)
      ∧ (stackOf atom ≠ none → s.running = true →
          ∃ u, exec (.patrolScrub atom symbols lane t) s = .next u ∧ u.mem.bytes = s.mem.bytes ∧ u.ctxs = s.ctxs
            ∧ (symbols ≤ 3 → u.mem = s.mem) ∧ (3 < symbols → atom / 64 ∈ u.mem.poison)
            ∧ (∀ k, stackOf atom = some k → tgetD u.si.refreshes k 0 = tgetD s.si.refreshes k 0 + 1)
            ∧ (symbols = 0 → u = { s.at t with
                regs := u.regs
                si := { s.si with refreshes := u.si.refreshes } })
            ∧ (1 ≤ symbols → symbols ≤ 3 → atom / 64 ∉ s.mem.poison →
                tgetD u.si.corrected (atom / frameBytes * frameBytes) 0 = tgetD s.si.corrected (atom / frameBytes * frameBytes) 0 + 1
                ∧ tgetD u.si.channelErrs (chanNo (atom / 64 * 64)) 0 = tgetD s.si.channelErrs (chanNo (atom / 64 * 64)) 0 + 1)))
    ∧ (∀ c t x, s.running = true → getCtx s c = some x →
      (mayRound (s.at t) x = false → ∀ l, exec (.reshelveRoundStart c t l) s = .next (s.at t))
      ∧ (∀ l u z r, exec (.reshelveRoundStart c t l) s = .next u → x.cat.round = none → getCtx u c = some z → z.cat.round = some r →
          r.2.length ≤ 256 ∧ z.maps = x.maps ∧ u.mem = s.mem)
      ∧ (∀ call shard stack ps fs e, mayRound (s.at t) x = true → movePages (s.at t) x [] call shard stack = some ps →
          framesOf (s.at t) stack ps.length = some fs → remotePages x ps = 0 → tensor x call = some e →
          ∃ u z, exec (.reshelveRoundStart c t [(call, shard, stack)]) s = .next u ∧ getCtx u c = some z
            ∧ z.cat.round = some (max s.clock.now t, [⟨call, shard, e.e.base / shardBytes + shard, stack, fs, false, false⟩])
            ∧ z.cat.lastRound = some (max s.clock.now t) ∧ z.cat.rounds = x.cat.rounds + 1 ∧ z.maps = x.maps ∧ u.mem = s.mem
            ∧ (∀ f ∈ fs, f ∈ u.si.scrubbing)
            ∧ ∀ h, (tgetD z.cat.shards (callIdx call) [])[shard]? = some h → h.transit = true))
    ∧ (∀ c k x r m, s.running = true → getCtx s c = some x → x.cat.round = some r → r.2[k]? = some m → m.abandoned = false →
      ∃ u, exec (.reshelveCopyDone c k) s = .next u ∧ u = { s with ctxs := u.ctxs, regs := u.regs }
        ∧ u.ctxs = tset s.ctxs c { x with cat := { x.cat with round := some (r.1, r.2.set k { m with copied := true }) } })
    ∧ (∀ c t x r, s.running = true → getCtx s c = some x → x.cat.round = some r →
      ((∀ m ∈ r.2, m.copied = true ∨ m.abandoned = true) ∨ r.1 + 1000000 ≤ max s.clock.now t →
        ∃ u z, exec (.reshelveRoundEnd c t) s = .next u ∧ getCtx u c = some z ∧ z.cat.round = none ∧ z.cat.gen = (x.cat.gen + 1) % 2 ^ 64
          ∧ ((∀ m ∈ r.2, m.copied = false ∨ m.abandoned = true) → z.maps = x.maps ∧ u.mem = s.mem ∧ z.peerMem = x.peerMem)
          ∧ (∀ p, (∀ m ∈ r.2, completed x m = true → p ∉ runPages x m.run) →
              (tget z.maps p).map (fun l => (l.loc, l.frame, l.w, l.peer)) = (tget x.maps p).map fun l => (l.loc, l.frame, l.w, l.peer)))
      ∧ ((∃ m ∈ r.2, m.copied = false ∧ m.abandoned = false) → max s.clock.now t < r.1 + 1000000 →
        exec (.reshelveRoundEnd c t) s = .next (s.at t)))
    ∧ (∀ c x, s.running = true → getCtx s c = some x →
      ∃ u z, exec (.vacatedFrameRelease c) s = .next u ∧ getCtx u c = some z
        ∧ z = { x with cat := { x.cat with vacated := x.cat.vacated.filter fun v => !flipSettled x v } }
        ∧ (x.att = none → z.cat.vacated = [])
        ∧ (∀ v ∈ x.cat.vacated, flipSettled x v = true → v.1 ∉ u.si.scrubbing
            ∧ ∀ a, v.1 ≤ a → a < v.1 + frameBytes → mget u.mem.bytes a = 0)
        ∧ (∀ a, (∀ v ∈ x.cat.vacated, flipSettled x v = true → a < v.1 ∨ v.1 + frameBytes ≤ a) → mget u.mem.bytes a = mget s.mem.bytes a))
    ∧ (∀ carrel next, s.running = true → carrel < 1152 → carrelIn s carrel = true → tget s.si.carrelCtx carrel ≠ next →
      (∀ c, next = some c → ∃ x, getCtx s c = some x ∧ carrel ∈ x.ident.grant) →
      ∃ u, exec (.carrelContextSwitch carrel next) s = .next u ∧ u.mem = s.mem
        ∧ (next ≠ none → tget u.si.carrelCtx carrel = next)
        ∧ (∀ d, tget s.si.carrelCtx carrel ≠ some d → getCtx u d = getCtx s d)
        ∧ (∀ d x, tget s.si.carrelCtx carrel = some d → getCtx s d = some x →
            let w := tgetD x.flags.newCarrel carrel 0 ||| tgetD x.flags.newVu (carrel / 12) 0
            let v := tgetD x.flags.newDev carrel 0 ||| tgetD x.flags.newDev (1152 + carrel / 12) 0
            ∃ z, getCtx u d = some z ∧ z = { x with flags := z.flags } ∧ z.flags.carrel = x.flags.carrel ∧ z.flags.bayVu = x.flags.bayVu
              ∧ tgetD z.flags.bayAgg (carrel / 12) 0 = tgetD x.flags.bayAgg (carrel / 12) 0 ||| w
              ∧ z.flags.devAgg = x.flags.devAgg ||| w ||| v))

/-! ### The fabric -/

/-- The port `p` of `u` is `r`; no other port, no context and no memory has changed. -/
def PortIs (s u : State) (p : Nat) (r : Port) : Prop :=
  getPort u p = r ∧ (∀ k, k ≠ p → getPort u k = getPort s k) ∧ u.ctxs = s.ctxs ∧ u.mem = s.mem

/-- Flits that go out again: one for each kept flit, with its payload under a header of the moment (R443). -/
def Replayed (kept : List Sent) (l : List Bytes) : Prop :=
  l.length = kept.length ∧ ∀ (i : Nat) (b : Bytes) (e : Sent), l[i]? = some b → kept[i]? = some e → b.drop 16 = fit 240 (e.flit.drop 16)
    ∧ (e.seq < 4096 → (flitHead b).seq = e.seq) ∧ (flitHead b).type = (flitHead e.flit).type

/-- Ports: training with the device's own statement of its address and sizes, authentication with new hop keys of each direction, retraining,
lanes, keys and the failures of a partner, with the state each leaves the port in and the times they wait for; what a port that goes down had
not been acknowledged goes again; what one keeps over a fresh authentication goes again under new numbers; a key update begins with a link
control flit and ends at a frame's start; a port held down as faulty or hostile is not trained (R435, R439, R440, R442, R443, R445–R449). -/
def Obligations.PortStates : Prop :=
  ∀ (s : State) (p t : Nat), s.running = true → s.fabric.selfFailed = false → p < 64 →
    let q := getPort s p
    let T := max s.clock.now t
    (q.st = .down → q.cause ≤ 1 → ∃ u, exec (.portTrain p t none) s = .next u
      ∧ PortIs s u p { q with
          st := .training
          cause := 0
          retrainAt := some T }
      ∧ u.out = s.out ++ [.train p s.host.address s.host.axes (List.replicate 32 255)])
    ∧ (q.st = .training → exec (.portTrain p t none) s = .next (s.at t))
    ∧ (q.st = .down → 2 ≤ q.cause → ∀ r, exec (.portTrain p t r) s = .next (s.at t))
    ∧ (∀ r : TrainResp, (q.st = .down ∧ q.cause ≤ 1) ∨ q.st = .training → s.host.address ≠ none → r.cert ∉ s.fabric.refused →
      (r.sizes = s.host.axes → peerOf s p = some r.addr → r.lanes % 16 ≠ 0 →
        ∃ u, exec (.portTrain p t (some r)) s = .next u ∧ (getPort u p).st = .authenticating ∧ (getPort u p).lanes = r.lanes % 16
          ∧ (getPort u p).partner = r.addr ∧ (getPort u p).cert = r.cert ∧ (getPort u p).rxSeq = 0 ∧ (getPort u p).txSeq = 1
          ∧ (getPort u p).sizes = (List.range 32).map (fun k => min 255 (r.buffers.getD k 0)) ∧ (getPort u p).credits = (getPort u p).sizes
          ∧ ∃ f, u.out.getLast? = some (.flit p f f) ∧ (flitHead f).type = 3 ∧ (flitHead f).seq = 0)
      ∧ (r.sizes ≠ s.host.axes ∨ peerOf s p ≠ some r.addr →
          ∃ u, exec (.portTrain p t (some r)) s = .next u ∧ PortDown s u p 3))
    ∧ (∀ r : TrainResp, q.st = .training → s.host.address = none → exec (.portTrain p t (some r)) s = .next (s.at t))
    ∧ (∀ a : AuthResp, q.st = .authenticating → coreUp s .keeper = true →
      (a.chainOk = true → a.reserveRole = bitOf q.partner 19 → s.fw.config.minSvn ≤ a.svn → a.cert = q.cert → a.cert ∉ s.fabric.refused →
        ∃ u, exec (.portAuthenticate p a) s = .next u ∧ getSession u (.link p) = some (.link p, a.cert, 5) ∧ u.free = s.free + 3
          ∧ (q.retry = [] → PortIs s u p { q with
              st := .up
              keyTime := s.now
              sentFlits := 0
              kphase := false
              keyPending := none
              txPos := 0
              txFrame := []
              txSeal := []
              txFrames := 0
              txKey := s.free
              oldKey := none
              rxPhase := false
              rxKey := s.free + 1
              rxNext := s.free + 2
              rxFrames := 0
              rxFlits := []
              rxPrev := none
              txSeq := q.txSeq % 4096 })
          ∧ (q.retry ≠ [] → (getPort u p).st = .up ∧ (getPort u p).retry = renumber q.txSeq q.retry
              ∧ (getPort u p).txSeq = (q.txSeq + q.retry.length) % 4096
              ∧ ∃ l, Replayed (renumber q.txSeq q.retry) (l.map (·.1)) ∧ u.out = s.out ++ [.replay p l]))
      ∧ (a.chainOk = false ∨ a.reserveRole ≠ bitOf q.partner 19 ∨ a.svn < s.fw.config.minSvn ∨ a.cert ≠ q.cert ∨ a.cert ∈ s.fabric.refused →
        ∃ u, exec (.portAuthenticate p a) s = .next u ∧ PortDown s u p 3 ∧ u.fabric.certs = s.fabric.certs ++ [(p, q.cert)]))
    ∧ (q.st ≠ .down → ∃ u, exec (.portDown p) s = .next u ∧ PortDown s u p 0 ∧ getSession u (.link p) = none
        ∧ (∀ e ∈ q.retry, Out.resend e.dest e.job e.mseq [] ∈ u.out)
        ∧ ∀ m ∈ q.held, ∃ o ∈ u.fabric.queued, o.msg = m ∧ o.port = none ∧ o.next = 0)
    ∧ (∀ t0, q.st = .training → q.retrainAt = some t0 →
      (t0 + 100000000 ≤ T → ∃ u, exec (.partnerAbsent p t) s = .next u ∧ PortDown s u p 0) ∧ (T < t0 + 100000000 → exec (.partnerAbsent p t) s = .next (s.at t)))
    ∧ (∀ b, q.st = .up → b < 32 → q.credits.getD b 0 = 0 →
      (q.starving.find? (·.1 == b) = none →
          ∃ u, exec (.partnerStarvation p b t) s = .next u ∧ PortIs s u p { q with starving := q.starving ++ [(b, T - 100000)] })
      ∧ (∀ t0, q.starving.find? (·.1 == b) = some (b, t0) →
          (t0 + 10000000 ≤ T → ∃ u, exec (.partnerStarvation p b t) s = .next u ∧ PortDown s u p 0)
          ∧ (T < t0 + 10000000 → exec (.partnerStarvation p b t) s = .next (s.at t))))
    ∧ (q.st ≠ .down → 16 ≤ (q.events.filter fun e => decide (T < e + 1000000)).length →
        ∃ u, exec (.partnerFaulty p t) s = .next u ∧ PortDown s u p 2)
    ∧ (∀ c bad, q.st = .up → (c = .replays → 8 ≤ q.replayFails ∨ ∃ n k, q.lastNak = some (n, k) ∧ 8 ≤ k) →
        (c = .laneRestore → q.laneReady ≠ [] ∧ q.retry = []) →
      ∃ u, exec (.portRetrain p t c bad) s = .next u ∧ (getPort u p).st = .retraining ∧ (getPort u p).retrainAt = some T
        ∧ (getPort u p).retry = q.retry
        ∧ (∀ k < 4, bitOf (getPort u p).lanes k = true ↔ (bitOf q.lanes k = true ∨ k ∈ q.laneReady) ∧ bitOf bad k = false)
        ∧ (∀ k, k ≠ p → getPort u k = getPort s k))
    ∧ (∀ t0, q.st = .retraining → q.retrainAt = some t0 →
      (t0 + 10000000 ≤ T → ∃ u, exec (.retrainTimeout p t) s = .next u ∧ PortDown s u p 1)
      ∧ (∀ lanes cert, T ≤ t0 + 10000000 → q.lanes &&& (lanes % 16) ≠ 0 →
        (∃ u, exec (.retrainComplete p t lanes true cert) s = .next u ∧ (getPort u p).st = .up ∧ (getPort u p).lanes = q.lanes &&& (lanes % 16)
          ∧ (getPort u p).rxFlits = [] ∧ (getPort u p).rxPrev = none
          ∧ (getPort u p).retry = q.retry ∧ (q.retry ≠ [] → ∃ l, Replayed q.retry (l.map (·.1)) ∧ Out.replay p l ∈ u.out))
        ∧ (cert = q.cert → ∃ u, exec (.retrainComplete p t lanes false cert) s = .next u ∧ (getPort u p).st = .authenticating
            ∧ (getPort u p).lanes = q.lanes &&& (lanes % 16) ∧ (getPort u p).rxSeq = 0 ∧ (getPort u p).txSeq = 1
            ∧ (getPort u p).retry = q.retry)
        ∧ (cert ≠ q.cert → ∃ u, exec (.retrainComplete p t lanes false cert) s = .next u ∧ PortDown s u p 3)))
    ∧ (∀ lane, q.st = .up → lane < 4 → bitOf q.lanes lane = false →
      ((q.laneOk.find? (·.1 == lane)) = none →
          ∃ u, exec (.laneTest p lane t true) s = .next u ∧ PortIs s u p { q with laneOk := q.laneOk ++ [(lane, T)] })
      ∧ (∀ e, (q.laneOk.find? (·.1 == lane)) = some e → e.2 + 10000000000 ≤ T →
          ∃ u, exec (.laneTest p lane t true) s = .next u ∧ PortIs s u p { q with laneReady := insertN q.laneReady lane })
      ∧ ∃ u, exec (.laneTest p lane t false) s = .next u ∧ PortIs s u p { q with
          laneOk := q.laneOk.filter (·.1 != lane)
          laneReady := q.laneReady.filter (· != lane) })
    ∧ (q.st = .up → coreUp s .keeper = true → q.keyPending = none → (2 ^ 32 ≤ q.sentFlits ∨ q.keyTime + 60000000000 ≤ T) →
        ∃ u f w, exec (.keyUpdate p t false) s = .next u ∧ (getPort u p).keyPending = some T ∧ (getPort u p).txSeq = (q.txSeq + 1) % 4096
          ∧ (getPort u p).kphase = q.kphase ∧ (getPort u p).txKey = q.txKey ∧ (∀ k, k ≠ p → getPort u k = getPort s k)
          ∧ u.out = s.out ++ [.flit p f w] ∧ (flitHead f).type = 3 ∧ u.ctxs = s.ctxs ∧ u.mem = s.mem)
    ∧ (∀ t0, q.st = .up → q.keyPending = some t0 →
      (∃ u, exec (.keyUpdate p t true) s = .next u ∧ (getPort u p).keyPending = none ∧ (getPort u p).kphase = !q.kphase
        ∧ (getPort u p).keyTime = T ∧ (getPort u p).sentFlits = 0 ∧ (getPort u p).txFrames = 0 ∧ (getPort u p).txKey = s.free
        ∧ u.free = s.free + 1 ∧ (getPort u p).txPos % 16 = 0 ∧ (getPort u p).retry = q.retry
        ∧ (getPort u p).oldKey = (if q.retry = [] then none else some (q.txKey, q.retry.length))
        ∧ (∀ k, k ≠ p → getPort u k = getPort s k) ∧ u.ctxs = s.ctxs ∧ u.mem = s.mem)
      ∧ (t0 + 100000000 ≤ T → ∃ u, exec (.keyUpdateTimeout p t) s = .next u ∧ PortDown s u p 2)
      ∧ (T < t0 + 100000000 → exec (.keyUpdateTimeout p t) s = .next (s.at t)))

/-- Flits of a port that is up join the open frame, and none is taken before its frame's seal has been checked: the sixteenth closes the frame,
whose key is that of its key phase, and the seals it brings judge the frame before. A frame with a wrong seal is discarded whole, one fault
event, and draws one NAK; so does a flit that is lost, but while a replay is awaited only the loss of that replay. Of a sealed frame each flit
is taken in turn: one of types 0 and 2 carries its acknowledgement and credit alone; one in sequence is taken and the sequence goes on, one out
of sequence after a NAK is not taken; a data flit without room, or of a message that is being discarded, is discarded; the first flit of a
message from a source that its link cannot have takes the port down as hostile. A NAK replays from the flit it names; idle flits close the
open frame, whose seal goes with the next (R437, R438, R440–R444, R450). -/
def Obligations.Flits : Prop :=
  ∀ (s : State) (p t k0 : Nat) (b : Bytes), s.running = true → s.fabric.selfFailed = false → p < 64 → b.length = 256 →
    let q := getPort s p
    let h := flitHead b
    let m := msgHead b
    let buf := 8 * h.cls + h.vc
    let out (ok : FlitCheck) (u : State) : Prop := exec (.flitReceive p b ok t) s = .next u
    let good : FlitCheck := .good k0
    let asks (u : State) : Prop := (∃ f w, u.out = s.out ++ [.flit p f w, .nak p q.rxSeq] ∧ (flitHead f).type = 2) ∧ (getPort u p).nakSent = true
    let kept (u : State) : Prop := (getPort u p).rxSeq = q.rxSeq ∧ (getPort u p).rxMsg = q.rxMsg ∧ (getPort u p).credits = q.credits
      ∧ (getPort u p).retry = q.retry ∧ u.ctxs = s.ctxs
    (q.st = .up →
      (∀ r, q.rxFlits.length ≠ 15 →
        (q.nakSent = false → ∃ u, out (.uncorrectable r) u ∧ asks u ∧ kept u ∧ (getPort u p).rxFlits = q.rxFlits ++ [[]])
        ∧ (q.nakSent = true → r = false → ∃ u, out (.uncorrectable r) u ∧ u.out = s.out ∧ PortIs s u p { q with rxFlits := q.rxFlits ++ [[]] })
        ∧ (q.nakSent = true → r = true → ∃ u, out (.uncorrectable r) u ∧ asks u ∧ kept u
            ∧ (getPort u p).replayFails = q.replayFails + 1 ∧ (getPort u p).rxFlits = q.rxFlits ++ [[]]))
      ∧ (q.rxFlits.length ≠ 15 → ∃ u, out good u ∧ u.out = s.out ∧ PortIs s u p { q with rxFlits := q.rxFlits ++ [b] })
      ∧ (q.rxFlits.length = 15 →
        let l := q.rxFlits ++ [b]
        let turned : Bool := (l.find? fun f => f.length == 256).any fun f => (flitHead f).kphase != q.rxPhase
        let f1 : RxFrame := if turned then ⟨q.rxNext, 0, true, l⟩ else ⟨q.rxKey, q.rxFrames, false, l⟩
        let sealed (f : RxFrame) : Prop := frameSeal (hopKey f.key) f.frame (plainFrame f) = l.map (·.getD 7 0)
        let waits : Port := { q with
          rxFlits := []
          rxPrev := some f1
          rxFrames := q.rxFrames + 1 }
        (q.rxPrev = none → ∃ u, out good u ∧ PortIs s u p waits)
        ∧ (∀ f, q.rxPrev = some f →
          (¬ (∀ x ∈ f.flits ++ l, x.length = 256) → ∃ u, out good u ∧ PortIs s u p waits)
          ∧ ((∀ x ∈ f.flits ++ l, x.length = 256) → ¬ sealed f → q.nakSent = false → ∃ u, out good u ∧ asks u ∧ kept u
              ∧ (getPort u p).rxPrev = some f1 ∧ (getPort u p).rxFlits = []
              ∧ (getPort u p).events = max s.clock.now t :: q.events.filter fun e => decide (max s.clock.now t < e + 1000000))
          ∧ ((∀ x ∈ f.flits ++ l, x.length = 256) → sealed f → f.next = false →
              let v := (plainFrame f).foldl (fun s b => if isUp (getPort s p) then sealedFlit s p (flitHead b) b else s)
                (portCount (s.at t) p 0x100 k0)
              ∃ u, out good u ∧ u.out = v.out ∧ u.ctxs = v.ctxs ∧ (getPort u p).st = (getPort v p).st ∧ (getPort u p).rxSeq = (getPort v p).rxSeq
                ∧ (getPort u p).rxMsg = (getPort v p).rxMsg ∧ (getPort u p).credits = (getPort v p).credits
                ∧ (getPort u p).retry = (getPort v p).retry ∧ ((getPort v p).st = .up → ∃ g, (getPort u p).rxPrev = some g ∧ g.flits = l))))
      ∧ (let u := sealedFlit s p h b
        (h.reserved = 0 → h.type = 0 ∨ h.type = 2 → (getPort u p).rxSeq = q.rxSeq ∧ (getPort u p).rxMsg = q.rxMsg
          ∧ (getPort u p).retry = dropAcked q.txSeq h.ack q.retry
          ∧ (0 < h.credit → q.credits.getD h.cbuf 0 + h.credit ≤ q.sizes.getD h.cbuf 0 →
              (getPort u p).credits = q.credits.set h.cbuf (q.credits.getD h.cbuf 0 + h.credit))
          ∧ (q.sizes.getD h.cbuf 0 < q.credits.getD h.cbuf 0 + h.credit → (getPort u p).credits = q.credits))
        ∧ (h.reserved = 0 → h.type = 1 → h.seq ≠ q.rxSeq → q.nakSent = true → u = s)
        ∧ (5 ≤ h.type ∨ h.reserved ≠ 0 → (getPort u p).rxSeq = q.rxSeq ∧ (getPort u p).rxMsg = tdel q.rxMsg buf ∧ buf ∈ (getPort u p).skip)
        ∧ (h.reserved = 0 → h.type = 1 → h.seq = q.rxSeq → (getPort u p).rxSeq = (q.rxSeq + 1) % 4096
          ∧ (∀ k, k ≠ p → getPort u k = getPort s k) ∧ u.ctxs = s.ctxs ∧ u.mem = s.mem
          ∧ (q.ownFree.getD buf 0 = 0 → (getPort u p).rxMsg = tdel q.rxMsg buf ∧ buf ∈ (getPort u p).skip)
          ∧ (q.ownFree.getD buf 0 ≠ 0 → h.first = false → buf ∈ q.skip → (getPort u p).rxMsg = q.rxMsg)
          ∧ (q.ownFree.getD buf 0 ≠ 0 → h.first = true → routeOk s h m = false → (getPort u p).rxMsg = tdel q.rxMsg buf ∧ buf ∈ (getPort u p).skip)
          ∧ (q.ownFree.getD buf 0 ≠ 0 → h.first = true → routeOk s h m = true →
              (sourceOk s p q m = false → (getPort u p).st = .down ∧ (getPort u p).cause = 3)
              ∧ (sourceOk s p q m = true → tget q.rxMsg buf = none → h.last = false → 1 ≤ m.len → tget (getPort u p).rxMsg buf = some [b]))))
      ∧ (∀ seq e r, dropAcked q.txSeq seq q.retry = e :: r → e.seq = seq →
          ∃ u l, exec (.nakReceive p seq) s = .next u ∧ (getPort u p).retry = e :: r ∧ Replayed (e :: r) (l.map (·.1))
            ∧ u.out = s.out ++ [.replay p l] ∧ u.mem = s.mem)
      ∧ ∃ (u : State) (l : List (Bytes × Bytes)), exec (.frameSealTimeout p) s = .next u
          ∧ u = { s with
              fabric := u.fabric
              regs := u.regs
              out := s.out ++ l.map fun f => .flit p f.1 f.2 }
          ∧ l.length = 16 - q.txPos % 16 ∧ (∀ f ∈ l, f.1.length = 256 ∧ (flitHead f.1).type = 0)
          ∧ getPort u p = { q with
              txPos := 0
              txFrame := []
              txSeal := frameSeal (hopKey q.txKey) q.txFrames (q.txFrame ++ l.map (·.1))
              txFrames := q.txFrames + 1
              sentFlits := q.sentFlits + l.length
              ownFree := (getPort u p).ownFree }
          ∧ (∀ k, (getPort u p).ownFree.getD k 255 = q.ownFree.getD k 255 ∨ (getPort u p).ownFree.getD k 255 = 255)
          ∧ ∀ k, k ≠ p → getPort u k = getPort s k)
    ∧ (q.st = .authenticating → (h.type = 3 → h.seq = q.rxSeq → ∃ u, out good u ∧ (getPort u p).rxSeq = (q.rxSeq + 1) % 4096)
        ∧ (h.type ≠ 3 → out good (s.at t)))
    ∧ (q.st = .down ∨ q.st = .training ∨ q.st = .retraining → ∀ ok, out ok (s.at t))

/-- Messages: a relayed one leaves by the minimal port of most weighted credit, where one of them is not short, with its hop counted, its flits
kept and its credit spent; without room it waits in the queue, from which the first message that can go leaves at a tick; a delivered one with
right tags is remembered, a stale one dropped, one with a wrong tag answered by a NAK; a NAKed one goes again from the device's own copy, and
after eight attempts the tag engines are tested, with a new round 1 ms after the answer or 2 ms without one; a remote read answers the
range's bytes and a remote write stores them, or both answer EACCESS (R294, R298, R325, R443, R444, R451–R456). -/
def Obligations.Messages : Prop :=
  ∀ (s : State), s.running = true → s.fabric.selfFailed = false →
    (∀ p m cls, p < 64 → (getPort s p).st = .up → isMe s m.dest = false → m.hops < 7 → kindClass m.kind = some cls →
      let k := m.flits.length
      let out : Message := { m with hops := m.hops + 1 }
      let buf := 8 * cls + (m.hops + 1)
      (∀ n, nextPort s (tableOf s p) buf m.dest m.src (m.hops + 1) = some n → roomFor s n buf k = true →
        ∃ u w, exec (.messageRelay p m) s = .next u ∧ u.out = s.out ++ [.relay n out w] ∧ w.length = k
        ∧ (∃ l, (getPort u n).retry = (getPort s n).retry ++ l ∧ l.length = k
            ∧ ∀ i e, l[i]? = some e → e.seq = ((getPort s n).txSeq + i) % 4096 ∨ i = 0 ∧ e.seq = (getPort s n).txSeq)
        ∧ (∀ i e, ((getPort u n).retry.drop (getPort s n).retry.length)[i]? = some e → e.dest = m.dest ∧ e.job = m.job ∧ e.mseq = m.mseq
            ∧ e.flit.length = 256 ∧ (flitHead e.flit).type = 1 ∧ (flitHead e.flit).cls = cls ∧ (flitHead e.flit).vc = m.hops + 1
            ∧ fld e.flit 8 8 = m.tags.getD i 0 % 2 ^ 64 ∧ e.flit.drop 16 = fit 240 (outPayload out i))
        ∧ (0 < k → (getPort u n).txSeq = ((getPort s n).txSeq + k) % 4096)
        ∧ (getPort u n).credits = (getPort s n).credits.set buf ((getPort s n).credits.getD buf 0 - k)
        ∧ (∀ j, j ≠ n → getPort u j = getPort s j) ∧ u.ctxs = s.ctxs ∧ u.mem = s.mem)
      ∧ ((∀ n, nextPort s (tableOf s p) buf m.dest m.src (m.hops + 1) = some n → roomFor s n buf k = false) →
          exec (.messageRelay p m) s = .next { s with fabric := { s.fabric with queued := s.fabric.queued ++ [⟨out, none, none, 0, portHub p, 0⟩] } }))
    ∧ (∀ p m, isMe s m.dest = true ∨ 7 ≤ m.hops → exec (.messageRelay p m) s = .next s)
    ∧ (∀ o l n cls j, s.fabric.queued = o :: l → readyToGo s o = some (n, cls, j) →
      ∃ w, (launch s).out = s.out ++ [.relay n o.msg w] ∧ w.length = j ∧ 0 < j ∧ j ≤ (getPort s n).credits.getD (8 * cls + o.msg.hops) 0
        ∧ (getPort (launch s) n).retry.length = (getPort s n).retry.length + j ∧ (getPort (launch s) n).retry.length ≤ 1024
        ∧ (o.next + j = o.msg.flits.length → (launch s).fabric.queued = l)
        ∧ (o.next + j ≠ o.msg.flits.length → (launch s).fabric.queued = { o with
            port := some n
            next := o.next + j } :: l))
    ∧ (∀ l buf dest src links n, nextPort s l buf dest src links = some n →
      let mins := (minimalHops s l ((s.host.address.getD 0) % 65536) dest).flatMap (portsTo s)
      (∃ p ∈ mins, shortOf s buf p = false) → n ∈ mins ∧ usable (getPort s n) = true
        ∧ ∀ p ∈ mins, usable (getPort s p) = true → weight s buf p ≤ weight s buf n)
    ∧ (∀ p m, p < 64 → (getPort s p).st = .up → isMe s m.dest = true → tagKey s m.job = some none →
      ∃ u n, exec (.messageDeliver p m) s = .next u ∧ u.out = s.out ++ [.e2eNak m.src m.job m.mseq n] ∧ u.fabric.delivered = s.fabric.delivered)
    ∧ (∀ p m key, p < 64 → (getPort s p).st = .up → isMe s m.dest = true → tagKey s m.job = some (some key) →
      (tagsOk key m = false → ∃ u n, exec (.messageDeliver p m) s = .next u ∧ u.out = s.out ++ [.e2eNak m.src m.job m.mseq n]
          ∧ u.fabric.delivered = s.fabric.delivered
          ∧ ∃ o, u.fabric.queued = s.fabric.queued ++ [o] ∧ o.msg.dest = m.src ∧ o.msg.job = m.job ∧ o.msg.kind = 8 ∧ o.msg.arg = m.mseq)
      ∧ (tagsOk key m = true → stale s m = true → ∃ u, exec (.messageDeliver p m) s = .next u ∧ u = { s with regs := u.regs })
      ∧ (tagsOk key m = true → stale s m = false → ∃ u, exec (.messageDeliver p m) s = .next u ∧ stale u m = true
          ∧ u = { s with
              regs := u.regs
              fabric := { s.fabric with
                delivered := u.fabric.delivered
                waiting := u.fabric.waiting
                mseq := u.fabric.mseq
                queued := u.fabric.queued
                kept := u.fabric.kept } }
          ∧ ∀ m', (m'.src ≠ m.src ∨ m'.job ≠ m.job) → stale u m' = stale s m'))
    ∧ (∀ dest job mseq t ok,
      let w := waitingOf s dest job mseq
      w.checking = false →
      (w.attempts < 8 → ∃ u r v, exec (.e2eNakReceive dest job mseq t ok) s = .next u ∧ u.out = s.out ++ [.resend w.dest w.job w.mseq r]
        ∧ v ∈ u.fabric.waiting ∧ v.job = w.job ∧ v.mseq = w.mseq ∧ v.attempts = w.attempts + 1 ∧ r ∈ v.routes
        ∧ ∀ m, (s.fabric.kept.find? fun m => m.job == w.job && m.mseq == w.mseq && m.dest == w.dest) = some m →
            ∃ o, u.fabric.queued = s.fabric.queued ++ [o] ∧ o.msg = m ∧ o.via = some (firstHop s w.dest r) ∧ o.next = 0)
      ∧ (8 ≤ w.attempts → ok = true → ∃ u n v, exec (.e2eNakReceive dest job mseq t ok) s = .next u
        ∧ u.out = s.out ++ [.tagCheck w.dest n] ∧ v ∈ u.fabric.waiting ∧ v.job = w.job ∧ v.mseq = w.mseq ∧ v.checking = true
        ∧ v.since = max s.clock.now t ∧ v.answered = none)
      ∧ (8 ≤ w.attempts → ok = false → ∃ u, exec (.e2eNakReceive dest job mseq t ok) s = .next u ∧ u.fabric.selfFailed = true))
    ∧ (∀ src, (∃ u n, exec (.tagCheckRequest src true) s = .next u ∧ u.out = s.out ++ [.tagAnswer src n])
      ∧ ∃ u, exec (.tagCheckRequest src false) s = .next u ∧ u.fabric.selfFailed = true ∧ Out.flood 0 [s.host.address.getD 0] ∈ u.out)
    ∧ (∀ job mseq t w due, (s.fabric.waiting.find? (isWaiting job mseq)) = some w → w.checking = true →
      (∀ t1, w.answered = some t1 → due = t1 + 1000000) → (w.answered = none → due = w.since + 2000000) →
      (due ≤ max s.clock.now t → ∃ u r v, exec (.tagCheckWaitExpiry job mseq t) s = .next u
        ∧ u.out = s.out ++ [.resend w.dest w.job w.mseq r] ∧ v ∈ u.fabric.waiting ∧ v.job = w.job ∧ v.mseq = w.mseq ∧ v.attempts = 1
        ∧ v.checking = false ∧ v.rounds = w.rounds + 1)
      ∧ (max s.clock.now t < due → exec (.tagCheckWaitExpiry job mseq t) s = .next (s.at t)))
    ∧ (∀ src job va n mseq c x, jobCtx s job = some (c, x) → getCtx s c = some x →
      (rangeHere x va n false = true → ∃ u k y, exec (.remoteReadRequest src job va n mseq) s = .next u
        ∧ u.out = s.out ++ [.readResp src va (readVa s x va n) (poisonIn s x va n) Status.success.code k]
        ∧ u = { s with ctxs := u.ctxs, regs := u.regs, fabric := u.fabric, out := u.out } ∧ Posted s u
        ∧ (∀ d, d ≠ c → getCtx u d = getCtx s d) ∧ getCtx u c = some y
        ∧ y = { x with cat := { x.cat with shards := y.cat.shards } }
        ∧ ∀ key, tagKey s job = some (some key) → ∃ o ∈ u.fabric.queued, o.msg.dest = src ∧ o.msg.job = job ∧ o.msg.kind = 1)
      ∧ (rangeHere x va n false = false → ∃ u k, exec (.remoteReadRequest src job va n mseq) s = .next u
        ∧ u.out = s.out ++ [.readResp src va [] [] Status.eaccess.code k]
        ∧ u = { s with fabric := u.fabric, out := u.out } ∧ Posted s u))
    ∧ (∀ src job va mseq data c x, jobCtx s job = some (c, x) → getCtx s c = some x →
      (rangeHere x va data.length true = true → Sound s → (vaPlaces x va data.length).Nodup →
        ∃ u k y, exec (.remoteWrite src job va mseq data) s = .next u ∧ u.out = s.out ++ [.writeAck src mseq Status.success.code k]
          ∧ getCtx u c = some y ∧ readVa u y va data.length = data
          ∧ ∀ a, .phys a ∉ vaPlaces x va data.length → mget u.mem.bytes a = mget s.mem.bytes a)
      ∧ (rangeHere x va data.length true = false → ∃ u k, exec (.remoteWrite src job va mseq data) s = .next u
        ∧ u.out = s.out ++ [.writeAck src mseq Status.eaccess.code k]
        ∧ u = { s with fabric := u.fabric, out := u.out } ∧ Posted s u))

/-- Device time: it never goes back; a link exchange sends a time flit, steers the rate within 200 ppm either way towards the offset and steps
nothing, and only counts a difference above 50 ns while TSYNC is followed; adoption is one forward step of a device without contexts to which no
TSYNC frame has announced an edge, and a hold where the device is ahead; two valid frames in a row (sync byte, time, CRC-32) announce the
edges that are adopted and followed, and 3 ms without one give link time back, before adoption too (R26, R27, R458, R637, R638). -/
def Obligations.DeviceTime : Prop :=
  ∀ (s : State), s.running = true →
    (∀ (t1 t2 t3 t4 : Nat) (skew : Int) (p : Nat), s.fabric.selfFailed = false → timePort s = some p →
      let T := max s.clock.now t4
      let o := (((t2 : Int) - t1) - ((t4 : Int) - t3)) / 2 + skew
      ∃ u f w, exec (.timeExchange t1 t2 t3 t4 skew) s = .next u
        ∧ u = { s with
            clock := u.clock
            fabric := u.fabric
            regs := u.regs
            out := s.out ++ [.flit p f w] }
        ∧ (flitHead f).type = 4 ∧ f.drop 16 = fit 240 (leBytes 8 t1) ∧ (∀ k, k ≠ p → getPort u k = getPort s k) ∧ u.clock.now = T
        ∧ (s.clock.source ≠ .tsync → u.clock.source = .links ∧ -200000 ≤ u.clock.rate ∧ u.clock.rate ≤ 200000
          ∧ (-200 ≤ o → o ≤ 200 → u.clock.rate = 1000 * o))
        ∧ (s.clock.source = .tsync → u.clock = (s.at t4).clock))
    ∧ (∀ p t1 t2 t3, s.fabric.selfFailed = false → p < 64 → (getPort s p).st = .up →
        ∃ u f w, exec (.timeReply p t1 t2 t3) s = .next u
          ∧ u = { s.at t3 with
              fabric := u.fabric
              regs := u.regs
              out := s.out ++ [.flit p f w, .timeReply p t1 t2 t3] }
          ∧ (flitHead f).type = 4 ∧ f.drop 16 = fit 240 (leBytes 8 t1 ++ leBytes 8 t2 ++ leBytes 8 t3)
          ∧ ∀ k, k ≠ p → getPort u k = getPort s k)
    ∧ (∀ f, (s.clock.adopted = false → s.ctxs = [] → s.clock.tsFrames = 0 → exec (.fabricTimeAdoption f) s
          = .next { s with clock := { s.clock with now := max s.clock.now f, adopted := true, hold := s.clock.now - f } })
        ∧ (s.clock.adopted = true ∨ s.ctxs ≠ [] ∨ s.clock.tsFrames ≠ 0 → exec (.fabricTimeAdoption f) s = .next s))
    ∧ (∀ t f, f < 2 ^ 64 →
      let T := max s.clock.now t
      let frame := 0xA5 + 256 * f + 2 ^ 72 * crc32 (leBytes 8 f)
      (s.clock.tsFrames < 2 → exec (.tsyncEdge t frame true) s = .next { s.at t with clock := { (s.at t).clock with
          tsValue := f, tsLast := T, tsFrames := if s.clock.tsFrames ≠ 0 ∧ f = s.clock.tsValue + 1000000 then min 2 (s.clock.tsFrames + 1) else 1 } })
      ∧ (2 ≤ s.clock.tsFrames → s.clock.adopted = false → s.ctxs = [] → ∃ u, exec (.tsyncEdge t frame true) s = .next u
          ∧ u.clock.now = max T s.clock.tsValue ∧ u.clock.adopted = true ∧ u.clock.source = .tsync ∧ u.clock.hold = T - s.clock.tsValue)
      ∧ (2 ≤ s.clock.tsFrames → s.clock.adopted = true → ∃ u, exec (.tsyncEdge t frame true) s = .next u ∧ u = { s with clock := u.clock }
          ∧ u.clock.now = T ∧ u.clock.source = .tsync ∧ -200000 ≤ u.clock.rate ∧ u.clock.rate ≤ 200000)
      ∧ (∃ u, exec (.tsyncEdge t frame false) s = .next u ∧ u.clock.tsFrames = 0))
    ∧ (∀ t bits, (∀ f < 2 ^ 64, bits ≠ 0xA5 + 256 * f + 2 ^ 72 * crc32 (leBytes 8 f)) →
      ∃ u, exec (.tsyncEdge t bits true) s = .next u ∧ u.clock.tsFrames = 0)
    ∧ (∀ t, s.clock.source = .tsync ∨ s.clock.tsFrames ≠ 0 →
      (s.clock.tsLast + 3000000 ≤ max s.clock.now t → exec (.tsyncLoss t) s = .next { s.at t with clock := { (s.at t).clock with
          source := if s.clock.source = .tsync then .links else s.clock.source, tsFrames := 0, tsLosses := s.clock.tsLosses + 1 } })
      ∧ (max s.clock.now t < s.clock.tsLast + 3000000 → exec (.tsyncLoss t) s = .next (s.at t)))
    ∧ (∀ t, s.clock.now ≤ (s.at t).clock.now ∧ t ≤ (s.at t).clock.now)

/-- Reserve takeover: detours change in generations, one entry a range, each change passed on once, and a port in the middle of a message keeps
the table before; a device that has failed floods its loss and stops its ports; a
reserve declares a loss, adopts one coordinate with a standby context for each job or refuses; members end their attempts with ETAKEOVER,
restore, pause and report; the reserve rebuilds, floods ready and all adopt its epoch and counter; a refused takeover rolls attempts back
and pauses (R19, R459–R461, R513–R521). -/
def Obligations.Takeovers : Prop :=
  ∀ (s : State), s.running = true → s.fabric.selfFailed = false →
    let same (u : State) (c : Nat) (x : Ctx) : Prop := ∃ y, getCtx u c = some y ∧ y.ident = x.ident ∧ y.gate = x.gate ∧ y.att = x.att
      ∧ y.run = x.run ∧ y.cat = x.cat ∧ y.maps = x.maps ∧ y.pol = x.pol
    (∀ co r, (∀ e ∈ s.fabric.detours, e.coord = co → e.reserve ≠ r) →
      ∃ u d, exec (.detourChange (.add co r)) s = .next u ∧ u = { s with fabric := u.fabric, out := s.out ++ [.flood 4 [1, co, r]] }
      ∧ u.fabric.detourGen = s.fabric.detourGen + 1 ∧ u.fabric.detoursOld = s.fabric.detours
      ∧ (∀ p q, tget s.fabric.ports p = some q → getPort u p = { q with gen := if q.rxMsg = [] then u.fabric.detourGen else q.gen })
      ∧ d ∈ u.fabric.detours ∧ d.coord = co ∧ d.reserve = r ∧ (∀ e ∈ u.fabric.detours, e.coord / 16 = co / 16 → e = d)
      ∧ (∀ e ∈ s.fabric.detours, e.coord / 16 ≠ co / 16 → e ∈ u.fabric.detours)
      ∧ (co < 2 ^ 16 → r < 2 ^ 20 → detourWord u (co / 16) = 2 ^ 63 + 2 ^ 32 * r + 2 ^ 16 * (u.fabric.detourGen % 2 ^ 16) + co))
    ∧ (∀ co r, (∃ e ∈ s.fabric.detours, e.coord = co ∧ e.reserve = r) → exec (.detourChange (.add co r)) s = .next s)
    ∧ (∀ co, (∃ e ∈ s.fabric.detours, e.coord = co) → ∃ u, exec (.detourChange (.remove co)) s = .next u
      ∧ u = { s with fabric := u.fabric, out := s.out ++ [.flood 4 [0, co]] } ∧ u.fabric.detoursOld = s.fabric.detours
      ∧ u.fabric.detourGen = s.fabric.detourGen + 1 ∧ (∀ e, e ∈ u.fabric.detours ↔ e ∈ s.fabric.detours ∧ e.coord ≠ co)
      ∧ (s.fabric.adopted = some co → u.fabric.adopted = none))
    ∧ (∀ co, (∀ e ∈ s.fabric.detours, e.coord ≠ co) → exec (.detourChange (.remove co)) s = .next s)
    ∧ (∀ cause, realLoss cause = true → ∃ u, exec (.selfDeclareFailed cause) s = .next u ∧ u.fabric.selfFailed = true
      ∧ Out.flood 0 [s.host.address.getD 0] ∈ u.out ∧ (∀ p, (getPort u p).st = .down) ∧ u.ctxs = s.ctxs)
    ∧ (∀ x declared reporters, reserveOf s x = true →
      (declared = true ∨ ((∀ k < 4, (getPort s (4 * (x % 16) + k)).st = .down)
          ∧ ∃ l : List Nat, l.Nodup ∧ 8 ≤ l.length ∧ ∀ r ∈ l, r ∈ reporters ∧ r / 16 = x / 16 ∧ r ≠ x) →
        ∃ u, exec (.deviceLostDeclare x declared reporters) s = .next u ∧ x ∈ u.fabric.lost
          ∧ (∀ p ∈ portsWith s x, (getPort s p).cert ∈ u.fabric.refused) ∧ u.ctxs = s.ctxs
          ∧ (∀ dev, s.fabric.adopted = some dev → x ∈ s.fabric.buddies → (∃ q ∈ s.fabric.points, standbyFor s q.2.1 = true) →
              Out.flood 2 (dev :: s.fabric.points.map (·.2.1)) ∈ u.out ∧ u.fabric.points = []))
      ∧ (declared = false → (∃ k < 4, (getPort s (4 * (x % 16) + k)).st ≠ .down) → exec (.deviceLostDeclare x declared reporters) s = .next s))
    ∧ (∀ x (heard : RestorePoints), reserveOf s x = true → x ∈ s.fabric.lost →
      (s.fabric.adopted = none → (∀ p ∈ heard.points, standbyFor s p.1 = true) → (∀ b ∈ heard.buddies, b ∉ s.fabric.lost) →
        ∃ u d, exec (.reserveAdopt x heard) s = .next u ∧ u.fabric.adopted = some x ∧ d ∈ u.fabric.detours ∧ d.coord = x
          ∧ some d.reserve = s.host.address
          ∧ u.out = s.out ++ [.flood 1 ([x, d.reserve] ++ heard.points.flatMap fun p => [p.1, p.2])] ∧ isMe u x = true)
      ∧ (s.fabric.adopted ≠ none ∨ (∃ p ∈ heard.points, standbyFor s p.1 = false) ∨ (∃ b ∈ heard.buddies, b ∈ s.fabric.lost) →
        ∃ u, exec (.reserveAdopt x heard) s = .next u
          ∧ u = { s with fabric := u.fabric, out := s.out ++ [.flood 2 (x :: heard.points.map (·.1))] }
          ∧ u.fabric.adopted = s.fabric.adopted ∧ u.fabric.detours = s.fabric.detours))
    ∧ (∀ x (heard : RestorePoints), s.host.address = some x → (∃ d ∈ s.fabric.detours, d.coord = x) → s.fabric.adopted = none →
      (∀ p ∈ heard.points, standbyFor s p.1 = true) → (∀ b ∈ heard.buddies, b ∉ s.fabric.lost) →
        ∃ u, exec (.reserveAdopt x heard) s = .next u ∧ u.fabric.adopted = some x ∧ (∀ d ∈ u.fabric.detours, d.coord ≠ x)
          ∧ x ∉ u.fabric.lost
          ∧ u.out = s.out ++ [.flood 4 [0, x], .flood 1 ([x, x] ++ heard.points.flatMap fun p => [p.1, p.2])])
    ∧ (∀ dev points, (1, [dev, dev] ++ points.flatMap fun (p : Nat × Nat) => [p.1, p.2]) ∉ s.fabric.floods →
        ∃ u, exec (.takeoverReceive dev dev points) s = .next u ∧ dev ∉ u.fabric.lost ∧ ∀ e ∈ u.fabric.detours, e.coord ≠ dev)
    ∧ (∀ dev reserve points, dev ≠ reserve → (∃ e ∈ s.fabric.detours, e.coord = dev ∧ e.reserve = reserve) →
        exec (.takeoverReceive dev reserve points) s = .next s)
    ∧ (∀ dev reserve points, Sound s → dev ≠ reserve → (∀ e ∈ s.fabric.detours, e.coord = dev → e.reserve ≠ reserve) →
      ∃ u, exec (.takeoverReceive dev reserve points) s = .next u ∧ dev ∈ u.fabric.lost
        ∧ (∃ d ∈ u.fabric.detours, d.coord = dev ∧ d.reserve = reserve)
        ∧ (∀ c x, getCtx s c = some x → (∀ q ∈ affected s dev points, q.1 ≠ c) → same u c x)
        ∧ ∀ c x point, (c, point) ∈ affected s dev points → getCtx s c = some x →
            ∃ y, getCtx u c = some y ∧ y.att = none ∧ y.run = none
              ∧ Out.takeoverReport reserve x.ident.job y.gate.epoch y.gate.attempt ∈ u.out
              ∧ (volumeOf x point = none → x.inState [.ready, .running, .paused, .checkpointing] = true → y.ident.st = .faulted)
              ∧ (volumeOf x point ≠ none → y.ident.awaitReady = true ∧ y.restorePoint = some point)
              ∧ (volumeOf x point ≠ none → x.inState [.ready, .running, .paused] = true → y.ident.st = .paused)
              ∧ (x.ident.st = .orphaned → y.ident.st = .orphaned ∧ y.ident.prior = if volumeOf x point = none then .faulted else .paused))
    ∧ (∀ c x dev v, getCtx s c = some x → s.fabric.adopted = some dev → x.ident.standby = true → x.ident.st = .opened →
      (dev, x.ident.job, (readVolume v).v.step) ∈ s.fabric.points →
      (∀ s1, volumesCheck x [v] = none → rebuild s c x [(readVolume v).v] [] false = .ok s1 → (getCtx s1 c).isSome = true →
        ∃ u y, exec (.takeoverVolumeStreamed c v) s = .next u ∧ getCtx u c = some y ∧ y.streamed = true ∧ y.ident.st = .paused
          ∧ y.ident.standby = false ∧ y.ident.awaitReady = true)
      ∧ (volumesCheck x [v] ≠ none → ∃ u, exec (.takeoverVolumeStreamed c v) s = .next u
          ∧ u = { s with fabric := u.fabric, out := s.out ++ [.flood 2 (dev :: s.fabric.points.map (·.2.1))] }))
    ∧ (∀ c x dev reports, getCtx s c = some x → s.fabric.adopted = some dev → x.streamed = true → x.ident.awaitReady = true →
      x.att = none → x.run = none →
      (allReported s x dev reports = true →
        let e := 1 + reports.foldl (fun m q => max m q.2.1) 0
        let a := 1 + reports.foldl (fun m q => max m q.2.2) 0
        ∃ u y, exec (.takeoverReady c reports) s = .next u ∧ getCtx u c = some y ∧ Out.flood 3 [x.ident.job, e, a] ∈ u.out
          ∧ y.gate.epoch = e % 2 ^ 32 ∧ y.gate.attempt = a ∧ y.ident.awaitReady = false ∧ y.streamed = false)
      ∧ (allReported s x dev reports = false → exec (.takeoverReady c reports) s = .next s))
    ∧ (∀ c x e a, getCtx s c = some x → x.ident.awaitReady = true → x.streamed = false → x.att = none → x.run = none →
      ∃ u y, exec (.readyReceive c e a) s = .next u ∧ getCtx u c = some y ∧ y.gate.epoch = e % 2 ^ 32 ∧ y.gate.attempt = a
        ∧ y.ident.awaitReady = false ∧ y.restorePoint = none)
    ∧ (∀ dev jobs, (2, dev :: jobs) ∈ s.fabric.floods → exec (.takeoverRefusal dev jobs) s = .next s)
    ∧ (∀ dev jobs, Sound s → (2, dev :: jobs) ∉ s.fabric.floods →
      ∃ u, exec (.takeoverRefusal dev jobs) s = .next u
        ∧ (∀ c x, getCtx s c = some x → x.ident.job ∉ jobs ∨ hasMember x dev = false ∨ x.ident.standby = true → same u c x)
        ∧ ∀ c x, getCtx s c = some x → x.ident.job ∈ jobs → hasMember x dev = true → x.ident.standby = false →
            x.inState [.ready, .running, .paused] = true → (∀ a, x.att = some a → beforeSeal a.phase = true) →
            ∃ y, getCtx u c = some y ∧ y.att = none ∧ y.run = none ∧ y.ident.st = .paused ∧ y.ident.awaitReady = false
              ∧ y.gate.step = x.gate.step ∧ y.gate.exp = x.gate.exp ∧ y.gate.clean = x.gate.clean)

/-! ### Lives of contexts -/

/-- A reset of functions orphans their contexts, which lose their queues and commands and keep what they hold, and leaves the others; a
failover does it to what the active port presents and turns the port; an orphan past its deadline drains; a drained context scrubs and its
keys are gone; scrubbed, it is FREE, its frames zeroed and free; a containment fault leaves FAULTED, and an attempt whose vote has passed ends its
commit first; the transcript ring of a context that is not orphaned takes a staged record where its consumed bytes leave room (R18, R300, R313, R481, R482, R505, R524, R551, R554, R555, R558–R562). -/
def Obligations.ContextLives : Prop :=
  ∀ (s : State), s.running = true → Sound s →
    let orphaned (now : Nat) (u : State) (c : Nat) (x : Ctx) : Prop := ∃ y, getCtx u c = some y
      ∧ (x.inState [.opened, .ready, .running, .paused, .checkpointing, .faulted] = true →
          y.ident.st = .orphaned ∧ y.ident.prior = x.ident.st ∧ y.ident.deadline = now + s.host.grace * 1000000000
          ∧ y.ident.token = x.ident.token ∧ y.ident.jobKey = x.ident.jobKey ∧ y.ident.volKey = x.ident.volKey
          ∧ (∀ a, x.att = some a → beforeSeal a.phase = true → a.status = .success → ∃ b, y.att = some b ∧ b.status = .eaborted)
          ∧ (∀ a, x.att = some a → beforeSeal a.phase = false → y.att = some a))
      ∧ (x.inState [.draining, .scrubbing, .orphaned] = true → y.ident = x.ident)
      ∧ (x.ident.st ≠ .orphaned → x.ident.st ≠ .free → y.queues = [] ∧ y.cmds = [])
      ∧ y.maps = x.maps ∧ y.cat = x.cat ∧ y.pol = x.pol ∧ y.prog = x.prog
    (∀ k t, ∃ u, exec (.functionReset k t) s = .next u ∧ u.mem = s.mem
      ∧ (∀ fn ∈ resetFns s k, ∃ f, tget u.host.funs fn = some f ∧ f.en = false ∧ f.mute = true)
      ∧ (∀ c x, getCtx s c = some x → x.ident.fn ∈ resetFns s k → orphaned (max s.clock.now t) u c x)
      ∧ (∀ c x, getCtx s c = some x → x.ident.fn ∉ resetFns s k → getCtx u c = some x)
      ∧ (k = .linkDown 0 → u.host.up0 = false))
    ∧ (∀ fn, isPf s fn = false → resetFns s (.flr fn) = [fn])
    ∧ (∀ k t, s.host.twoHost = false → s.host.active ≤ 1 →
      let T := max s.clock.now t
      let out : Prop := if s.host.active = 0 then s.host.up0 = false ∧ s.host.out0 + 100000000 ≤ T else s.host.up1 = false ∧ s.host.out1 + 100000000 ≤ T
      let low : Prop := if s.host.active = 0 then s.pins.perst0 = false else s.pins.perst1 = false
      (k = .linkOut → ¬ out → exec (.portFailover k t) s = .next (s.at t))
      ∧ (k = .perst → ¬ low → exec (.portFailover k t) s = .next (s.at t))
      ∧ (∀ iid r, k = .management iid → s.mgmt.responses.find? (fun r => r.1 == iid && r.2.1 == .failover) = some r →
          exec (.portFailover k t) s = .next ((s.at t).emit (.pldm iid r.2.2)))
      ∧ ((k = .linkOut ∧ out) ∨ (k = .perst ∧ low)
          ∨ (∃ iid, k = .management iid ∧ s.mgmt.responses.find? (fun r => r.1 == iid && r.2.1 == .failover) = none) →
      ∃ u, exec (.portFailover k t) s = .next u ∧ u.host.active = 1 - s.host.active ∧ u.mem = s.mem
        ∧ ∀ c x, getCtx s c = some x → orphaned T u c x))
    ∧ (∀ c t x, getCtx s c = some x → x.ident.st = .orphaned →
      (x.ident.deadline ≤ max s.clock.now t → ∃ u y, exec (.orphanGraceExpiry c t) s = .next u ∧ getCtx u c = some y
        ∧ y.ident.st = .draining ∧ y.queues = [] ∧ y.long = none ∧ (x.att = none → y.run = none) ∧ u.mem = s.mem)
      ∧ (max s.clock.now t < x.ident.deadline → exec (.orphanGraceExpiry c t) s = .next (s.at t)))
    ∧ (∀ c x, getCtx s c = some x → x.ident.st = .draining →
      (x.att = none → x.run = none → x.long = none → x.reshard = none → (∀ k ∈ x.cmds, k.work = none) → ∃ u y, exec (.drainingDone c) s = .next u ∧ getCtx u c = some y
        ∧ y = { x with ident := { x.ident with st := .scrubbing, xtsKey := false, jobKey := none, volKey := none } }
        ∧ ((s.si.keySlots.map (·.1)).Nodup → tget u.si.keySlots (c + 1) = none
            ∧ ∀ k, k ≠ c + 1 → tget u.si.keySlots k = tget s.si.keySlots k)
        ∧ (∀ k, tget u.si.carrelCtx k ≠ some c) ∧ u.mem = s.mem ∧ ∀ d, d ≠ c → getCtx u d = getCtx s d)
      ∧ (x.att ≠ none ∨ x.run ≠ none ∨ x.long ≠ none ∨ x.reshard ≠ none ∨ (∃ k ∈ x.cmds, k.work ≠ none) → exec (.drainingDone c) s = .next s))
    ∧ (∀ c x, getCtx s c = some x → x.ident.st = .scrubbing → (∀ d n i, x.closing = some (.ctx d n, i) → d = c) →
      ∃ u, exec (.scrubDone c) s = .next u ∧ getCtx u c = none ∧ (∀ d, d ≠ c → getCtx u d = getCtx s d)
        ∧ (∀ f ∈ allFrames s c x, f ∉ u.si.scrubbing ∧ ∀ a, f ≤ a → a < f + frameBytes → mget u.mem.bytes a = 0)
        ∧ (∀ p ∈ u.fabric.partners, p.ctx ≠ c))
    ∧ (∀ c x k, getCtx s c = some x → x.inState [.ready, .running, .paused, .checkpointing] = true →
      (k ≠ .emptyGrant ∨ ∀ l ∈ x.ident.grant, carrelIn s l = false) →
      ∃ u y, exec (.containmentFault c k) s = .next u ∧ getCtx u c = some y ∧ y.ident.st = .faulted ∧ y.long = none
        ∧ ((∀ a, x.att = some a → beforeSeal a.phase = true) → y.att = none ∧ y.run = none)
        ∧ (∀ a, x.att = some a → beforeSeal a.phase = false → y.att = some a ∧ ∀ r ∈ y.run, r.ending = some .eaborted)
        ∧ (k = .keyLost → y.ident.xtsKey = false ∧ ((s.si.keySlots.map (·.1)).Nodup → tget u.si.keySlots (c + 1) = none)) ∧ y.gate.step = x.gate.step
        ∧ ∀ d, d ≠ c → (getCtx u d).map (·.ident) = (getCtx s d).map (·.ident))
    ∧ (∀ c x, getCtx s c = some x → x.ident.st = .orphaned → exec (.transcriptRingWrite c) s = .next s)
    ∧ (∀ c x t b o, getCtx s c = some x → x.ident.st ≠ .orphaned → x.tr.staging = [b] → tensor x x.pol.mode.ring = some t →
      ringPlace (ringSize t) (ringRead s x t 8 8) x.tr.ringOff b.length = some o → (byteUnits x t o b).isSome = true →
      (byteUnits x t 0 (leBytes 8 (o + b.length))).isSome = true → (runPlaces x t 0 8 ++ runPlaces x t o b.length).Nodup →
      ∃ u y, exec (.transcriptRingWrite c) s = .next u ∧ getCtx u c = some y ∧ y.tr.staging = [] ∧ y.tr.ringOff = o + b.length
        ∧ y.tr.chain = x.tr.chain ∧ readBytes u y t o b.length = some b ∧ readBytes u y t 0 8 = some (leBytes 8 (o + b.length))
        ∧ ∀ q, q ∉ runPlaces x t 0 8 ++ runPlaces x t o b.length → peek u y q = peek s x q)
    ∧ (∀ c x t b, getCtx s c = some x → x.tr.staging = [b] → tensor x x.pol.mode.ring = some t →
      ringPlace (ringSize t) (ringRead s x t 8 8) x.tr.ringOff b.length = none → exec (.transcriptRingWrite c) s = .next s)

/-! ### Power, clocks and pins -/

/-- Holds of a metered attempt count in its meter, each beat of the attempt in one column (refresh before droop before outside), a refresh hold
also as a refresh of each stack, and nowhere else; the clock loops move rungs
as R595 says and change nothing but timing; the power cap keeps its range; a low flow sends one event; a lost reference clock moves every
consumer to the oscillator, and a host port in common-clock mode goes down (R290, R472, R474, R476, R565, R595, R596, R630, R631, R636, R646). -/
def Obligations.PowerLoops : Prop :=
  ∀ (s : State),
    (∀ c x a, Running s c x a → a.meteredOn = true →
      let meter (b : Attempt) (u : State) : Prop :=
        u = { s with ctxs := tset s.ctxs c { x with att := some b }, regs := u.regs, si := { s.si with refreshes := u.si.refreshes } }
      (∀ b, b % 96 = 0 → (∀ l, a.held.refresh = some l → l < b) →
        let n := b + 9 - max b (a.start / 40)
        (0 < n → ∃ u, exec (.meteredRefreshHold c b) s = .next u
          ∧ meter { a with meter := { a.meter with refresh := a.meter.refresh + n }, held := { a.held with refresh := some b } } u
          ∧ ∀ k < 16, tgetD u.si.refreshes k 0 = tgetD s.si.refreshes k 0 + 1)
        ∧ (n = 0 → exec (.meteredRefreshHold c b) s = .next s))
      ∧ (∀ b, b % 96 ≠ 0 ∨ (∃ l, a.held.refresh = some l ∧ b ≤ l) → exec (.meteredRefreshHold c b) s = .next s)
      ∧ (∀ span : BeatSpan,
        let lo := outsideFrom a span
        let hi := span.first + span.count
        (hi ≤ lo → exec (.meteredOutsideHold c span) s = .next s)
        ∧ (lo < hi → ∃ u n, exec (.meteredOutsideHold c span) s = .next u ∧ u.si = s.si
          ∧ meter { a with meter := { a.meter with outside := a.meter.outside + n }, held := { a.held with outside := a.held.outside ++ [(lo, hi)] } } u
          ∧ (a.held.droop.Nodup → (∀ k ∈ a.held.droop, 9 ≤ k % 96) →
              n = ((List.range hi).filter fun k => lo ≤ k && 9 ≤ k % 96 && !a.held.droop.contains k).length))
        ∧ span.first ≤ lo ∧ a.start / 40 ≤ lo ∧ ∀ p ∈ a.held.outside, p.2 ≤ lo)
      ∧ (∀ i k, islandOk i = true →
        (9 ≤ k % 96 → a.start / 40 ≤ k → k ∉ a.held.droop → ∃ u, exec (.meteredDroopHold c ⟨i, k⟩) s = .next u ∧ u.si = s.si
          ∧ meter { a with
              meter := { a.meter with
                droop := a.meter.droop + 1
                outside := if ∃ p ∈ a.held.outside, p.1 ≤ k ∧ k < p.2 then a.meter.outside - 1 else a.meter.outside }
              held := { a.held with droop := a.held.droop ++ [k] } } u)
        ∧ (k % 96 < 9 ∨ k < a.start / 40 ∨ k ∈ a.held.droop → exec (.meteredDroopHold c ⟨i, k⟩) s = .next s)))
    ∧ (∀ i, s.released = true → islandOk i = true →
      let n (k : Control) (j : Island) : Nat := ((k.stretches.find? (·.1 == j)).map (·.2)).getD 0
      ∃ u, exec (.droopStretch i) s = .next u ∧ u = { s with control := u.control, regs := u.regs } ∧ n u.control i = n s.control i + 1
        ∧ (∀ j, j ≠ i → n u.control j = n s.control j) ∧ (u.control.lastStretch.find? (·.1 == i)).map (·.2) = some s.now
        ∧ u.control.drops = s.control.drops)
    ∧ (∀ t, loopsRun s = true → (meteredSet s).isSome = true →
      exec (.droopPersistenceTick t) s = .next { s.at t with control := { s.control with stretches := [] } })
    ∧ (∀ t i, loopsRun s = true → meteredSet s = none → (s.control.stretches.map (·.1)).Nodup →
      let T := max s.clock.now t
      ∃ u, exec (.droopPersistenceTick t) s = .next u ∧ u = { s.at t with control := u.control } ∧ u.control.stretches = []
        ∧ (∀ n m, (i, n) ∈ s.control.stretches → 64 < n → adjustable i = true → (s.control.lastStretch.find? (·.1 == i)) = some (i, m) →
            T < m + 10000000 → islandRung u i = islandRung s i - 1)
        ∧ ((∀ p ∈ s.control.stretches, p.1 = i → p.2 ≤ 64) →
            (∀ p, (s.control.lastStretch.find? (·.1 == i)) = some p → p.2 + 10000000 ≤ T) →
            dropOf u.control i = { dropOf s.control i with droop := 0, island := (dropOf u.control i).island }))
    ∧ (∀ t w, loopsRun s = true → (s.control.drops.map (·.island)).Nodup →
      ∃ u, exec (.powerCapTick t w) s = .next u ∧ u.control.cap = s.control.cap ∧ u.mem = s.mem
        ∧ (s.control.cap < w → u.control.under = 0 ∧ (∀ i ∈ capIslands s, islandRung u i = islandRung s i - 1)
            ∧ ∀ i, i ∉ capIslands s → islandRung u i = islandRung s i)
        ∧ (100 * w < 97 * s.control.cap → w ≤ s.control.cap → u.control.under = s.control.under + 1
            ∧ u.control.climb = min 16 (s.control.climb + 1)
            ∧ ∀ i, (dropOf u.control i).cap = (dropOf s.control i).cap - (if 10 ≤ s.control.under then 1 else 0))
        ∧ (97 * s.control.cap ≤ 100 * w → w ≤ s.control.cap → u.control.under = 0 ∧ u.control.drops = s.control.drops))
    ∧ (∀ t hot d, loopsRun s = true → d < 32 →
      ∃ u, exec (.thermalTick t hot) s = .next u ∧ u.mem = s.mem
        ∧ (85 < heatOf hot d → (∀ k, k ≠ d → heatOf hot k ≤ 85) → ∀ i ∈ dieIslands d, islandRung u i = islandRung s i - 1)
        ∧ ((∀ k, heatOf hot k ≤ 80) → cooled hot (s.at t) d = true →
            (d < 24 → ∀ k < 16, wingOfStack k = d → cooled hot (s.at t) (32 + k) = true) →
            ∀ i ∈ dieIslands d, (dropOf u.control i).heat = (dropOf s.control i).heat - 1))
    ∧ (∀ iid w, s.running = true →
      let stored := s.mgmt.responses.find? fun r => r.1 == iid && r.2.1 == .powerCap w
      (∀ r, stored = some r → exec (.powerCapSet iid w) s = .next { s with out := s.out ++ [.pldm iid r.2.2] })
      ∧ (stored = none → 2500 ≤ w → w ≤ 7200 → ∃ u, exec (.powerCapSet iid w) s = .next u ∧ u.control = { s.control with cap := w }
          ∧ u.out = s.out ++ [.pldm iid .ok])
      ∧ (stored = none → (w < 2500 ∨ 7200 < w) → ∃ u, exec (.powerCapSet iid w) s = .next u ∧ u.control = s.control
          ∧ u.out = s.out ++ [.pldm iid (.of .earg)]))
    ∧ (∀ t flow w, s.running = true → coreUp s .conservator = true →
      let T := max s.clock.now t
      let low : Prop := flow * 7200 < max (2000 * 7200) (6000 * w)
      (¬ low → exec (.coolantFlowCheck t flow w) s
          = .next { s.at t with control := { s.control with flowSince := none, flowEvent := false } })
      ∧ (low → s.control.flowSince = none → exec (.coolantFlowCheck t flow w) s
          = .next { s.at t with control := { s.control with flowSince := some T } })
      ∧ (∀ t0, low → s.control.flowSince = some t0 → t0 + 10000000000 ≤ T → s.control.flowEvent = false →
          ∃ u, exec (.coolantFlowCheck t flow w) s = .next u ∧ u.out = s.out ++ [.event s.mgmt.eventReceiver .flow]
            ∧ u.control.flowEvent = true))
    ∧ (∀ t, s.released = true → s.clock.refclkLost = false → s.fw.recovery = false →
      ∃ u, exec (.refclkLoss t) s = .next u ∧ u.clock.refclkLost = true ∧ Out.event s.mgmt.eventReceiver .refclk ∈ u.out
        ∧ (s.pins.clkMode = true → u.host = s.host ∧ u.ctxs = s.ctxs)
        ∧ (s.pins.clkMode = false → u.host.up0 = false ∧ u.host.up1 = false))

/-- Pins and the boot: every way the main input opens, and MOD_RESET_N, leave the device reset, with no context, memory or fabric state, and
the flash, the fuses and the host's memory as they were, but for a boot control copy whose write the loss of power cuts short; a trip is latched until PWR_EN has been low for a second; release tests the carrels,
repairs one failing carrel of a bay with its spare, and boots the slot in force, the other, or recovery (R15, R17, R576, R580, R581, R629,
R632, R633, R641–R644, R648, R650). -/
def Obligations.PinsAndBoot : Prop :=
  ∀ (s : State) (t : Nat),
    let reset (u : State) : Prop := u.ctxs = [] ∧ u.mem = Storage.reset ∧ u.fabric = Fabric.reset ∧ u.regs = Regs.reset ∧ u.host = HostIf.reset
      ∧ u.hostMem = s.hostMem ∧ u.journal = ⟨0, []⟩ ∧ u.mirror = ⟨0, []⟩ ∧ u.fw.written = s.fw.written ∧ u.fw.slotA = s.fw.slotA ∧ u.fw.slotB = s.fw.slotB ∧ u.fw.floor = s.fw.floor ∧ u.fw.config = s.fw.config
      ∧ u.fw.crashLog = s.fw.crashLog ∧ u.fw.revoked = s.fw.revoked ∧ u.si.ring = s.si.ring ∧ u.running = false
    let off (u : State) (p : Pins) : Prop := reset u ∧ u.pins = { p with inputSwitch := false, pwrGood := false }
      ∧ ((∀ one t0, s.fw.writing = some (one, t0) → t0 < s.clock.now) → u.fw.ctl0 = s.fw.ctl0 ∧ u.fw.ctl1 = s.fw.ctl1)
      ∧ (∀ t0, s.fw.writing = some (false, t0) → s.clock.now ≤ t0 →
          u.fw.ctl1 = s.fw.ctl1 ∧ ∃ k < 32, u.fw.ctl0 = s.fw.ctl0.take k ++ List.replicate (32 - k) 0xFF)
      ∧ (∀ t0, s.fw.writing = some (true, t0) → s.clock.now ≤ t0 →
          u.fw.ctl0 = s.fw.ctl0 ∧ ∃ k < 32, u.fw.ctl1 = s.fw.ctl1.take k ++ List.replicate (32 - k) 0xFF)
    (s.pins.pwrEn = false →
      (s.pins.presence = true → s.pins.aux = true → (s.pins.tripped = false ∨ s.pins.pwrEnLow + 1000000000 ≤ t) →
        exec (.pwrEnRise t) s = .next { s with pins := { s.pins with pwrEn := true, inputSwitch := true, pwrGood := true, tripped := false } })
      ∧ (s.pins.presence = false ∨ s.pins.aux = false ∨ (s.pins.tripped = true ∧ t < s.pins.pwrEnLow + 1000000000) →
        exec (.pwrEnRise t) s = .next { s with pins := { s.pins with pwrEn := true } }))
    ∧ (s.pins.pwrEn = true → s.pins.modReset = false → ∃ u, exec (.pwrEnFall t) s = .next u
      ∧ off u { s.pins with pwrEn := false, pwrEnLow := t })
    ∧ (s.pins.pwrGood = true → s.pins.modReset = true → ∃ u, exec (.surprisePowerDown t) s = .next u
      ∧ off u { s.pins with pwrEn := false, pwrEnLow := t })
    ∧ (s.pins.presence = true → ∃ u, exec (.presenceLoopOpen t) s = .next u
      ∧ off u { s.pins with presence := false })
    ∧ (s.pins.presence = false → ∃ u, exec (.presenceLoopClose t) s = .next u ∧ u = { s with pins := u.pins } ∧ u.pins.presence = true
      ∧ u.pins.tripped = false ∧ u.pins.tripCause = none ∧ u.pins.tripCount = 0 ∧ (u.pins.pwrGood = true ↔ s.pins.pwrEn = true ∨ s.pins.pwrGood = true))
    ∧ (∀ c v a w, s.pins.inputSwitch = true → tripOk c v a w = true → ∃ u, exec (.hardwareTrip c v a w t) s = .next u ∧ off u
        { s.pins with tripped := true, tripCause := some c, tripVolts := v, tripAmps := a, tripTemp := w, tripCount := s.pins.tripCount + 1 })
    ∧ (∀ c v a w, s.pins.inputSwitch = false ∨ tripOk c v a w = false → exec (.hardwareTrip c v a w t) s = .next s)
    ∧ (s.pins.modReset = true → ∃ u, exec .modResetAssert s = .next u ∧ reset u ∧ u.fw.ctl0 = s.fw.ctl0 ∧ u.fw.ctl1 = s.fw.ctl1 ∧ u.pins = { s.pins with modReset := false }
      ∧ (s.pins.pwrGood = true → u.clock.now = s.clock.now))
    ∧ (∀ f b one, s.pins.pwrGood = true → s.pins.modReset = false → bootCtl s.fw = some (b, one) → b.trial = 0 →
      let k0 := imageCheck s.fw (slotImage s.fw b.committed)
      let k1 := imageCheck s.fw (slotImage s.fw (1 - b.committed))
      ∃ u, exec (.modResetRelease f t) s = .next u ∧ u.pins.modReset = true ∧ u.pins.clkMode = f.clkMode ∧ u.pins.mgmtSel = f.mgmtSel
        ∧ (u.host.twoHost = true ↔ s.fw.config.portMode = 1) ∧ u.fw.unlocked = false
        ∧ (k0 = 0 → u.fw.stage = 6 ∧ u.fw.slot = b.committed ∧ u.fw.check = 0 ∧ u.fw.recovery = false)
        ∧ (k0 ≠ 0 → k1 = 0 → u.fw.stage = 6 ∧ u.fw.slot = 1 - b.committed ∧ u.fw.check = k0 ∧ u.fw.recovery = false)
        ∧ (k0 ≠ 0 → k1 ≠ 0 → u.fw.recovery = true ∧ u.fw.check = k1)
        ∧ ∀ bay < 96,
          let bad (k : Nat) : Prop := 13 * bay + k ∈ f.failing
          (∀ k < 12, ¬ bad k → 12 * bay + k ∉ u.si.withdrawn)
          ∧ (bad 12 → ∀ k < 12, bad k → 12 * bay + k ∈ u.si.withdrawn)
          ∧ (¬ bad 12 → ∀ k < 12, bad k → (∀ j < k, ¬ bad j) → (bay, k) ∈ u.si.spareUsed ∧ 12 * bay + k ∉ u.si.withdrawn)
          ∧ (¬ bad 12 → ∀ k < 12, bad k → (∃ j < k, bad j) → 12 * bay + k ∈ u.si.withdrawn))
    ∧ (s.released = false → exec (.perstAssert 0 t) s = .next { s with pins := { s.pins with perst0 := false } })
    ∧ (s.released = true → ∃ u v w z, exec (.perstAssert 0 t) s = .next u ∧ u.pins.perst0 = false ∧ u.host.up0 = false
      ∧ exec (.perstAssert 1 t) s = .next v ∧ v.pins.perst1 = false ∧ v.host.up1 = false
      ∧ exec (.perstRelease 0 t) s = .next w ∧ w.pins.perst0 = true
      ∧ (s.clock.refclkLost = false ∨ s.pins.clkMode = true → w.host.up0 = true) ∧ w.ctxs = s.ctxs
      ∧ exec (.perstRelease 1 t) s = .next z ∧ z.pins.perst1 = true ∧ (s.clock.refclkLost = true → s.pins.clkMode = false → z.host = s.host))
    ∧ (∀ p < 2, (linkMay s p = true → s.fw.stage ≠ 7 → s.fw.recovery = false →
        exec (.configRequestEarly p) s = .next { s with out := s.out ++ [.retryStatus p] })
      ∧ (linkMay s p = true → s.fw.stage = 7 ∨ s.fw.recovery = true →
        exec (.configRequestEarly p) s = .next { s with out := s.out ++ [.configAnswer p] })
      ∧ (linkMay s p = false → exec (.configRequestEarly p) s = .next s))

/-! ### Firmware, carrels and management -/

/-- Firmware cores, clerks, carrels and lanes: boot completion puts every core and the image into service and commits a trial slot; a crash is
recorded and stops its core alone, the conservator's leaving every island at its safe rung; a core restarts, a standby takes over and does the
duties from then on, a clerk is quarantined with its bay and comes back; a carrel that fails is repaired by its bay's spare, which takes its
store's granules, those it cannot read poisoned, or withdrawn at a step boundary; a lane takes a spare while its channel has one; the flash holds
the two copies of the boot control block, laid out as they are read, and the bytes of the image slots (R15–R18, R300, R327, R573–R576, R582, R583,
R588, R589, R591, R597–R599, R650–R652). -/
def Obligations.FirmwareAndCarrels : Prop :=
  ∀ (s : State) (t : Nat),
    let T := max s.clock.now t
    let rec_ (u : State) (core : CoreId) (cause : Nat) : Prop := ∃ r, u.fw.crashLog.getLast? = some r ∧ r.time = T ∧ r.core = coreClass core
      ∧ r.index = coreIndex core ∧ r.cause = cause
    (∀ i, slotImage s.fw s.fw.slot = some i → s.released = true → s.fw.stage = 6 → s.fw.recovery = false →
      ∃ u, exec (.bootComplete t) s = .next u ∧ u.running = true ∧ u.fw.running = some i ∧ (∀ k ∈ allCores, coreRunsUp u k = true)
        ∧ (∀ k ∈ coreIds, dutyOf u k = k ∧ coreAlive u k = true) ∧ u.fw.resident = residentOf i
        ∧ u.fw.locked = true ∧ (s.fw.locked = false → u.fw.grants = allCores.flatMap coreGrants)
        ∧ (s.fw.locked = true → u.fw.grants = s.fw.grants)
        ∧ tget u.si.keySlots 0 = some (leBytes 64 (Config.xtsKey s.free).toNat) ∧ u.free = s.free + 1
        ∧ u.control.climb = 0 ∧ u.ctxs = s.ctxs ∧ u.mem = s.mem
        ∧ (s.fw.pendingTrial = true → u.fw.pendingTrial = false ∧ u.fw.floor = max s.fw.floor i.floor
            ∧ ((∀ b, bootCtl s.fw = some b → b.1.seq + 1 < 2 ^ 32) → ∃ b, (bootCtl u.fw).map (·.1) = some b ∧ b.committed = s.fw.slot % 256
                ∧ b.trial = 0 ∧ b.tries = 0 ∧ b.version = i.version % 2 ^ 32))
        ∧ (s.fw.pendingTrial = false → u.fw.floor = s.fw.floor ∧ u.fw.ctl0 = s.fw.ctl0 ∧ u.fw.ctl1 = s.fw.ctl1))
    ∧ (∀ b : BootCtl,
      let l := b.toBytes
      l.length = 32 ∧ fld l 0 4 = 0x4C435A49 ∧ fld l 4 4 = b.seq % 2 ^ 32 ∧ fld l 8 1 = b.committed % 256 ∧ fld l 9 1 = b.trial % 256
        ∧ fld l 10 1 = b.tries % 256 ∧ fld l 12 4 = b.version % 2 ^ 32 ∧ fld l 28 4 = crc32 (l.take 28)
        ∧ BootCtl.ofBytes l = some ⟨b.seq % 2 ^ 32, b.committed % 256, b.trial % 256, b.tries % 256, b.version % 2 ^ 32⟩)
    ∧ (s.fw.ctl0.length = 32 → (List.range 32).map (flashByte s) = s.fw.ctl0
        ∧ (s.fw.ctl1.length = 32 → (List.range 32).map (fun k => flashByte s (0x1000 + k)) = s.fw.ctl1))
    ∧ (∀ k b j, k < 2 → tget s.fw.written k = some b → j < 0x1FC0000 → flashByte s (0x80000 + 0x1FC0000 * k + j) = b.getD j 0xFF)
    ∧ (∀ core pc ok addr trap, s.running = true → coreRunsUp s core = true →
      let down (u : State) (cause : Nat) : Prop := rec_ u core cause ∧ coreRunsUp u core = false
        ∧ (∀ j, j ≠ core → coreRunsUp u j = coreRunsUp s j) ∧ (∀ j, dutyOf u j = dutyOf s j) ∧ u.fw.live = none ∧ u.ctxs = s.ctxs
        ∧ u.mem = s.mem ∧ u.fabric = s.fabric ∧ u.fw.grants = s.fw.grants
        ∧ (core = dutyOf s .conservator → ∀ i, islandRung u i = 8)
      (∀ k, getCore s core = some k →
        (k.kick + 1000000 ≤ T → ∃ u, exec (.watchdogExpiry core t pc ok) s = .next u ∧ down u 1)
        ∧ (T < k.kick + 1000000 → exec (.watchdogExpiry core t pc ok) s = .next (s.at t)))
      ∧ ∃ u, exec (.coreTrap core t pc addr trap) s = .next u ∧ down u (if trap.refusal = true then 3 else 2))
    ∧ (∀ core k, s.running = true → getCore s core = some k → k.up = false →
      (k.takenOver = false → k.copyOk = true → residentOk s core = true → T ≤ k.downAt + 5000000 → (isStandby core = true ∨ thrice k = false) →
        (∀ b, core = .clerk b → b ∉ s.fw.quarantined) →
        ∃ u, exec (.coreRestartComplete core t) s = .next u ∧ coreRunsUp u core = true ∧ (∀ j, j ≠ core → coreRunsUp u j = coreRunsUp s j)
          ∧ u.mem = s.mem)
      ∧ (k.takenOver = true ∨ k.copyOk = false ∨ residentOk s core = false ∨ k.downAt + 5000000 < T ∨ (isStandby core = false ∧ thrice k = true) →
        exec (.coreRestartComplete core t) s = .next (s.at t))
      ∧ ((thrice k = true ∨ k.downAt + 10000000 ≤ T) → k.takenOver = false → standbyOf core ≠ core → coreRunsUp s (standbyOf core) = true →
        ∃ u, exec (.standbyTakeover core t) s = .next u ∧ rec_ u core 4 ∧ dutyOf u core = standbyOf core ∧ coreAlive u core = true
          ∧ ∀ j, coreRunsUp u j = coreRunsUp s j)
      ∧ (∀ bay, core = .clerk bay → (thrice k = true ∨ k.downAt + 10000000 ≤ T) → bay ∉ s.fw.quarantined →
        ∃ u, exec (.clerkQuarantine bay t) s = .next u ∧ rec_ u core 5 ∧ bay ∈ u.fw.quarantined ∧ u.mem = s.mem
          ∧ (∀ l, l / 12 = bay → carrelIn u l = false)
          ∧ ∀ c x a, Running s c x a → ∃ y b, getCtx u c = some y ∧ y.att = some b ∧ y.gate = x.gate
              ∧ (waitsOn x a bay = true → a.status = .success → b.status = .eaborted) ∧ (waitsOn x a bay = false → b = a))
      ∧ (∀ bay, core = .clerk bay → bay ∈ s.fw.quarantined → k.downAt + 1000000000 ≤ T →
        (∃ u, exec (.clerkRetry bay true t) s = .next u ∧ coreAlive u core = true ∧ bay ∉ u.fw.quarantined)
        ∧ ∃ u v, exec (.clerkRetry bay false t) s = .next u ∧ getCore u core = some v ∧ v.downAt = T ∧ v.up = false
            ∧ bay ∈ u.fw.quarantined))
    ∧ (∀ phys, s.running = true → phys < 1248 → pageAsleep s (pgCarrel phys) = false → coreUp s (.clerk (phys / 13)) = true →
      exec (.periodicCarrelSelfTest phys true t) s = .next (s.at t)
      ∧ ∃ u, exec (.periodicCarrelSelfTest phys false t) s = .next u ∧ phys ∈ u.si.failing
        ∧ u = { s.at t with si := { s.si with failing := u.si.failing } })
    ∧ (∀ phys l, s.running = true → phys < 1248 → servedBy s phys = some l → phys ∈ s.si.failing →
      (atBoundary s l = false → ∀ ok, exec (.carrelRepair phys ok) s = .next s)
      ∧ (atBoundary s l = true → spareFree s (l / 12) = true →
          (∃ u, exec (.carrelRepair phys true) s = .next u ∧ (l / 12, l % 12) ∈ u.si.spareUsed ∧ u.si.withdrawn = s.si.withdrawn
            ∧ servedBy u (13 * (l / 12) + 12) = some l ∧ u.mem = s.mem
            ∧ (Sound s → ∀ d x, getCtx s d = some x → ∃ z, getCtx u d = some z ∧ z = { x with cat := { x.cat with scratch := z.cat.scratch } }
                ∧ ∀ i g, tget x.cat.scratch i = some g → ∃ h, tget z.cat.scratch i = some h ∧ h = { g with poison := h.poison }
                  ∧ (∀ a ∈ g.poison, a ∈ h.poison) ∧ ∀ a ∈ h.poison, a ∈ g.poison ∨ g.owners[a / 64]? = some l))
          ∧ ∃ u, exec (.carrelRepair phys false) s = .next u ∧ l ∈ u.si.withdrawn ∧ 13 * (l / 12) + 12 ∈ u.si.failing ∧ u.ctxs = s.ctxs)
      ∧ (atBoundary s l = true → spareFree s (l / 12) = false → ∀ ok, ∃ u, exec (.carrelRepair phys ok) s = .next u
          ∧ l ∈ u.si.withdrawn ∧ u.ctxs = s.ctxs))
    ∧ (∀ stack ch lane, s.running = true → (64 * stack + ch, lane) ∈ s.si.lanesPending →
      ∃ u, exec (.hbmLaneSpare stack ch lane) s = .next u ∧ (64 * stack + ch, lane) ∉ u.si.lanesPending ∧ u = { s with si := u.si }
        ∧ ((s.si.lanesSpared.filter fun e => e.1 == stack && e.2.1 == ch).length < 2 →
            u.si.lanesSpared = s.si.lanesSpared ++ [(stack, ch, lane)])
        ∧ (2 ≤ (s.si.lanesSpared.filter fun e => e.1 == stack && e.2.1 == ch).length → u.si.lanesSpared = s.si.lanesSpared))

/-- Management: sessions go on in order, and a request out of order is refused; only a key authority installs keys, changes the configuration,
revokes, unlocks and fails a carrel; a request that has been acted upon is answered from its stored response; images are written, verified
and tried; a live activation ends with every core's record or not at all; packets assemble within 100 ms; an identity read and the test port
answer, each request with one status (R5, R6, R439, R542, R563–R565, R577, R581, R583–R587, R590–R594, R597, R628, R639, R647, R651). -/
def Obligations.Management : Prop :=
  ∀ (s : State),
    (∀ tr m, reaches s tr = true →
      (coreUp s .keeper = false → exec (.spdmSession tr m) s = .next { s with out := s.out ++ [.spdm .late []] })
      ∧ (coreUp s .keeper = true →
        let q := (getSession s tr).getD (tr, 0, 0)
        (∀ c n, spdmNext q.2.1 q.2.2 m = some (c, n) → ∃ u, exec (.spdmSession tr m) s = .next u ∧ getSession u tr = some (tr, c, n)
          ∧ u.out = s.out ++ [.spdm (if m = .finish false then .of .eaccess else .ok) []] ∧ ∀ r, r ≠ tr → getSession u r = getSession s r)
        ∧ (spdmNext q.2.1 q.2.2 m = none → exec (.spdmSession tr m) s
          = .next { s with out := s.out ++ [.spdm (.of (spdmRefusal q.2.2 m)) []] })))
    ∧ (∀ tr k, reaches s tr = true → coreUp s .keeper = true →
      (∀ b, measured s k = some b → exec (.getMeasurements tr k) s = .next { s with out := s.out ++ [.spdm .ok b] })
      ∧ (measured s k = none → exec (.getMeasurements tr k) s = .next { s with out := s.out ++ [.spdm (.of .earg) []] }))
    ∧ (∀ tr iid, overVendor tr = true → reaches s tr = true → coreUp s .keeper = true →
      let fresh (r : MgmtReq) : Prop := ∀ e ∈ s.mgmt.responses, e.1 = iid → e.2.1 ≠ r
      let said (a : Out) (u : State) : Prop := u.out = s.out ++ [a]
      let turned (a : Out) (u : State) : Prop := u = { s with mgmt := u.mgmt, out := s.out ++ [a] }
      (authority s tr = false →
        (∀ c k key, fresh (.keyInstall tr c k key) → ∃ u, exec (.keyInstall tr c k key iid) s = .next u ∧ turned (.spdm (.of .eaccess) []) u)
        ∧ (∀ r, fresh (.config tr r) → ∃ u, exec (.configRecordUpdate tr r iid) s = .next u ∧ turned (.spdm (.of .eaccess) []) u)
        ∧ (∀ k, fresh (.revoke tr k) → ∃ u, exec (.keyRevocation tr k iid) s = .next u ∧ turned (.spdm (.of .eaccess) []) u)
        ∧ (fresh (.unlock tr) → ∃ u, exec (.debugUnlock tr iid) s = .next u ∧ turned (.spdm (.of .eaccess) []) u)
        ∧ (∀ p, fresh (.carrelFail tr p) → ∃ u, exec (.carrelFailRequest tr iid p) s = .next u ∧ turned (.pldm iid (.of .eaccess)) u))
      ∧ (authority s tr = true →
        (∀ c x key, fresh (.keyInstall tr c .job key) → getCtx s c = some x → keyBarred x = false → key.length = 32 →
          ∃ u, exec (.keyInstall tr c .job key iid) s = .next u ∧ said (.spdm .ok []) u
            ∧ getCtx u c = some ({ x with ident := { x.ident with jobKey := some key } } : Ctx).readied)
        ∧ (∀ c x key, fresh (.keyInstall tr c .volume key) → getCtx s c = some x → keyBarred x = false → key.length = 48 →
          ∃ u, exec (.keyInstall tr c .volume key iid) s = .next u ∧ said (.spdm .ok []) u
            ∧ getCtx u c = some ({ x with ident := { x.ident with volKey := some key } } : Ctx).readied)
        ∧ (∀ c x key, fresh (.keyInstall tr c .job key) → getCtx s c = some x → keyBarred x = true →
          ∃ u, exec (.keyInstall tr c .job key iid) s = .next u ∧ turned (.spdm (.of .estate) []) u)
        ∧ (∀ c key, fresh (.keyInstall tr c .job key) → getCtx s c = none → ∃ u, exec (.keyInstall tr c .job key iid) s = .next u ∧ turned (.spdm (.of .estate) []) u)
        ∧ (∀ c k key, fresh (.keyInstall tr c (.other k) key) → ∃ u, exec (.keyInstall tr c (.other k) key iid) s = .next u ∧ turned (.spdm (.of .earg) []) u)
        ∧ (∀ c key, fresh (.keyInstall tr c .fabric key) → key.length = 32 →
          ∃ u, exec (.keyInstall tr c .fabric key iid) s = .next u ∧ said (.spdm .ok []) u ∧ u.fabric = { s.fabric with fabricKey := some key })
        ∧ (∀ r, fresh (.config tr r) → r.reserved = false → r.authorities.length ≤ 4 → r.portMode ≤ 1 → r.minSvn ≤ 255 → s.fw.attLog.length < 1024 →
          ∃ u, exec (.configRecordUpdate tr r iid) s = .next u ∧ said (.spdm .ok []) u ∧ u.fw.config = r ∧ u.fw.attLog.length = s.fw.attLog.length + 1)
        ∧ (∀ r, fresh (.config tr r) → r.reserved = false → r.authorities.length ≤ 4 → r.portMode ≤ 1 → r.minSvn ≤ 255 → 1024 ≤ s.fw.attLog.length →
          ∃ u, exec (.configRecordUpdate tr r iid) s = .next u ∧ turned (.spdm (.of .elimit) []) u)
        ∧ (∀ r, fresh (.config tr r) → r.reserved = true ∨ 4 < r.authorities.length ∨ 1 < r.portMode ∨ 255 < r.minSvn →
          ∃ u, exec (.configRecordUpdate tr r iid) s = .next u ∧ turned (.spdm (.of .earg) []) u)
        ∧ (∀ k, fresh (.revoke tr k) → k < 4 → committedKey s.fw ≠ some k →
          ∃ u, exec (.keyRevocation tr k iid) s = .next u ∧ said (.spdm .ok []) u ∧ k ∈ u.fw.revoked ∧ ∀ j ∈ s.fw.revoked, j ∈ u.fw.revoked)
        ∧ (∀ k, fresh (.revoke tr k) → k < 4 → committedKey s.fw = some k → ∃ u, exec (.keyRevocation tr k iid) s = .next u ∧ turned (.spdm (.of .estate) []) u)
        ∧ (fresh (.unlock tr) → s.fw.attLog.length < 1024 → ∃ u, exec (.debugUnlock tr iid) s = .next u ∧ said (.spdm .ok []) u ∧ u.fw.unlocked = true
            ∧ u.fw.attLog.length = s.fw.attLog.length + 1)
        ∧ (∀ p, fresh (.carrelFail tr p) → p < 1248 → ∃ u, exec (.carrelFailRequest tr iid p) s = .next u ∧ said (.pldm iid .ok) u ∧ p ∈ u.si.failing))
      ∧ (secured s tr = true → fresh (.service tr) → s.fabric.selfFailed = false →
          ∃ u, exec (.serviceRelease tr iid) s = .next u ∧ u.fabric.selfFailed = true ∧ u.pins.serviceLed = true
            ∧ Out.pldm iid .ok ∈ u.out ∧ ∀ p, (getPort u p).st = .down)
      ∧ (∀ r e, (s.mgmt.responses.find? fun e => e.1 == iid && e.2.1 == .revoke tr r) = some e →
          exec (.keyRevocation tr r iid) s = .next { s with out := s.out ++ [.spdm e.2.2 []] }))
    ∧ (∀ iid m, updatable s = true → (∀ e ∈ s.mgmt.responses, e.1 = iid → e.2.1 ≠ .firmware m) →
      ∃ u, exec (.pldmFirmwareUpdate iid m) s = .next u
        ∧ (∀ k b ko so, m = .write k b ko so → (k < 2 ∧ (s.fw.recovery = true ∨ k ≠ s.fw.slot) →
              slotImage u.fw k = some (Image.ofBytes b ko so) ∧ tget u.fw.written k = some (b.take slotBytes) ∧ u.fw.stagedSlot = k ∧ u.fw.staged = false ∧ u.out = s.out ++ [.pldm iid .ok])
            ∧ (2 ≤ k → u.fw = s.fw ∧ u.out = s.out ++ [.pldm iid (.of .earg)])
            ∧ (k < 2 → s.fw.recovery = false → k = s.fw.slot → u.fw = s.fw ∧ u.out = s.out ++ [.pldm iid (.of .estate)]))
        ∧ (m = .verify → (imageCheck s.fw (slotImage s.fw s.fw.stagedSlot) = 0 → u.fw.staged = true)
            ∧ (imageCheck s.fw (slotImage s.fw s.fw.stagedSlot) ≠ 0 → u.fw = s.fw ∧ u.out = s.out ++ [.pldm iid (.of .earg)]))
        ∧ (∀ k, m = .other k → u.fw = s.fw ∧ u.out = s.out ++ [.pldm iid (.of .earg)])
        ∧ (m = .activateReset → s.fw.recovery = false → (s.fw.staged = true → (∀ b, bootCtl s.fw = some b → b.1.seq + 1 < 2 ^ 32) →
              ∃ b, (bootCtl u.fw).map (·.1) = some b ∧ b.trial = (s.fw.stagedSlot + 1) % 256 ∧ b.tries = 3)
            ∧ (s.fw.staged = false → u.fw = s.fw ∧ u.out = s.out ++ [.pldm iid (.of .estate)])))
    ∧ (∀ iid t, s.running = true → coreUp s .keeper = true →
      (∀ k, exec (.liveActivation iid t (.other k)) s = .next { s.at t with out := s.out ++ [.pldm iid (.of .earg)] }) ∧
      (∀ i, (∀ e ∈ s.mgmt.responses, e.1 = iid → e.2.1 ≠ .live) → s.fw.live = none → s.fw.staged = true →
        slotImage s.fw s.fw.stagedSlot = some i → imageCheck s.fw (some i) = 0 → servesAll s i = true → logRoom s i = true →
        ∃ u, exec (.liveActivation iid t .start) s = .next u ∧ u.fw.live = some ⟨max s.clock.now t, []⟩ ∧ u.out = s.out ++ [.pldm iid .ok]
          ∧ u.fw.running = s.fw.running)
      ∧ (∀ l i core b, s.fw.live = some l → slotImage s.fw s.fw.stagedSlot = some i →
        let r := Handover.ofBytes b
        recordDue (s.at t) l core r = true →
        (acceptsRecord i r = false → exec (.liveActivation iid t (.record core b)) s = .next { s.at t with fw := { s.fw with live := none } })
        ∧ (acceptsRecord i r = true → l.accepted.length + 1 < coreIds.length →
            exec (.liveActivation iid t (.record core b)) s
              = .next { s.at t with fw := { s.fw with live := some { l with accepted := core :: l.accepted } } })
        ∧ (acceptsRecord i r = true → l.accepted.length + 1 = coreIds.length →
            ∃ u, exec (.liveActivation iid t (.record core b)) s = .next u ∧ u.fw.live = none ∧ u.fw.running = some i
              ∧ u.fw.slot = s.fw.stagedSlot ∧ u.fw.resident = residentOf i ∧ u.out = s.out ++ [.pldm iid .ok] ∧ u.fw.floor = max s.fw.floor i.floor ∧ u.ctxs = s.ctxs)))
    ∧ (∀ t l, s.running = true → s.fw.live = some l →
      (l.start + 10000000 ≤ max s.clock.now t → exec (.handoverTimeout t) s = .next { s.at t with fw := { s.fw with live := none } })
      ∧ (max s.clock.now t < l.start + 10000000 → exec (.handoverTimeout t) s = .next (s.at t)))
    ∧ (∀ p t, s.released = true →
      let drop : State := { s.at t with mgmt := { s.mgmt with assembling := none } }
      (p.pecOk = false → exec (.mctpPacket p t) s = .next drop)
      ∧ (p.pecOk = true → p.som = true → p.eom = true → messageOk p p.body = true →
          exec (.mctpPacket p t) s = .next { s.at t with mgmt := { s.mgmt with assembling := none, message := some p.body } })
      ∧ (p.pecOk = true → p.som = true → p.eom = true → messageOk p p.body = false → exec (.mctpPacket p t) s = .next drop)
      ∧ (p.pecOk = true → p.som = true → p.eom = false → exec (.mctpPacket p t) s
          = .next { s.at t with mgmt := { s.mgmt with assembling := some (p.tag, (p.seq + 1) % 4, max s.clock.now t, p.body) } })
      ∧ (∀ tag seq t0 b, p.pecOk = true → p.som = false → s.mgmt.assembling = some (tag, seq, t0, b) →
          (tag ≠ p.tag ∨ seq ≠ p.seq ∨ t0 + 100000000 < max s.clock.now t → exec (.mctpPacket p t) s = .next drop)
          ∧ (tag = p.tag → seq = p.seq → max s.clock.now t ≤ t0 + 100000000 → p.eom = false → exec (.mctpPacket p t) s
              = .next { s.at t with mgmt := { s.mgmt with assembling := some (p.tag, (p.seq + 1) % 4, max s.clock.now t, b ++ p.body) } })))
    ∧ (∀ t q, s.mgmt.assembling = some q →
      (q.2.2.1 + 100000000 < max s.clock.now t → exec (.mctpPacketGap t) s = .next { s.at t with mgmt := { s.mgmt with assembling := none } })
      ∧ (max s.clock.now t ≤ q.2.2.1 + 100000000 → exec (.mctpPacketGap t) s = .next (s.at t)))
    ∧ exec .mgmtBusReset s = .next { s with mgmt := { s.mgmt with assembling := none } }
    ∧ (∀ iid, s.running = true →
      (∀ k v, coreUp s .conservator = true →
        exec (.pldmPlatformRequest iid (.getSensor k v)) s = .next { s with out := s.out ++ [.sensor iid (3 + k) v .ok] })
      ∧ (∀ k v, coreUp s .conservator = false →
        exec (.pldmPlatformRequest iid (.getSensor k v)) s = .next { s with out := s.out ++ [.pldm iid .late] })
      ∧ (∃ v, exec (.pldmPlatformRequest iid .getTid) s = .next { s with out := s.out ++ [.sensor iid 0 v .ok] })
      ∧ exec (.pldmPlatformRequest iid .getTypes) s = .next { s with out := s.out ++ [.sensor iid 1 37 .ok] }
      ∧ (∃ v, exec (.pldmPlatformRequest iid .getCommands) s = .next { s with out := s.out ++ [.sensor iid 2 v .ok] })
      ∧ (∀ k b, exec (.pldmPlatformRequest iid (.other k b)) s = .next { s with out := s.out ++ [.pldm iid (.of .earg)] })
      ∧ exec (.pldmPlatformRequest iid .getEvents) s = .next { s with out := s.out ++ s.mgmt.events.map (.event none) ++ [.pldm iid .ok] }
      ∧ (∀ e, (∀ r ∈ s.mgmt.responses, r.1 = iid → r.2.1 ≠ .receiver e) →
        ∃ u, exec (.pldmPlatformRequest iid (.setEventReceiver e)) s = .next u ∧ u.mgmt.eventReceiver = some e))
    ∧ (∀ a, (s.pins.aux = true → a = 0x50 → exec (.identityRead a) s = .next { s with out := s.out ++
          [.identity .ok identity s.pins.tripCause s.pins.tripVolts s.pins.tripAmps s.pins.tripTemp s.pins.tripCount] })
        ∧ (a ≠ 0x50 → exec (.identityRead a) s = .next s))
    ∧ (exec (.jtagInstruction .idcode) s = .next { s with
        pins := { s.pins with jtag := .idcode }
        out := s.out ++ [.jtagOut 0x1B4E1A3F] })
    ∧ (∀ o, o ≠ .idcode → isOther o = false → exec (.jtagInstruction o) s = .next { s with pins := { s.pins with jtag := o } })
    ∧ (∀ o, s.pins.jtag = o → (o = .samplePreload ∨ o = .idcode ∨ o = .bypass → jtagActs s = o)
        ∧ (o = .extest ∨ o = .clamp ∨ o = .highz → jtagActs s = if s.pins.modReset then .bypass else o)
        ∧ (isOther o = true → jtagActs s = .bypass))
    ∧ (∀ k, (s.fw.unlocked = false → exec (.jtagInstruction (.other k)) s = .next { s with pins := { s.pins with jtag := .other k } })
        ∧ (s.fw.unlocked = true → exec (.jtagInstruction (.other k)) s = .refused .debugInstruction))

/-! ### Reset, instruction words, and what every step keeps -/

/-- The machine after reset: no context, no command waiting, no memory listed, time 0 and no fabric time adopted, every port down, no detour,
every register page at its reset values, the power cap at 7,200 W, nothing unlocked; and the invariant of `InvKept` holds. Where the manual
gives no value these are the log's (logs 1 and 2). -/
def Obligations.ResetState : Prop :=
  Sound State.reset ∧ State.reset.pending = [] ∧ State.reset.ctxs = [] ∧ State.reset.mem.bytes = [] ∧ State.reset.clock.now = 0
  ∧ State.reset.clock.adopted = false ∧ State.reset.host.address = none ∧ State.reset.fw.unlocked = false ∧ State.reset.control.cap = 7200
  ∧ State.reset.running = false ∧ (∀ p, (getPort State.reset p).st = .down)
  ∧ (∀ p, (getPage State.reset p).intStatus = 0 ∧ (getPage State.reset p).intEn = false ∧ (getPage State.reset p).cnt = List.replicate 8 0
      ∧ (getPage State.reset p).errValid = false ∧ (getPage State.reset p).pEcc = 0)
  ∧ step State.reset = .next State.reset

/-- An instruction word that is written from a well-formed instruction reads back as it, and a word that reads as an instruction is that
instruction's: every field of every class, with every operand at every value the encoding admits (R201–R203, R207–R231). -/
def Obligations.InstructionWords : Prop :=
  (∀ (h : Hdr) (i : Ins), h.wf = true → i.wf = true → encodeIns h i < 2 ^ 128 ∧ decodeIns (encodeIns h i) = some (h, i))
  ∧ ∀ (w : Nat) (h : Hdr) (i : Ins), w < 2 ^ 128 → decodeIns w = some (h, i) → h.wf = true ∧ i.wf = true ∧ encodeIns h i = w

/-- Every command keeps the invariant: whatever the state and the command, the memories stay canonical and the tables ordered, and a command
adds none to the queue and takes none from it. -/
def Obligations.InvKept : Prop :=
  (∀ (s t : State), Sound s → step s = .next t → Sound t)
  ∧ ∀ (i : Instr) (s t : State), exec i s = .next t → t.pending = s.pending
end

