-- ==== Sys2Proof/Laws/Crypto.lean ====
section
/-! SUPPORT. Lengths of the ciphers' results: a block has 16 bytes, and so has the seal of a frame (R440). -/

namespace Sys2Proof.Machine

/-- A block's worth of round-key words: each of four bytes. -/
def Words (l : List (List Nat)) : Prop := ∀ w ∈ l, w.length = 4

theorem flatten_length : ∀ l : List (List Nat), Words l → l.flatten.length = 4 * l.length
  | [], _ => rfl
  | w :: l, h => by
    have h1 := flatten_length l fun v hv => h v (List.mem_cons_of_mem w hv)
    have h2 := h w (List.mem_cons_self)
    simp only [List.flatten_cons, List.length_append, List.length_cons, h1, h2]; omega

theorem aesExpand_words : ∀ (n i rc : Nat) (ws : List (List Nat)), Words ws → 8 ≤ ws.length →
    Words (aesExpand n i rc ws) ∧ (aesExpand n i rc ws).length = n + ws.length
  | 0, _, _, ws, h, _ => ⟨fun w hw => h w (List.mem_reverse.1 hw), by simp [aesExpand]⟩
  | n + 1, i, rc, ws, h, hl => by
    obtain ⟨p, r, rfl⟩ : ∃ p r, ws = p :: r := by cases ws with | nil => simp at hl | cons p r => exact ⟨p, r, rfl⟩
    have hp : p.length = 4 := h p List.mem_cons_self
    have ho : ((p :: r).getD 7 []).length = 4 := by
      rw [List.getD_eq_getElem?_getD, List.getElem?_eq_getElem (by omega)]; exact h _ (List.getElem_mem _)
    obtain ⟨a, b, c, d, rfl⟩ : ∃ a b c d, p = [a, b, c, d] := by
      match p, hp with | [a, b, c, d], _ => exact ⟨a, b, c, d, rfl⟩
    rw [aesExpand]
    have step (t : List Nat) (k : Nat) (ht : t.length = 4) :
        Words (aesExpand n (i + 1) k (List.zipWith (· ^^^ ·) (([a, b, c, d] :: r).getD 7 []) t :: [a, b, c, d] :: r))
        ∧ (aesExpand n (i + 1) k (List.zipWith (· ^^^ ·) (([a, b, c, d] :: r).getD 7 []) t :: [a, b, c, d] :: r)).length
          = n + 1 + ([a, b, c, d] :: r).length := by
      have q := aesExpand_words n (i + 1) k (List.zipWith (· ^^^ ·) (([a, b, c, d] :: r).getD 7 []) t :: [a, b, c, d] :: r)
        (fun w hw => by
          rcases List.mem_cons.1 hw with rfl | hw
          · rw [List.length_zipWith, ho, ht]; rfl
          · exact h w hw) (by simp at hl ⊢; omega)
      exact ⟨q.1, by rw [q.2]; simp; omega⟩
    simp only [List.headD_cons]
    split
    · exact step _ _ rfl
    · split
      · exact step _ _ rfl
      · exact step _ _ rfl

theorem mixColumn_length (l : List Nat) (h : l.length = 4) : (mixColumn l).length = 4 := by
  match l, h with | [a, b, c, d], _ => rfl

theorem aesRounds_length : ∀ (n : Nat) (ks : List (List Nat)) (s : List Nat), Words ks → 4 * n ≤ ks.length → s.length = 16 →
    (aesRounds n ks s).length = 16
  | 0, _, _, _, _, h => h
  | n + 1, ks, s, hk, hl, _ => by
    rw [aesRounds]
    have ht : (shiftRows (s.map subByte)).length = 16 := by simp [shiftRows]
    refine aesRounds_length n _ _ (fun w hw => hk w (List.mem_of_mem_drop hw)) (by simp; omega) ?_
    have hf : ((ks.take 4).flatten).length = 16 := by
      rw [flatten_length _ fun w hw => hk w (List.mem_of_mem_take hw), List.length_take]; omega
    have hm : ∀ i, i < 4 → (mixColumn (((shiftRows (s.map subByte)).drop (4 * i)).take 4)).length = 4 := fun i hi =>
      mixColumn_length _ (by rw [List.length_take, List.length_drop, ht]; omega)
    rw [List.length_zipWith, hf]
    split
    · rw [ht]; rfl
    · have h0 := hm 0 (by decide)
      have h1 := hm 1 (by decide)
      have h2 := hm 2 (by decide)
      have h3 := hm 3 (by decide)
      rw [List.length_flatMap]
      show min (List.sum [_, _, _, _]) 16 = 16
      simp only [h0, h1, h2, h3]; rfl

/-- A block under a 32-byte key has 16 bytes. -/
theorem aesBlock_length (key blk : Bytes) (hk : key.length = 32) (hb : blk.length = 16) : (aesBlock key blk).length = 16 := by
  have hw : Words ((List.range 8).map fun i => ((key.map BitVec.toNat).drop (4 * i)).take 4).reverse := fun w hw => by
    simp only [List.mem_reverse, List.mem_map, List.mem_range] at hw
    obtain ⟨i, hi, rfl⟩ := hw
    rw [List.length_take, List.length_drop, List.length_map, hk]; omega
  have he := aesExpand_words 52 8 1 _ hw (by simp)
  change Words (aesKeys key) ∧ (aesKeys key).length = _ at he
  have hl : (aesKeys key).length = 60 := by rw [he.2]; simp
  unfold aesBlock
  rw [List.length_map]
  refine aesRounds_length 14 _ _ (fun w hw => he.1 w (List.mem_of_mem_drop hw)) (by rw [List.length_drop, hl] <;> decide) ?_
  rw [List.length_zipWith, List.length_map, hb, flatten_length _ fun w hw => he.1 w (List.mem_of_mem_take hw), List.length_take, hl] <;> rfl

theorem leBytes_length : ∀ n v : Nat, (leBytes n v).length = n
  | 0, _ => rfl
  | n + 1, v => by rw [leBytes, List.length_cons, leBytes_length n]

/-- A frame's seal has a byte for each of its 16 flits (R440). -/
theorem frameSeal_length (key : Bytes) (frame : Nat) (l : List Bytes) (h : key.length = 32) : (frameSeal key frame l).length = 16 := by
  unfold frameSeal gcmTag
  rw [List.length_zipWith, beBytes, List.length_reverse, leBytes_length,
    aesBlock_length key _ h (by simp [frameNonce, leBytes_length])]; rfl

end Sys2Proof.Machine
end

