-- ==== Sys2Proof/Laws/Tables.lean ====
section
/-! SUPPORT. What tables and byte memories do: read after write, the canonical form, and contexts. -/

namespace Sys2Proof.Machine

/-! ### Tables -/

theorem tget_tset_same {α : Type} (t : Tab α) (k : Nat) (v : α) : tget (tset t k v) k = some v := by
  induction t with
  | nil => simp [tset, tget]
  | cons q r ih =>
    obtain ⟨k', v'⟩ := q
    simp only [tset]
    split
    · simp [tget]
    · split
      · simp [tget]
      · rename_i h1 h2
        simp only [tget]
        rw [if_neg (fun h => h2 h.symm)]
        exact ih

theorem tget_tset_other {α : Type} (t : Tab α) (k q : Nat) (v : α) (h : q ≠ k) : tget (tset t k v) q = tget t q := by
  induction t with
  | nil => simp [tset, tget, h.symm]
  | cons p r ih =>
    obtain ⟨k', v'⟩ := p
    simp only [tset]
    split
    · simp [tget, h.symm]
    · split
      · rename_i h1 h2
        subst h2
        simp [tget, h.symm]
      · simp only [tget, ih]

theorem tset_tset_same {α : Type} (t : Tab α) (k : Nat) (v w : α) : tset (tset t k v) k w = tset t k w := by
  induction t with
  | nil => simp [tset]
  | cons p r ih =>
    obtain ⟨k', v'⟩ := p
    simp only [tset]
    split
    · simp [tset]
    · split
      · simp [tset]
      · rename_i h1 h2
        simp only [tset, h1, h2, if_false, ih]

/-- Setting a key to the value it has changes nothing. -/
theorem tset_tget_same {α : Type} (t : Tab α) (k : Nat) (v : α) (hs : t.Pairwise fun a b => a.1 < b.1) (h : tget t k = some v) :
    tset t k v = t := by
  induction t with
  | nil => simp [tget] at h
  | cons p r ih =>
    obtain ⟨k', v'⟩ := p
    simp only [tget] at h
    rw [List.pairwise_cons] at hs
    split at h
    · rename_i hk
      subst hk
      cases h
      simp [tset]
    · rename_i hk
      simp only [tset]
      have hlt : ¬ k < k' := by
        intro hlt
        have aux : ∀ r : Tab α, (∀ a ∈ r, k' < a.1) → tget r k = none := by
          intro r
          induction r with
          | nil => intro _; rfl
          | cons q r ih2 =>
            intro hr
            obtain ⟨k2, v2⟩ := q
            have h1 : k' < k2 := hr _ List.mem_cons_self
            simp only [tget]
            rw [if_neg (by omega)]
            exact ih2 fun a ha => hr a (List.mem_cons_of_mem _ ha)
        rw [aux r hs.1] at h
        cases h
      rw [if_neg hlt, if_neg (fun e => hk e.symm), ih hs.2 h]

/-! ### Contexts -/

@[simp] theorem getCtx_setCtx_same (s : State) (c : Nat) (x : Ctx) : getCtx (setCtx s c x) c = some x := tget_tset_same _ _ _

theorem getCtx_setCtx_other (s : State) (c d : Nat) (x : Ctx) (h : d ≠ c) : getCtx (setCtx s c x) d = getCtx s d :=
  tget_tset_other _ _ _ _ h

@[simp] theorem setCtx_setCtx (s : State) (c : Nat) (x y : Ctx) : setCtx (setCtx s c x) c y = setCtx s c y := by
  simp [setCtx, tset_tset_same]

theorem modCtx_of {s : State} {c : Nat} {x : Ctx} (h : getCtx s c = some x) (f : Ctx → Ctx) : modCtx s c f = setCtx s c (f x) := by
  simp [modCtx, h]

/-! ### Byte memories -/

theorem tdel_nil {α : Type} (k : Nat) : tdel ([] : Tab α) k = [] := rfl

theorem memOk_iff (m : Mem) : memOk m = true ↔ (m.Pairwise fun a b => a.1 < b.1) ∧ ∀ p ∈ m, p.2 ≠ 0 := by
  induction m with
  | nil => simp [memOk]
  | cons p r ih =>
    obtain ⟨a, b⟩ := p
    cases r with
    | nil => simp [memOk]
    | cons q r =>
      obtain ⟨a', b'⟩ := q
      simp only [memOk, Bool.and_eq_true, decide_eq_true_eq, ih, bne_iff_ne, List.pairwise_cons, List.mem_cons]
      constructor
      · rintro ⟨⟨h0, h1⟩, ⟨h2, h3⟩, h4⟩
        refine ⟨⟨?_, h2, h3⟩, ?_⟩
        · rintro x (rfl | hx)
          · exact h1
          · exact Nat.lt_trans h1 (h2 x hx)
        · rintro x (rfl | hx)
          · exact h0
          · exact h4 x hx
      · rintro ⟨⟨h1, h2⟩, h4⟩
        exact ⟨⟨h4 _ (.inl rfl), h1 _ (.inl rfl)⟩, h2, fun x hx => h4 x (.inr hx)⟩

theorem tset_mem {α : Type} (t : Tab α) (k : Nat) (v : α) : ∀ p ∈ tset t k v, p = (k, v) ∨ p ∈ t := by
  induction t with
  | nil => intro p hp; simp [tset] at hp; exact .inl hp
  | cons q r ih =>
    obtain ⟨k', v'⟩ := q
    intro p hp
    simp only [tset] at hp
    split at hp
    · rcases List.mem_cons.mp hp with h | h
      · exact .inl h
      · exact .inr h
    · split at hp
      · rcases List.mem_cons.mp hp with h | h
        · exact .inl h
        · exact .inr (List.mem_cons_of_mem _ h)
      · rcases List.mem_cons.mp hp with h | h
        · exact .inr (h ▸ List.mem_cons_self)
        · rcases ih p h with h2 | h2
          · exact .inl h2
          · exact .inr (List.mem_cons_of_mem _ h2)

theorem tset_sorted {α : Type} (t : Tab α) (k : Nat) (v : α) (h : t.Pairwise fun a b => a.1 < b.1) :
    (tset t k v).Pairwise fun a b => a.1 < b.1 := by
  induction t with
  | nil => simp [tset]
  | cons q r ih =>
    obtain ⟨k', v'⟩ := q
    rw [List.pairwise_cons] at h
    simp only [tset]
    split
    · rename_i hk
      refine List.pairwise_cons.mpr ⟨?_, List.pairwise_cons.mpr h⟩
      intro a ha
      rcases List.mem_cons.mp ha with rfl | ha
      · exact hk
      · exact Nat.lt_trans hk (h.1 a ha)
    · split
      · rename_i hk
        subst hk
        exact List.pairwise_cons.mpr h
      · rename_i h1 h2
        refine List.pairwise_cons.mpr ⟨?_, ih h.2⟩
        intro a ha
        rcases tset_mem r k v a ha with rfl | ha
        · show k' < k
          omega
        · exact h.1 a ha

theorem tdel_mem {α : Type} (t : Tab α) (k : Nat) : ∀ p ∈ tdel t k, p ∈ t := by
  induction t with
  | nil => intro p hp; exact hp
  | cons q r ih =>
    obtain ⟨k', v'⟩ := q
    intro p hp
    simp only [tdel] at hp
    split at hp
    · exact List.mem_cons_of_mem _ hp
    · rcases List.mem_cons.mp hp with h | h
      · exact h ▸ List.mem_cons_self
      · exact List.mem_cons_of_mem _ (ih p h)

theorem tdel_sorted {α : Type} (t : Tab α) (k : Nat) (h : t.Pairwise fun a b => a.1 < b.1) :
    (tdel t k).Pairwise fun a b => a.1 < b.1 := by
  induction t with
  | nil => exact h
  | cons q r ih =>
    obtain ⟨k', v'⟩ := q
    rw [List.pairwise_cons] at h
    simp only [tdel]
    split
    · exact h.2
    · exact List.pairwise_cons.mpr ⟨fun a ha => h.1 a (tdel_mem r k a ha), ih h.2⟩

theorem memOk_mset (m : Mem) (a : Nat) (b : Byte) (h : memOk m = true) : memOk (mset m a b) = true := by
  rw [memOk_iff] at h ⊢
  unfold mset
  split
  · exact ⟨tdel_sorted _ _ h.1, fun p hp => h.2 p (tdel_mem _ _ p hp)⟩
  · rename_i hb
    refine ⟨tset_sorted _ _ _ h.1, fun p hp => ?_⟩
    rcases tset_mem m a b p hp with rfl | hp
    · exact hb
    · exact h.2 p hp

theorem memOk_mwrite (m : Mem) (a : Nat) (l : Bytes) (h : memOk m = true) : memOk (mwrite m a l) = true := by
  induction l generalizing m a with
  | nil => exact h
  | cons b r ih => exact ih _ _ (memOk_mset m a b h)

theorem memOk_filter (m : Mem) (f : Host.Cell → Bool) (h : memOk m = true) : memOk (m.filter f) = true := by
  rw [memOk_iff] at h ⊢
  exact ⟨h.1.filter f, fun p hp => h.2 p (List.mem_filter.mp hp).1⟩

theorem memOk_mclear (m : Mem) (a n : Nat) (h : memOk m = true) : memOk (mclear m a n) = true := memOk_filter _ _ h

theorem memOk_reset : memOk State.reset.mem.bytes = true ∧ memOk State.reset.hostMem = true := ⟨rfl, rfl⟩

theorem tget_none_of_lt {α : Type} (t : Tab α) (k : Nat) (h : ∀ a ∈ t, k < a.1) : tget t k = none := by
  induction t with
  | nil => rfl
  | cons q r ih =>
    obtain ⟨k', v'⟩ := q
    have h1 : k < k' := h _ List.mem_cons_self
    simp only [tget]
    rw [if_neg (by omega)]
    exact ih fun a ha => h a (List.mem_cons_of_mem _ ha)

theorem tget_tdel_same {α : Type} (t : Tab α) (k : Nat) (h : t.Pairwise fun a b => a.1 < b.1) : tget (tdel t k) k = none := by
  induction t with
  | nil => rfl
  | cons q r ih =>
    obtain ⟨k', v'⟩ := q
    rw [List.pairwise_cons] at h
    simp only [tdel]
    split
    · rename_i hk
      subst hk
      exact tget_none_of_lt r _ h.1
    · rename_i hk
      simp only [tget]
      rw [if_neg hk]
      exact ih h.2

theorem tget_tdel_other {α : Type} (t : Tab α) (k q : Nat) (hq : q ≠ k) : tget (tdel t k) q = tget t q := by
  induction t with
  | nil => rfl
  | cons p r ih =>
    obtain ⟨k', v'⟩ := p
    simp only [tdel]
    split
    · rename_i hk
      subst hk
      simp only [tget]
      rw [if_neg (fun e => hq e.symm)]
    · simp only [tget, ih]

/-- A byte written reads back. -/
theorem mget_mset_same (m : Mem) (a : Nat) (b : Byte) (h : memOk m = true) : mget (mset m a b) a = b := by
  rw [memOk_iff] at h
  unfold mset mget tgetD
  split
  · rename_i hb
    rw [tget_tdel_same _ _ h.1, hb]
    rfl
  · rw [tget_tset_same]
    rfl

/-- A write leaves every other byte. -/
theorem mget_mset_other (m : Mem) (a q : Nat) (b : Byte) (hq : q ≠ a) : mget (mset m a b) q = mget m q := by
  unfold mset mget tgetD
  split
  · rw [tget_tdel_other _ _ _ hq]
  · rw [tget_tset_other _ _ _ _ hq]

/-- A run of bytes written leaves every byte outside it. -/
theorem mget_mwrite_other (m : Mem) (a q : Nat) (l : Bytes) (h : q < a ∨ a + l.length ≤ q) : mget (mwrite m a l) q = mget m q := by
  induction l generalizing m a with
  | nil => rfl
  | cons b r ih =>
    simp only [List.length_cons] at h
    simp only [mwrite]
    rw [ih _ _ (by omega), mget_mset_other _ _ _ _ (by omega)]

/-- A run of bytes written reads back. -/
theorem mread_mwrite (m : Mem) (a : Nat) (l : Bytes) (h : memOk m = true) : mread (mwrite m a l) a l.length = l := by
  induction l generalizing m a with
  | nil => rfl
  | cons b r ih =>
    simp only [mwrite, List.length_cons, mread]
    rw [ih _ _ (memOk_mset m a b h), mget_mwrite_other _ _ _ _ (by omega), mget_mset_same _ _ _ h]

end Sys2Proof.Machine
end

