-- ==== Sys2Proof/Laws/State.lean ====
section
/-! SUPPORT. What each update of the state leaves as it was, field by field, and what it sets; for the shared operations over pages, queues,
memory and contexts, every field they cannot reach. -/

namespace Sys2Proof.Machine


/-! ### `setCtx`: the contexts alone -/

@[simp] theorem setCtx_pins (s : State) (c : Nat) (x : Ctx) : (setCtx s c x).pins = s.pins := rfl
@[simp] theorem setCtx_clock (s : State) (c : Nat) (x : Ctx) : (setCtx s c x).clock = s.clock := rfl
@[simp] theorem setCtx_control (s : State) (c : Nat) (x : Ctx) : (setCtx s c x).control = s.control := rfl
@[simp] theorem setCtx_fw (s : State) (c : Nat) (x : Ctx) : (setCtx s c x).fw = s.fw := rfl
@[simp] theorem setCtx_regs (s : State) (c : Nat) (x : Ctx) : (setCtx s c x).regs = s.regs := rfl
@[simp] theorem setCtx_host (s : State) (c : Nat) (x : Ctx) : (setCtx s c x).host = s.host := rfl
@[simp] theorem setCtx_fabric (s : State) (c : Nat) (x : Ctx) : (setCtx s c x).fabric = s.fabric := rfl
@[simp] theorem setCtx_mgmt (s : State) (c : Nat) (x : Ctx) : (setCtx s c x).mgmt = s.mgmt := rfl
@[simp] theorem setCtx_journal (s : State) (c : Nat) (x : Ctx) : (setCtx s c x).journal = s.journal := rfl
@[simp] theorem setCtx_mirror (s : State) (c : Nat) (x : Ctx) : (setCtx s c x).mirror = s.mirror := rfl
@[simp] theorem setCtx_si (s : State) (c : Nat) (x : Ctx) : (setCtx s c x).si = s.si := rfl
@[simp] theorem setCtx_mem (s : State) (c : Nat) (x : Ctx) : (setCtx s c x).mem = s.mem := rfl
@[simp] theorem setCtx_hostMem (s : State) (c : Nat) (x : Ctx) : (setCtx s c x).hostMem = s.hostMem := rfl
@[simp] theorem setCtx_free (s : State) (c : Nat) (x : Ctx) : (setCtx s c x).free = s.free := rfl
@[simp] theorem setCtx_out (s : State) (c : Nat) (x : Ctx) : (setCtx s c x).out = s.out := rfl
@[simp] theorem setCtx_pending (s : State) (c : Nat) (x : Ctx) : (setCtx s c x).pending = s.pending := rfl

/-! ### `delCtx`: the contexts alone -/

@[simp] theorem delCtx_pins (s : State) (c : Nat) : (delCtx s c).pins = s.pins := rfl
@[simp] theorem delCtx_clock (s : State) (c : Nat) : (delCtx s c).clock = s.clock := rfl
@[simp] theorem delCtx_control (s : State) (c : Nat) : (delCtx s c).control = s.control := rfl
@[simp] theorem delCtx_fw (s : State) (c : Nat) : (delCtx s c).fw = s.fw := rfl
@[simp] theorem delCtx_regs (s : State) (c : Nat) : (delCtx s c).regs = s.regs := rfl
@[simp] theorem delCtx_host (s : State) (c : Nat) : (delCtx s c).host = s.host := rfl
@[simp] theorem delCtx_fabric (s : State) (c : Nat) : (delCtx s c).fabric = s.fabric := rfl
@[simp] theorem delCtx_mgmt (s : State) (c : Nat) : (delCtx s c).mgmt = s.mgmt := rfl
@[simp] theorem delCtx_journal (s : State) (c : Nat) : (delCtx s c).journal = s.journal := rfl
@[simp] theorem delCtx_mirror (s : State) (c : Nat) : (delCtx s c).mirror = s.mirror := rfl
@[simp] theorem delCtx_si (s : State) (c : Nat) : (delCtx s c).si = s.si := rfl
@[simp] theorem delCtx_mem (s : State) (c : Nat) : (delCtx s c).mem = s.mem := rfl
@[simp] theorem delCtx_hostMem (s : State) (c : Nat) : (delCtx s c).hostMem = s.hostMem := rfl
@[simp] theorem delCtx_free (s : State) (c : Nat) : (delCtx s c).free = s.free := rfl
@[simp] theorem delCtx_out (s : State) (c : Nat) : (delCtx s c).out = s.out := rfl
@[simp] theorem delCtx_pending (s : State) (c : Nat) : (delCtx s c).pending = s.pending := rfl

/-! ### `State.emit`: the outputs alone -/

@[simp] theorem State.emit_pins (s : State) (o : Out) : (State.emit s o).pins = s.pins := rfl
@[simp] theorem State.emit_clock (s : State) (o : Out) : (State.emit s o).clock = s.clock := rfl
@[simp] theorem State.emit_control (s : State) (o : Out) : (State.emit s o).control = s.control := rfl
@[simp] theorem State.emit_fw (s : State) (o : Out) : (State.emit s o).fw = s.fw := rfl
@[simp] theorem State.emit_regs (s : State) (o : Out) : (State.emit s o).regs = s.regs := rfl
@[simp] theorem State.emit_host (s : State) (o : Out) : (State.emit s o).host = s.host := rfl
@[simp] theorem State.emit_fabric (s : State) (o : Out) : (State.emit s o).fabric = s.fabric := rfl
@[simp] theorem State.emit_mgmt (s : State) (o : Out) : (State.emit s o).mgmt = s.mgmt := rfl
@[simp] theorem State.emit_journal (s : State) (o : Out) : (State.emit s o).journal = s.journal := rfl
@[simp] theorem State.emit_mirror (s : State) (o : Out) : (State.emit s o).mirror = s.mirror := rfl
@[simp] theorem State.emit_si (s : State) (o : Out) : (State.emit s o).si = s.si := rfl
@[simp] theorem State.emit_mem (s : State) (o : Out) : (State.emit s o).mem = s.mem := rfl
@[simp] theorem State.emit_ctxs (s : State) (o : Out) : (State.emit s o).ctxs = s.ctxs := rfl
@[simp] theorem State.emit_hostMem (s : State) (o : Out) : (State.emit s o).hostMem = s.hostMem := rfl
@[simp] theorem State.emit_free (s : State) (o : Out) : (State.emit s o).free = s.free := rfl
@[simp] theorem State.emit_pending (s : State) (o : Out) : (State.emit s o).pending = s.pending := rfl
@[simp] theorem State.emit_out (s : State) (o : Out) : (s.emit o).out = s.out ++ [o] := rfl

/-! ### `State.at`: the clock alone -/

@[simp] theorem State.at_pins (s : State) (t : Nat) : (State.at s t).pins = s.pins := rfl
@[simp] theorem State.at_control (s : State) (t : Nat) : (State.at s t).control = s.control := rfl
@[simp] theorem State.at_fw (s : State) (t : Nat) : (State.at s t).fw = s.fw := rfl
@[simp] theorem State.at_regs (s : State) (t : Nat) : (State.at s t).regs = s.regs := rfl
@[simp] theorem State.at_host (s : State) (t : Nat) : (State.at s t).host = s.host := rfl
@[simp] theorem State.at_fabric (s : State) (t : Nat) : (State.at s t).fabric = s.fabric := rfl
@[simp] theorem State.at_mgmt (s : State) (t : Nat) : (State.at s t).mgmt = s.mgmt := rfl
@[simp] theorem State.at_journal (s : State) (t : Nat) : (State.at s t).journal = s.journal := rfl
@[simp] theorem State.at_mirror (s : State) (t : Nat) : (State.at s t).mirror = s.mirror := rfl
@[simp] theorem State.at_si (s : State) (t : Nat) : (State.at s t).si = s.si := rfl
@[simp] theorem State.at_mem (s : State) (t : Nat) : (State.at s t).mem = s.mem := rfl
@[simp] theorem State.at_ctxs (s : State) (t : Nat) : (State.at s t).ctxs = s.ctxs := rfl
@[simp] theorem State.at_hostMem (s : State) (t : Nat) : (State.at s t).hostMem = s.hostMem := rfl
@[simp] theorem State.at_free (s : State) (t : Nat) : (State.at s t).free = s.free := rfl
@[simp] theorem State.at_out (s : State) (t : Nat) : (State.at s t).out = s.out := rfl
@[simp] theorem State.at_pending (s : State) (t : Nat) : (State.at s t).pending = s.pending := rfl
@[simp] theorem State.at_now (s : State) (t : Nat) : (s.at t).clock.now = max s.clock.now t := rfl

/-! ### `setPage`: the pages alone -/

@[simp] theorem setPage_pins (s : State) (p : Nat) (g : Page) : (setPage s p g).pins = s.pins := rfl
@[simp] theorem setPage_clock (s : State) (p : Nat) (g : Page) : (setPage s p g).clock = s.clock := rfl
@[simp] theorem setPage_control (s : State) (p : Nat) (g : Page) : (setPage s p g).control = s.control := rfl
@[simp] theorem setPage_fw (s : State) (p : Nat) (g : Page) : (setPage s p g).fw = s.fw := rfl
@[simp] theorem setPage_host (s : State) (p : Nat) (g : Page) : (setPage s p g).host = s.host := rfl
@[simp] theorem setPage_fabric (s : State) (p : Nat) (g : Page) : (setPage s p g).fabric = s.fabric := rfl
@[simp] theorem setPage_mgmt (s : State) (p : Nat) (g : Page) : (setPage s p g).mgmt = s.mgmt := rfl
@[simp] theorem setPage_journal (s : State) (p : Nat) (g : Page) : (setPage s p g).journal = s.journal := rfl
@[simp] theorem setPage_mirror (s : State) (p : Nat) (g : Page) : (setPage s p g).mirror = s.mirror := rfl
@[simp] theorem setPage_si (s : State) (p : Nat) (g : Page) : (setPage s p g).si = s.si := rfl
@[simp] theorem setPage_mem (s : State) (p : Nat) (g : Page) : (setPage s p g).mem = s.mem := rfl
@[simp] theorem setPage_ctxs (s : State) (p : Nat) (g : Page) : (setPage s p g).ctxs = s.ctxs := rfl
@[simp] theorem setPage_hostMem (s : State) (p : Nat) (g : Page) : (setPage s p g).hostMem = s.hostMem := rfl
@[simp] theorem setPage_free (s : State) (p : Nat) (g : Page) : (setPage s p g).free = s.free := rfl
@[simp] theorem setPage_out (s : State) (p : Nat) (g : Page) : (setPage s p g).out = s.out := rfl
@[simp] theorem setPage_pending (s : State) (p : Nat) (g : Page) : (setPage s p g).pending = s.pending := rfl
theorem setPage_pages (s : State) (p : Nat) (g : Page) : (setPage s p g).regs.pages = tset s.regs.pages p g := rfl

/-! ### `setFun`: a function of the host interface alone -/

@[simp] theorem setFun_pins (s : State) (fn : Nat) (f : Fun) : (setFun s fn f).pins = s.pins := rfl
@[simp] theorem setFun_clock (s : State) (fn : Nat) (f : Fun) : (setFun s fn f).clock = s.clock := rfl
@[simp] theorem setFun_control (s : State) (fn : Nat) (f : Fun) : (setFun s fn f).control = s.control := rfl
@[simp] theorem setFun_fw (s : State) (fn : Nat) (f : Fun) : (setFun s fn f).fw = s.fw := rfl
@[simp] theorem setFun_regs (s : State) (fn : Nat) (f : Fun) : (setFun s fn f).regs = s.regs := rfl
@[simp] theorem setFun_fabric (s : State) (fn : Nat) (f : Fun) : (setFun s fn f).fabric = s.fabric := rfl
@[simp] theorem setFun_mgmt (s : State) (fn : Nat) (f : Fun) : (setFun s fn f).mgmt = s.mgmt := rfl
@[simp] theorem setFun_journal (s : State) (fn : Nat) (f : Fun) : (setFun s fn f).journal = s.journal := rfl
@[simp] theorem setFun_mirror (s : State) (fn : Nat) (f : Fun) : (setFun s fn f).mirror = s.mirror := rfl
@[simp] theorem setFun_si (s : State) (fn : Nat) (f : Fun) : (setFun s fn f).si = s.si := rfl
@[simp] theorem setFun_mem (s : State) (fn : Nat) (f : Fun) : (setFun s fn f).mem = s.mem := rfl
@[simp] theorem setFun_ctxs (s : State) (fn : Nat) (f : Fun) : (setFun s fn f).ctxs = s.ctxs := rfl
@[simp] theorem setFun_hostMem (s : State) (fn : Nat) (f : Fun) : (setFun s fn f).hostMem = s.hostMem := rfl
@[simp] theorem setFun_free (s : State) (fn : Nat) (f : Fun) : (setFun s fn f).free = s.free := rfl
@[simp] theorem setFun_out (s : State) (fn : Nat) (f : Fun) : (setFun s fn f).out = s.out := rfl
@[simp] theorem setFun_pending (s : State) (fn : Nat) (f : Fun) : (setFun s fn f).pending = s.pending := rfl

/-! ### `setPort`: a port of the fabric alone -/

@[simp] theorem setPort_pins (s : State) (n : Nat) (p : Port) : (setPort s n p).pins = s.pins := rfl
@[simp] theorem setPort_clock (s : State) (n : Nat) (p : Port) : (setPort s n p).clock = s.clock := rfl
@[simp] theorem setPort_control (s : State) (n : Nat) (p : Port) : (setPort s n p).control = s.control := rfl
@[simp] theorem setPort_fw (s : State) (n : Nat) (p : Port) : (setPort s n p).fw = s.fw := rfl
@[simp] theorem setPort_regs (s : State) (n : Nat) (p : Port) : (setPort s n p).regs = s.regs := rfl
@[simp] theorem setPort_host (s : State) (n : Nat) (p : Port) : (setPort s n p).host = s.host := rfl
@[simp] theorem setPort_mgmt (s : State) (n : Nat) (p : Port) : (setPort s n p).mgmt = s.mgmt := rfl
@[simp] theorem setPort_journal (s : State) (n : Nat) (p : Port) : (setPort s n p).journal = s.journal := rfl
@[simp] theorem setPort_mirror (s : State) (n : Nat) (p : Port) : (setPort s n p).mirror = s.mirror := rfl
@[simp] theorem setPort_si (s : State) (n : Nat) (p : Port) : (setPort s n p).si = s.si := rfl
@[simp] theorem setPort_mem (s : State) (n : Nat) (p : Port) : (setPort s n p).mem = s.mem := rfl
@[simp] theorem setPort_ctxs (s : State) (n : Nat) (p : Port) : (setPort s n p).ctxs = s.ctxs := rfl
@[simp] theorem setPort_hostMem (s : State) (n : Nat) (p : Port) : (setPort s n p).hostMem = s.hostMem := rfl
@[simp] theorem setPort_free (s : State) (n : Nat) (p : Port) : (setPort s n p).free = s.free := rfl
@[simp] theorem setPort_out (s : State) (n : Nat) (p : Port) : (setPort s n p).out = s.out := rfl
@[simp] theorem setPort_pending (s : State) (n : Nat) (p : Port) : (setPort s n p).pending = s.pending := rfl

/-! ### `grantFrames`: the device memory alone -/

@[simp] theorem grantFrames_pins (s : State) (c : Nat) (l : List Nat) : (grantFrames s c l).pins = s.pins := rfl
@[simp] theorem grantFrames_clock (s : State) (c : Nat) (l : List Nat) : (grantFrames s c l).clock = s.clock := rfl
@[simp] theorem grantFrames_control (s : State) (c : Nat) (l : List Nat) : (grantFrames s c l).control = s.control := rfl
@[simp] theorem grantFrames_fw (s : State) (c : Nat) (l : List Nat) : (grantFrames s c l).fw = s.fw := rfl
@[simp] theorem grantFrames_regs (s : State) (c : Nat) (l : List Nat) : (grantFrames s c l).regs = s.regs := rfl
@[simp] theorem grantFrames_host (s : State) (c : Nat) (l : List Nat) : (grantFrames s c l).host = s.host := rfl
@[simp] theorem grantFrames_fabric (s : State) (c : Nat) (l : List Nat) : (grantFrames s c l).fabric = s.fabric := rfl
@[simp] theorem grantFrames_mgmt (s : State) (c : Nat) (l : List Nat) : (grantFrames s c l).mgmt = s.mgmt := rfl
@[simp] theorem grantFrames_journal (s : State) (c : Nat) (l : List Nat) : (grantFrames s c l).journal = s.journal := rfl
@[simp] theorem grantFrames_mirror (s : State) (c : Nat) (l : List Nat) : (grantFrames s c l).mirror = s.mirror := rfl
@[simp] theorem grantFrames_si (s : State) (c : Nat) (l : List Nat) : (grantFrames s c l).si = s.si := rfl
@[simp] theorem grantFrames_ctxs (s : State) (c : Nat) (l : List Nat) : (grantFrames s c l).ctxs = s.ctxs := rfl
@[simp] theorem grantFrames_hostMem (s : State) (c : Nat) (l : List Nat) : (grantFrames s c l).hostMem = s.hostMem := rfl
@[simp] theorem grantFrames_free (s : State) (c : Nat) (l : List Nat) : (grantFrames s c l).free = s.free := rfl
@[simp] theorem grantFrames_out (s : State) (c : Nat) (l : List Nat) : (grantFrames s c l).out = s.out := rfl
@[simp] theorem grantFrames_pending (s : State) (c : Nat) (l : List Nat) : (grantFrames s c l).pending = s.pending := rfl

/-! ### `freeFrames`: the device memory alone -/

@[simp] theorem freeFrames_pins (s : State) (l : List Nat) : (freeFrames s l).pins = s.pins := rfl
@[simp] theorem freeFrames_clock (s : State) (l : List Nat) : (freeFrames s l).clock = s.clock := rfl
@[simp] theorem freeFrames_control (s : State) (l : List Nat) : (freeFrames s l).control = s.control := rfl
@[simp] theorem freeFrames_fw (s : State) (l : List Nat) : (freeFrames s l).fw = s.fw := rfl
@[simp] theorem freeFrames_regs (s : State) (l : List Nat) : (freeFrames s l).regs = s.regs := rfl
@[simp] theorem freeFrames_host (s : State) (l : List Nat) : (freeFrames s l).host = s.host := rfl
@[simp] theorem freeFrames_fabric (s : State) (l : List Nat) : (freeFrames s l).fabric = s.fabric := rfl
@[simp] theorem freeFrames_mgmt (s : State) (l : List Nat) : (freeFrames s l).mgmt = s.mgmt := rfl
@[simp] theorem freeFrames_journal (s : State) (l : List Nat) : (freeFrames s l).journal = s.journal := rfl
@[simp] theorem freeFrames_mirror (s : State) (l : List Nat) : (freeFrames s l).mirror = s.mirror := rfl
@[simp] theorem freeFrames_si (s : State) (l : List Nat) : (freeFrames s l).si = s.si := rfl
@[simp] theorem freeFrames_ctxs (s : State) (l : List Nat) : (freeFrames s l).ctxs = s.ctxs := rfl
@[simp] theorem freeFrames_hostMem (s : State) (l : List Nat) : (freeFrames s l).hostMem = s.hostMem := rfl
@[simp] theorem freeFrames_free (s : State) (l : List Nat) : (freeFrames s l).free = s.free := rfl
@[simp] theorem freeFrames_out (s : State) (l : List Nat) : (freeFrames s l).out = s.out := rfl
@[simp] theorem freeFrames_pending (s : State) (l : List Nat) : (freeFrames s l).pending = s.pending := rfl

/-! ### `meterAll`: the contexts alone -/

@[simp] theorem meterAll_pins (s : State) (f : Meter → Meter) : (meterAll s f).pins = s.pins := rfl
@[simp] theorem meterAll_clock (s : State) (f : Meter → Meter) : (meterAll s f).clock = s.clock := rfl
@[simp] theorem meterAll_control (s : State) (f : Meter → Meter) : (meterAll s f).control = s.control := rfl
@[simp] theorem meterAll_fw (s : State) (f : Meter → Meter) : (meterAll s f).fw = s.fw := rfl
@[simp] theorem meterAll_regs (s : State) (f : Meter → Meter) : (meterAll s f).regs = s.regs := rfl
@[simp] theorem meterAll_host (s : State) (f : Meter → Meter) : (meterAll s f).host = s.host := rfl
@[simp] theorem meterAll_fabric (s : State) (f : Meter → Meter) : (meterAll s f).fabric = s.fabric := rfl
@[simp] theorem meterAll_mgmt (s : State) (f : Meter → Meter) : (meterAll s f).mgmt = s.mgmt := rfl
@[simp] theorem meterAll_journal (s : State) (f : Meter → Meter) : (meterAll s f).journal = s.journal := rfl
@[simp] theorem meterAll_mirror (s : State) (f : Meter → Meter) : (meterAll s f).mirror = s.mirror := rfl
@[simp] theorem meterAll_si (s : State) (f : Meter → Meter) : (meterAll s f).si = s.si := rfl
@[simp] theorem meterAll_mem (s : State) (f : Meter → Meter) : (meterAll s f).mem = s.mem := rfl
@[simp] theorem meterAll_hostMem (s : State) (f : Meter → Meter) : (meterAll s f).hostMem = s.hostMem := rfl
@[simp] theorem meterAll_free (s : State) (f : Meter → Meter) : (meterAll s f).free = s.free := rfl
@[simp] theorem meterAll_out (s : State) (f : Meter → Meter) : (meterAll s f).out = s.out := rfl
@[simp] theorem meterAll_pending (s : State) (f : Meter → Meter) : (meterAll s f).pending = s.pending := rfl

/-! ### `modCtx`: the contexts alone -/

@[simp] theorem modCtx_pins (s : State) (c : Nat) (f : Ctx → Ctx) : (modCtx s c f).pins = s.pins := by
  unfold modCtx; split <;> rfl
@[simp] theorem modCtx_clock (s : State) (c : Nat) (f : Ctx → Ctx) : (modCtx s c f).clock = s.clock := by
  unfold modCtx; split <;> rfl
@[simp] theorem modCtx_control (s : State) (c : Nat) (f : Ctx → Ctx) : (modCtx s c f).control = s.control := by
  unfold modCtx; split <;> rfl
@[simp] theorem modCtx_fw (s : State) (c : Nat) (f : Ctx → Ctx) : (modCtx s c f).fw = s.fw := by
  unfold modCtx; split <;> rfl
@[simp] theorem modCtx_regs (s : State) (c : Nat) (f : Ctx → Ctx) : (modCtx s c f).regs = s.regs := by
  unfold modCtx; split <;> rfl
@[simp] theorem modCtx_host (s : State) (c : Nat) (f : Ctx → Ctx) : (modCtx s c f).host = s.host := by
  unfold modCtx; split <;> rfl
@[simp] theorem modCtx_fabric (s : State) (c : Nat) (f : Ctx → Ctx) : (modCtx s c f).fabric = s.fabric := by
  unfold modCtx; split <;> rfl
@[simp] theorem modCtx_mgmt (s : State) (c : Nat) (f : Ctx → Ctx) : (modCtx s c f).mgmt = s.mgmt := by
  unfold modCtx; split <;> rfl
@[simp] theorem modCtx_journal (s : State) (c : Nat) (f : Ctx → Ctx) : (modCtx s c f).journal = s.journal := by
  unfold modCtx; split <;> rfl
@[simp] theorem modCtx_mirror (s : State) (c : Nat) (f : Ctx → Ctx) : (modCtx s c f).mirror = s.mirror := by
  unfold modCtx; split <;> rfl
@[simp] theorem modCtx_si (s : State) (c : Nat) (f : Ctx → Ctx) : (modCtx s c f).si = s.si := by
  unfold modCtx; split <;> rfl
@[simp] theorem modCtx_mem (s : State) (c : Nat) (f : Ctx → Ctx) : (modCtx s c f).mem = s.mem := by
  unfold modCtx; split <;> rfl
@[simp] theorem modCtx_hostMem (s : State) (c : Nat) (f : Ctx → Ctx) : (modCtx s c f).hostMem = s.hostMem := by
  unfold modCtx; split <;> rfl
@[simp] theorem modCtx_free (s : State) (c : Nat) (f : Ctx → Ctx) : (modCtx s c f).free = s.free := by
  unfold modCtx; split <;> rfl
@[simp] theorem modCtx_out (s : State) (c : Nat) (f : Ctx → Ctx) : (modCtx s c f).out = s.out := by
  unfold modCtx; split <;> rfl
@[simp] theorem modCtx_pending (s : State) (c : Nat) (f : Ctx → Ctx) : (modCtx s c f).pending = s.pending := by
  unfold modCtx; split <;> rfl

/-! ### `countEv`: the pages alone -/

@[simp] theorem countEv_pins (s : State) (p : Nat) (source : Nat) (n : Nat) (ctx : Option Nat) : (countEv s p source n ctx).pins = s.pins := rfl
@[simp] theorem countEv_clock (s : State) (p : Nat) (source : Nat) (n : Nat) (ctx : Option Nat) : (countEv s p source n ctx).clock = s.clock := rfl
@[simp] theorem countEv_control (s : State) (p : Nat) (source : Nat) (n : Nat) (ctx : Option Nat) : (countEv s p source n ctx).control = s.control := rfl
@[simp] theorem countEv_fw (s : State) (p : Nat) (source : Nat) (n : Nat) (ctx : Option Nat) : (countEv s p source n ctx).fw = s.fw := rfl
@[simp] theorem countEv_host (s : State) (p : Nat) (source : Nat) (n : Nat) (ctx : Option Nat) : (countEv s p source n ctx).host = s.host := rfl
@[simp] theorem countEv_fabric (s : State) (p : Nat) (source : Nat) (n : Nat) (ctx : Option Nat) : (countEv s p source n ctx).fabric = s.fabric := rfl
@[simp] theorem countEv_mgmt (s : State) (p : Nat) (source : Nat) (n : Nat) (ctx : Option Nat) : (countEv s p source n ctx).mgmt = s.mgmt := rfl
@[simp] theorem countEv_journal (s : State) (p : Nat) (source : Nat) (n : Nat) (ctx : Option Nat) : (countEv s p source n ctx).journal = s.journal := rfl
@[simp] theorem countEv_mirror (s : State) (p : Nat) (source : Nat) (n : Nat) (ctx : Option Nat) : (countEv s p source n ctx).mirror = s.mirror := rfl
@[simp] theorem countEv_si (s : State) (p : Nat) (source : Nat) (n : Nat) (ctx : Option Nat) : (countEv s p source n ctx).si = s.si := rfl
@[simp] theorem countEv_mem (s : State) (p : Nat) (source : Nat) (n : Nat) (ctx : Option Nat) : (countEv s p source n ctx).mem = s.mem := rfl
@[simp] theorem countEv_ctxs (s : State) (p : Nat) (source : Nat) (n : Nat) (ctx : Option Nat) : (countEv s p source n ctx).ctxs = s.ctxs := rfl
@[simp] theorem countEv_hostMem (s : State) (p : Nat) (source : Nat) (n : Nat) (ctx : Option Nat) : (countEv s p source n ctx).hostMem = s.hostMem := rfl
@[simp] theorem countEv_free (s : State) (p : Nat) (source : Nat) (n : Nat) (ctx : Option Nat) : (countEv s p source n ctx).free = s.free := rfl
@[simp] theorem countEv_out (s : State) (p : Nat) (source : Nat) (n : Nat) (ctx : Option Nat) : (countEv s p source n ctx).out = s.out := rfl
@[simp] theorem countEv_pending (s : State) (p : Nat) (source : Nat) (n : Nat) (ctx : Option Nat) : (countEv s p source n ctx).pending = s.pending := rfl

/-! ### `raiseInt`: pages and outputs alone -/

@[simp] theorem raiseInt_pins (s : State) (p : Nat) (bits : Nat) : (raiseInt s p bits).pins = s.pins := by
  unfold raiseInt; dsimp only; split
  · rfl
  · split <;> simp
@[simp] theorem raiseInt_clock (s : State) (p : Nat) (bits : Nat) : (raiseInt s p bits).clock = s.clock := by
  unfold raiseInt; dsimp only; split
  · rfl
  · split <;> simp
@[simp] theorem raiseInt_control (s : State) (p : Nat) (bits : Nat) : (raiseInt s p bits).control = s.control := by
  unfold raiseInt; dsimp only; split
  · rfl
  · split <;> simp
@[simp] theorem raiseInt_fw (s : State) (p : Nat) (bits : Nat) : (raiseInt s p bits).fw = s.fw := by
  unfold raiseInt; dsimp only; split
  · rfl
  · split <;> simp
@[simp] theorem raiseInt_host (s : State) (p : Nat) (bits : Nat) : (raiseInt s p bits).host = s.host := by
  unfold raiseInt; dsimp only; split
  · rfl
  · split <;> simp
@[simp] theorem raiseInt_fabric (s : State) (p : Nat) (bits : Nat) : (raiseInt s p bits).fabric = s.fabric := by
  unfold raiseInt; dsimp only; split
  · rfl
  · split <;> simp
@[simp] theorem raiseInt_mgmt (s : State) (p : Nat) (bits : Nat) : (raiseInt s p bits).mgmt = s.mgmt := by
  unfold raiseInt; dsimp only; split
  · rfl
  · split <;> simp
@[simp] theorem raiseInt_journal (s : State) (p : Nat) (bits : Nat) : (raiseInt s p bits).journal = s.journal := by
  unfold raiseInt; dsimp only; split
  · rfl
  · split <;> simp
@[simp] theorem raiseInt_mirror (s : State) (p : Nat) (bits : Nat) : (raiseInt s p bits).mirror = s.mirror := by
  unfold raiseInt; dsimp only; split
  · rfl
  · split <;> simp
@[simp] theorem raiseInt_si (s : State) (p : Nat) (bits : Nat) : (raiseInt s p bits).si = s.si := by
  unfold raiseInt; dsimp only; split
  · rfl
  · split <;> simp
@[simp] theorem raiseInt_mem (s : State) (p : Nat) (bits : Nat) : (raiseInt s p bits).mem = s.mem := by
  unfold raiseInt; dsimp only; split
  · rfl
  · split <;> simp
@[simp] theorem raiseInt_ctxs (s : State) (p : Nat) (bits : Nat) : (raiseInt s p bits).ctxs = s.ctxs := by
  unfold raiseInt; dsimp only; split
  · rfl
  · split <;> simp
@[simp] theorem raiseInt_hostMem (s : State) (p : Nat) (bits : Nat) : (raiseInt s p bits).hostMem = s.hostMem := by
  unfold raiseInt; dsimp only; split
  · rfl
  · split <;> simp
@[simp] theorem raiseInt_free (s : State) (p : Nat) (bits : Nat) : (raiseInt s p bits).free = s.free := by
  unfold raiseInt; dsimp only; split
  · rfl
  · split <;> simp
@[simp] theorem raiseInt_pending (s : State) (p : Nat) (bits : Nat) : (raiseInt s p bits).pending = s.pending := by
  unfold raiseInt; dsimp only; split
  · rfl
  · split <;> simp

/-! ### `logError`: pages and outputs alone -/

@[simp] theorem logError_pins (s : State) (p : Nat) (code : Nat) (addr : Nat) (syn : Nat) : (logError s p code addr syn).pins = s.pins := by
  unfold logError; dsimp only; split <;> simp
@[simp] theorem logError_clock (s : State) (p : Nat) (code : Nat) (addr : Nat) (syn : Nat) : (logError s p code addr syn).clock = s.clock := by
  unfold logError; dsimp only; split <;> simp
@[simp] theorem logError_control (s : State) (p : Nat) (code : Nat) (addr : Nat) (syn : Nat) : (logError s p code addr syn).control = s.control := by
  unfold logError; dsimp only; split <;> simp
@[simp] theorem logError_fw (s : State) (p : Nat) (code : Nat) (addr : Nat) (syn : Nat) : (logError s p code addr syn).fw = s.fw := by
  unfold logError; dsimp only; split <;> simp
@[simp] theorem logError_host (s : State) (p : Nat) (code : Nat) (addr : Nat) (syn : Nat) : (logError s p code addr syn).host = s.host := by
  unfold logError; dsimp only; split <;> simp
@[simp] theorem logError_fabric (s : State) (p : Nat) (code : Nat) (addr : Nat) (syn : Nat) : (logError s p code addr syn).fabric = s.fabric := by
  unfold logError; dsimp only; split <;> simp
@[simp] theorem logError_mgmt (s : State) (p : Nat) (code : Nat) (addr : Nat) (syn : Nat) : (logError s p code addr syn).mgmt = s.mgmt := by
  unfold logError; dsimp only; split <;> simp
@[simp] theorem logError_journal (s : State) (p : Nat) (code : Nat) (addr : Nat) (syn : Nat) : (logError s p code addr syn).journal = s.journal := by
  unfold logError; dsimp only; split <;> simp
@[simp] theorem logError_mirror (s : State) (p : Nat) (code : Nat) (addr : Nat) (syn : Nat) : (logError s p code addr syn).mirror = s.mirror := by
  unfold logError; dsimp only; split <;> simp
@[simp] theorem logError_si (s : State) (p : Nat) (code : Nat) (addr : Nat) (syn : Nat) : (logError s p code addr syn).si = s.si := by
  unfold logError; dsimp only; split <;> simp
@[simp] theorem logError_mem (s : State) (p : Nat) (code : Nat) (addr : Nat) (syn : Nat) : (logError s p code addr syn).mem = s.mem := by
  unfold logError; dsimp only; split <;> simp
@[simp] theorem logError_ctxs (s : State) (p : Nat) (code : Nat) (addr : Nat) (syn : Nat) : (logError s p code addr syn).ctxs = s.ctxs := by
  unfold logError; dsimp only; split <;> simp
@[simp] theorem logError_hostMem (s : State) (p : Nat) (code : Nat) (addr : Nat) (syn : Nat) : (logError s p code addr syn).hostMem = s.hostMem := by
  unfold logError; dsimp only; split <;> simp
@[simp] theorem logError_free (s : State) (p : Nat) (code : Nat) (addr : Nat) (syn : Nat) : (logError s p code addr syn).free = s.free := by
  unfold logError; dsimp only; split <;> simp
@[simp] theorem logError_pending (s : State) (p : Nat) (code : Nat) (addr : Nat) (syn : Nat) : (logError s p code addr syn).pending = s.pending := by
  unfold logError; dsimp only; split <;> simp

/-! ### `devEvent`: pages and outputs alone -/

@[simp] theorem devEvent_pins (s : State) (bit : Nat) : (devEvent s bit).pins = s.pins := by
  simp [devEvent]
@[simp] theorem devEvent_clock (s : State) (bit : Nat) : (devEvent s bit).clock = s.clock := by
  simp [devEvent]
@[simp] theorem devEvent_control (s : State) (bit : Nat) : (devEvent s bit).control = s.control := by
  simp [devEvent]
@[simp] theorem devEvent_fw (s : State) (bit : Nat) : (devEvent s bit).fw = s.fw := by
  simp [devEvent]
@[simp] theorem devEvent_host (s : State) (bit : Nat) : (devEvent s bit).host = s.host := by
  simp [devEvent]
@[simp] theorem devEvent_fabric (s : State) (bit : Nat) : (devEvent s bit).fabric = s.fabric := by
  simp [devEvent]
@[simp] theorem devEvent_mgmt (s : State) (bit : Nat) : (devEvent s bit).mgmt = s.mgmt := by
  simp [devEvent]
@[simp] theorem devEvent_journal (s : State) (bit : Nat) : (devEvent s bit).journal = s.journal := by
  simp [devEvent]
@[simp] theorem devEvent_mirror (s : State) (bit : Nat) : (devEvent s bit).mirror = s.mirror := by
  simp [devEvent]
@[simp] theorem devEvent_si (s : State) (bit : Nat) : (devEvent s bit).si = s.si := by
  simp [devEvent]
@[simp] theorem devEvent_mem (s : State) (bit : Nat) : (devEvent s bit).mem = s.mem := by
  simp [devEvent]
@[simp] theorem devEvent_ctxs (s : State) (bit : Nat) : (devEvent s bit).ctxs = s.ctxs := by
  simp [devEvent]
@[simp] theorem devEvent_hostMem (s : State) (bit : Nat) : (devEvent s bit).hostMem = s.hostMem := by
  simp [devEvent]
@[simp] theorem devEvent_free (s : State) (bit : Nat) : (devEvent s bit).free = s.free := by
  simp [devEvent]
@[simp] theorem devEvent_pending (s : State) (bit : Nat) : (devEvent s bit).pending = s.pending := by
  simp [devEvent]

/-! ### `poke`: memories and the contexts alone -/

@[simp] theorem poke_pins (s : State) (c : Nat) (p : Place) (b : Byte) : (poke s c p b).pins = s.pins := by
  unfold poke; split <;> simp
@[simp] theorem poke_clock (s : State) (c : Nat) (p : Place) (b : Byte) : (poke s c p b).clock = s.clock := by
  unfold poke; split <;> simp
@[simp] theorem poke_control (s : State) (c : Nat) (p : Place) (b : Byte) : (poke s c p b).control = s.control := by
  unfold poke; split <;> simp
@[simp] theorem poke_fw (s : State) (c : Nat) (p : Place) (b : Byte) : (poke s c p b).fw = s.fw := by
  unfold poke; split <;> simp
@[simp] theorem poke_regs (s : State) (c : Nat) (p : Place) (b : Byte) : (poke s c p b).regs = s.regs := by
  unfold poke; split <;> simp
@[simp] theorem poke_host (s : State) (c : Nat) (p : Place) (b : Byte) : (poke s c p b).host = s.host := by
  unfold poke; split <;> simp
@[simp] theorem poke_fabric (s : State) (c : Nat) (p : Place) (b : Byte) : (poke s c p b).fabric = s.fabric := by
  unfold poke; split <;> simp
@[simp] theorem poke_mgmt (s : State) (c : Nat) (p : Place) (b : Byte) : (poke s c p b).mgmt = s.mgmt := by
  unfold poke; split <;> simp
@[simp] theorem poke_journal (s : State) (c : Nat) (p : Place) (b : Byte) : (poke s c p b).journal = s.journal := by
  unfold poke; split <;> simp
@[simp] theorem poke_mirror (s : State) (c : Nat) (p : Place) (b : Byte) : (poke s c p b).mirror = s.mirror := by
  unfold poke; split <;> simp
@[simp] theorem poke_si (s : State) (c : Nat) (p : Place) (b : Byte) : (poke s c p b).si = s.si := by
  unfold poke; split <;> simp
@[simp] theorem poke_free (s : State) (c : Nat) (p : Place) (b : Byte) : (poke s c p b).free = s.free := by
  unfold poke; split <;> simp
@[simp] theorem poke_out (s : State) (c : Nat) (p : Place) (b : Byte) : (poke s c p b).out = s.out := by
  unfold poke; split <;> simp
@[simp] theorem poke_pending (s : State) (c : Nat) (p : Place) (b : Byte) : (poke s c p b).pending = s.pending := by
  unfold poke; split <;> simp

/-! ### `setPoison`: device memory and the contexts alone -/

@[simp] theorem setPoison_pins (s : State) (c : Nat) (p : Place) (on : Bool) : (setPoison s c p on).pins = s.pins := by
  unfold setPoison; dsimp only; split <;> simp
@[simp] theorem setPoison_clock (s : State) (c : Nat) (p : Place) (on : Bool) : (setPoison s c p on).clock = s.clock := by
  unfold setPoison; dsimp only; split <;> simp
@[simp] theorem setPoison_control (s : State) (c : Nat) (p : Place) (on : Bool) : (setPoison s c p on).control = s.control := by
  unfold setPoison; dsimp only; split <;> simp
@[simp] theorem setPoison_fw (s : State) (c : Nat) (p : Place) (on : Bool) : (setPoison s c p on).fw = s.fw := by
  unfold setPoison; dsimp only; split <;> simp
@[simp] theorem setPoison_regs (s : State) (c : Nat) (p : Place) (on : Bool) : (setPoison s c p on).regs = s.regs := by
  unfold setPoison; dsimp only; split <;> simp
@[simp] theorem setPoison_host (s : State) (c : Nat) (p : Place) (on : Bool) : (setPoison s c p on).host = s.host := by
  unfold setPoison; dsimp only; split <;> simp
@[simp] theorem setPoison_fabric (s : State) (c : Nat) (p : Place) (on : Bool) : (setPoison s c p on).fabric = s.fabric := by
  unfold setPoison; dsimp only; split <;> simp
@[simp] theorem setPoison_mgmt (s : State) (c : Nat) (p : Place) (on : Bool) : (setPoison s c p on).mgmt = s.mgmt := by
  unfold setPoison; dsimp only; split <;> simp
@[simp] theorem setPoison_journal (s : State) (c : Nat) (p : Place) (on : Bool) : (setPoison s c p on).journal = s.journal := by
  unfold setPoison; dsimp only; split <;> simp
@[simp] theorem setPoison_mirror (s : State) (c : Nat) (p : Place) (on : Bool) : (setPoison s c p on).mirror = s.mirror := by
  unfold setPoison; dsimp only; split <;> simp
@[simp] theorem setPoison_si (s : State) (c : Nat) (p : Place) (on : Bool) : (setPoison s c p on).si = s.si := by
  unfold setPoison; dsimp only; split <;> simp
@[simp] theorem setPoison_hostMem (s : State) (c : Nat) (p : Place) (on : Bool) : (setPoison s c p on).hostMem = s.hostMem := by
  unfold setPoison; dsimp only; split <;> simp
@[simp] theorem setPoison_free (s : State) (c : Nat) (p : Place) (on : Bool) : (setPoison s c p on).free = s.free := by
  unfold setPoison; dsimp only; split <;> simp
@[simp] theorem setPoison_out (s : State) (c : Nat) (p : Place) (on : Bool) : (setPoison s c p on).out = s.out := by
  unfold setPoison; dsimp only; split <;> simp
@[simp] theorem setPoison_pending (s : State) (c : Nat) (p : Place) (on : Bool) : (setPoison s c p on).pending = s.pending := by
  unfold setPoison; dsimp only; split <;> simp

/-! ### `setQueue`: the host interface and the contexts alone -/

@[simp] theorem setQueue_pins (s : State) (q : QRef) (v : Queue) : (setQueue s q v).pins = s.pins := by
  unfold setQueue; split
  · split <;> rfl
  · simp
@[simp] theorem setQueue_clock (s : State) (q : QRef) (v : Queue) : (setQueue s q v).clock = s.clock := by
  unfold setQueue; split
  · split <;> rfl
  · simp
@[simp] theorem setQueue_control (s : State) (q : QRef) (v : Queue) : (setQueue s q v).control = s.control := by
  unfold setQueue; split
  · split <;> rfl
  · simp
@[simp] theorem setQueue_fw (s : State) (q : QRef) (v : Queue) : (setQueue s q v).fw = s.fw := by
  unfold setQueue; split
  · split <;> rfl
  · simp
@[simp] theorem setQueue_regs (s : State) (q : QRef) (v : Queue) : (setQueue s q v).regs = s.regs := by
  unfold setQueue; split
  · split <;> rfl
  · simp
@[simp] theorem setQueue_fabric (s : State) (q : QRef) (v : Queue) : (setQueue s q v).fabric = s.fabric := by
  unfold setQueue; split
  · split <;> rfl
  · simp
@[simp] theorem setQueue_mgmt (s : State) (q : QRef) (v : Queue) : (setQueue s q v).mgmt = s.mgmt := by
  unfold setQueue; split
  · split <;> rfl
  · simp
@[simp] theorem setQueue_journal (s : State) (q : QRef) (v : Queue) : (setQueue s q v).journal = s.journal := by
  unfold setQueue; split
  · split <;> rfl
  · simp
@[simp] theorem setQueue_mirror (s : State) (q : QRef) (v : Queue) : (setQueue s q v).mirror = s.mirror := by
  unfold setQueue; split
  · split <;> rfl
  · simp
@[simp] theorem setQueue_si (s : State) (q : QRef) (v : Queue) : (setQueue s q v).si = s.si := by
  unfold setQueue; split
  · split <;> rfl
  · simp
@[simp] theorem setQueue_mem (s : State) (q : QRef) (v : Queue) : (setQueue s q v).mem = s.mem := by
  unfold setQueue; split
  · split <;> rfl
  · simp
@[simp] theorem setQueue_hostMem (s : State) (q : QRef) (v : Queue) : (setQueue s q v).hostMem = s.hostMem := by
  unfold setQueue; split
  · split <;> rfl
  · simp
@[simp] theorem setQueue_free (s : State) (q : QRef) (v : Queue) : (setQueue s q v).free = s.free := by
  unfold setQueue; split
  · split <;> rfl
  · simp
@[simp] theorem setQueue_out (s : State) (q : QRef) (v : Queue) : (setQueue s q v).out = s.out := by
  unfold setQueue; split
  · split <;> rfl
  · simp
@[simp] theorem setQueue_pending (s : State) (q : QRef) (v : Queue) : (setQueue s q v).pending = s.pending := by
  unfold setQueue; split
  · split <;> rfl
  · simp

/-! ### `setCmds`: the host interface and the contexts alone -/

@[simp] theorem setCmds_pins (s : State) (q : QRef) (l : List Cmd) : (setCmds s q l).pins = s.pins := by
  unfold setCmds; split
  · split <;> rfl
  · simp
@[simp] theorem setCmds_clock (s : State) (q : QRef) (l : List Cmd) : (setCmds s q l).clock = s.clock := by
  unfold setCmds; split
  · split <;> rfl
  · simp
@[simp] theorem setCmds_control (s : State) (q : QRef) (l : List Cmd) : (setCmds s q l).control = s.control := by
  unfold setCmds; split
  · split <;> rfl
  · simp
@[simp] theorem setCmds_fw (s : State) (q : QRef) (l : List Cmd) : (setCmds s q l).fw = s.fw := by
  unfold setCmds; split
  · split <;> rfl
  · simp
@[simp] theorem setCmds_regs (s : State) (q : QRef) (l : List Cmd) : (setCmds s q l).regs = s.regs := by
  unfold setCmds; split
  · split <;> rfl
  · simp
@[simp] theorem setCmds_fabric (s : State) (q : QRef) (l : List Cmd) : (setCmds s q l).fabric = s.fabric := by
  unfold setCmds; split
  · split <;> rfl
  · simp
@[simp] theorem setCmds_mgmt (s : State) (q : QRef) (l : List Cmd) : (setCmds s q l).mgmt = s.mgmt := by
  unfold setCmds; split
  · split <;> rfl
  · simp
@[simp] theorem setCmds_journal (s : State) (q : QRef) (l : List Cmd) : (setCmds s q l).journal = s.journal := by
  unfold setCmds; split
  · split <;> rfl
  · simp
@[simp] theorem setCmds_mirror (s : State) (q : QRef) (l : List Cmd) : (setCmds s q l).mirror = s.mirror := by
  unfold setCmds; split
  · split <;> rfl
  · simp
@[simp] theorem setCmds_si (s : State) (q : QRef) (l : List Cmd) : (setCmds s q l).si = s.si := by
  unfold setCmds; split
  · split <;> rfl
  · simp
@[simp] theorem setCmds_mem (s : State) (q : QRef) (l : List Cmd) : (setCmds s q l).mem = s.mem := by
  unfold setCmds; split
  · split <;> rfl
  · simp
@[simp] theorem setCmds_hostMem (s : State) (q : QRef) (l : List Cmd) : (setCmds s q l).hostMem = s.hostMem := by
  unfold setCmds; split
  · split <;> rfl
  · simp
@[simp] theorem setCmds_free (s : State) (q : QRef) (l : List Cmd) : (setCmds s q l).free = s.free := by
  unfold setCmds; split
  · split <;> rfl
  · simp
@[simp] theorem setCmds_out (s : State) (q : QRef) (l : List Cmd) : (setCmds s q l).out = s.out := by
  unfold setCmds; split
  · split <;> rfl
  · simp
@[simp] theorem setCmds_pending (s : State) (q : QRef) (l : List Cmd) : (setCmds s q l).pending = s.pending := by
  unfold setCmds; split
  · split <;> rfl
  · simp

/-! ### `journalWrite`: the journal and its mirror alone -/

@[simp] theorem journalWrite_pins (s : State) (e : Journalled) : (journalWrite s e).pins = s.pins := rfl
@[simp] theorem journalWrite_clock (s : State) (e : Journalled) : (journalWrite s e).clock = s.clock := rfl
@[simp] theorem journalWrite_control (s : State) (e : Journalled) : (journalWrite s e).control = s.control := rfl
@[simp] theorem journalWrite_fw (s : State) (e : Journalled) : (journalWrite s e).fw = s.fw := rfl
@[simp] theorem journalWrite_regs (s : State) (e : Journalled) : (journalWrite s e).regs = s.regs := rfl
@[simp] theorem journalWrite_host (s : State) (e : Journalled) : (journalWrite s e).host = s.host := rfl
@[simp] theorem journalWrite_fabric (s : State) (e : Journalled) : (journalWrite s e).fabric = s.fabric := rfl
@[simp] theorem journalWrite_mgmt (s : State) (e : Journalled) : (journalWrite s e).mgmt = s.mgmt := rfl
@[simp] theorem journalWrite_si (s : State) (e : Journalled) : (journalWrite s e).si = s.si := rfl
@[simp] theorem journalWrite_mem (s : State) (e : Journalled) : (journalWrite s e).mem = s.mem := rfl
@[simp] theorem journalWrite_ctxs (s : State) (e : Journalled) : (journalWrite s e).ctxs = s.ctxs := rfl
@[simp] theorem journalWrite_hostMem (s : State) (e : Journalled) : (journalWrite s e).hostMem = s.hostMem := rfl
@[simp] theorem journalWrite_free (s : State) (e : Journalled) : (journalWrite s e).free = s.free := rfl
@[simp] theorem journalWrite_out (s : State) (e : Journalled) : (journalWrite s e).out = s.out := rfl
@[simp] theorem journalWrite_pending (s : State) (e : Journalled) : (journalWrite s e).pending = s.pending := rfl

/-! ### `putEntry`: an entry in host memory, its queue and a message -/

@[simp] theorem putEntry_pins (s : State) (q : QRef) (v : Queue) (e : Compl) : (putEntry s q v e).pins = s.pins := by
  unfold putEntry; dsimp only; split <;> simp
@[simp] theorem putEntry_clock (s : State) (q : QRef) (v : Queue) (e : Compl) : (putEntry s q v e).clock = s.clock := by
  unfold putEntry; dsimp only; split <;> simp
@[simp] theorem putEntry_control (s : State) (q : QRef) (v : Queue) (e : Compl) : (putEntry s q v e).control = s.control := by
  unfold putEntry; dsimp only; split <;> simp
@[simp] theorem putEntry_fw (s : State) (q : QRef) (v : Queue) (e : Compl) : (putEntry s q v e).fw = s.fw := by
  unfold putEntry; dsimp only; split <;> simp
@[simp] theorem putEntry_regs (s : State) (q : QRef) (v : Queue) (e : Compl) : (putEntry s q v e).regs = s.regs := by
  unfold putEntry; dsimp only; split <;> simp
@[simp] theorem putEntry_fabric (s : State) (q : QRef) (v : Queue) (e : Compl) : (putEntry s q v e).fabric = s.fabric := by
  unfold putEntry; dsimp only; split <;> simp
@[simp] theorem putEntry_mgmt (s : State) (q : QRef) (v : Queue) (e : Compl) : (putEntry s q v e).mgmt = s.mgmt := by
  unfold putEntry; dsimp only; split <;> simp
@[simp] theorem putEntry_si (s : State) (q : QRef) (v : Queue) (e : Compl) : (putEntry s q v e).si = s.si := by
  unfold putEntry; dsimp only; split <;> simp
@[simp] theorem putEntry_mem (s : State) (q : QRef) (v : Queue) (e : Compl) : (putEntry s q v e).mem = s.mem := by
  unfold putEntry; dsimp only; split <;> simp
@[simp] theorem putEntry_free (s : State) (q : QRef) (v : Queue) (e : Compl) : (putEntry s q v e).free = s.free := by
  unfold putEntry; dsimp only; split <;> simp
@[simp] theorem putEntry_pending (s : State) (q : QRef) (v : Queue) (e : Compl) : (putEntry s q v e).pending = s.pending := by
  unfold putEntry; dsimp only; split <;> simp

/-! ### `postEntry`: an entry in host memory, or held in its queue -/

@[simp] theorem postEntry_pins (s : State) (q : QRef) (e : Compl) : (postEntry s q e).pins = s.pins := by
  unfold postEntry; split
  · rfl
  · split <;> simp
@[simp] theorem postEntry_clock (s : State) (q : QRef) (e : Compl) : (postEntry s q e).clock = s.clock := by
  unfold postEntry; split
  · rfl
  · split <;> simp
@[simp] theorem postEntry_control (s : State) (q : QRef) (e : Compl) : (postEntry s q e).control = s.control := by
  unfold postEntry; split
  · rfl
  · split <;> simp
@[simp] theorem postEntry_fw (s : State) (q : QRef) (e : Compl) : (postEntry s q e).fw = s.fw := by
  unfold postEntry; split
  · rfl
  · split <;> simp
@[simp] theorem postEntry_regs (s : State) (q : QRef) (e : Compl) : (postEntry s q e).regs = s.regs := by
  unfold postEntry; split
  · rfl
  · split <;> simp
@[simp] theorem postEntry_fabric (s : State) (q : QRef) (e : Compl) : (postEntry s q e).fabric = s.fabric := by
  unfold postEntry; split
  · rfl
  · split <;> simp
@[simp] theorem postEntry_mgmt (s : State) (q : QRef) (e : Compl) : (postEntry s q e).mgmt = s.mgmt := by
  unfold postEntry; split
  · rfl
  · split <;> simp
@[simp] theorem postEntry_si (s : State) (q : QRef) (e : Compl) : (postEntry s q e).si = s.si := by
  unfold postEntry; split
  · rfl
  · split <;> simp
@[simp] theorem postEntry_mem (s : State) (q : QRef) (e : Compl) : (postEntry s q e).mem = s.mem := by
  unfold postEntry; split
  · rfl
  · split <;> simp
@[simp] theorem postEntry_free (s : State) (q : QRef) (e : Compl) : (postEntry s q e).free = s.free := by
  unfold postEntry; split
  · rfl
  · split <;> simp
@[simp] theorem postEntry_pending (s : State) (q : QRef) (e : Compl) : (postEntry s q e).pending = s.pending := by
  unfold postEntry; split
  · rfl
  · split <;> simp

/-! ### `completeOne`: an entry, the commands in flight, and a count -/

@[simp] theorem completeOne_pins (s : State) (q : QRef) (cid : Nat) (st : Status) (result : Nat) : (completeOne s q cid st result).pins = s.pins := by
  simp [completeOne]
@[simp] theorem completeOne_clock (s : State) (q : QRef) (cid : Nat) (st : Status) (result : Nat) : (completeOne s q cid st result).clock = s.clock := by
  simp [completeOne]
@[simp] theorem completeOne_control (s : State) (q : QRef) (cid : Nat) (st : Status) (result : Nat) : (completeOne s q cid st result).control = s.control := by
  simp [completeOne]
@[simp] theorem completeOne_fw (s : State) (q : QRef) (cid : Nat) (st : Status) (result : Nat) : (completeOne s q cid st result).fw = s.fw := by
  simp [completeOne]
@[simp] theorem completeOne_fabric (s : State) (q : QRef) (cid : Nat) (st : Status) (result : Nat) : (completeOne s q cid st result).fabric = s.fabric := by
  simp [completeOne]
@[simp] theorem completeOne_mgmt (s : State) (q : QRef) (cid : Nat) (st : Status) (result : Nat) : (completeOne s q cid st result).mgmt = s.mgmt := by
  simp [completeOne]
@[simp] theorem completeOne_si (s : State) (q : QRef) (cid : Nat) (st : Status) (result : Nat) : (completeOne s q cid st result).si = s.si := by
  simp [completeOne]
@[simp] theorem completeOne_mem (s : State) (q : QRef) (cid : Nat) (st : Status) (result : Nat) : (completeOne s q cid st result).mem = s.mem := by
  simp [completeOne]
@[simp] theorem completeOne_free (s : State) (q : QRef) (cid : Nat) (st : Status) (result : Nat) : (completeOne s q cid st result).free = s.free := by
  simp [completeOne]
@[simp] theorem completeOne_pending (s : State) (q : QRef) (cid : Nat) (st : Status) (result : Nat) : (completeOne s q cid st result).pending = s.pending := by
  simp [completeOne]

/-! ### `releaseFences`: entries, the commands in flight, and counts -/

@[simp] theorem releaseFences_pins (q : QRef) (n : Nat) (s : State) : (releaseFences q n s).pins = s.pins := by
  induction n generalizing s with
  | zero => rfl
  | succ n ih =>
    unfold releaseFences
    split
    · rfl
    · rw [ih]; simp
@[simp] theorem releaseFences_clock (q : QRef) (n : Nat) (s : State) : (releaseFences q n s).clock = s.clock := by
  induction n generalizing s with
  | zero => rfl
  | succ n ih =>
    unfold releaseFences
    split
    · rfl
    · rw [ih]; simp
@[simp] theorem releaseFences_control (q : QRef) (n : Nat) (s : State) : (releaseFences q n s).control = s.control := by
  induction n generalizing s with
  | zero => rfl
  | succ n ih =>
    unfold releaseFences
    split
    · rfl
    · rw [ih]; simp
@[simp] theorem releaseFences_fw (q : QRef) (n : Nat) (s : State) : (releaseFences q n s).fw = s.fw := by
  induction n generalizing s with
  | zero => rfl
  | succ n ih =>
    unfold releaseFences
    split
    · rfl
    · rw [ih]; simp
@[simp] theorem releaseFences_fabric (q : QRef) (n : Nat) (s : State) : (releaseFences q n s).fabric = s.fabric := by
  induction n generalizing s with
  | zero => rfl
  | succ n ih =>
    unfold releaseFences
    split
    · rfl
    · rw [ih]; simp
@[simp] theorem releaseFences_mgmt (q : QRef) (n : Nat) (s : State) : (releaseFences q n s).mgmt = s.mgmt := by
  induction n generalizing s with
  | zero => rfl
  | succ n ih =>
    unfold releaseFences
    split
    · rfl
    · rw [ih]; simp
@[simp] theorem releaseFences_si (q : QRef) (n : Nat) (s : State) : (releaseFences q n s).si = s.si := by
  induction n generalizing s with
  | zero => rfl
  | succ n ih =>
    unfold releaseFences
    split
    · rfl
    · rw [ih]; simp
@[simp] theorem releaseFences_mem (q : QRef) (n : Nat) (s : State) : (releaseFences q n s).mem = s.mem := by
  induction n generalizing s with
  | zero => rfl
  | succ n ih =>
    unfold releaseFences
    split
    · rfl
    · rw [ih]; simp
@[simp] theorem releaseFences_free (q : QRef) (n : Nat) (s : State) : (releaseFences q n s).free = s.free := by
  induction n generalizing s with
  | zero => rfl
  | succ n ih =>
    unfold releaseFences
    split
    · rfl
    · rw [ih]; simp
@[simp] theorem releaseFences_pending (q : QRef) (n : Nat) (s : State) : (releaseFences q n s).pending = s.pending := by
  induction n generalizing s with
  | zero => rfl
  | succ n ih =>
    unfold releaseFences
    split
    · rfl
    · rw [ih]; simp

/-! ### `complete`: a completion reaches queues, commands, host memory, outputs and counters alone -/

@[simp] theorem complete_pins (s : State) (q : QRef) (cid : Nat) (st : Status) (result : Nat) : (complete s q cid st result).pins = s.pins := by
  simp [complete]
@[simp] theorem complete_clock (s : State) (q : QRef) (cid : Nat) (st : Status) (result : Nat) : (complete s q cid st result).clock = s.clock := by
  simp [complete]
@[simp] theorem complete_control (s : State) (q : QRef) (cid : Nat) (st : Status) (result : Nat) : (complete s q cid st result).control = s.control := by
  simp [complete]
@[simp] theorem complete_fw (s : State) (q : QRef) (cid : Nat) (st : Status) (result : Nat) : (complete s q cid st result).fw = s.fw := by
  simp [complete]
@[simp] theorem complete_fabric (s : State) (q : QRef) (cid : Nat) (st : Status) (result : Nat) : (complete s q cid st result).fabric = s.fabric := by
  simp [complete]
@[simp] theorem complete_mgmt (s : State) (q : QRef) (cid : Nat) (st : Status) (result : Nat) : (complete s q cid st result).mgmt = s.mgmt := by
  simp [complete]
@[simp] theorem complete_si (s : State) (q : QRef) (cid : Nat) (st : Status) (result : Nat) : (complete s q cid st result).si = s.si := by
  simp [complete]
@[simp] theorem complete_mem (s : State) (q : QRef) (cid : Nat) (st : Status) (result : Nat) : (complete s q cid st result).mem = s.mem := by
  simp [complete]
@[simp] theorem complete_free (s : State) (q : QRef) (cid : Nat) (st : Status) (result : Nat) : (complete s q cid st result).free = s.free := by
  simp [complete]
@[simp] theorem complete_pending (s : State) (q : QRef) (cid : Nat) (st : Status) (result : Nat) : (complete s q cid st result).pending = s.pending := by
  simp [complete]

/-! ### `startCmd`: the commands in flight alone -/

@[simp] theorem startCmd_pins (s : State) (sub : Sub) (opcode : Nat) (body : Bytes) : (startCmd s sub opcode body).pins = s.pins := by
  unfold startCmd; simp
@[simp] theorem startCmd_clock (s : State) (sub : Sub) (opcode : Nat) (body : Bytes) : (startCmd s sub opcode body).clock = s.clock := by
  unfold startCmd; simp
@[simp] theorem startCmd_control (s : State) (sub : Sub) (opcode : Nat) (body : Bytes) : (startCmd s sub opcode body).control = s.control := by
  unfold startCmd; simp
@[simp] theorem startCmd_fw (s : State) (sub : Sub) (opcode : Nat) (body : Bytes) : (startCmd s sub opcode body).fw = s.fw := by
  unfold startCmd; simp
@[simp] theorem startCmd_regs (s : State) (sub : Sub) (opcode : Nat) (body : Bytes) : (startCmd s sub opcode body).regs = s.regs := by
  unfold startCmd; simp
@[simp] theorem startCmd_fabric (s : State) (sub : Sub) (opcode : Nat) (body : Bytes) : (startCmd s sub opcode body).fabric = s.fabric := by
  unfold startCmd; simp
@[simp] theorem startCmd_mgmt (s : State) (sub : Sub) (opcode : Nat) (body : Bytes) : (startCmd s sub opcode body).mgmt = s.mgmt := by
  unfold startCmd; simp
@[simp] theorem startCmd_si (s : State) (sub : Sub) (opcode : Nat) (body : Bytes) : (startCmd s sub opcode body).si = s.si := by
  unfold startCmd; simp
@[simp] theorem startCmd_mem (s : State) (sub : Sub) (opcode : Nat) (body : Bytes) : (startCmd s sub opcode body).mem = s.mem := by
  unfold startCmd; simp
@[simp] theorem startCmd_hostMem (s : State) (sub : Sub) (opcode : Nat) (body : Bytes) : (startCmd s sub opcode body).hostMem = s.hostMem := by
  unfold startCmd; simp
@[simp] theorem startCmd_free (s : State) (sub : Sub) (opcode : Nat) (body : Bytes) : (startCmd s sub opcode body).free = s.free := by
  unfold startCmd; simp
@[simp] theorem startCmd_out (s : State) (sub : Sub) (opcode : Nat) (body : Bytes) : (startCmd s sub opcode body).out = s.out := by
  unfold startCmd; simp
@[simp] theorem startCmd_pending (s : State) (sub : Sub) (opcode : Nat) (body : Bytes) : (startCmd s sub opcode body).pending = s.pending := by
  unfold startCmd; simp

/-! ### `addRecAt`: a transcript alone -/

@[simp] theorem addRecAt_pins (s : State) (c : Nat) (step : Nat) (r : TRec) : (addRecAt s c step r).pins = s.pins := by
  simp [addRecAt]
@[simp] theorem addRecAt_clock (s : State) (c : Nat) (step : Nat) (r : TRec) : (addRecAt s c step r).clock = s.clock := by
  simp [addRecAt]
@[simp] theorem addRecAt_control (s : State) (c : Nat) (step : Nat) (r : TRec) : (addRecAt s c step r).control = s.control := by
  simp [addRecAt]
@[simp] theorem addRecAt_fw (s : State) (c : Nat) (step : Nat) (r : TRec) : (addRecAt s c step r).fw = s.fw := by
  simp [addRecAt]
@[simp] theorem addRecAt_regs (s : State) (c : Nat) (step : Nat) (r : TRec) : (addRecAt s c step r).regs = s.regs := by
  simp [addRecAt]
@[simp] theorem addRecAt_host (s : State) (c : Nat) (step : Nat) (r : TRec) : (addRecAt s c step r).host = s.host := by
  simp [addRecAt]
@[simp] theorem addRecAt_fabric (s : State) (c : Nat) (step : Nat) (r : TRec) : (addRecAt s c step r).fabric = s.fabric := by
  simp [addRecAt]
@[simp] theorem addRecAt_mgmt (s : State) (c : Nat) (step : Nat) (r : TRec) : (addRecAt s c step r).mgmt = s.mgmt := by
  simp [addRecAt]
@[simp] theorem addRecAt_journal (s : State) (c : Nat) (step : Nat) (r : TRec) : (addRecAt s c step r).journal = s.journal := by
  simp [addRecAt]
@[simp] theorem addRecAt_mirror (s : State) (c : Nat) (step : Nat) (r : TRec) : (addRecAt s c step r).mirror = s.mirror := by
  simp [addRecAt]
@[simp] theorem addRecAt_si (s : State) (c : Nat) (step : Nat) (r : TRec) : (addRecAt s c step r).si = s.si := by
  simp [addRecAt]
@[simp] theorem addRecAt_mem (s : State) (c : Nat) (step : Nat) (r : TRec) : (addRecAt s c step r).mem = s.mem := by
  simp [addRecAt]
@[simp] theorem addRecAt_hostMem (s : State) (c : Nat) (step : Nat) (r : TRec) : (addRecAt s c step r).hostMem = s.hostMem := by
  simp [addRecAt]
@[simp] theorem addRecAt_free (s : State) (c : Nat) (step : Nat) (r : TRec) : (addRecAt s c step r).free = s.free := by
  simp [addRecAt]
@[simp] theorem addRecAt_out (s : State) (c : Nat) (step : Nat) (r : TRec) : (addRecAt s c step r).out = s.out := by
  simp [addRecAt]
@[simp] theorem addRecAt_pending (s : State) (c : Nat) (step : Nat) (r : TRec) : (addRecAt s c step r).pending = s.pending := by
  simp [addRecAt]

/-! ### `addRec`: a transcript alone -/

@[simp] theorem addRec_pins (s : State) (c : Nat) (r : TRec) : (addRec s c r).pins = s.pins := by
  unfold addRec; split <;> simp
@[simp] theorem addRec_clock (s : State) (c : Nat) (r : TRec) : (addRec s c r).clock = s.clock := by
  unfold addRec; split <;> simp
@[simp] theorem addRec_control (s : State) (c : Nat) (r : TRec) : (addRec s c r).control = s.control := by
  unfold addRec; split <;> simp
@[simp] theorem addRec_fw (s : State) (c : Nat) (r : TRec) : (addRec s c r).fw = s.fw := by
  unfold addRec; split <;> simp
@[simp] theorem addRec_regs (s : State) (c : Nat) (r : TRec) : (addRec s c r).regs = s.regs := by
  unfold addRec; split <;> simp
@[simp] theorem addRec_host (s : State) (c : Nat) (r : TRec) : (addRec s c r).host = s.host := by
  unfold addRec; split <;> simp
@[simp] theorem addRec_fabric (s : State) (c : Nat) (r : TRec) : (addRec s c r).fabric = s.fabric := by
  unfold addRec; split <;> simp
@[simp] theorem addRec_mgmt (s : State) (c : Nat) (r : TRec) : (addRec s c r).mgmt = s.mgmt := by
  unfold addRec; split <;> simp
@[simp] theorem addRec_journal (s : State) (c : Nat) (r : TRec) : (addRec s c r).journal = s.journal := by
  unfold addRec; split <;> simp
@[simp] theorem addRec_mirror (s : State) (c : Nat) (r : TRec) : (addRec s c r).mirror = s.mirror := by
  unfold addRec; split <;> simp
@[simp] theorem addRec_si (s : State) (c : Nat) (r : TRec) : (addRec s c r).si = s.si := by
  unfold addRec; split <;> simp
@[simp] theorem addRec_mem (s : State) (c : Nat) (r : TRec) : (addRec s c r).mem = s.mem := by
  unfold addRec; split <;> simp
@[simp] theorem addRec_hostMem (s : State) (c : Nat) (r : TRec) : (addRec s c r).hostMem = s.hostMem := by
  unfold addRec; split <;> simp
@[simp] theorem addRec_free (s : State) (c : Nat) (r : TRec) : (addRec s c r).free = s.free := by
  unfold addRec; split <;> simp
@[simp] theorem addRec_out (s : State) (c : Nat) (r : TRec) : (addRec s c r).out = s.out := by
  unfold addRec; split <;> simp
@[simp] theorem addRec_pending (s : State) (c : Nat) (r : TRec) : (addRec s c r).pending = s.pending := by
  unfold addRec; split <;> simp

/-! ### `cmdRec`: a transcript alone -/

@[simp] theorem cmdRec_pins (s : State) (c : Nat) (opcode : Nat) (sub : Sub) (body : Bytes) : (cmdRec s c opcode sub body).pins = s.pins := by
  simp [cmdRec]
@[simp] theorem cmdRec_clock (s : State) (c : Nat) (opcode : Nat) (sub : Sub) (body : Bytes) : (cmdRec s c opcode sub body).clock = s.clock := by
  simp [cmdRec]
@[simp] theorem cmdRec_control (s : State) (c : Nat) (opcode : Nat) (sub : Sub) (body : Bytes) : (cmdRec s c opcode sub body).control = s.control := by
  simp [cmdRec]
@[simp] theorem cmdRec_fw (s : State) (c : Nat) (opcode : Nat) (sub : Sub) (body : Bytes) : (cmdRec s c opcode sub body).fw = s.fw := by
  simp [cmdRec]
@[simp] theorem cmdRec_regs (s : State) (c : Nat) (opcode : Nat) (sub : Sub) (body : Bytes) : (cmdRec s c opcode sub body).regs = s.regs := by
  simp [cmdRec]
@[simp] theorem cmdRec_host (s : State) (c : Nat) (opcode : Nat) (sub : Sub) (body : Bytes) : (cmdRec s c opcode sub body).host = s.host := by
  simp [cmdRec]
@[simp] theorem cmdRec_fabric (s : State) (c : Nat) (opcode : Nat) (sub : Sub) (body : Bytes) : (cmdRec s c opcode sub body).fabric = s.fabric := by
  simp [cmdRec]
@[simp] theorem cmdRec_mgmt (s : State) (c : Nat) (opcode : Nat) (sub : Sub) (body : Bytes) : (cmdRec s c opcode sub body).mgmt = s.mgmt := by
  simp [cmdRec]
@[simp] theorem cmdRec_journal (s : State) (c : Nat) (opcode : Nat) (sub : Sub) (body : Bytes) : (cmdRec s c opcode sub body).journal = s.journal := by
  simp [cmdRec]
@[simp] theorem cmdRec_mirror (s : State) (c : Nat) (opcode : Nat) (sub : Sub) (body : Bytes) : (cmdRec s c opcode sub body).mirror = s.mirror := by
  simp [cmdRec]
@[simp] theorem cmdRec_si (s : State) (c : Nat) (opcode : Nat) (sub : Sub) (body : Bytes) : (cmdRec s c opcode sub body).si = s.si := by
  simp [cmdRec]
@[simp] theorem cmdRec_mem (s : State) (c : Nat) (opcode : Nat) (sub : Sub) (body : Bytes) : (cmdRec s c opcode sub body).mem = s.mem := by
  simp [cmdRec]
@[simp] theorem cmdRec_hostMem (s : State) (c : Nat) (opcode : Nat) (sub : Sub) (body : Bytes) : (cmdRec s c opcode sub body).hostMem = s.hostMem := by
  simp [cmdRec]
@[simp] theorem cmdRec_free (s : State) (c : Nat) (opcode : Nat) (sub : Sub) (body : Bytes) : (cmdRec s c opcode sub body).free = s.free := by
  simp [cmdRec]
@[simp] theorem cmdRec_out (s : State) (c : Nat) (opcode : Nat) (sub : Sub) (body : Bytes) : (cmdRec s c opcode sub body).out = s.out := by
  simp [cmdRec]
@[simp] theorem cmdRec_pending (s : State) (c : Nat) (opcode : Nat) (sub : Sub) (body : Bytes) : (cmdRec s c opcode sub body).pending = s.pending := by
  simp [cmdRec]

/-! ### `policyRec`: a transcript alone -/

@[simp] theorem policyRec_pins (s : State) (c : Nat) (sel : Nat) (idx : Nat) (record : Bytes) : (policyRec s c sel idx record).pins = s.pins := by
  simp [policyRec]
@[simp] theorem policyRec_clock (s : State) (c : Nat) (sel : Nat) (idx : Nat) (record : Bytes) : (policyRec s c sel idx record).clock = s.clock := by
  simp [policyRec]
@[simp] theorem policyRec_control (s : State) (c : Nat) (sel : Nat) (idx : Nat) (record : Bytes) : (policyRec s c sel idx record).control = s.control := by
  simp [policyRec]
@[simp] theorem policyRec_fw (s : State) (c : Nat) (sel : Nat) (idx : Nat) (record : Bytes) : (policyRec s c sel idx record).fw = s.fw := by
  simp [policyRec]
@[simp] theorem policyRec_regs (s : State) (c : Nat) (sel : Nat) (idx : Nat) (record : Bytes) : (policyRec s c sel idx record).regs = s.regs := by
  simp [policyRec]
@[simp] theorem policyRec_host (s : State) (c : Nat) (sel : Nat) (idx : Nat) (record : Bytes) : (policyRec s c sel idx record).host = s.host := by
  simp [policyRec]
@[simp] theorem policyRec_fabric (s : State) (c : Nat) (sel : Nat) (idx : Nat) (record : Bytes) : (policyRec s c sel idx record).fabric = s.fabric := by
  simp [policyRec]
@[simp] theorem policyRec_mgmt (s : State) (c : Nat) (sel : Nat) (idx : Nat) (record : Bytes) : (policyRec s c sel idx record).mgmt = s.mgmt := by
  simp [policyRec]
@[simp] theorem policyRec_journal (s : State) (c : Nat) (sel : Nat) (idx : Nat) (record : Bytes) : (policyRec s c sel idx record).journal = s.journal := by
  simp [policyRec]
@[simp] theorem policyRec_mirror (s : State) (c : Nat) (sel : Nat) (idx : Nat) (record : Bytes) : (policyRec s c sel idx record).mirror = s.mirror := by
  simp [policyRec]
@[simp] theorem policyRec_si (s : State) (c : Nat) (sel : Nat) (idx : Nat) (record : Bytes) : (policyRec s c sel idx record).si = s.si := by
  simp [policyRec]
@[simp] theorem policyRec_mem (s : State) (c : Nat) (sel : Nat) (idx : Nat) (record : Bytes) : (policyRec s c sel idx record).mem = s.mem := by
  simp [policyRec]
@[simp] theorem policyRec_hostMem (s : State) (c : Nat) (sel : Nat) (idx : Nat) (record : Bytes) : (policyRec s c sel idx record).hostMem = s.hostMem := by
  simp [policyRec]
@[simp] theorem policyRec_free (s : State) (c : Nat) (sel : Nat) (idx : Nat) (record : Bytes) : (policyRec s c sel idx record).free = s.free := by
  simp [policyRec]
@[simp] theorem policyRec_out (s : State) (c : Nat) (sel : Nat) (idx : Nat) (record : Bytes) : (policyRec s c sel idx record).out = s.out := by
  simp [policyRec]
@[simp] theorem policyRec_pending (s : State) (c : Nat) (sel : Nat) (idx : Nat) (record : Bytes) : (policyRec s c sel idx record).pending = s.pending := by
  simp [policyRec]

/-! ### `eventRec`: a transcript alone -/

@[simp] theorem eventRec_pins (s : State) (c : Nat) (code : Nat) (addr : Nat) : (eventRec s c code addr).pins = s.pins := by
  simp [eventRec]
@[simp] theorem eventRec_clock (s : State) (c : Nat) (code : Nat) (addr : Nat) : (eventRec s c code addr).clock = s.clock := by
  simp [eventRec]
@[simp] theorem eventRec_control (s : State) (c : Nat) (code : Nat) (addr : Nat) : (eventRec s c code addr).control = s.control := by
  simp [eventRec]
@[simp] theorem eventRec_fw (s : State) (c : Nat) (code : Nat) (addr : Nat) : (eventRec s c code addr).fw = s.fw := by
  simp [eventRec]
@[simp] theorem eventRec_regs (s : State) (c : Nat) (code : Nat) (addr : Nat) : (eventRec s c code addr).regs = s.regs := by
  simp [eventRec]
@[simp] theorem eventRec_host (s : State) (c : Nat) (code : Nat) (addr : Nat) : (eventRec s c code addr).host = s.host := by
  simp [eventRec]
@[simp] theorem eventRec_fabric (s : State) (c : Nat) (code : Nat) (addr : Nat) : (eventRec s c code addr).fabric = s.fabric := by
  simp [eventRec]
@[simp] theorem eventRec_mgmt (s : State) (c : Nat) (code : Nat) (addr : Nat) : (eventRec s c code addr).mgmt = s.mgmt := by
  simp [eventRec]
@[simp] theorem eventRec_journal (s : State) (c : Nat) (code : Nat) (addr : Nat) : (eventRec s c code addr).journal = s.journal := by
  simp [eventRec]
@[simp] theorem eventRec_mirror (s : State) (c : Nat) (code : Nat) (addr : Nat) : (eventRec s c code addr).mirror = s.mirror := by
  simp [eventRec]
@[simp] theorem eventRec_si (s : State) (c : Nat) (code : Nat) (addr : Nat) : (eventRec s c code addr).si = s.si := by
  simp [eventRec]
@[simp] theorem eventRec_mem (s : State) (c : Nat) (code : Nat) (addr : Nat) : (eventRec s c code addr).mem = s.mem := by
  simp [eventRec]
@[simp] theorem eventRec_hostMem (s : State) (c : Nat) (code : Nat) (addr : Nat) : (eventRec s c code addr).hostMem = s.hostMem := by
  simp [eventRec]
@[simp] theorem eventRec_free (s : State) (c : Nat) (code : Nat) (addr : Nat) : (eventRec s c code addr).free = s.free := by
  simp [eventRec]
@[simp] theorem eventRec_out (s : State) (c : Nat) (code : Nat) (addr : Nat) : (eventRec s c code addr).out = s.out := by
  simp [eventRec]
@[simp] theorem eventRec_pending (s : State) (c : Nat) (code : Nat) (addr : Nat) : (eventRec s c code addr).pending = s.pending := by
  simp [eventRec]

/-! ### `sendPacket`: pages alone -/

@[simp] theorem sendPacket_pins (s : State) (ctx : Option Nat) (p : Packet) : (sendPacket s ctx p).pins = s.pins := rfl
@[simp] theorem sendPacket_clock (s : State) (ctx : Option Nat) (p : Packet) : (sendPacket s ctx p).clock = s.clock := rfl
@[simp] theorem sendPacket_control (s : State) (ctx : Option Nat) (p : Packet) : (sendPacket s ctx p).control = s.control := rfl
@[simp] theorem sendPacket_fw (s : State) (ctx : Option Nat) (p : Packet) : (sendPacket s ctx p).fw = s.fw := rfl
@[simp] theorem sendPacket_host (s : State) (ctx : Option Nat) (p : Packet) : (sendPacket s ctx p).host = s.host := rfl
@[simp] theorem sendPacket_fabric (s : State) (ctx : Option Nat) (p : Packet) : (sendPacket s ctx p).fabric = s.fabric := rfl
@[simp] theorem sendPacket_mgmt (s : State) (ctx : Option Nat) (p : Packet) : (sendPacket s ctx p).mgmt = s.mgmt := rfl
@[simp] theorem sendPacket_journal (s : State) (ctx : Option Nat) (p : Packet) : (sendPacket s ctx p).journal = s.journal := rfl
@[simp] theorem sendPacket_mirror (s : State) (ctx : Option Nat) (p : Packet) : (sendPacket s ctx p).mirror = s.mirror := rfl
@[simp] theorem sendPacket_si (s : State) (ctx : Option Nat) (p : Packet) : (sendPacket s ctx p).si = s.si := rfl
@[simp] theorem sendPacket_mem (s : State) (ctx : Option Nat) (p : Packet) : (sendPacket s ctx p).mem = s.mem := rfl
@[simp] theorem sendPacket_ctxs (s : State) (ctx : Option Nat) (p : Packet) : (sendPacket s ctx p).ctxs = s.ctxs := rfl
@[simp] theorem sendPacket_hostMem (s : State) (ctx : Option Nat) (p : Packet) : (sendPacket s ctx p).hostMem = s.hostMem := rfl
@[simp] theorem sendPacket_free (s : State) (ctx : Option Nat) (p : Packet) : (sendPacket s ctx p).free = s.free := rfl
@[simp] theorem sendPacket_out (s : State) (ctx : Option Nat) (p : Packet) : (sendPacket s ctx p).out = s.out := rfl
@[simp] theorem sendPacket_pending (s : State) (ctx : Option Nat) (p : Packet) : (sendPacket s ctx p).pending = s.pending := rfl

/-! ### `exchange`: pages alone -/

@[simp] theorem exchange_pins (s : State) (ctx : Option Nat) (src : Die) (dst : Die) (pa : Nat) (n : Nat) (write : Bool) : (exchange s ctx src dst pa n write).pins = s.pins := rfl
@[simp] theorem exchange_clock (s : State) (ctx : Option Nat) (src : Die) (dst : Die) (pa : Nat) (n : Nat) (write : Bool) : (exchange s ctx src dst pa n write).clock = s.clock := rfl
@[simp] theorem exchange_control (s : State) (ctx : Option Nat) (src : Die) (dst : Die) (pa : Nat) (n : Nat) (write : Bool) : (exchange s ctx src dst pa n write).control = s.control := rfl
@[simp] theorem exchange_fw (s : State) (ctx : Option Nat) (src : Die) (dst : Die) (pa : Nat) (n : Nat) (write : Bool) : (exchange s ctx src dst pa n write).fw = s.fw := rfl
@[simp] theorem exchange_host (s : State) (ctx : Option Nat) (src : Die) (dst : Die) (pa : Nat) (n : Nat) (write : Bool) : (exchange s ctx src dst pa n write).host = s.host := rfl
@[simp] theorem exchange_fabric (s : State) (ctx : Option Nat) (src : Die) (dst : Die) (pa : Nat) (n : Nat) (write : Bool) : (exchange s ctx src dst pa n write).fabric = s.fabric := rfl
@[simp] theorem exchange_mgmt (s : State) (ctx : Option Nat) (src : Die) (dst : Die) (pa : Nat) (n : Nat) (write : Bool) : (exchange s ctx src dst pa n write).mgmt = s.mgmt := rfl
@[simp] theorem exchange_journal (s : State) (ctx : Option Nat) (src : Die) (dst : Die) (pa : Nat) (n : Nat) (write : Bool) : (exchange s ctx src dst pa n write).journal = s.journal := rfl
@[simp] theorem exchange_mirror (s : State) (ctx : Option Nat) (src : Die) (dst : Die) (pa : Nat) (n : Nat) (write : Bool) : (exchange s ctx src dst pa n write).mirror = s.mirror := rfl
@[simp] theorem exchange_si (s : State) (ctx : Option Nat) (src : Die) (dst : Die) (pa : Nat) (n : Nat) (write : Bool) : (exchange s ctx src dst pa n write).si = s.si := rfl
@[simp] theorem exchange_mem (s : State) (ctx : Option Nat) (src : Die) (dst : Die) (pa : Nat) (n : Nat) (write : Bool) : (exchange s ctx src dst pa n write).mem = s.mem := rfl
@[simp] theorem exchange_ctxs (s : State) (ctx : Option Nat) (src : Die) (dst : Die) (pa : Nat) (n : Nat) (write : Bool) : (exchange s ctx src dst pa n write).ctxs = s.ctxs := rfl
@[simp] theorem exchange_hostMem (s : State) (ctx : Option Nat) (src : Die) (dst : Die) (pa : Nat) (n : Nat) (write : Bool) : (exchange s ctx src dst pa n write).hostMem = s.hostMem := rfl
@[simp] theorem exchange_free (s : State) (ctx : Option Nat) (src : Die) (dst : Die) (pa : Nat) (n : Nat) (write : Bool) : (exchange s ctx src dst pa n write).free = s.free := rfl
@[simp] theorem exchange_out (s : State) (ctx : Option Nat) (src : Die) (dst : Die) (pa : Nat) (n : Nat) (write : Bool) : (exchange s ctx src dst pa n write).out = s.out := rfl
@[simp] theorem exchange_pending (s : State) (ctx : Option Nat) (src : Die) (dst : Die) (pa : Nat) (n : Nat) (write : Bool) : (exchange s ctx src dst pa n write).pending = s.pending := rfl

/-! ### `stackAccess`: pages alone -/

@[simp] theorem stackAccess_pins (s : State) (c : Nat) (src : Die) (pa : Nat) (n : Nat) (write : Bool) : (stackAccess s c src pa n write).pins = s.pins := by
  unfold stackAccess; split <;> simp
@[simp] theorem stackAccess_clock (s : State) (c : Nat) (src : Die) (pa : Nat) (n : Nat) (write : Bool) : (stackAccess s c src pa n write).clock = s.clock := by
  unfold stackAccess; split <;> simp
@[simp] theorem stackAccess_control (s : State) (c : Nat) (src : Die) (pa : Nat) (n : Nat) (write : Bool) : (stackAccess s c src pa n write).control = s.control := by
  unfold stackAccess; split <;> simp
@[simp] theorem stackAccess_fw (s : State) (c : Nat) (src : Die) (pa : Nat) (n : Nat) (write : Bool) : (stackAccess s c src pa n write).fw = s.fw := by
  unfold stackAccess; split <;> simp
@[simp] theorem stackAccess_host (s : State) (c : Nat) (src : Die) (pa : Nat) (n : Nat) (write : Bool) : (stackAccess s c src pa n write).host = s.host := by
  unfold stackAccess; split <;> simp
@[simp] theorem stackAccess_fabric (s : State) (c : Nat) (src : Die) (pa : Nat) (n : Nat) (write : Bool) : (stackAccess s c src pa n write).fabric = s.fabric := by
  unfold stackAccess; split <;> simp
@[simp] theorem stackAccess_mgmt (s : State) (c : Nat) (src : Die) (pa : Nat) (n : Nat) (write : Bool) : (stackAccess s c src pa n write).mgmt = s.mgmt := by
  unfold stackAccess; split <;> simp
@[simp] theorem stackAccess_journal (s : State) (c : Nat) (src : Die) (pa : Nat) (n : Nat) (write : Bool) : (stackAccess s c src pa n write).journal = s.journal := by
  unfold stackAccess; split <;> simp
@[simp] theorem stackAccess_mirror (s : State) (c : Nat) (src : Die) (pa : Nat) (n : Nat) (write : Bool) : (stackAccess s c src pa n write).mirror = s.mirror := by
  unfold stackAccess; split <;> simp
@[simp] theorem stackAccess_si (s : State) (c : Nat) (src : Die) (pa : Nat) (n : Nat) (write : Bool) : (stackAccess s c src pa n write).si = s.si := by
  unfold stackAccess; split <;> simp
@[simp] theorem stackAccess_mem (s : State) (c : Nat) (src : Die) (pa : Nat) (n : Nat) (write : Bool) : (stackAccess s c src pa n write).mem = s.mem := by
  unfold stackAccess; split <;> simp
@[simp] theorem stackAccess_ctxs (s : State) (c : Nat) (src : Die) (pa : Nat) (n : Nat) (write : Bool) : (stackAccess s c src pa n write).ctxs = s.ctxs := by
  unfold stackAccess; split <;> simp
@[simp] theorem stackAccess_hostMem (s : State) (c : Nat) (src : Die) (pa : Nat) (n : Nat) (write : Bool) : (stackAccess s c src pa n write).hostMem = s.hostMem := by
  unfold stackAccess; split <;> simp
@[simp] theorem stackAccess_free (s : State) (c : Nat) (src : Die) (pa : Nat) (n : Nat) (write : Bool) : (stackAccess s c src pa n write).free = s.free := by
  unfold stackAccess; split <;> simp
@[simp] theorem stackAccess_out (s : State) (c : Nat) (src : Die) (pa : Nat) (n : Nat) (write : Bool) : (stackAccess s c src pa n write).out = s.out := by
  unfold stackAccess; split <;> simp
@[simp] theorem stackAccess_pending (s : State) (c : Nat) (src : Die) (pa : Nat) (n : Nat) (write : Bool) : (stackAccess s c src pa n write).pending = s.pending := by
  unfold stackAccess; split <;> simp

/-! ### `crossHubs`: pages alone -/

@[simp] theorem crossHubs_pins (s : State) (ctx : Option Nat) (a : Nat) (b : Nat) (cls : Traffic) (flits : Nat) : (crossHubs s ctx a b cls flits).pins = s.pins := by
  unfold crossHubs; split <;> simp
@[simp] theorem crossHubs_clock (s : State) (ctx : Option Nat) (a : Nat) (b : Nat) (cls : Traffic) (flits : Nat) : (crossHubs s ctx a b cls flits).clock = s.clock := by
  unfold crossHubs; split <;> simp
@[simp] theorem crossHubs_control (s : State) (ctx : Option Nat) (a : Nat) (b : Nat) (cls : Traffic) (flits : Nat) : (crossHubs s ctx a b cls flits).control = s.control := by
  unfold crossHubs; split <;> simp
@[simp] theorem crossHubs_fw (s : State) (ctx : Option Nat) (a : Nat) (b : Nat) (cls : Traffic) (flits : Nat) : (crossHubs s ctx a b cls flits).fw = s.fw := by
  unfold crossHubs; split <;> simp
@[simp] theorem crossHubs_host (s : State) (ctx : Option Nat) (a : Nat) (b : Nat) (cls : Traffic) (flits : Nat) : (crossHubs s ctx a b cls flits).host = s.host := by
  unfold crossHubs; split <;> simp
@[simp] theorem crossHubs_fabric (s : State) (ctx : Option Nat) (a : Nat) (b : Nat) (cls : Traffic) (flits : Nat) : (crossHubs s ctx a b cls flits).fabric = s.fabric := by
  unfold crossHubs; split <;> simp
@[simp] theorem crossHubs_mgmt (s : State) (ctx : Option Nat) (a : Nat) (b : Nat) (cls : Traffic) (flits : Nat) : (crossHubs s ctx a b cls flits).mgmt = s.mgmt := by
  unfold crossHubs; split <;> simp
@[simp] theorem crossHubs_journal (s : State) (ctx : Option Nat) (a : Nat) (b : Nat) (cls : Traffic) (flits : Nat) : (crossHubs s ctx a b cls flits).journal = s.journal := by
  unfold crossHubs; split <;> simp
@[simp] theorem crossHubs_mirror (s : State) (ctx : Option Nat) (a : Nat) (b : Nat) (cls : Traffic) (flits : Nat) : (crossHubs s ctx a b cls flits).mirror = s.mirror := by
  unfold crossHubs; split <;> simp
@[simp] theorem crossHubs_si (s : State) (ctx : Option Nat) (a : Nat) (b : Nat) (cls : Traffic) (flits : Nat) : (crossHubs s ctx a b cls flits).si = s.si := by
  unfold crossHubs; split <;> simp
@[simp] theorem crossHubs_mem (s : State) (ctx : Option Nat) (a : Nat) (b : Nat) (cls : Traffic) (flits : Nat) : (crossHubs s ctx a b cls flits).mem = s.mem := by
  unfold crossHubs; split <;> simp
@[simp] theorem crossHubs_ctxs (s : State) (ctx : Option Nat) (a : Nat) (b : Nat) (cls : Traffic) (flits : Nat) : (crossHubs s ctx a b cls flits).ctxs = s.ctxs := by
  unfold crossHubs; split <;> simp
@[simp] theorem crossHubs_hostMem (s : State) (ctx : Option Nat) (a : Nat) (b : Nat) (cls : Traffic) (flits : Nat) : (crossHubs s ctx a b cls flits).hostMem = s.hostMem := by
  unfold crossHubs; split <;> simp
@[simp] theorem crossHubs_free (s : State) (ctx : Option Nat) (a : Nat) (b : Nat) (cls : Traffic) (flits : Nat) : (crossHubs s ctx a b cls flits).free = s.free := by
  unfold crossHubs; split <;> simp
@[simp] theorem crossHubs_out (s : State) (ctx : Option Nat) (a : Nat) (b : Nat) (cls : Traffic) (flits : Nat) : (crossHubs s ctx a b cls flits).out = s.out := by
  unfold crossHubs; split <;> simp
@[simp] theorem crossHubs_pending (s : State) (ctx : Option Nat) (a : Nat) (b : Nat) (cls : Traffic) (flits : Nat) : (crossHubs s ctx a b cls flits).pending = s.pending := by
  unfold crossHubs; split <;> simp

/-! ### `driveCataloguer`: pages alone -/

@[simp] theorem driveCataloguer_pins (s : State) (ctx : Option Nat) : (driveCataloguer s ctx).pins = s.pins := by
  unfold driveCataloguer; split <;> simp
@[simp] theorem driveCataloguer_clock (s : State) (ctx : Option Nat) : (driveCataloguer s ctx).clock = s.clock := by
  unfold driveCataloguer; split <;> simp
@[simp] theorem driveCataloguer_control (s : State) (ctx : Option Nat) : (driveCataloguer s ctx).control = s.control := by
  unfold driveCataloguer; split <;> simp
@[simp] theorem driveCataloguer_fw (s : State) (ctx : Option Nat) : (driveCataloguer s ctx).fw = s.fw := by
  unfold driveCataloguer; split <;> simp
@[simp] theorem driveCataloguer_host (s : State) (ctx : Option Nat) : (driveCataloguer s ctx).host = s.host := by
  unfold driveCataloguer; split <;> simp
@[simp] theorem driveCataloguer_fabric (s : State) (ctx : Option Nat) : (driveCataloguer s ctx).fabric = s.fabric := by
  unfold driveCataloguer; split <;> simp
@[simp] theorem driveCataloguer_mgmt (s : State) (ctx : Option Nat) : (driveCataloguer s ctx).mgmt = s.mgmt := by
  unfold driveCataloguer; split <;> simp
@[simp] theorem driveCataloguer_journal (s : State) (ctx : Option Nat) : (driveCataloguer s ctx).journal = s.journal := by
  unfold driveCataloguer; split <;> simp
@[simp] theorem driveCataloguer_mirror (s : State) (ctx : Option Nat) : (driveCataloguer s ctx).mirror = s.mirror := by
  unfold driveCataloguer; split <;> simp
@[simp] theorem driveCataloguer_si (s : State) (ctx : Option Nat) : (driveCataloguer s ctx).si = s.si := by
  unfold driveCataloguer; split <;> simp
@[simp] theorem driveCataloguer_mem (s : State) (ctx : Option Nat) : (driveCataloguer s ctx).mem = s.mem := by
  unfold driveCataloguer; split <;> simp
@[simp] theorem driveCataloguer_ctxs (s : State) (ctx : Option Nat) : (driveCataloguer s ctx).ctxs = s.ctxs := by
  unfold driveCataloguer; split <;> simp
@[simp] theorem driveCataloguer_hostMem (s : State) (ctx : Option Nat) : (driveCataloguer s ctx).hostMem = s.hostMem := by
  unfold driveCataloguer; split <;> simp
@[simp] theorem driveCataloguer_free (s : State) (ctx : Option Nat) : (driveCataloguer s ctx).free = s.free := by
  unfold driveCataloguer; split <;> simp
@[simp] theorem driveCataloguer_out (s : State) (ctx : Option Nat) : (driveCataloguer s ctx).out = s.out := by
  unfold driveCataloguer; split <;> simp
@[simp] theorem driveCataloguer_pending (s : State) (ctx : Option Nat) : (driveCataloguer s ctx).pending = s.pending := by
  unfold driveCataloguer; split <;> simp

/-! ### `postOne`: a message waits, and a copy of it is kept -/

@[simp] theorem postOne_pins (s : State) (job : Nat) (dest : Nat) (kind : Nat) (arg : Nat) (body : Bytes) (hub : Nat) (lanes : Nat) : (postOne s job dest kind arg body hub lanes).pins = s.pins := by
  unfold postOne; dsimp only; split <;> rfl
@[simp] theorem postOne_clock (s : State) (job : Nat) (dest : Nat) (kind : Nat) (arg : Nat) (body : Bytes) (hub : Nat) (lanes : Nat) : (postOne s job dest kind arg body hub lanes).clock = s.clock := by
  unfold postOne; dsimp only; split <;> rfl
@[simp] theorem postOne_control (s : State) (job : Nat) (dest : Nat) (kind : Nat) (arg : Nat) (body : Bytes) (hub : Nat) (lanes : Nat) : (postOne s job dest kind arg body hub lanes).control = s.control := by
  unfold postOne; dsimp only; split <;> rfl
@[simp] theorem postOne_fw (s : State) (job : Nat) (dest : Nat) (kind : Nat) (arg : Nat) (body : Bytes) (hub : Nat) (lanes : Nat) : (postOne s job dest kind arg body hub lanes).fw = s.fw := by
  unfold postOne; dsimp only; split <;> rfl
@[simp] theorem postOne_regs (s : State) (job : Nat) (dest : Nat) (kind : Nat) (arg : Nat) (body : Bytes) (hub : Nat) (lanes : Nat) : (postOne s job dest kind arg body hub lanes).regs = s.regs := by
  unfold postOne; dsimp only; split <;> rfl
@[simp] theorem postOne_host (s : State) (job : Nat) (dest : Nat) (kind : Nat) (arg : Nat) (body : Bytes) (hub : Nat) (lanes : Nat) : (postOne s job dest kind arg body hub lanes).host = s.host := by
  unfold postOne; dsimp only; split <;> rfl
@[simp] theorem postOne_mgmt (s : State) (job : Nat) (dest : Nat) (kind : Nat) (arg : Nat) (body : Bytes) (hub : Nat) (lanes : Nat) : (postOne s job dest kind arg body hub lanes).mgmt = s.mgmt := by
  unfold postOne; dsimp only; split <;> rfl
@[simp] theorem postOne_journal (s : State) (job : Nat) (dest : Nat) (kind : Nat) (arg : Nat) (body : Bytes) (hub : Nat) (lanes : Nat) : (postOne s job dest kind arg body hub lanes).journal = s.journal := by
  unfold postOne; dsimp only; split <;> rfl
@[simp] theorem postOne_mirror (s : State) (job : Nat) (dest : Nat) (kind : Nat) (arg : Nat) (body : Bytes) (hub : Nat) (lanes : Nat) : (postOne s job dest kind arg body hub lanes).mirror = s.mirror := by
  unfold postOne; dsimp only; split <;> rfl
@[simp] theorem postOne_si (s : State) (job : Nat) (dest : Nat) (kind : Nat) (arg : Nat) (body : Bytes) (hub : Nat) (lanes : Nat) : (postOne s job dest kind arg body hub lanes).si = s.si := by
  unfold postOne; dsimp only; split <;> rfl
@[simp] theorem postOne_mem (s : State) (job : Nat) (dest : Nat) (kind : Nat) (arg : Nat) (body : Bytes) (hub : Nat) (lanes : Nat) : (postOne s job dest kind arg body hub lanes).mem = s.mem := by
  unfold postOne; dsimp only; split <;> rfl
@[simp] theorem postOne_ctxs (s : State) (job : Nat) (dest : Nat) (kind : Nat) (arg : Nat) (body : Bytes) (hub : Nat) (lanes : Nat) : (postOne s job dest kind arg body hub lanes).ctxs = s.ctxs := by
  unfold postOne; dsimp only; split <;> rfl
@[simp] theorem postOne_hostMem (s : State) (job : Nat) (dest : Nat) (kind : Nat) (arg : Nat) (body : Bytes) (hub : Nat) (lanes : Nat) : (postOne s job dest kind arg body hub lanes).hostMem = s.hostMem := by
  unfold postOne; dsimp only; split <;> rfl
@[simp] theorem postOne_free (s : State) (job : Nat) (dest : Nat) (kind : Nat) (arg : Nat) (body : Bytes) (hub : Nat) (lanes : Nat) : (postOne s job dest kind arg body hub lanes).free = s.free := by
  unfold postOne; dsimp only; split <;> rfl
@[simp] theorem postOne_out (s : State) (job : Nat) (dest : Nat) (kind : Nat) (arg : Nat) (body : Bytes) (hub : Nat) (lanes : Nat) : (postOne s job dest kind arg body hub lanes).out = s.out := by
  unfold postOne; dsimp only; split <;> rfl
@[simp] theorem postOne_pending (s : State) (job : Nat) (dest : Nat) (kind : Nat) (arg : Nat) (body : Bytes) (hub : Nat) (lanes : Nat) : (postOne s job dest kind arg body hub lanes).pending = s.pending := by
  unfold postOne; dsimp only; split <;> rfl

/-! ### `post`: messages wait -/

@[simp] theorem post_pins (s : State) (job : Nat) (dest : Nat) (kind : Nat) (arg : Nat) (body : Bytes) (hub : Nat) (lanes : Nat) : (post s job dest kind arg body hub lanes).pins = s.pins := by
  unfold post
  generalize (pieces body).zipIdx = l
  induction l generalizing s with
  | nil => rfl
  | cons b r ih => rw [List.foldl_cons, ih, postOne_pins]
@[simp] theorem post_clock (s : State) (job : Nat) (dest : Nat) (kind : Nat) (arg : Nat) (body : Bytes) (hub : Nat) (lanes : Nat) : (post s job dest kind arg body hub lanes).clock = s.clock := by
  unfold post
  generalize (pieces body).zipIdx = l
  induction l generalizing s with
  | nil => rfl
  | cons b r ih => rw [List.foldl_cons, ih, postOne_clock]
@[simp] theorem post_control (s : State) (job : Nat) (dest : Nat) (kind : Nat) (arg : Nat) (body : Bytes) (hub : Nat) (lanes : Nat) : (post s job dest kind arg body hub lanes).control = s.control := by
  unfold post
  generalize (pieces body).zipIdx = l
  induction l generalizing s with
  | nil => rfl
  | cons b r ih => rw [List.foldl_cons, ih, postOne_control]
@[simp] theorem post_fw (s : State) (job : Nat) (dest : Nat) (kind : Nat) (arg : Nat) (body : Bytes) (hub : Nat) (lanes : Nat) : (post s job dest kind arg body hub lanes).fw = s.fw := by
  unfold post
  generalize (pieces body).zipIdx = l
  induction l generalizing s with
  | nil => rfl
  | cons b r ih => rw [List.foldl_cons, ih, postOne_fw]
@[simp] theorem post_regs (s : State) (job : Nat) (dest : Nat) (kind : Nat) (arg : Nat) (body : Bytes) (hub : Nat) (lanes : Nat) : (post s job dest kind arg body hub lanes).regs = s.regs := by
  unfold post
  generalize (pieces body).zipIdx = l
  induction l generalizing s with
  | nil => rfl
  | cons b r ih => rw [List.foldl_cons, ih, postOne_regs]
@[simp] theorem post_host (s : State) (job : Nat) (dest : Nat) (kind : Nat) (arg : Nat) (body : Bytes) (hub : Nat) (lanes : Nat) : (post s job dest kind arg body hub lanes).host = s.host := by
  unfold post
  generalize (pieces body).zipIdx = l
  induction l generalizing s with
  | nil => rfl
  | cons b r ih => rw [List.foldl_cons, ih, postOne_host]
@[simp] theorem post_mgmt (s : State) (job : Nat) (dest : Nat) (kind : Nat) (arg : Nat) (body : Bytes) (hub : Nat) (lanes : Nat) : (post s job dest kind arg body hub lanes).mgmt = s.mgmt := by
  unfold post
  generalize (pieces body).zipIdx = l
  induction l generalizing s with
  | nil => rfl
  | cons b r ih => rw [List.foldl_cons, ih, postOne_mgmt]
@[simp] theorem post_journal (s : State) (job : Nat) (dest : Nat) (kind : Nat) (arg : Nat) (body : Bytes) (hub : Nat) (lanes : Nat) : (post s job dest kind arg body hub lanes).journal = s.journal := by
  unfold post
  generalize (pieces body).zipIdx = l
  induction l generalizing s with
  | nil => rfl
  | cons b r ih => rw [List.foldl_cons, ih, postOne_journal]
@[simp] theorem post_mirror (s : State) (job : Nat) (dest : Nat) (kind : Nat) (arg : Nat) (body : Bytes) (hub : Nat) (lanes : Nat) : (post s job dest kind arg body hub lanes).mirror = s.mirror := by
  unfold post
  generalize (pieces body).zipIdx = l
  induction l generalizing s with
  | nil => rfl
  | cons b r ih => rw [List.foldl_cons, ih, postOne_mirror]
@[simp] theorem post_si (s : State) (job : Nat) (dest : Nat) (kind : Nat) (arg : Nat) (body : Bytes) (hub : Nat) (lanes : Nat) : (post s job dest kind arg body hub lanes).si = s.si := by
  unfold post
  generalize (pieces body).zipIdx = l
  induction l generalizing s with
  | nil => rfl
  | cons b r ih => rw [List.foldl_cons, ih, postOne_si]
@[simp] theorem post_mem (s : State) (job : Nat) (dest : Nat) (kind : Nat) (arg : Nat) (body : Bytes) (hub : Nat) (lanes : Nat) : (post s job dest kind arg body hub lanes).mem = s.mem := by
  unfold post
  generalize (pieces body).zipIdx = l
  induction l generalizing s with
  | nil => rfl
  | cons b r ih => rw [List.foldl_cons, ih, postOne_mem]
@[simp] theorem post_ctxs (s : State) (job : Nat) (dest : Nat) (kind : Nat) (arg : Nat) (body : Bytes) (hub : Nat) (lanes : Nat) : (post s job dest kind arg body hub lanes).ctxs = s.ctxs := by
  unfold post
  generalize (pieces body).zipIdx = l
  induction l generalizing s with
  | nil => rfl
  | cons b r ih => rw [List.foldl_cons, ih, postOne_ctxs]
@[simp] theorem post_hostMem (s : State) (job : Nat) (dest : Nat) (kind : Nat) (arg : Nat) (body : Bytes) (hub : Nat) (lanes : Nat) : (post s job dest kind arg body hub lanes).hostMem = s.hostMem := by
  unfold post
  generalize (pieces body).zipIdx = l
  induction l generalizing s with
  | nil => rfl
  | cons b r ih => rw [List.foldl_cons, ih, postOne_hostMem]
@[simp] theorem post_free (s : State) (job : Nat) (dest : Nat) (kind : Nat) (arg : Nat) (body : Bytes) (hub : Nat) (lanes : Nat) : (post s job dest kind arg body hub lanes).free = s.free := by
  unfold post
  generalize (pieces body).zipIdx = l
  induction l generalizing s with
  | nil => rfl
  | cons b r ih => rw [List.foldl_cons, ih, postOne_free]
@[simp] theorem post_out (s : State) (job : Nat) (dest : Nat) (kind : Nat) (arg : Nat) (body : Bytes) (hub : Nat) (lanes : Nat) : (post s job dest kind arg body hub lanes).out = s.out := by
  unfold post
  generalize (pieces body).zipIdx = l
  induction l generalizing s with
  | nil => rfl
  | cons b r ih => rw [List.foldl_cons, ih, postOne_out]
@[simp] theorem post_pending (s : State) (job : Nat) (dest : Nat) (kind : Nat) (arg : Nat) (body : Bytes) (hub : Nat) (lanes : Nat) : (post s job dest kind arg body hub lanes).pending = s.pending := by
  unfold post
  generalize (pieces body).zipIdx = l
  induction l generalizing s with
  | nil => rfl
  | cons b r ih => rw [List.foldl_cons, ih, postOne_pending]

/-! ### `remoteAccess`: messages and an output alone -/

@[simp] theorem remoteAccess_pins (s : State) (job : Nat) (i : Nat) (write : Bool) (va : Nat) (n : Nat) (data : Bytes) : (remoteAccess s job i write va n data).pins = s.pins := by
  simp [remoteAccess]
@[simp] theorem remoteAccess_clock (s : State) (job : Nat) (i : Nat) (write : Bool) (va : Nat) (n : Nat) (data : Bytes) : (remoteAccess s job i write va n data).clock = s.clock := by
  simp [remoteAccess]
@[simp] theorem remoteAccess_control (s : State) (job : Nat) (i : Nat) (write : Bool) (va : Nat) (n : Nat) (data : Bytes) : (remoteAccess s job i write va n data).control = s.control := by
  simp [remoteAccess]
@[simp] theorem remoteAccess_fw (s : State) (job : Nat) (i : Nat) (write : Bool) (va : Nat) (n : Nat) (data : Bytes) : (remoteAccess s job i write va n data).fw = s.fw := by
  simp [remoteAccess]
@[simp] theorem remoteAccess_regs (s : State) (job : Nat) (i : Nat) (write : Bool) (va : Nat) (n : Nat) (data : Bytes) : (remoteAccess s job i write va n data).regs = s.regs := by
  simp [remoteAccess]
@[simp] theorem remoteAccess_host (s : State) (job : Nat) (i : Nat) (write : Bool) (va : Nat) (n : Nat) (data : Bytes) : (remoteAccess s job i write va n data).host = s.host := by
  simp [remoteAccess]
@[simp] theorem remoteAccess_mgmt (s : State) (job : Nat) (i : Nat) (write : Bool) (va : Nat) (n : Nat) (data : Bytes) : (remoteAccess s job i write va n data).mgmt = s.mgmt := by
  simp [remoteAccess]
@[simp] theorem remoteAccess_journal (s : State) (job : Nat) (i : Nat) (write : Bool) (va : Nat) (n : Nat) (data : Bytes) : (remoteAccess s job i write va n data).journal = s.journal := by
  simp [remoteAccess]
@[simp] theorem remoteAccess_mirror (s : State) (job : Nat) (i : Nat) (write : Bool) (va : Nat) (n : Nat) (data : Bytes) : (remoteAccess s job i write va n data).mirror = s.mirror := by
  simp [remoteAccess]
@[simp] theorem remoteAccess_si (s : State) (job : Nat) (i : Nat) (write : Bool) (va : Nat) (n : Nat) (data : Bytes) : (remoteAccess s job i write va n data).si = s.si := by
  simp [remoteAccess]
@[simp] theorem remoteAccess_mem (s : State) (job : Nat) (i : Nat) (write : Bool) (va : Nat) (n : Nat) (data : Bytes) : (remoteAccess s job i write va n data).mem = s.mem := by
  simp [remoteAccess]
@[simp] theorem remoteAccess_ctxs (s : State) (job : Nat) (i : Nat) (write : Bool) (va : Nat) (n : Nat) (data : Bytes) : (remoteAccess s job i write va n data).ctxs = s.ctxs := by
  simp [remoteAccess]
@[simp] theorem remoteAccess_hostMem (s : State) (job : Nat) (i : Nat) (write : Bool) (va : Nat) (n : Nat) (data : Bytes) : (remoteAccess s job i write va n data).hostMem = s.hostMem := by
  simp [remoteAccess]
@[simp] theorem remoteAccess_free (s : State) (job : Nat) (i : Nat) (write : Bool) (va : Nat) (n : Nat) (data : Bytes) : (remoteAccess s job i write va n data).free = s.free := by
  simp [remoteAccess]
@[simp] theorem remoteAccess_pending (s : State) (job : Nat) (i : Nat) (write : Bool) (va : Nat) (n : Nat) (data : Bytes) : (remoteAccess s job i write va n data).pending = s.pending := by
  simp [remoteAccess]

/-! ### `writeBack`: pages, and the annex line that leaves -/

@[simp] theorem writeBack_pins (s : State) (l : Line) : (writeBack s l).pins = s.pins := by
  unfold writeBack; dsimp only; split <;> simp
@[simp] theorem writeBack_clock (s : State) (l : Line) : (writeBack s l).clock = s.clock := by
  unfold writeBack; dsimp only; split <;> simp
@[simp] theorem writeBack_control (s : State) (l : Line) : (writeBack s l).control = s.control := by
  unfold writeBack; dsimp only; split <;> simp
@[simp] theorem writeBack_fw (s : State) (l : Line) : (writeBack s l).fw = s.fw := by
  unfold writeBack; dsimp only; split <;> simp
@[simp] theorem writeBack_host (s : State) (l : Line) : (writeBack s l).host = s.host := by
  unfold writeBack; dsimp only; split <;> simp
@[simp] theorem writeBack_fabric (s : State) (l : Line) : (writeBack s l).fabric = s.fabric := by
  unfold writeBack; dsimp only; split <;> simp
@[simp] theorem writeBack_mgmt (s : State) (l : Line) : (writeBack s l).mgmt = s.mgmt := by
  unfold writeBack; dsimp only; split <;> simp
@[simp] theorem writeBack_journal (s : State) (l : Line) : (writeBack s l).journal = s.journal := by
  unfold writeBack; dsimp only; split <;> simp
@[simp] theorem writeBack_mirror (s : State) (l : Line) : (writeBack s l).mirror = s.mirror := by
  unfold writeBack; dsimp only; split <;> simp
@[simp] theorem writeBack_si (s : State) (l : Line) : (writeBack s l).si = s.si := by
  unfold writeBack; dsimp only; split <;> simp
@[simp] theorem writeBack_ctxs (s : State) (l : Line) : (writeBack s l).ctxs = s.ctxs := by
  unfold writeBack; dsimp only; split <;> simp
@[simp] theorem writeBack_hostMem (s : State) (l : Line) : (writeBack s l).hostMem = s.hostMem := by
  unfold writeBack; dsimp only; split <;> simp
@[simp] theorem writeBack_free (s : State) (l : Line) : (writeBack s l).free = s.free := by
  unfold writeBack; dsimp only; split <;> simp
@[simp] theorem writeBack_out (s : State) (l : Line) : (writeBack s l).out = s.out := by
  unfold writeBack; dsimp only; split <;> simp
@[simp] theorem writeBack_pending (s : State) (l : Line) : (writeBack s l).pending = s.pending := by
  unfold writeBack; dsimp only; split <;> simp

/-! ### `useLine`: device memory alone -/

@[simp] theorem useLine_pins (s : State) (l : Line) (write : Bool) : (useLine s l write).pins = s.pins := rfl
@[simp] theorem useLine_clock (s : State) (l : Line) (write : Bool) : (useLine s l write).clock = s.clock := rfl
@[simp] theorem useLine_control (s : State) (l : Line) (write : Bool) : (useLine s l write).control = s.control := rfl
@[simp] theorem useLine_fw (s : State) (l : Line) (write : Bool) : (useLine s l write).fw = s.fw := rfl
@[simp] theorem useLine_regs (s : State) (l : Line) (write : Bool) : (useLine s l write).regs = s.regs := rfl
@[simp] theorem useLine_host (s : State) (l : Line) (write : Bool) : (useLine s l write).host = s.host := rfl
@[simp] theorem useLine_fabric (s : State) (l : Line) (write : Bool) : (useLine s l write).fabric = s.fabric := rfl
@[simp] theorem useLine_mgmt (s : State) (l : Line) (write : Bool) : (useLine s l write).mgmt = s.mgmt := rfl
@[simp] theorem useLine_journal (s : State) (l : Line) (write : Bool) : (useLine s l write).journal = s.journal := rfl
@[simp] theorem useLine_mirror (s : State) (l : Line) (write : Bool) : (useLine s l write).mirror = s.mirror := rfl
@[simp] theorem useLine_si (s : State) (l : Line) (write : Bool) : (useLine s l write).si = s.si := rfl
@[simp] theorem useLine_ctxs (s : State) (l : Line) (write : Bool) : (useLine s l write).ctxs = s.ctxs := rfl
@[simp] theorem useLine_hostMem (s : State) (l : Line) (write : Bool) : (useLine s l write).hostMem = s.hostMem := rfl
@[simp] theorem useLine_free (s : State) (l : Line) (write : Bool) : (useLine s l write).free = s.free := rfl
@[simp] theorem useLine_out (s : State) (l : Line) (write : Bool) : (useLine s l write).out = s.out := rfl
@[simp] theorem useLine_pending (s : State) (l : Line) (write : Bool) : (useLine s l write).pending = s.pending := rfl

/-! ### `lineAccess`: pages and the lines of the annex -/

@[simp] theorem lineAccess_pins (s : State) (c : Nat) (x : Ctx) (key : Nat) (pa : Nat) (write : Bool) : (lineAccess s c x key pa write).pins = s.pins := by
  unfold lineAccess
  dsimp only
  split
  · simp
  · split
    · simp
    · rw [useLine_pins, stackAccess_pins]; split <;> simp
@[simp] theorem lineAccess_clock (s : State) (c : Nat) (x : Ctx) (key : Nat) (pa : Nat) (write : Bool) : (lineAccess s c x key pa write).clock = s.clock := by
  unfold lineAccess
  dsimp only
  split
  · simp
  · split
    · simp
    · rw [useLine_clock, stackAccess_clock]; split <;> simp
@[simp] theorem lineAccess_control (s : State) (c : Nat) (x : Ctx) (key : Nat) (pa : Nat) (write : Bool) : (lineAccess s c x key pa write).control = s.control := by
  unfold lineAccess
  dsimp only
  split
  · simp
  · split
    · simp
    · rw [useLine_control, stackAccess_control]; split <;> simp
@[simp] theorem lineAccess_fw (s : State) (c : Nat) (x : Ctx) (key : Nat) (pa : Nat) (write : Bool) : (lineAccess s c x key pa write).fw = s.fw := by
  unfold lineAccess
  dsimp only
  split
  · simp
  · split
    · simp
    · rw [useLine_fw, stackAccess_fw]; split <;> simp
@[simp] theorem lineAccess_host (s : State) (c : Nat) (x : Ctx) (key : Nat) (pa : Nat) (write : Bool) : (lineAccess s c x key pa write).host = s.host := by
  unfold lineAccess
  dsimp only
  split
  · simp
  · split
    · simp
    · rw [useLine_host, stackAccess_host]; split <;> simp
@[simp] theorem lineAccess_fabric (s : State) (c : Nat) (x : Ctx) (key : Nat) (pa : Nat) (write : Bool) : (lineAccess s c x key pa write).fabric = s.fabric := by
  unfold lineAccess
  dsimp only
  split
  · simp
  · split
    · simp
    · rw [useLine_fabric, stackAccess_fabric]; split <;> simp
@[simp] theorem lineAccess_mgmt (s : State) (c : Nat) (x : Ctx) (key : Nat) (pa : Nat) (write : Bool) : (lineAccess s c x key pa write).mgmt = s.mgmt := by
  unfold lineAccess
  dsimp only
  split
  · simp
  · split
    · simp
    · rw [useLine_mgmt, stackAccess_mgmt]; split <;> simp
@[simp] theorem lineAccess_journal (s : State) (c : Nat) (x : Ctx) (key : Nat) (pa : Nat) (write : Bool) : (lineAccess s c x key pa write).journal = s.journal := by
  unfold lineAccess
  dsimp only
  split
  · simp
  · split
    · simp
    · rw [useLine_journal, stackAccess_journal]; split <;> simp
@[simp] theorem lineAccess_mirror (s : State) (c : Nat) (x : Ctx) (key : Nat) (pa : Nat) (write : Bool) : (lineAccess s c x key pa write).mirror = s.mirror := by
  unfold lineAccess
  dsimp only
  split
  · simp
  · split
    · simp
    · rw [useLine_mirror, stackAccess_mirror]; split <;> simp
@[simp] theorem lineAccess_si (s : State) (c : Nat) (x : Ctx) (key : Nat) (pa : Nat) (write : Bool) : (lineAccess s c x key pa write).si = s.si := by
  unfold lineAccess
  dsimp only
  split
  · simp
  · split
    · simp
    · rw [useLine_si, stackAccess_si]; split <;> simp
@[simp] theorem lineAccess_ctxs (s : State) (c : Nat) (x : Ctx) (key : Nat) (pa : Nat) (write : Bool) : (lineAccess s c x key pa write).ctxs = s.ctxs := by
  unfold lineAccess
  dsimp only
  split
  · simp
  · split
    · simp
    · rw [useLine_ctxs, stackAccess_ctxs]; split <;> simp
@[simp] theorem lineAccess_hostMem (s : State) (c : Nat) (x : Ctx) (key : Nat) (pa : Nat) (write : Bool) : (lineAccess s c x key pa write).hostMem = s.hostMem := by
  unfold lineAccess
  dsimp only
  split
  · simp
  · split
    · simp
    · rw [useLine_hostMem, stackAccess_hostMem]; split <;> simp
@[simp] theorem lineAccess_free (s : State) (c : Nat) (x : Ctx) (key : Nat) (pa : Nat) (write : Bool) : (lineAccess s c x key pa write).free = s.free := by
  unfold lineAccess
  dsimp only
  split
  · simp
  · split
    · simp
    · rw [useLine_free, stackAccess_free]; split <;> simp
@[simp] theorem lineAccess_out (s : State) (c : Nat) (x : Ctx) (key : Nat) (pa : Nat) (write : Bool) : (lineAccess s c x key pa write).out = s.out := by
  unfold lineAccess
  dsimp only
  split
  · simp
  · split
    · simp
    · rw [useLine_out, stackAccess_out]; split <;> simp
@[simp] theorem lineAccess_pending (s : State) (c : Nat) (x : Ctx) (key : Nat) (pa : Nat) (write : Bool) : (lineAccess s c x key pa write).pending = s.pending := by
  unfold lineAccess
  dsimp only
  split
  · simp
  · split
    · simp
    · rw [useLine_pending, stackAccess_pending]; split <;> simp

/-! ### `pageAccess`: counters, annex lines and messages -/

@[simp] theorem pageAccess_pins (s : State) (c : Nat) (x : Ctx) (src : Die) (cls : Nat) (cells : Bool) (va : Nat) (off : Nat) (n : Nat) (write : Bool) : (pageAccess s c x src cls cells va off n write).pins = s.pins := by
  unfold pageAccess
  split
  · split
    · simp
    · split
      · generalize annexLines _ _ _ _ _ _ = l; rename_i h; clear h
        induction l generalizing s with
        | nil => rfl
        | cons k r ih => rw [List.foldl_cons, ih]; simp
      · simp
  · simp
  · dsimp only; split <;> simp
  · rfl
@[simp] theorem pageAccess_clock (s : State) (c : Nat) (x : Ctx) (src : Die) (cls : Nat) (cells : Bool) (va : Nat) (off : Nat) (n : Nat) (write : Bool) : (pageAccess s c x src cls cells va off n write).clock = s.clock := by
  unfold pageAccess
  split
  · split
    · simp
    · split
      · generalize annexLines _ _ _ _ _ _ = l; rename_i h; clear h
        induction l generalizing s with
        | nil => rfl
        | cons k r ih => rw [List.foldl_cons, ih]; simp
      · simp
  · simp
  · dsimp only; split <;> simp
  · rfl
@[simp] theorem pageAccess_control (s : State) (c : Nat) (x : Ctx) (src : Die) (cls : Nat) (cells : Bool) (va : Nat) (off : Nat) (n : Nat) (write : Bool) : (pageAccess s c x src cls cells va off n write).control = s.control := by
  unfold pageAccess
  split
  · split
    · simp
    · split
      · generalize annexLines _ _ _ _ _ _ = l; rename_i h; clear h
        induction l generalizing s with
        | nil => rfl
        | cons k r ih => rw [List.foldl_cons, ih]; simp
      · simp
  · simp
  · dsimp only; split <;> simp
  · rfl
@[simp] theorem pageAccess_fw (s : State) (c : Nat) (x : Ctx) (src : Die) (cls : Nat) (cells : Bool) (va : Nat) (off : Nat) (n : Nat) (write : Bool) : (pageAccess s c x src cls cells va off n write).fw = s.fw := by
  unfold pageAccess
  split
  · split
    · simp
    · split
      · generalize annexLines _ _ _ _ _ _ = l; rename_i h; clear h
        induction l generalizing s with
        | nil => rfl
        | cons k r ih => rw [List.foldl_cons, ih]; simp
      · simp
  · simp
  · dsimp only; split <;> simp
  · rfl
@[simp] theorem pageAccess_host (s : State) (c : Nat) (x : Ctx) (src : Die) (cls : Nat) (cells : Bool) (va : Nat) (off : Nat) (n : Nat) (write : Bool) : (pageAccess s c x src cls cells va off n write).host = s.host := by
  unfold pageAccess
  split
  · split
    · simp
    · split
      · generalize annexLines _ _ _ _ _ _ = l; rename_i h; clear h
        induction l generalizing s with
        | nil => rfl
        | cons k r ih => rw [List.foldl_cons, ih]; simp
      · simp
  · simp
  · dsimp only; split <;> simp
  · rfl
@[simp] theorem pageAccess_mgmt (s : State) (c : Nat) (x : Ctx) (src : Die) (cls : Nat) (cells : Bool) (va : Nat) (off : Nat) (n : Nat) (write : Bool) : (pageAccess s c x src cls cells va off n write).mgmt = s.mgmt := by
  unfold pageAccess
  split
  · split
    · simp
    · split
      · generalize annexLines _ _ _ _ _ _ = l; rename_i h; clear h
        induction l generalizing s with
        | nil => rfl
        | cons k r ih => rw [List.foldl_cons, ih]; simp
      · simp
  · simp
  · dsimp only; split <;> simp
  · rfl
@[simp] theorem pageAccess_journal (s : State) (c : Nat) (x : Ctx) (src : Die) (cls : Nat) (cells : Bool) (va : Nat) (off : Nat) (n : Nat) (write : Bool) : (pageAccess s c x src cls cells va off n write).journal = s.journal := by
  unfold pageAccess
  split
  · split
    · simp
    · split
      · generalize annexLines _ _ _ _ _ _ = l; rename_i h; clear h
        induction l generalizing s with
        | nil => rfl
        | cons k r ih => rw [List.foldl_cons, ih]; simp
      · simp
  · simp
  · dsimp only; split <;> simp
  · rfl
@[simp] theorem pageAccess_mirror (s : State) (c : Nat) (x : Ctx) (src : Die) (cls : Nat) (cells : Bool) (va : Nat) (off : Nat) (n : Nat) (write : Bool) : (pageAccess s c x src cls cells va off n write).mirror = s.mirror := by
  unfold pageAccess
  split
  · split
    · simp
    · split
      · generalize annexLines _ _ _ _ _ _ = l; rename_i h; clear h
        induction l generalizing s with
        | nil => rfl
        | cons k r ih => rw [List.foldl_cons, ih]; simp
      · simp
  · simp
  · dsimp only; split <;> simp
  · rfl
@[simp] theorem pageAccess_si (s : State) (c : Nat) (x : Ctx) (src : Die) (cls : Nat) (cells : Bool) (va : Nat) (off : Nat) (n : Nat) (write : Bool) : (pageAccess s c x src cls cells va off n write).si = s.si := by
  unfold pageAccess
  split
  · split
    · simp
    · split
      · generalize annexLines _ _ _ _ _ _ = l; rename_i h; clear h
        induction l generalizing s with
        | nil => rfl
        | cons k r ih => rw [List.foldl_cons, ih]; simp
      · simp
  · simp
  · dsimp only; split <;> simp
  · rfl
@[simp] theorem pageAccess_ctxs (s : State) (c : Nat) (x : Ctx) (src : Die) (cls : Nat) (cells : Bool) (va : Nat) (off : Nat) (n : Nat) (write : Bool) : (pageAccess s c x src cls cells va off n write).ctxs = s.ctxs := by
  unfold pageAccess
  split
  · split
    · simp
    · split
      · generalize annexLines _ _ _ _ _ _ = l; rename_i h; clear h
        induction l generalizing s with
        | nil => rfl
        | cons k r ih => rw [List.foldl_cons, ih]; simp
      · simp
  · simp
  · dsimp only; split <;> simp
  · rfl
@[simp] theorem pageAccess_hostMem (s : State) (c : Nat) (x : Ctx) (src : Die) (cls : Nat) (cells : Bool) (va : Nat) (off : Nat) (n : Nat) (write : Bool) : (pageAccess s c x src cls cells va off n write).hostMem = s.hostMem := by
  unfold pageAccess
  split
  · split
    · simp
    · split
      · generalize annexLines _ _ _ _ _ _ = l; rename_i h; clear h
        induction l generalizing s with
        | nil => rfl
        | cons k r ih => rw [List.foldl_cons, ih]; simp
      · simp
  · simp
  · dsimp only; split <;> simp
  · rfl
@[simp] theorem pageAccess_free (s : State) (c : Nat) (x : Ctx) (src : Die) (cls : Nat) (cells : Bool) (va : Nat) (off : Nat) (n : Nat) (write : Bool) : (pageAccess s c x src cls cells va off n write).free = s.free := by
  unfold pageAccess
  split
  · split
    · simp
    · split
      · generalize annexLines _ _ _ _ _ _ = l; rename_i h; clear h
        induction l generalizing s with
        | nil => rfl
        | cons k r ih => rw [List.foldl_cons, ih]; simp
      · simp
  · simp
  · dsimp only; split <;> simp
  · rfl
@[simp] theorem pageAccess_pending (s : State) (c : Nat) (x : Ctx) (src : Die) (cls : Nat) (cells : Bool) (va : Nat) (off : Nat) (n : Nat) (write : Bool) : (pageAccess s c x src cls cells va off n write).pending = s.pending := by
  unfold pageAccess
  split
  · split
    · simp
    · split
      · generalize annexLines _ _ _ _ _ _ = l; rename_i h; clear h
        induction l generalizing s with
        | nil => rfl
        | cons k r ih => rw [List.foldl_cons, ih]; simp
      · simp
  · simp
  · dsimp only; split <;> simp
  · rfl

/-! ### `runAccess`: counters, annex lines and messages -/

@[simp] theorem runAccess_pins (c : Nat) (x : Ctx) (src : Die) (cls : Nat) (cells : Bool) (write : Bool) (gas : Nat) (va : Nat) (off : Nat) (n : Nat) (s : State) : (runAccess c x src cls cells write gas va off n s).pins = s.pins := by
  induction gas generalizing va off n s with
  | zero => rfl
  | succ g ih =>
    unfold runAccess
    split
    · rfl
    · dsimp only; rw [ih, pageAccess_pins]
@[simp] theorem runAccess_clock (c : Nat) (x : Ctx) (src : Die) (cls : Nat) (cells : Bool) (write : Bool) (gas : Nat) (va : Nat) (off : Nat) (n : Nat) (s : State) : (runAccess c x src cls cells write gas va off n s).clock = s.clock := by
  induction gas generalizing va off n s with
  | zero => rfl
  | succ g ih =>
    unfold runAccess
    split
    · rfl
    · dsimp only; rw [ih, pageAccess_clock]
@[simp] theorem runAccess_control (c : Nat) (x : Ctx) (src : Die) (cls : Nat) (cells : Bool) (write : Bool) (gas : Nat) (va : Nat) (off : Nat) (n : Nat) (s : State) : (runAccess c x src cls cells write gas va off n s).control = s.control := by
  induction gas generalizing va off n s with
  | zero => rfl
  | succ g ih =>
    unfold runAccess
    split
    · rfl
    · dsimp only; rw [ih, pageAccess_control]
@[simp] theorem runAccess_fw (c : Nat) (x : Ctx) (src : Die) (cls : Nat) (cells : Bool) (write : Bool) (gas : Nat) (va : Nat) (off : Nat) (n : Nat) (s : State) : (runAccess c x src cls cells write gas va off n s).fw = s.fw := by
  induction gas generalizing va off n s with
  | zero => rfl
  | succ g ih =>
    unfold runAccess
    split
    · rfl
    · dsimp only; rw [ih, pageAccess_fw]
@[simp] theorem runAccess_host (c : Nat) (x : Ctx) (src : Die) (cls : Nat) (cells : Bool) (write : Bool) (gas : Nat) (va : Nat) (off : Nat) (n : Nat) (s : State) : (runAccess c x src cls cells write gas va off n s).host = s.host := by
  induction gas generalizing va off n s with
  | zero => rfl
  | succ g ih =>
    unfold runAccess
    split
    · rfl
    · dsimp only; rw [ih, pageAccess_host]
@[simp] theorem runAccess_mgmt (c : Nat) (x : Ctx) (src : Die) (cls : Nat) (cells : Bool) (write : Bool) (gas : Nat) (va : Nat) (off : Nat) (n : Nat) (s : State) : (runAccess c x src cls cells write gas va off n s).mgmt = s.mgmt := by
  induction gas generalizing va off n s with
  | zero => rfl
  | succ g ih =>
    unfold runAccess
    split
    · rfl
    · dsimp only; rw [ih, pageAccess_mgmt]
@[simp] theorem runAccess_journal (c : Nat) (x : Ctx) (src : Die) (cls : Nat) (cells : Bool) (write : Bool) (gas : Nat) (va : Nat) (off : Nat) (n : Nat) (s : State) : (runAccess c x src cls cells write gas va off n s).journal = s.journal := by
  induction gas generalizing va off n s with
  | zero => rfl
  | succ g ih =>
    unfold runAccess
    split
    · rfl
    · dsimp only; rw [ih, pageAccess_journal]
@[simp] theorem runAccess_mirror (c : Nat) (x : Ctx) (src : Die) (cls : Nat) (cells : Bool) (write : Bool) (gas : Nat) (va : Nat) (off : Nat) (n : Nat) (s : State) : (runAccess c x src cls cells write gas va off n s).mirror = s.mirror := by
  induction gas generalizing va off n s with
  | zero => rfl
  | succ g ih =>
    unfold runAccess
    split
    · rfl
    · dsimp only; rw [ih, pageAccess_mirror]
@[simp] theorem runAccess_si (c : Nat) (x : Ctx) (src : Die) (cls : Nat) (cells : Bool) (write : Bool) (gas : Nat) (va : Nat) (off : Nat) (n : Nat) (s : State) : (runAccess c x src cls cells write gas va off n s).si = s.si := by
  induction gas generalizing va off n s with
  | zero => rfl
  | succ g ih =>
    unfold runAccess
    split
    · rfl
    · dsimp only; rw [ih, pageAccess_si]
@[simp] theorem runAccess_ctxs (c : Nat) (x : Ctx) (src : Die) (cls : Nat) (cells : Bool) (write : Bool) (gas : Nat) (va : Nat) (off : Nat) (n : Nat) (s : State) : (runAccess c x src cls cells write gas va off n s).ctxs = s.ctxs := by
  induction gas generalizing va off n s with
  | zero => rfl
  | succ g ih =>
    unfold runAccess
    split
    · rfl
    · dsimp only; rw [ih, pageAccess_ctxs]
@[simp] theorem runAccess_hostMem (c : Nat) (x : Ctx) (src : Die) (cls : Nat) (cells : Bool) (write : Bool) (gas : Nat) (va : Nat) (off : Nat) (n : Nat) (s : State) : (runAccess c x src cls cells write gas va off n s).hostMem = s.hostMem := by
  induction gas generalizing va off n s with
  | zero => rfl
  | succ g ih =>
    unfold runAccess
    split
    · rfl
    · dsimp only; rw [ih, pageAccess_hostMem]
@[simp] theorem runAccess_free (c : Nat) (x : Ctx) (src : Die) (cls : Nat) (cells : Bool) (write : Bool) (gas : Nat) (va : Nat) (off : Nat) (n : Nat) (s : State) : (runAccess c x src cls cells write gas va off n s).free = s.free := by
  induction gas generalizing va off n s with
  | zero => rfl
  | succ g ih =>
    unfold runAccess
    split
    · rfl
    · dsimp only; rw [ih, pageAccess_free]
@[simp] theorem runAccess_pending (c : Nat) (x : Ctx) (src : Die) (cls : Nat) (cells : Bool) (write : Bool) (gas : Nat) (va : Nat) (off : Nat) (n : Nat) (s : State) : (runAccess c x src cls cells write gas va off n s).pending = s.pending := by
  induction gas generalizing va off n s with
  | zero => rfl
  | succ g ih =>
    unfold runAccess
    split
    · rfl
    · dsimp only; rw [ih, pageAccess_pending]

/-! ### `readBuffer`: counters and messages -/

@[simp] theorem readBuffer_pins (s : State) (c : Nat) (va : Nat) (n : Nat) : (readBuffer s c va n).pins = s.pins := by
  unfold readBuffer; split <;> simp
@[simp] theorem readBuffer_clock (s : State) (c : Nat) (va : Nat) (n : Nat) : (readBuffer s c va n).clock = s.clock := by
  unfold readBuffer; split <;> simp
@[simp] theorem readBuffer_control (s : State) (c : Nat) (va : Nat) (n : Nat) : (readBuffer s c va n).control = s.control := by
  unfold readBuffer; split <;> simp
@[simp] theorem readBuffer_fw (s : State) (c : Nat) (va : Nat) (n : Nat) : (readBuffer s c va n).fw = s.fw := by
  unfold readBuffer; split <;> simp
@[simp] theorem readBuffer_host (s : State) (c : Nat) (va : Nat) (n : Nat) : (readBuffer s c va n).host = s.host := by
  unfold readBuffer; split <;> simp
@[simp] theorem readBuffer_mgmt (s : State) (c : Nat) (va : Nat) (n : Nat) : (readBuffer s c va n).mgmt = s.mgmt := by
  unfold readBuffer; split <;> simp
@[simp] theorem readBuffer_journal (s : State) (c : Nat) (va : Nat) (n : Nat) : (readBuffer s c va n).journal = s.journal := by
  unfold readBuffer; split <;> simp
@[simp] theorem readBuffer_mirror (s : State) (c : Nat) (va : Nat) (n : Nat) : (readBuffer s c va n).mirror = s.mirror := by
  unfold readBuffer; split <;> simp
@[simp] theorem readBuffer_si (s : State) (c : Nat) (va : Nat) (n : Nat) : (readBuffer s c va n).si = s.si := by
  unfold readBuffer; split <;> simp
@[simp] theorem readBuffer_ctxs (s : State) (c : Nat) (va : Nat) (n : Nat) : (readBuffer s c va n).ctxs = s.ctxs := by
  unfold readBuffer; split <;> simp
@[simp] theorem readBuffer_hostMem (s : State) (c : Nat) (va : Nat) (n : Nat) : (readBuffer s c va n).hostMem = s.hostMem := by
  unfold readBuffer; split <;> simp
@[simp] theorem readBuffer_free (s : State) (c : Nat) (va : Nat) (n : Nat) : (readBuffer s c va n).free = s.free := by
  unfold readBuffer; split <;> simp
@[simp] theorem readBuffer_pending (s : State) (c : Nat) (va : Nat) (n : Nat) : (readBuffer s c va n).pending = s.pending := by
  unfold readBuffer; split <;> simp

/-! ### One device: the pages and contexts read back -/

@[simp] theorem getCtx_emit (s : State) (o : Out) (c : Nat) : getCtx (s.emit o) c = getCtx s c := rfl
@[simp] theorem getCtx_at (s : State) (t c : Nat) : getCtx (s.at t) c = getCtx s c := rfl
@[simp] theorem getCtx_setPage (s : State) (p : Nat) (g : Page) (c : Nat) : getCtx (setPage s p g) c = getCtx s c := rfl
@[simp] theorem getCtx_countEv (s : State) (p source n : Nat) (ctx : Option Nat) (c : Nat) : getCtx (countEv s p source n ctx) c = getCtx s c := rfl
@[simp] theorem getCtx_raiseInt (s : State) (p bits c : Nat) : getCtx (raiseInt s p bits) c = getCtx s c := by simp [getCtx]
@[simp] theorem getCtx_logError (s : State) (p code addr syn c : Nat) : getCtx (logError s p code addr syn) c = getCtx s c := by simp [getCtx]
@[simp] theorem getPage_setPage_same (s : State) (p : Nat) (g : Page) : getPage (setPage s p g) p = g := by
  simp [getPage, setPage, tget_tset_same]
/-! ### An access past the annex touches no line of it -/

theorem pageAccess_mem_direct (s : State) (c : Nat) (x : Ctx) (src : Die) (cells : Bool) (va off n : Nat) (write : Bool) :
    (pageAccess s c x src 0 cells va off n write).mem = s.mem := by
  unfold pageAccess
  split
  · split
    · simp
    · simp [annexPath]
  · simp
  · dsimp only; split <;> simp
  · rfl
theorem runAccess_mem_direct (c : Nat) (x : Ctx) (src : Die) (cells write : Bool) (gas va off n : Nat) (s : State) :
    (runAccess c x src 0 cells write gas va off n s).mem = s.mem := by
  induction gas generalizing va off n s with
  | zero => rfl
  | succ g ih =>
    unfold runAccess
    split
    · rfl
    · dsimp only; rw [ih, pageAccess_mem_direct]
@[simp] theorem readBuffer_mem (s : State) (c va n : Nat) : (readBuffer s c va n).mem = s.mem := by
  unfold readBuffer; split <;> simp [runAccess_mem_direct]
@[simp] theorem getCtx_readBuffer (s : State) (c va n d : Nat) : getCtx (readBuffer s c va n) d = getCtx s d := by simp [getCtx]

/-! ### Lines of the annex: no access changes a byte, and no operation on them breaks the canonical form -/

@[simp] theorem writeBack_bytes (s : State) (l : Line) : (writeBack s l).mem.bytes = s.mem.bytes := by
  unfold writeBack; dsimp only; split <;> simp
@[simp] theorem useLine_bytes (s : State) (l : Line) (write : Bool) : (useLine s l write).mem.bytes = s.mem.bytes := rfl
@[simp] theorem lineAccess_bytes (s : State) (c : Nat) (x : Ctx) (key pa : Nat) (write : Bool) :
    (lineAccess s c x key pa write).mem.bytes = s.mem.bytes := by
  unfold lineAccess
  dsimp only
  split
  · simp
  · split
    · simp
    · rw [useLine_bytes, stackAccess_mem]; split <;> simp
theorem memOk_dropLines (m : Storage) (gone : Line → Bool) (h : memOk m.bytes = true) : memOk (dropLines m gone).bytes = true := by
  unfold dropLines
  dsimp only
  generalize m.lines.filter gone = l
  generalize m.bytes = b at h
  induction l generalizing b with
  | nil => exact h
  | cons k r ih =>
    rw [List.foldl_cons]
    apply ih
    split
    · exact memOk_mwrite _ _ _ h
    · exact h

@[simp] theorem getPort_setPort_same (s : State) (n : Nat) (p : Port) : getPort (setPort s n p) n = p := by
  simp [getPort, setPort, tgetD, tget_tset_same]

end Sys2Proof.Machine
end

