-- ==== Sys2Proof/Laws/Stream.lean ====
section
/-! SUPPORT. What issue does, for each way an instruction can settle, and what a replaced stream leaves. -/

namespace Sys2Proof.Machine

/-- What `issueAt` gives is the state's own context, attempt and stream, which can issue. -/
theorem issueAt_spec {s : State} {c st : Nat} {h : Hdr} {i : Ins} {p : At} (e : issueAt s c st h i = some p) :
    p.s = s ∧ p.c = c ∧ p.st = st ∧ getCtx s c = some p.x ∧ p.x.att = some p.a ∧ p.a.streams[st]? = some p.t
      ∧ p.x.ident.st = .running ∧ p.a.phase = .program ∧ p.a.status = .success ∧ p.t.ended = false ∧ p.t.stopped = false
      ∧ wordAt p.x st p.t.pc = some p.w ∧ decodeIns p.w = some (h, i) := by
  unfold issueAt at e
  split at e
  · cases e
  · rename_i x hx
    split at e
    · cases e
    · rename_i hrun
      split at e
      · cases e
      · rename_i a ha
        split at e
        · cases e
        · rename_i hph
          split at e
          · cases e
          · rename_i t ht
            split at e
            · cases e
            · rename_i hst
              split at e
              · cases e
              · rename_i w hw
                split at e
                · rename_i hd
                  cases e
                  simp only [bne_iff_ne, ne_eq, Bool.or_eq_true, Bool.not_eq_true', not_or, Decidable.not_not, Bool.not_eq_true] at hrun hph hst
                  exact ⟨rfl, rfl, rfl, hx, ha, ht, hrun, hph.1, hph.2, hst.1.1, hst.1.2, hw, hd⟩
                · cases e

variable {s : State} {c st : Nat} {h : Hdr} {i : Ins} {p : At}

theorem issue_ready (r : Ready s c st h i p) (body : At → Iss) : issue s c st h i body = settle p (body p) := by
  unfold issue
  rw [r.here]
  dsimp only
  rw [r.pred]
  have : (h.fw && !p.t.window.isEmpty) = false := by
    cases hf : h.fw
    · rfl
    · rw [r.free hf]; rfl
  rw [this]
  rfl

/-- Changing the stream of `p` replaces it and nothing else. -/
theorem modStream_at (e : issueAt s c st h i = some p) (f : Stream → Stream) : modStream s c st f = putStream p (f p.t) := by
  obtain ⟨h1, h2, h3, h4, h5, h6, -⟩ := issueAt_spec e
  subst h1; subst h2; subst h3
  simp only [modStream, modCtx_of h4, Ctx.modAtt, h5, Option.map_some, h6]
  rfl

theorem getStream_putStream (e : issueAt s c st h i = some p) (t : Stream) : getStream (putStream p t) c st = some t := by
  obtain ⟨h1, h2, h3, h4, h5, h6, -⟩ := issueAt_spec e
  subst h1; subst h2; subst h3
  have hl : p.st < p.a.streams.length := by
    rcases Nat.lt_or_ge p.st p.a.streams.length with h | h
    · exact h
    · rw [List.getElem?_eq_none h] at h6; cases h6
  simp [getStream, putStream, getCtx, tget_tset_same, hl]

/-- Two changes of the stream of `p` are one. -/
theorem modStream_putStream (e : issueAt s c st h i = some p) (t : Stream) (f : Stream → Stream) :
    modStream (putStream p t) c st f = putStream p (f t) := by
  obtain ⟨h1, h2, h3, h4, h5, h6, -⟩ := issueAt_spec e
  subst h1; subst h2; subst h3
  have hl : p.st < p.a.streams.length := by
    rcases Nat.lt_or_ge p.st p.a.streams.length with h | h
    · exact h
    · rw [List.getElem?_eq_none h] at h6; cases h6
  have hg : getCtx (putStream p t) p.c = some { p.x with att := some { p.a with streams := p.a.streams.set p.st t } } :=
    tget_tset_same _ _ _
  rw [modStream, modCtx_of hg]
  simp [setCtx, putStream, Ctx.modAtt, hl, tset_tset_same]

theorem goTo_at (e : issueAt s c st h i = some p) (n : Nat) : goTo s c st n = putStream p { p.t with pc := n, waiting := false } :=
  modStream_at e _

theorem holdAt_at (e : issueAt s c st h i = some p) : holdAt s c st = putStream p { p.t with waiting := true } := modStream_at e _

/-- An instruction that changes its stream by `f` and goes on to word `n`. -/
theorem settle_stream (e : issueAt s c st h i = some p) (f : Stream → Stream) (n : Nat) :
    settle p (.done (modStream p.s p.c p.st f) n) = putStream p { f p.t with pc := n, waiting := false } := by
  obtain ⟨h1, h2, h3, -⟩ := issueAt_spec e
  subst h1; subst h2; subst h3
  simp only [settle, goTo, modStream_at e]
  rw [modStream_putStream e]

theorem settle_next (e : issueAt s c st h i = some p) (n : Nat) :
    settle p (.done p.s n) = putStream p { p.t with pc := n, waiting := false } := by
  obtain ⟨h1, h2, h3, -⟩ := issueAt_spec e
  subst h1; subst h2; subst h3
  exact goTo_at e n

theorem settle_wait (e : issueAt s c st h i = some p) : settle p .wait = putStream p { p.t with waiting := true } := by
  obtain ⟨h1, h2, h3, -⟩ := issueAt_spec e
  subst h1; subst h2; subst h3
  exact holdAt_at e

/-- A skipped instruction. -/
theorem issue_skipped (e : issueAt s c st h i = some p) (hp : predOk h p.t = false) (body : At → Iss) :
    issue s c st h i body = putStream p (nextWord p) := by
  unfold issue
  rw [e]
  dsimp only
  rw [hp]
  exact goTo_at e _

/-- A fenced instruction with operations in flight. -/
theorem issue_fenced (e : issueAt s c st h i = some p) (hp : predOk h p.t = true) (hf : h.fw = true) (hw : p.t.window ≠ [])
    (body : At → Iss) : issue s c st h i body = putStream p { p.t with waiting := true } := by
  unfold issue
  rw [e]
  dsimp only
  rw [hp, hf]
  have : p.t.window.isEmpty = false := by
    cases hq : p.t.window with
    | nil => exact absurd hq hw
    | cons a b => rfl
  rw [this]
  exact holdAt_at e

end Sys2Proof.Machine
end

