-- ==== Sys2Proof/Machine/Builtin.lean ====
section
/-! DEFINITION. The accuracy that R182 gives the built-in activation tables, as a property of their free coefficients. -/

namespace Sys2Proof.Machine

/-- The real number that a finite value is. -/
def IsReal : XReal → ℝ → Prop
  | .fin neg n d e, r => r = (if neg then -1 else 1) * ((n : ℝ) / (d : ℝ)) * (2 : ℝ) ^ e
  | _, _ => False

/-- `y` is the function of a built-in slot at `x`: GELU, SiLU, tanh, sigmoid, softplus (R182). -/
def IsBuiltin (slot : Nat) (x y : ℝ) : Prop :=
  match slot with
  | 2 => y = x * ((∫ t in Set.Iic x, Real.exp (-t ^ 2 / 2)) / Real.sqrt (2 * Real.pi))
  | 3 => y = x / (1 + Real.exp (-x))
  | 4 => y = Real.tanh x
  | 5 => y = 1 / (1 + Real.exp (-x))
  | _ => y = Real.log (1 + Real.exp x)

/-- Every built-in table keeps R182's bound over all finite inputs: |y − f(x)| ≤ 2^−12 · max(1, |f(x)|). The free tables are not held to it; a
claim that needs it takes it as a hypothesis (log 11). -/
def BuiltinAccurate : Prop :=
  ∀ (x : Ctx) (slot v : Nat) (r f : ℝ), 2 ≤ slot → slot ≤ 6 → v < 2 ^ 32 → IsReal (v32 v) r → IsBuiltin slot r f →
    ∃ y : ℝ, IsReal (v32 (activate x slot v).1) y ∧ |y - f| ≤ 2 ^ (-12 : ℤ) * max 1 |f|

end Sys2Proof.Machine
end

