-- ==== Sys2Proof/Tests/Slice0.lean ====
section
/-! SUPPORT. Tests: ill-formed commands, instruction words written out bit by bit, and for every statement a state and operands that meet its
hypotheses. -/

namespace Sys2Proof.Tests

open Sys2Proof.Machine

set_option maxRecDepth 8000
set_option Elab.async false

/-! ### Small states -/

/-- An empty queue of 64 entries. -/
def queue0 : Queue := { Queue.none with sq := 0x100000, sqn := 64, cq := 0x200000, cqn := 64 }

/-- A device in service at address 0, its first host port up, the admin queue of function 0 enabled. -/
def up : State :=
  { State.reset with
    pins := { Pins.reset with modReset := true, perst0 := true }
    clock := { Clock.reset with now := 1000000000 }
    fw :=
      { Firmware.reset with
        stage := 7, running := some Image.factory, resident := residentOf Image.factory
        cores := allCores.map fun i => ⟨i, true, 0, [], true, false, 0, []⟩ }
    host := { HostIf.reset with up0 := true, address := some 0, funs := [(0, ⟨queue0, true, [], none, false⟩)] } }

/-- A 4 × 4 plain tensor of a format, row pitch 64 bytes, in the page at `base`. -/
def plain (fmt base : Nat) : Entry := { (default : Entry) with fmt := fmt, ndim := 1, dims := [4, 4, 1, 1], base := base, pitch := 64 }

/-- Four FP32 tensors at indexes 0 to 3, an INT32 tensor at 4, a ledger tensor at 5. -/
def cat0 : Catalogue :=
  { Catalogue.empty with
    tags := (List.range 6).map fun k => (k, 1)
    live := [(0, plain 11 0x10000), (1, plain 11 0x20000), (2, plain 11 0x30000), (3, plain 11 0x40000), (4, plain 13 0x50000),
             (5, { plain 0 0x60000 with kind := 2, pitch := 192 })] }

/-- Call number of the entry at an index, with tag 1. -/
def call (k : Nat) : Nat := callNo 1 k

def ident0 (st : CtxSt) : Ident :=
  { (default : Ident) with st := st, version := 0x0302, job := 7, seed := 1, token := 99, carrels := 1, weight := 1, frames := 64, grant := [0],
                           xtsKey := true }

/-- An OPENED context of function 0 with one queue, pages 1 to 7 mapped to the frames at the same addresses, and the tensors of `cat0`. -/
def ctx0 : Ctx :=
  { (default : Ctx) with
    ident := ident0 .opened, queues := [queue0], maps := (List.range 7).map fun k => (k + 1, ⟨0, true, 0, 0x10000 * (k + 1), 0, false⟩)
    cat := cat0, pol := Policies.empty, gate := Gate.zero, flags := FlagWords.zero, vols := Vols.empty, tr := Transcript.zero }

/-- The device with one context. -/
def with0 (x : Ctx) : State := { up with ctxs := [(0, x)] }

/-- The context in a state. -/
def inSt (st : CtxSt) : Ctx := { ctx0 with ident := ident0 st }

/-- A header without predicate or fence. -/
def hdr0 : Hdr := ⟨false, false, 0, false⟩

/-- Registers s3 = 1, the others 0; a1 to a6 the call numbers of the tensors. -/
def stream0 : Stream := Stream.start ⟨[], 1 :: List.replicate 28 0, [0, call 0, call 1, call 2, call 3, call 4, call 5, 0]⟩ 0 0 0

/-- A RUNNING context whose stream stands at one instruction. -/
def attempt0 (t : Stream) : Attempt := newAttempt up ctx0 [t] true .success
def runs (h : Hdr) (i : Ins) (t : Stream) : Ctx :=
  { inSt .running with
    prog := some ⟨[], [⟨[encodeIns h i], [], []⟩]⟩, att := some (attempt0 t)
    run := some ⟨.ctx 0 0, 1, false, 1, 0, 0, false, none⟩ }
def at0 (h : Hdr) (i : Ins) (t : Stream) : At := ⟨with0 (runs h i t), 0, 0, runs h i t, attempt0 t, t, encodeIns h i⟩
/-- The same in a device and context changed by `f`. -/
def ready (i : Ins) : State := with0 (runs hdr0 i stream0)
def atOf (i : Ins) : At := at0 hdr0 i stream0

/-- An instruction whose word reads back stands ready. -/
theorem here_of (h : Hdr) (i : Ins) (t : Stream) (hd : decodeIns (encodeIns h i) = some (h, i)) (hp : t.pc = 0) (he : t.ended = false)
    (hs : t.stopped = false) (hi : t.issue = 0) : issueAt (with0 (runs h i t)) 0 0 h i = some (at0 h i t) := by
  have hc : coreUp (with0 (runs h i t)) (.clerk (bayOfCarrel t.issue)) = true := by rw [hi]; rfl
  have hw : wordAt (runs h i t) 0 t.pc = some (encodeIns h i) := by rw [hp]; rfl
  have hg : getCtx (with0 (runs h i t)) 0 = some (runs h i t) := rfl
  have ha : (runs h i t).att = some (attempt0 t) := rfl
  have hst : (runs h i t).ident.st = .running := rfl
  have hl : (attempt0 t).streams[0]? = some t := rfl
  have hph : (attempt0 t).phase = .program := rfl
  have hss : (attempt0 t).status = .success := rfl
  simp [issueAt, hg, ha, hst, hl, hph, hss, he, hs, hc, hw, hd, at0]

theorem ready_of (i : Ins) (hd : decodeIns (encodeIns hdr0 i) = some (hdr0, i)) : Ready (ready i) 0 0 hdr0 i (atOf i) :=
  ⟨here_of hdr0 i stream0 hd rfl rfl rfl rfl, rfl, fun h => nomatch h⟩

/-- An instruction that reads back stands ready in any stream that can issue it, under any header that lets it. -/
theorem ready_at (h : Hdr) (i : Ins) (t : Stream) (hd : decodeIns (encodeIns h i) = some (h, i)) (hp : t.pc = 0) (he : t.ended = false)
    (hs : t.stopped = false) (hi : t.issue = 0) (hq : predOk h t = true) (hf : h.fw = false) :
    Ready (with0 (runs h i t)) 0 0 h i (at0 h i t) :=
  ⟨here_of h i t hd hp he hs hi, hq, fun k => by simp [hf] at k⟩

/-! ### Witnesses: control instructions -/

def addF : AluF := ⟨3, 3, 3, false, 0, 0⟩
def brF : BrF := ⟨6, 0, 0, 1⟩

theorem scalar_witness :
    Ready (ready .nop) 0 0 hdr0 .nop (atOf .nop) ∧ Ready (ready (.li 31 false (2 ^ 64 - 1))) 0 0 hdr0 (.li 31 false (2 ^ 64 - 1))
      (atOf (.li 31 false (2 ^ 64 - 1)))
    ∧ Ready (ready (.li 7 true (2 ^ 32 - 1))) 0 0 hdr0 (.li 7 true (2 ^ 32 - 1)) (atOf (.li 7 true (2 ^ 32 - 1)))
    ∧ Ready (ready (.alu addF)) 0 0 hdr0 (.alu addF) (atOf (.alu addF)) ∧ Ready (ready (.br brF)) 0 0 hdr0 (.br brF) (atOf (.br brF))
    ∧ Ready (ready (.mova 7 3)) 0 0 hdr0 (.mova 7 3) (atOf (.mova 7 3)) ∧ Ready (ready (.movs 3 7)) 0 0 hdr0 (.movs 3 7) (atOf (.movs 3 7))
    ∧ (Ready (ready (.time 4 0)) 0 0 hdr0 (.time 4 0) (atOf (.time 4 0)) ∧ (atOf (.time 4 0)).x.verbatim = false)
    ∧ Ready (ready (.time 4 1)) 0 0 hdr0 (.time 4 1) (atOf (.time 4 1)) ∧ Ready (ready (.time 4 2)) 0 0 hdr0 (.time 4 2) (atOf (.time 4 2)) :=
  ⟨ready_of _ (by decide), ready_of _ (by decide), ready_of _ (by decide), ready_of _ (by decide), ready_of _ (by decide),
   ready_of _ (by decide), ready_of _ (by decide), ⟨ready_of _ (by decide), by decide⟩, ready_of _ (by decide), ready_of _ (by decide)⟩

/-- Sums wrap, shifts take the amount modulo 64, comparisons are signed or not (R209). -/
theorem test_alu_edges : aluFn 0 (2 ^ 64 - 1) 1 = 0 ∧ aluFn 1 0 1 = 2 ^ 64 - 1 ∧ aluFn 6 1 64 = 1 ∧ aluFn 8 (2 ^ 63) 63 = 2 ^ 64 - 1
    ∧ aluFn 9 (2 ^ 63) 0 = 1 ∧ aluFn 10 (2 ^ 63) 0 = 0 ∧ brTaken 2 (2 ^ 63) 0 = true ∧ brTaken 4 (2 ^ 63) 0 = false := by decide

theorem registers_witness : (0 < 31 ∧ 31 < stream0.s.length ∧ 7 < stream0.a.length)
    ∧ (stream0.setReg 31 (2 ^ 64 + 5)).reg 31 = 5 ∧ (stream0.setReg 0 5).reg 0 = 0 ∧ (stream0.setAddr 7 (2 ^ 32 + 1)).addr 7 = 1 := by decide

/-- The device with one watch entry, layer 4 at rung 2, in the context of an instruction. -/
def watched (i : Ins) : Ctx :=
  let x := runs hdr0 i stream0
  { x with pol := { x.pol with watch := [(4, { (default : Watch) with rung := 2 })] } }

theorem flags_and_rung_witness : Ready (ready (.flags 5 true)) 0 0 hdr0 (.flags 5 true) (atOf (.flags 5 true))
    ∧ (Ready (ready (.rung 5 4)) 0 0 hdr0 (.rung 5 4) (atOf (.rung 5 4)) ∧ rungOf (atOf (.rung 5 4)).x 4 = none)
    ∧ rungOf (watched (.rung 5 4)) 4 = some 2 := ⟨ready_of _ (by decide), ⟨ready_of _ (by decide), rfl⟩, rfl⟩

/-- A predicate that does not hold: s3 = 1 under `pn`. -/
def hdrOff : Hdr := ⟨true, true, 3, false⟩
def hdrFence : Hdr := ⟨false, false, 0, true⟩
def fillF : MoveF := { aD := 1, aS := 0, sb := 4, rows := 1, cols := 1, rv := 3 }
def opOn (k : Nat) : Op := ⟨3, [], [call k], false, none, [0]⟩
def busyTile : Stream := stream0.setTile 15 { Tile.idle with busy := true }

theorem withheld_witness :
    (issueAt (with0 (runs hdrOff (.fill fillF) stream0)) 0 0 hdrOff (.fill fillF) = some (at0 hdrOff (.fill fillF) stream0)
      ∧ ((stream0.reg 3 ≠ 0) ↔ hdrOff.pn = true))
    ∧ (issueAt (with0 (runs hdrFence .nop { stream0 with window := [opOn 0] })) 0 0 hdrFence .nop
        = some (at0 hdrFence .nop { stream0 with window := [opOn 0] }) ∧ predOk hdrFence { stream0 with window := [opOn 0] } = true)
    ∧ (Ready (with0 (runs hdr0 (.epiReset 15) busyTile)) 0 0 hdr0 (.epiReset 15) (at0 hdr0 (.epiReset 15) busyTile)
        ∧ (busyTile.tile 15).busy = true)
    ∧ (Ready (with0 (runs hdr0 (.fill fillF) { stream0 with window := [opOn 0] })) 0 0 hdr0 (.fill fillF)
        (at0 hdr0 (.fill fillF) { stream0 with window := [opOn 0] })
        ∧ opCalls (.fill fillF) (at0 hdr0 (.fill fillF) { stream0 with window := [opOn 0] }) = some ([], [call 0]))
    ∧ (Ready (with0 (runs hdr0 (.fill fillF) { stream0 with window := List.replicate 32 (opOn 3) })) 0 0 hdr0 (.fill fillF)
        (at0 hdr0 (.fill fillF) { stream0 with window := List.replicate 32 (opOn 3) })) :=
  ⟨⟨here_of _ _ _ (by decide) rfl rfl rfl rfl, by decide⟩, ⟨here_of _ _ _ (by decide) rfl rfl rfl rfl, by decide⟩,
   ⟨ready_at _ _ _ (by decide) rfl rfl rfl rfl rfl rfl, by decide⟩, ⟨ready_at _ _ _ (by decide) rfl rfl rfl rfl rfl rfl, by decide⟩,
   ready_at _ _ _ (by decide) rfl rfl rfl rfl rfl rfl⟩

theorem withheld_rows : (Instr.moveFill 0 0 hdrOff fillF).ins? = some (0, 0, hdrOff, .fill fillF)
    ∧ (Instr.ctrlNop 0 0 hdrFence).ins? = some (0, 0, hdrFence, .nop) ∧ (Instr.epiReset 0 0 hdr0 15).ins? = some (0, 0, hdr0, .epiReset 15) :=
  ⟨rfl, rfl, rfl⟩

/-- A stream with slot 15 in a state. -/
def slotted (e : Option Status) : Stream := { stream0 with slots := List.replicate 15 Slot.free ++ [⟨true, 77, e, 77⟩] }
def copied : Op := ⟨3, [call 0], [], false, none, []⟩

theorem wait_witness :
    (Ready (with0 (runs hdr0 (.fence true) { stream0 with window := [copied] })) 0 0 hdr0 (.fence true)
      (at0 hdr0 (.fence true) { stream0 with window := [copied] }) ∧ copied.writes = [])
    ∧ Ready (with0 (runs hdr0 (.fence false) { stream0 with window := [copied] })) 0 0 hdr0 (.fence false)
      (at0 hdr0 (.fence false) { stream0 with window := [copied] })
    ∧ (Ready (ready (.waitt 0xFFFF)) 0 0 hdr0 (.waitt 0xFFFF) (atOf (.waitt 0xFFFF)) ∧ ∀ k < 16, (stream0.tile k).busy = false)
    ∧ (Ready (with0 (runs hdr0 (.waitt 0x8000) busyTile)) 0 0 hdr0 (.waitt 0x8000) (at0 hdr0 (.waitt 0x8000) busyTile)
        ∧ bitOf 0x8000 15 = true ∧ (busyTile.tile 15).busy = true)
    ∧ (Ready (with0 (runs hdr0 (.waitc 0x8000) (slotted (some .success)))) 0 0 hdr0 (.waitc 0x8000)
        (at0 hdr0 (.waitc 0x8000) (slotted (some .success)))
        ∧ ∀ k < 16, bitOf 0x8000 k = true → ((slotted (some .success)).slot k).busy = true →
            ((slotted (some .success)).slot k).status = some .success)
    ∧ Ready (with0 (runs hdr0 .endS (slotted (some .success)))) 0 0 hdr0 .endS (at0 hdr0 .endS (slotted (some .success)))
    ∧ (Ready (with0 (runs hdr0 (.waitc 0x8000) (slotted none))) 0 0 hdr0 (.waitc 0x8000) (at0 hdr0 (.waitc 0x8000) (slotted none))
        ∧ ((slotted none).slot 15).busy = true ∧ ((slotted none).slot 15).status = none)
    ∧ (Ready (with0 (runs hdr0 (.waitc 0x8000) (slotted (some .ecollTimeout)))) 0 0 hdr0 (.waitc 0x8000)
        (at0 hdr0 (.waitc 0x8000) (slotted (some .ecollTimeout)))
        ∧ ((slotted (some .ecollTimeout)).slot 15).status = some .ecollTimeout ∧ ∀ j < 15, ((slotted (some .ecollTimeout)).slot j).busy = false) :=
  ⟨⟨ready_at _ _ _ (by decide) rfl rfl rfl rfl rfl rfl, rfl⟩, ready_at _ _ _ (by decide) rfl rfl rfl rfl rfl rfl,
   ⟨ready_of _ (by decide), by decide⟩, ⟨ready_at _ _ _ (by decide) rfl rfl rfl rfl rfl rfl, by decide⟩,
   ⟨ready_at _ _ _ (by decide) rfl rfl rfl rfl rfl rfl, by decide⟩, ready_at _ _ _ (by decide) rfl rfl rfl rfl rfl rfl,
   ⟨ready_at _ _ _ (by decide) rfl rfl rfl rfl rfl rfl, by decide⟩, ⟨ready_at _ _ _ (by decide) rfl rfl rfl rfl rfl rfl, by decide⟩⟩

/-- A context whose attempt has the given streams. -/
def attemptOf (l : List Stream) : Ctx := let x := runs hdr0 .bar stream0; { x with att := some { attempt0 stream0 with streams := l } }

theorem bar_witness :
    (Ready (ready .bar) 0 0 hdr0 .bar (atOf .bar) ∧ stream0.bars = stream0.barsDone)
    ∧ (let a := { attempt0 stream0 with streams := [{ stream0 with bars := 1 }, { stream0 with ended := true }] }
       Running (with0 (attemptOf a.streams)) 0 (attemptOf a.streams) a ∧ a.phase = .program ∧ a.status = .success ∧ barNext a = some 1
        ∧ ∀ t ∈ a.streams, (t.ended = true ∨ 1 ≤ t.bars) ∧ (1 < t.bars ∨ t.window = []))
    ∧ (let a := { attempt0 stream0 with streams := [{ stream0 with bars := 1 }, stream0] }
       Running (with0 (attemptOf a.streams)) 0 (attemptOf a.streams) a ∧ barNext a = some 1
        ∧ ∃ t ∈ a.streams, (t.ended = false ∧ t.bars < 1) ∨ (t.bars ≤ 1 ∧ t.window ≠ [])) :=
  ⟨⟨ready_of _ (by decide), rfl⟩, ⟨⟨rfl, rfl⟩, rfl, rfl, rfl, by decide⟩, ⟨⟨rfl, rfl⟩, rfl, ⟨stream0, by simp, by decide⟩⟩⟩

theorem stream_faults_witness :
    let x := attemptOf [{ stream0 with pc := 1 }]; let a := { attempt0 stream0 with streams := [{ stream0 with pc := 1 }] }
    Running (with0 x) 0 x a ∧ x.ident.st = .running ∧ a.phase = .program ∧ a.status = .success
      ∧ a.streams[0]? = some { stream0 with pc := 1 } ∧ wordAt x 0 1 = none ∧ tget x.faults 0 = none :=
  ⟨⟨rfl, rfl⟩, rfl, rfl, rfl, rfl, rfl, rfl⟩

def preF (a sp : Nat) : PreF := ⟨15, a, sp⟩
def arithF : EpiArithF := { tile := 15, saxis := 1, scale := 1, baxis := 0, bias := 0, slot := 2, target := 11, round := 0, stream := 0 }
def tapF : EpiTapF := ⟨15, 1, 1, true, 2, false, 0, 0, false, 0, 0⟩

theorem tiles_witness :
    (stream0.tile 15).busy = false ∧ Ready (ready (.pre .zero (preF 0 0))) 0 0 hdr0 (.pre .zero (preF 0 0)) (atOf (.pre .zero (preF 0 0)))
    ∧ Ready (ready (.pre .brow (preF 7 0))) 0 0 hdr0 (.pre .brow (preF 7 0)) (atOf (.pre .brow (preF 7 0)))
    ∧ Ready (ready (.pre .bcol (preF 7 0))) 0 0 hdr0 (.pre .bcol (preF 7 0)) (atOf (.pre .bcol (preF 7 0)))
    ∧ Ready (ready (.pre .res (preF 7 30))) 0 0 hdr0 (.pre .res (preF 7 30)) (atOf (.pre .res (preF 7 30)))
    ∧ Ready (ready (.pre .self (preF 0 0))) 0 0 hdr0 (.pre .self (preF 0 0)) (atOf (.pre .self (preF 0 0)))
    ∧ Ready (ready (.epiArith arithF)) 0 0 hdr0 (.epiArith arithF) (atOf (.epiArith arithF))
    ∧ Ready (ready (.epiTap tapF)) 0 0 hdr0 (.epiTap tapF) (atOf (.epiTap tapF))
    ∧ Ready (ready (.epiReset 15)) 0 0 hdr0 (.epiReset 15) (atOf (.epiReset 15)) :=
  ⟨rfl, ready_of _ (by decide), ready_of _ (by decide), ready_of _ (by decide), ready_of _ (by decide), ready_of _ (by decide),
   ready_of _ (by decide), ready_of _ (by decide), ready_of _ (by decide)⟩

/-! ### Witnesses: data operations -/

/-- A context whose stream stands at one instruction, with a catalogue and policies of its own. -/
def runsIn (k : Catalogue) (o : Policies) (i : Ins) (t : Stream) : Ctx := { runs hdr0 i t with cat := k, pol := o }
def stateIn (m : Storage) (k : Catalogue) (o : Policies) (i : Ins) (t : Stream) : State := { with0 (runsIn k o i t) with mem := m }
def atIn (m : Storage) (k : Catalogue) (o : Policies) (i : Ins) (t : Stream) : At :=
  ⟨stateIn m k o i t, 0, 0, runsIn k o i t, attempt0 t, t, encodeIns hdr0 i⟩

theorem ready_in (m : Storage) (k : Catalogue) (o : Policies) (i : Ins) (t : Stream) (hd : decodeIns (encodeIns hdr0 i) = some (hdr0, i)) (hp : t.pc = 0)
    (he : t.ended = false) (hs : t.stopped = false) (hi : t.issue = 0) :
    Ready (stateIn m k o i t) 0 0 hdr0 i (atIn m k o i t) := by
  have hc : coreUp (stateIn m k o i t) (.clerk (bayOfCarrel t.issue)) = true := by rw [hi]; rfl
  have hw : wordAt (runsIn k o i t) 0 t.pc = some (encodeIns hdr0 i) := by rw [hp]; rfl
  have hg : getCtx (stateIn m k o i t) 0 = some (runsIn k o i t) := rfl
  have ha : (runsIn k o i t).att = some (attempt0 t) := rfl
  have hst : (runsIn k o i t).ident.st = .running := rfl
  have hl : (attempt0 t).streams[0]? = some t := rfl
  have hph : (attempt0 t).phase = .program := rfl
  have hss : (attempt0 t).status = .success := rfl
  exact ⟨by simp [issueAt, hg, ha, hst, hl, hph, hss, he, hs, hc, hw, hd, atIn], rfl, fun h => nomatch h⟩

/-- A plain tensor of one row of `n` elements. -/
def row (fmt n base : Nat) : Entry := { plain fmt base with dims := [1, n, 1, 1], pitch := 512 }

/-- Rows of 32: FP32 at indexes 0 to 2, a quire of INT8 groups at 3, INT8 at 4, FP64 at 5, INT32 at 6; a ledger in the annex at 7, FP32 in
the annex at 8. -/
def cat1 : Catalogue :=
  { Catalogue.empty with
    tags := (List.range 9).map fun k => (k, 1)
    live := [(0, row 11 32 0x10000), (1, row 11 32 0x20000), (2, row 11 32 0x30000),
             (3, { row 3 32 0x40000 with kind := 1, layer := 0xFFFF, policy := { Policy.zero with fmt := 5, gsize := 2 }, pitch := 576 }),
             (4, { row 5 224 0x50000 with pitch := 256 }), (5, { row 12 32 0x60000 with pitch := 256 }), (6, { row 13 224 0x70000 with pitch := 1024 }),
             (7, { row 0 32 0x10000 with kind := 2, cls := 1, pitch := 48 * 32 }), (8, { row 11 32 0x20000 with cls := 1 })] }
def pol1 : Policies := { Policies.empty with rot := [(1, ⟨0, 5⟩)], watch := [(4, { (default : Watch) with rung := 2 })] }
def stream1 (l : List Nat) : Stream := Stream.start ⟨[], 1 :: List.replicate 28 0, l.map call⟩ 0 0 0

def copyF : MoveF := ⟨0, 1, 4, 0, 31, 0⟩
def rotF (r : Nat) : RotF := ⟨0, 1, 4, 0, 0, r⟩
def s1 : Stream := stream1 [2, 0, 1, 3]
def p1 (i : Ins) : At := atIn State.reset.mem cat1 pol1 i s1
def quantF : RotF := ⟨3, 1, 4, 0, 0, 0⟩
def deqF : RotF := ⟨0, 3, 4, 0, 0, 0⟩

theorem moves_witness :
    (Ready (p1 (.copy copyF)).s 0 0 hdr0 (.copy copyF) (p1 (.copy copyF))
      ∧ Clean (p1 (.copy copyF)) (checkOpnds (p1 (.copy copyF)) [call 2, call 0] (copyChecks (p1 (.copy copyF)).x (s1.origins 4 4) 1 32))
          [call 0] [call 2] (copyWork copyF (p1 (.copy copyF))))
    ∧ (Ready (ready (.fill fillF)) 0 0 hdr0 (.fill fillF) (atOf (.fill fillF))
      ∧ Clean (atOf (.fill fillF)) (checkOpnds (atOf (.fill fillF)) [call 0] (fillChecks 1 0 0 2 2)) [] [call 0]
          (fillWork fillF (atOf (.fill fillF))))
    ∧ (∀ b, Ready (p1 (.rot b (rotF 1))).s 0 0 hdr0 (.rot b (rotF 1)) (p1 (.rot b (rotF 1)))
      ∧ Clean (p1 (.rot b (rotF 1))) (checkOpnds (p1 (.rot b (rotF 1))) [call 2, call 0] (rotChecks (p1 (.rot b (rotF 1))).x (rotF 1) (s1.origins 4 4)))
          [call 0] [call 2] (rotWork b (rotF 1) (p1 (.rot b (rotF 1))))) :=
  ⟨⟨ready_in _ _ _ _ _ (by decide) rfl rfl rfl rfl, by decide +kernel, by decide +kernel, by decide +kernel⟩,
   ⟨ready_of _ (by decide), by decide, by decide, by decide +kernel⟩,
   fun b => ⟨by cases b <;> exact ready_in _ _ _ _ _ (by decide) rfl rfl rfl rfl, by cases b <;> decide +kernel, by cases b <;> decide +kernel,
     by cases b <;> decide +kernel⟩⟩

theorem quant_witness : Ready (p1 (.quant quantF)).s 0 0 hdr0 (.quant quantF) (p1 (.quant quantF))
    ∧ Clean (p1 (.quant quantF)) (checkOpnds (p1 (.quant quantF)) [call 3, call 0] (quantChecks (p1 (.quant quantF)).x quantF (s1.origins 4 4)))
        [call 0] [call 3] (quantWork quantF (p1 (.quant quantF))) :=
  ⟨ready_in _ _ _ _ _ (by decide) rfl rfl rfl rfl, by decide +kernel, by decide +kernel, by decide +kernel⟩

/-- Device memory after the QUANT of `quant_witness`. -/
def quanted : Storage := (quantWork quantF (p1 (.quant quantF))).s.mem
def p2 : At := atIn quanted cat1 pol1 (.deq deqF) s1

theorem deq_witness : Ready p2.s 0 0 hdr0 (.deq deqF) p2
    ∧ Clean p2 (checkOpnds p2 [call 2, call 3] (deqChecks p2.x deqF (s1.origins 4 4))) [call 3] [call 2] (deqWork deqF p2) :=
  ⟨ready_in _ _ _ _ _ (by decide) rfl rfl rfl rfl, by decide +kernel, by decide +kernel, by decide +kernel⟩

def redF : RedF := ⟨0, 1, 4, 0, 0, 0, 0, 0⟩
def s2 (d : Nat) : Stream := stream1 [d, 0, 1]

/-- The reductions over rows of 32, with destination `d`. -/
def p3 (o : RedOp) (d : Nat) : At := atIn State.reset.mem cat1 pol1 (.red o redF) (s2 d)

theorem reductions_witness : ∀ o ∈ [RedOp.sum, .sumsq, .max, .min, .amax],
    Ready (p3 o 2).s 0 0 hdr0 (.red o redF) (p3 o 2)
      ∧ Clean (p3 o 2) (checkOpnds (p3 o 2) [call 2, call 0] (redChecks redF ((s2 2).origins 4 4))) [call 0] [call 2] (redWork o redF (p3 o 2)) := by
  intro o ho
  simp only [List.mem_cons, List.not_mem_nil, or_false] at ho
  rcases ho with rfl | rfl | rfl | rfl | rfl <;>
    exact ⟨ready_in _ _ _ _ _ (by decide) rfl rfl rfl rfl, by decide +kernel, by decide +kernel, by decide +kernel⟩

def statsF : RedF := ⟨0, 1, 4, 0, 0, 0, 4, 1⟩
def p4 : At := atIn State.reset.mem cat1 pol1 (.red .stats statsF) (s2 0)

theorem stats_witness : Ready p4.s 0 0 hdr0 (.red .stats statsF) p4
    ∧ Clean p4 (checkOpnds p4 [call 0] fun l => l.flatMap fun u => [(u.isFloat && (tget p4.x.pol.watch 4).isSome, eargF), inView u 0 0 1 1])
        [call 0] [] (statsWork statsF p4) :=
  ⟨ready_in _ _ _ _ _ (by decide) rfl rfl rfl rfl, by decide +kernel, by decide +kernel, by decide +kernel⟩

theorem atomics_witness :
    (Ready (p3 .ladd 7).s 0 0 hdr0 (.red .ladd redF) (p3 .ladd 7)
      ∧ Clean (p3 .ladd 7) (checkOpnds (p3 .ladd 7) [call 7, call 0] (addChecks true (p3 .ladd 7).s (p3 .ladd 7).x redF ((s2 7).origins 4 4)))
          [call 0] [call 7] (addWork (p3 .ladd 7) ((p3 .ladd 7).ref (call 0)) ((s2 7).origins 4 4) 1 1
            fun s i j v => ledgerCell s 0 (p3 .ladd 7).x ((p3 .ladd 7).ref (call 7)) i j fun l => l.add32 v))
    ∧ (Ready (p3 .fadd 8).s 0 0 hdr0 (.red .fadd redF) (p3 .fadd 8) ∧ (p3 .fadd 8).x.verbatim = false
      ∧ Clean (p3 .fadd 8) (checkOpnds (p3 .fadd 8) [call 8, call 0] (addChecks false (p3 .fadd 8).s (p3 .fadd 8).x redF ((s2 8).origins 4 4)))
          [call 0] [call 8] (addWork (p3 .fadd 8) ((p3 .fadd 8).ref (call 0)) ((s2 8).origins 4 4) 1 1
            fun s i j v => floatCell s 0 (p3 .fadd 8).x ((p3 .fadd 8).ref (call 8)) i j v)) :=
  ⟨⟨ready_in _ _ _ _ _ (by decide) rfl rfl rfl rfl, by decide +kernel, by decide +kernel, by decide +kernel⟩,
   ⟨ready_in _ _ _ _ _ (by decide) rfl rfl rfl rfl, by decide, by decide +kernel, by decide +kernel, by decide +kernel⟩⟩

/-! ### Witnesses: VEC -/

def vecF (z prec : Nat) : VecF := ⟨0, 1, if prec = 0 then 2 else 0, z, 4, 0, 0, 0, 0, prec, 0, 0⟩
def s3 : Stream := stream1 [2, 0, 1, 0]
def p5 (o : VecOp) (f : VecF) : At := atIn State.reset.mem cat1 pol1 (.vec o f) s3
def VecOk (o : VecOp) (f : VecF) : Prop := Ready (p5 o f).s 0 0 hdr0 (.vec o f) (p5 o f)
  ∧ Clean (p5 o f) (checkOpnds (p5 o f) (s3.addr f.aD :: vecReads (p5 o f) o f) (vecChecks (p5 o f) o f)) (vecReads (p5 o f) o f) [s3.addr f.aD]
      (vecWork o f (p5 o f))

theorem binary_witness : VecOk .add (vecF 0 0) ∧ VecOk .sub (vecF 0 0) ∧ VecOk .mul (vecF 0 0) ∧ VecOk .max (vecF 0 0) ∧ VecOk .min (vecF 0 0)
    ∧ VecOk .fma (vecF 3 0) := by
  refine ⟨?_, ?_, ?_, ?_, ?_, ?_⟩ <;>
    exact ⟨ready_in _ _ _ _ _ (by decide) rfl rfl rfl rfl, by decide +kernel, by decide +kernel, by decide +kernel⟩

/-- CVT, EXP, RCP and RSQRT read X alone. -/
def oneF (p : Nat) : VecF := ⟨0, 1, 0, 0, 4, 0, 0, 0, 0, p, 0, 0⟩

theorem unary_witness : VecOk .cvt (oneF 0) ∧ VecOk .exp (oneF 0) ∧ VecOk .rcp (oneF 0) ∧ VecOk .rsqrt (oneF 0) := by
  refine ⟨?_, ?_, ?_, ?_⟩ <;>
    exact ⟨ready_in _ _ _ _ _ (by decide) rfl rfl rfl rfl, by decide +kernel, by decide +kernel, by decide +kernel⟩

/-- The control word of SPLIT and MERGE is in s3 = 1: one slice. -/
def splitF : VecF := ⟨0, 1, 2, 0, 4, 0, 31, 0, 3, 0, 0, 0⟩
def p6 : At := atIn State.reset.mem cat1 pol1 (.vec .split splitF) (stream1 [4, 0, 5])
def mergeF : VecF := ⟨0, 1, 2, 3, 4, 0, 0, 0, 3, 1, 0, 0⟩
def p7 : At := atIn State.reset.mem cat1 pol1 (.vec .merge mergeF) (stream1 [2, 6, 5, 5])

theorem split_witness : Ready p6.s 0 0 hdr0 (.vec .split splitF) p6
    ∧ Clean p6 (checkOpnds p6 [call 4, call 0, call 5] (splitChecks p6 splitF)) [call 0] [call 4, call 5] (splitWork splitF p6) :=
  ⟨ready_in _ _ _ _ _ (by decide) rfl rfl rfl rfl, by decide +kernel, by decide +kernel, by decide +kernel⟩

theorem merge_witness : Ready p7.s 0 0 hdr0 (.vec .merge mergeF) p7
    ∧ Clean p7 (checkOpnds p7 [call 2, call 6, call 5, call 5] (mergeChecks p7 mergeF)) [call 6, call 5, call 5] [call 2] (mergeWork mergeF p7) :=
  ⟨ready_in _ _ _ _ _ (by decide) rfl rfl rfl rfl, by decide +kernel, by decide +kernel, by decide +kernel⟩

/-! ### Witnesses: staging, folios, atomics -/

def stageF : MoveF := ⟨0, 1, 4, 0, 31, 0⟩
def p8 : At := atIn State.reset.mem cat1 pol1 (.stage stageF) s1

theorem staging_witness : (Ready p8.s 0 0 hdr0 (.stage stageF) p8 ∧ tensor p8.x (s1.addr 1) = some ⟨call 0, row 11 32 0x10000⟩
      ∧ extentOk (row 11 32 0x10000) (s1.reg 6) (s1.reg 7) 1 32 = true)
    ∧ (let t := { stream0 with waiting := true }
       Running (with0 (attemptOf [t])) 0 (attemptOf [t]) { attempt0 stream0 with streams := [t] } ∧ t.waiting = true) :=
  ⟨⟨ready_in _ _ _ _ _ (by decide) rfl rfl rfl rfl, rfl, by decide⟩, ⟨rfl, rfl⟩, rfl⟩

/-- Operands of one leaf in a format, 1 × 2048 and 2048 × 1, and an FP32 destination. -/
def cat2 (fmt : Nat) : Catalogue :=
  { Catalogue.empty with
    tags := (List.range 3).map fun k => (k, 1)
    live := [(0, row fmt 2048 0x10000), (1, { row fmt 1 0x20000 with dims := [2048, 1, 1, 1], pitch := 8 }), (2, row 11 1 0x30000)] }
def foldF : FoldF := ⟨15, 0, 1, 2, 4, 0, 0, 3, 1, 4⟩
def p9 (fmt : Nat) (o : FoldOp) : At := atIn State.reset.mem (cat2 fmt) pol1 (.fold o foldF) (stream1 [0, 1, 2])
def FoldOk (fmt : Nat) (o : FoldOp) : Prop := Ready (p9 fmt o).s 0 0 hdr0 (.fold o foldF) (p9 fmt o) ∧ ((p9 fmt o).t.tile 15).busy = false
  ∧ (p9 fmt o).clear (foldReads (p9 fmt o) foldF) (foldWrites (p9 fmt o) foldF) = true
  ∧ checkOpnds (p9 fmt o) ([call 0, call 1, call 2] ++ tileCalls ((p9 fmt o).t.tile 15) ++ tileResult ((p9 fmt o).t.tile 15))
      (foldChecks (p9 fmt o) o foldF) = none

/-- INT2 for all but XPOP, which takes INT8 bytes of bits. -/
theorem folds_witness : FoldOk 1 .dot ∧ FoldOk 1 .l1 ∧ FoldOk 1 .l2 ∧ FoldOk 1 .maxp ∧ FoldOk 1 .minp ∧ FoldOk 5 .xpop := by
  refine ⟨?_, ?_, ?_, ?_, ?_, ?_⟩ <;>
    exact ⟨ready_in _ _ _ _ _ (by decide) rfl rfl rfl rfl, by decide +kernel, by decide +kernel, by decide +kernel⟩

def p10 : At := atIn State.reset.mem (cat2 5) pol1 (.fold .dot foldF) (stream1 [0, 1, 2])
/-- A folio of one leaf in two spans. -/
def folio0 : Folio := { newFolio p10 .dot { foldF with ksize := 1 } with q := 2 }
def foliate (f : Folio) : Ctx := { p10.x with att := some { attempt0 stream0 with folios := [f] } }

theorem piece_witness : folioOf (with0 (foliate folio0)) 0 0 = some (foliate folio0, folio0) ∧ pieceOpen folio0 0 1 = true
    ∧ (match pieceWork (with0 (foliate folio0)) (foliate folio0) folio0 0 1 with | .ok _ => true | .error _ => false) = true
    ∧ pieceOpen folio0 0 2 = false :=
  ⟨rfl, by decide +kernel, by decide +kernel, by decide +kernel⟩

/-- Both its pieces lie with carrel 0 of a set of two. -/
def folio1 : Folio := { folio0 with set := [0, 1], carrels := [(0, 0, 0), (0, 1, 0)] }

theorem steal_witness : folioOf (with0 (foliate folio1)) 0 0 = some (foliate folio1, folio1) ∧ balanceOn (foliate folio1) = true ∧ 1 ∈ folio1.set
    ∧ queued folio1 1 = [] ∧ busiest (foliate folio1) folio1 = some 0 ∧ givenUp folio1 0 = some (0, 1) ∧ queued folio1 0 ≠ [] ∧ 2 ∉ folio1.set :=
  ⟨rfl, by decide, by decide, by decide +kernel, by decide +kernel, by decide +kernel, by decide +kernel, by decide⟩

theorem complete_witness :
    (let f := { folio0 with leavesDone := [0] }; let a := { attempt0 stream0 with folios := [f] }
     Running (with0 (foliate f)) 0 (foliate f) a ∧ a.folios.find? (·.id == 0) = some f ∧ f.leavesDone.length = f.leaves ∧ a.records = [])
    ∧ (let t := { stream0 with window := [copied] }; let a := { attempt0 stream0 with streams := [t] }
       Running (with0 (attemptOf [t])) 0 (attemptOf [t]) a ∧ t.window.find? (·.id == 3) = some copied ∧ copied.coll = none) :=
  ⟨⟨⟨rfl, rfl⟩, by decide +kernel, by decide +kernel, rfl⟩, ⟨⟨rfl, rfl⟩, by decide, rfl⟩⟩

theorem ok_of {ε α : Type} {e : Except ε α} {a : α} (h : e.toOption = some a) : e = .ok a := by
  cases e with
  | ok b => simpa [Except.toOption] using h
  | error q => simp [Except.toOption] at h
def errOf {ε α : Type} (e : Except ε α) : Option ε := match e with | .ok _ => none | .error q => some q
theorem error_of {ε α : Type} {e : Except ε α} {q : ε} (h : errOf e = some q) : e = .error q := by
  cases e with
  | ok b => simp [errOf] at h
  | error r => simpa [errOf] using h

/-! INT32 cells at index 0, an FP32 row at 1 and ledgers at 2, all in the annex. -/
def cat3 : Catalogue :=
  { Catalogue.empty with
    tags := (List.range 3).map fun k => (k, 1)
    live := [(0, { row 13 32 0x10000 with cls := 1 }), (1, { row 11 32 0x20000 with cls := 1 }),
             (2, { row 0 2 0x30000 with kind := 2, cls := 2, pitch := 96 })] }
def annexed : Ctx := { ctx0 with cat := cat3 }

theorem atomics_cells_witness : Memory.wf (with0 annexed).mem.bytes ∧ annexed.memOk = true
    ∧ atomCell (with0 annexed) annexed (call 0) 0 31 32 = .ok (⟨call 0, { row 13 32 0x10000 with cls := 1 }⟩, 124, 0)
    ∧ (byteUnits annexed ⟨call 0, { row 13 32 0x10000 with cls := 1 }⟩ 124 (zeros 4)).isSome = true :=
  ⟨by decide, by decide, ok_of (by decide +kernel), by decide +kernel⟩

theorem atomics_ledger_witness :
    let t : TRef := ⟨call 2, { row 0 2 0x30000 with kind := 2, cls := 2, pitch := 96 }⟩
    cellTarget (with0 annexed) annexed (call 2) 0 1 (·.kind == 2) = .ok t ∧ frozenCells annexed (call 2) = false
    ∧ (readCell (with0 annexed) annexed t 0 1).map (·.2) = some false ∧ (byteUnits annexed t (cellOff t.e 0 1) (zeros 40)).isSome = true
    ∧ (runPlaces annexed t (cellOff t.e 0 1) 40).Nodup :=
  ⟨ok_of (by decide +kernel), by decide +kernel, by decide +kernel, by decide +kernel, by decide +kernel⟩

theorem atomics_float_witness :
    let t : TRef := ⟨call 1, { row 11 32 0x20000 with cls := 1 }⟩
    tensor annexed (call 1) = some t ∧ annexTensor t = true ∧ atomicsOk (with0 annexed) annexed = true ∧ annexed.verbatim = false
    ∧ readCode (with0 annexed) annexed t 0 31 = some (0, false) ∧ (codeUnits annexed t 0 31 0).isSome = true
    ∧ (elemPlaces annexed t 0 31).Nodup := by decide +kernel

/-- A direct tensor, a cell that is no ledger, a poisoned cell, and an FP32 cell in Verbatim mode. -/
def poisoned : State := { with0 annexed with mem := { Storage.reset with poison := [0x10000 / 64 + 1] } }
theorem atomics_refused_witness :
    (tensor ctx0 (call 4) = some ⟨call 4, plain 13 0x50000⟩ ∧ annexTensor ⟨call 4, plain 13 0x50000⟩ = false)
    ∧ (∃ q, cellTarget (with0 annexed) annexed (call 0) 0 0 (·.kind == 2) = .error q)
    ∧ (∃ q, cellTarget (with0 annexed) annexed (call 0) 0 0 (fun e => e.kind == 0 && e.fmt == 11) = .error q)
    ∧ (∃ q, atomCell poisoned annexed (call 0) 0 31 32 = .error q)
    ∧ cellTarget (with0 annexed) annexed (call 1) 0 31 (fun e => e.kind == 0 && e.fmt == 11)
        = .ok ⟨call 1, { row 11 32 0x20000 with cls := 1 }⟩ :=
  ⟨by decide, ⟨⟨.earg, 0, 0⟩, error_of (by decide +kernel)⟩, ⟨⟨.earg, 0, 0⟩, error_of (by decide +kernel)⟩,
   ⟨⟨.epoison, 0, 0x1007C⟩, error_of (by decide +kernel)⟩, ok_of (by decide +kernel)⟩

/-! ### Witnesses: collectives. Group 1 has this device as rank 0 and a peer at coordinate 1; descriptor `op + 1` is of that operation. -/

def descOf (op : Nat) : Desc := ⟨op, 0, 0, 0, false, false, false, 11, 1, 0, 5, 2, 1, 1, 1, call 5, call 7, call 6⟩
def job0 : Job := { (default : Job) with normDesc := 7 }
def pol2 : Policies :=
  { Policies.empty with
    job := some job0, grps := [(1, ⟨2, [(0, 1), (1, 1)]⟩)], descs := (List.range 9).map fun k => (k + 1, descOf k) }
def block (fmt r n base : Nat) : Entry := { plain fmt base with dims := [r, n, 1, 1], pitch := 512 }
/-- FP32 rows of 32 at indexes 0 and 1, two rows at 2 and 3, a row of 16 at 4; a route, a slot map and a weight at 5 to 7. -/
def cat4 : Catalogue :=
  { Catalogue.empty with
    tags := (List.range 8).map fun k => (k, 1)
    live := [(0, block 11 1 32 0x10000), (1, block 11 1 32 0x12000), (2, block 11 2 32 0x20000), (3, block 11 2 32 0x22000),
             (4, block 11 1 16 0x30000), (5, block 13 1 1 0x32000), (6, block 13 1 1 0x34000), (7, block 11 1 1 0x40000)] }
def collF (op : Nat) : CollF := if op = 5 then ⟨15, 0, 0, 6⟩ else ⟨15, 0, 1, op + 1⟩
def p11 (o : CollOp) (src dst : Nat) : At := atIn State.reset.mem cat4 pol2 (.coll o (collF o.code)) (stream1 [src, dst])
def member (op : Nat) : Member := ⟨op + 1, descOf op, ⟨2, [(0, 1), (1, 1)]⟩, 0⟩

def CollGood (o : CollOp) (src dst : Nat) : Prop :=
  let p := p11 o src dst; let f := collF o.code; let k := member o.code
  Ready p.s 0 0 hdr0 (.coll o f) p ∧ 15 < p.t.slots.length ∧ collBad p o f = none
    ∧ memberOf p.s p.x f.desc = some k ∧ p.clear (collReads k f p.t) (collWrites k f p.t) = true
    ∧ ((∀ t ∈ p.a.streams, t.window = []) ∧ lossState p.s p.x job0 = some false)
    ∧ checkOpnds p (if k.d.op = 5 then [] else [p.t.addr f.aS, p.t.addr f.aD] ++ (tokenCalls k.d).map (·.1)) (collChecks p.x k) = none
    ∧ (k.d.op = 5 ∨ (ownBodies p.s p.x k (p.ref (p.t.addr f.aS))).isSome = true)

theorem colls_witness : CollGood .allReduce 0 1 ∧ CollGood .reduceScatter 0 4 ∧ CollGood .allGather 0 2 ∧ CollGood .broadcast 0 1
    ∧ CollGood .allToAll 2 3 ∧ CollGood .barrier 0 0 ∧ CollGood .normReduce 0 1 ∧ CollGood .tokenDispatch 0 1 ∧ CollGood .tokenCombine 0 1 := by
  refine ⟨?_, ?_, ?_, ?_, ?_, ?_, ?_, ?_, ?_⟩ <;>
    exact ⟨ready_in _ _ _ _ _ (by decide) rfl rfl rfl rfl, by decide, by decide +kernel, by decide +kernel, by decide +kernel,
      by decide +kernel, by decide +kernel, by decide +kernel⟩

/-- The context of the collective witnesses in layout epoch 5. -/
def member0 : Ctx := let x := (p11 .barrier 0 0).x; { x with gate := { x.gate with epoch := 5 } }
/-- Id of the first barrier of an attempt, and of a first ALL_REDUCE. -/
def barId : Nat := 6 * 2 ^ 52
def redId : Nat := 2 ^ 52
def notice0 (e r t d : Nat) (fl : Bool) : Notice := ⟨barId, e, r, fl, false, t, d⟩
def verdict0 (e : Nat) (o : VOutcome) : Verdict := ⟨barId, e, o, false, false, [0, 1], 0, 0⟩
def message0 (e : Nat) : CollMsg := ⟨redId, e, 1, .rows 1 false [0] []⟩
def coll0 : Coll := { Coll.new member0 barId with issued := some (0, 15, 0, 0, 0) }

theorem messages_witness : getCtx (with0 member0) 0 = some member0 ∧ member0.gate.epoch = 5 ∧ member0.reshard = none
    ∧ ((notice0 4 1 0 0 false).epoch < 5 ∧ (verdict0 4 .go).epoch < 5 ∧ (message0 4).epoch < 5)
    ∧ (5 < (notice0 6 1 0 0 false).epoch ∧ 5 < (verdict0 6 .go).epoch ∧ 5 < (message0 6).epoch)
    ∧ memberOf (with0 member0) member0 (idDesc (notice0 5 1 0 0 false).id) = some (member 5) ∧ (collOr member0 barId).verdict = none
    ∧ isVote barId = false ∧ (collOr member0 barId).ended = none
    ∧ (⟨redId, 5, 1, .rows 1 true [] []⟩ : CollMsg).epoch = member0.gate.epoch
    ∧ ((message0 5).epoch = member0.gate.epoch ∧ ∀ n p, (message0 5).body ≠ .rows n true [] p) := ⟨rfl, rfl, by decide, by decide, by decide, by decide,
      by decide, by decide, by decide, by decide, by decide, fun _ _ h => nomatch h⟩

/-- Notices that differ, a failing vote, all members', one before and one after the deadline. -/
theorem verdict_witness :
    (∃ n ∈ [notice0 5 1 3 8 false], n.digest ≠ (notice0 5 0 3 7 false).digest)
    ∧ (isVote (collId member0 6 0xFFFF) = true ∧ ∃ n ∈ [notice0 5 1 3 7 true], n.fl = true)
    ∧ (∀ m < (member 5).g.members.length, ∃ n ∈ [notice0 5 0 3 7 false, notice0 5 1 3 7 false], n.rank = m)
    ∧ (¬ (∀ m < (member 5).g.members.length, ∃ n ∈ [notice0 5 0 3 7 false], n.rank = m))
    ∧ (4 < 3 + (member 5).d.deadlineNs) ∧ (3 + (member 5).d.deadlineNs ≤ 3 + (member 5).d.deadlineNs) := by decide

def withColl (q : Coll) : Ctx := { member0 with colls := [q] }

theorem coll_ends_witness :
    (let q := { coll0 with notices := [notice0 5 0 3 7 false, notice0 5 1 3 7 false] }
     getColl (withColl q) barId = some q ∧ (withColl q).reshard = none ∧ (member 5).me = 0 ∧ q.verdict = none ∧ (withColl q).pol.mode.replay = false
      ∧ verdictNow (member 5) q (max up.clock.now 0) none = some (verdict0 5 .go))
    ∧ (let q := { coll0 with verdict := some (verdict0 5 .go) }
       getColl (withColl q) barId = some q ∧ q.delivered = false ∧ isVote barId = false
        ∧ contributions (withColl q) (member 5) q (verdict0 5 .go) = some [])
    ∧ (let q := { coll0 with verdict := some (verdict0 5 .go), ended := some .ecollTimeout }
       getColl (withColl q) barId = some q ∧ q.delivered = false ∧ contributions (withColl q) (member 5) q (verdict0 5 .go) = some [])
    ∧ (issueTime (withColl coll0) (member 5) barId = some 0
       ∧ (collOr (withColl coll0) barId).verdict = none ∧ pastVerdict (member 5) 0 (max up.clock.now (10 ^ 12)) = true)
    ∧ (collOr (withColl coll0) barId).ended = none := by decide +kernel

def item1 : NormItem := ⟨Ledger.empty.image, false, false, false, 0, zeroBlock member0, []⟩
def normId : Nat := 7 * 2 ^ 52
def normColl : Coll :=
  { Coll.new member0 normId with
    verdict := some ⟨normId, 5, .go, false, false, [0, 1], 0, 0⟩, delivered := true, bodies := [⟨normId, 5, 1, .control item1⟩] }

theorem norm_witness : (withColl normColl).pol.job = some job0 ∧ memberOf (with0 (withColl normColl)) (withColl normColl) 7 = some (member 6)
    ∧ getColl (withColl normColl) (collId (withColl normColl) 7 0) = some normColl ∧ normColl.norm = none ∧ (withColl normColl).reshard = none ∧ normColl.delivered = true
    ∧ (controlItems (withColl normColl) (member 6) normColl ⟨normId, 5, .go, false, false, [0, 1], 0, 0⟩).isSome = true := by decide +kernel

/-! ### Witnesses: the training step -/

/-- A RUN_STEP of three steps in progress, between attempts. -/
def admits : Ctx := { member0 with att := none }

theorem admit_witness : coreUp (with0 admits) .circulation = true ∧ canAdmit admits = true ∧ admits.pol.job = some job0
    ∧ (boundary ((with0 admits).at 5) admits).ident.grant ≠ []
    ∧ (match admission (atStepBoundary ((with0 admits).at 5) 0 admits) 0 (boundary ((with0 admits).at 5) admits) job0 with | .ok _ => true | .error _ => false) = true := by
  decide +kernel

/-- The context with its attempt changed. -/
def inAttempt (g : Attempt → Attempt) (l : List Coll) : Ctx := { member0 with att := some (g (attempt0 stream0)), colls := l }
def att1 (g : Attempt → Attempt) : Attempt := g (attempt0 stream0)
theorem running_of (g : Attempt → Attempt) (l : List Coll) : Running (with0 (inAttempt g l)) 0 (inAttempt g l) (att1 g) := ⟨rfl, rfl⟩

def stats0 : StatsRec := ⟨4, 0, Ledger.empty.image, 0, 0, 1, false, 9, 0⟩

theorem phase_end_witness :
    (let g := fun a : Attempt => { a with streams := [{ stream0 with ended := true }] }
     Running (with0 (inAttempt g [])) 0 (inAttempt g []) (att1 g) ∧ (att1 g).phase = .program ∧ (att1 g).status = .success
      ∧ (∀ t ∈ (att1 g).streams, t.ended = true ∧ t.window = []) ∧ (att1 g).records = [])
    ∧ (let g := fun a : Attempt => { a with status := Status.epc }
       Running (with0 (inAttempt g [])) 0 (inAttempt g []) (att1 g) ∧ (att1 g).status ≠ .success ∧ (∀ t ∈ (att1 g).streams, t.window = [])
        ∧ (inAttempt g []).edition ≠ 1 ∧ (att1 g).contributed = false
        ∧ memberOf (with0 (inAttempt g [])) (inAttempt g []) job0.normDesc = some (member 6) ∧ (member 6).d.op = 6)
    ∧ (let g := fun a : Attempt => { a with records := [stats0] }
       Running (with0 (inAttempt g [])) 0 (inAttempt g []) (att1 g) ∧ (att1 g).records[0]? = some stats0) :=
  ⟨⟨running_of _ _, rfl, rfl, by decide, rfl⟩, ⟨running_of _ _, by decide, by decide, by decide, rfl, by decide, rfl⟩, ⟨running_of _ _, rfl⟩⟩

def result0 (fl : Bool) : NormResult := ⟨fl, false, false, Ledger.empty, 0, false, []⟩
def reduced (fl : Bool) : Coll := { normColl with norm := some (result0 fl) }
def deciding (a : Attempt) : Attempt := { a with phase := .decide }

/-- The three outcomes: a state bit, a watch skip and neither. -/
theorem decide_from_witness : (decideFrom { result0 false with nf := true } false 0 0).outcome = 1
    ∧ (decideFrom (result0 false) true 0 0).outcome = 2 ∧ (decideFrom (result0 false) false 0 0).outcome = 0 := by decide +kernel

theorem gate_witness :
    (∀ fl, Running (with0 (inAttempt deciding [reduced fl])) 0 (inAttempt deciding [reduced fl]) (att1 deciding)
      ∧ coreUp (with0 (inAttempt deciding [reduced fl])) .circulation = true ∧ (att1 deciding).phase = .decide ∧ (att1 deciding).decision = none
      ∧ job0.edition ≠ 1 ∧ memberOf (with0 (inAttempt deciding [reduced fl])) (inAttempt deciding [reduced fl]) 7 = some (member 6)
      ∧ getColl (inAttempt deciding [reduced fl]) (collId (inAttempt deciding [reduced fl]) 7 0) = some (reduced fl)
      ∧ (reduced fl).norm = some (result0 fl))
    ∧ ownStatus (inAttempt deciding []) (att1 deciding) = .success :=
  ⟨fun fl => ⟨running_of _ _, rfl, rfl, rfl, by decide, rfl, by cases fl <;> decide, rfl⟩, rfl⟩

def decision0 (n : Nat) : Decision := { decideFrom (result0 false) false 0 0 with outcome := n }
def updating (a : Attempt) : Attempt := { a with phase := .update, decision := some (decision0 0) }
def voting (v : Bool) (a : Attempt) : Attempt := { a with phase := .vote, decision := some (decision0 0), voted := v }

theorem update_and_vote_witness :
    (Running (with0 (inAttempt updating [])) 0 (inAttempt updating []) (att1 updating) ∧ (att1 updating).phase = .update
      ∧ (att1 updating).decision = some (decision0 0))
    ∧ (Running (with0 (inAttempt (voting false) [])) 0 (inAttempt (voting false) []) (att1 (voting false))
      ∧ (att1 (voting false)).phase = .vote ∧ (att1 (voting false)).voted = false ∧ voteWaits (inAttempt (voting false) []) = false
      ∧ memberOf (with0 (inAttempt (voting false) [])) (inAttempt (voting false) []) 7 = some (member 6))
    ∧ voteWaits { inAttempt (voting false) [] with vols := { Vols.empty with slot0 := ⟨some ⟨zeros 256, [], []⟩, 0, false, true, 0, 1⟩ } } = true :=
  ⟨⟨running_of _ _, rfl, rfl⟩, ⟨running_of _ _, rfl, rfl, rfl, rfl⟩, by decide⟩

/-- A member that is not the root of its group takes the root's verdict. -/
def rank1 (g : Attempt → Attempt) : Ctx :=
  let x := inAttempt g []; { x with pol := { x.pol with grps := [(1, ⟨2, [(9, 1), (0, 1)]⟩)] } }
def voteOf (o : VOutcome) (un : Bool) : Verdict := ⟨voteId (rank1 (voting true)) job0, 5, o, false, un, [0, 1], 0, 0⟩

theorem vote_takes_witness : ∀ o ∈ [VOutcome.go, .failed, .timeout, .group, .abort], ∀ un,
    Running (with0 (rank1 (voting true))) 0 (rank1 (voting true)) (att1 (voting true)) ∧ (att1 (voting true)).phase = .vote
      ∧ (att1 (voting true)).voted = true ∧ (rank1 (voting true)).pol.job = some job0
      ∧ (voteOf o un).epoch = (rank1 (voting true)).gate.epoch ∧ (voteOf o un).id = voteId (rank1 (voting true)) job0
      ∧ voteVerdict (with0 (rank1 (voting true))) (rank1 (voting true)) job0 (voteOf o un) = some (voteOf o un)
      ∧ job0.edition ≠ 1 ∧ (att1 (voting true)).decision = some (decision0 0) :=
  fun o _ un => ⟨⟨rfl, rfl⟩, rfl, rfl, rfl, rfl, rfl, rfl, by decide, rfl⟩

/-- The edges of the loss scale (R358): a halving at −23, a doubling at 39, and the bounds. -/
theorem loss_scale_witness :
    let j := { job0 with dyn := true }
    let g (e : Int) (n : Nat) : Gate := { Gate.zero with exp := e, clean := n }
    j.edition ≠ 1 ∧ (skipScale j 1 (g (-23) 7)).exp = -24 ∧ (skipScale j 1 (g (-24) 7)).exp = -24
      ∧ (commitScale j (g 39 (j.growthOf - 1))).exp = 40 ∧ (commitScale j (g 40 (j.growthOf - 1))).exp = 40
      ∧ (skipScale j 2 (g 3 7)).exp = 3 ∧ (commitScale job0 (g 3 (j.growthOf - 1))).exp = 3 := by decide

def sealing (a : Attempt) : Attempt := { a with phase := .seal, vote := some .go }
def skipping (a : Attempt) : Attempt := { a with phase := .decide, decision := some (decision0 3) }
def copying (a : Attempt) : Attempt := { a with phase := .copy }

/-- A staging buffer with no room left. -/
def fullStaging (x : Ctx) : Ctx :=
  { x with pol := { x.pol with mode := { x.pol.mode with ring := 2 } }, tr := { x.tr with staging := [List.replicate 1048576 0] } }

theorem no_room (s : State) (x : Ctx) (a : Attempt) (o : Nat)
    (h : 0 < ((endRecs s (fullStaging x) a (reportOf (fullStaging x) a o .success)).map (48 + ·.body.length)).sum) :
    stagingHolds s (fullStaging x) a o = false := by
  have h1 : stagedBytes (fullStaging x) = 1048576 := by
    show (List.map List.length [List.replicate 1048576 (0 : Byte)]).sum = 1048576
    rw [List.map_cons, List.length_replicate, List.map_nil, List.sum_cons, List.sum_nil, Nat.add_zero]
  have h2 : (fullStaging x).pol.mode.ring = 2 := rfl
  simp only [stagingHolds, h1, h2]
  exact Bool.or_eq_false_iff.mpr ⟨rfl, decide_eq_false (by omega)⟩

theorem seal_and_skip_witness :
    (Running (with0 (inAttempt sealing [])) 0 (inAttempt sealing []) (att1 sealing) ∧ (inAttempt sealing []).run.isSome = true
      ∧ (att1 sealing).phase = .seal)
    ∧ (Running (with0 (inAttempt skipping [])) 0 (inAttempt skipping []) (att1 skipping) ∧ (att1 skipping).phase = .decide
      ∧ (att1 skipping).decision = some (decision0 3) ∧ (att1 fun a => { a with phase := .skip, decision := some (decision0 3) }).phase = .skip ∧ 1 ≤ (decision0 3).outcome ∧ (decision0 3).outcome ≤ 3
      ∧ stagingHolds ((with0 (inAttempt skipping [])).at 5) (skipped (inAttempt skipping []) (att1 skipping) job0 3) (att1 skipping) 3 = true)
    ∧ stagingHolds ((with0 (fullStaging (inAttempt skipping []))).at 5) (fullStaging (skipped (inAttempt skipping []) (att1 skipping) job0 3))
        (att1 skipping) 3 = false :=
  ⟨⟨running_of _ _, rfl, rfl⟩, ⟨running_of _ _, rfl, rfl, rfl, by decide, by decide, rfl⟩, no_room _ _ _ _ (by decide +kernel)⟩

/-! ### Witnesses: volumes -/

def volume0 : Volume := ⟨zeros 256, [], []⟩
def holding (target : Nat) (draining : Bool) : Ctx :=
  { member0 with vols := { Vols.empty with slot0 := ⟨some volume0, 0, false, draining, 0, target⟩, target := target } }
def copyOn (x : Ctx) : Ctx := { x with pol := { x.pol with vol := { x.pol.vol with copy := true } } }

theorem volumes_witness :
    (Running (with0 (copyOn (inAttempt copying []))) 0 (copyOn (inAttempt copying [])) (att1 copying) ∧ (att1 copying).phase = .copy
      ∧ (copyOn (inAttempt copying [])).pol.vol.copy = true ∧ copyReady (copyOn (inAttempt copying [])) = true)
    ∧ (inAttempt copying []).pol.vol.copy = false
    ∧ copyReady { copyOn (inAttempt copying []) with vols := { Vols.empty with slot1 := ⟨some volume0, 0, false, true, 0, 1⟩ } } = false
    ∧ stagingHolds ((with0 (copyOn (inAttempt copying []))).at 5) (copyOn (inAttempt copying [])) (att1 copying) 0 = true
    ∧ stagingHolds ((with0 (fullStaging (inAttempt copying []))).at 5) (fullStaging (inAttempt copying [])) (att1 copying) 0 = false
    ∧ ((getSlot (holding 1 false) 0).vol = some volume0 ∧ (getSlot (holding 1 false) 0).draining = false ∧ volume0.poisoned = false
      ∧ (getSlot (holding 1 false) 0).target = 1)
    ∧ ((getSlot (holding 2 false) 0).target = 2 ∧ (holding 2 false).ident.st ≠ .orphaned)
    ∧ (getSlot (holding 1 true) 0).draining = true
    ∧ ((getSlot (holding 2 true) 0).draining = true ∧ (getSlot (holding 2 true) 0).target ≠ 1 ∧ (holding 2 true).ident.st ≠ .orphaned
      ∧ (getSlot (holding 2 true) 0).step ≤ areaAcked (with0 (holding 2 true)) (holding 2 true)) :=
  ⟨⟨⟨rfl, rfl⟩, rfl, rfl, rfl⟩, rfl, by decide, rfl, no_room _ _ _ _ (by decide +kernel), by decide, by decide, by decide, by decide⟩

/-- The buddy's port, up and down. -/
theorem buddy_port_witness :
    buddyPort { with0 (holding 1 false) with fabric := { Fabric.reset with
      ports := [(0, { Port.reset with st := .up, partner := buddyCoord (with0 (holding 1 false)) (holding 1 false) })] } }
      (buddyCoord (with0 (holding 1 false)) (holding 1 false)) = true
    ∧ buddyPort (with0 (holding 1 false)) (buddyCoord (with0 (holding 1 false)) (holding 1 false)) = false := by decide

/-- A colophon of no parts, with its code under an empty key. -/
def colophonBody : Bytes := leBytes 4 0x4C565A54 ++ leBytes 2 1 ++ zeros 250
def colophon0 : Bytes := colophonBody ++ hmac384 [] colophonBody
def receiving : State := { with0 member0 with fabric := { Fabric.reset with partners := [⟨0, 1, 0, [], false⟩] } }

theorem drain_receive_witness :
    receiving.fabric.partners.find? (fun p => p.ctx == 0 && p.rank == 1 && !p.complete) = some ⟨0, 1, 0, [], false⟩
    ∧ colophonOk (member0.ident.volKey.getD []) colophon0 [] = true := by decide +kernel

/-! ### Witnesses: host commands -/

def sub0 : Sub := ⟨.ctx 0 0, 9, false⟩
def subA : Sub := ⟨.admin 0, 9, false⟩
theorem offered_of (s : State) (x : Ctx) (hs : serving s = true) (hx : getCtx s 0 = some x) (hq : (getQueue s sub0.q).isSome = true)
    (hf : queueHeld s sub0.q = false := by rfl) : Offered s sub0 0 0 x := ⟨hs, rfl, hq, hf, hx⟩
theorem taken_of (s : State) (x : Ctx) (legal : Ctx → Bool) (hs : serving s = true) (hx : getCtx s 0 = some x)
    (hq : (getQueue s sub0.q).isSome = true) (h : legal x = true) (hf : queueHeld s sub0.q = false := by rfl)
    (hl : loadRuns x = false := by rfl) : Taken s sub0 0 0 x legal := ⟨⟨hs, rfl, hq, hf, hx⟩, h, hl⟩
theorem admin_of (s : State) (hs : serving s = true) (hq : (getQueue s subA.q).isSome = true) (hf : queueHeld s subA.q = false := by rfl) :
    TakenAdmin s subA 0 := ⟨hs, rfl, hq, hf⟩

theorem matrix_witness : ∀ st ∈ [CtxSt.opened, .scrubbing, .orphaned, .draining, .faulted, .running],
    Offered (with0 (inSt st)) sub0 0 0 (inSt st) ∧ (inSt st).ident.st = st ∧ st ∉ [CtxSt.ready]
      ∧ ({ inSt .ready with long := some default } : Ctx).long ≠ none :=
  fun st h => ⟨offered_of _ _ rfl rfl rfl, rfl, by revert st; decide, by simp⟩

/-- While a LOAD_PROGRAM of another queue runs. -/
theorem matrix_load_witness :
    let x := { inSt .ready with cmds := [{ (default : Cmd) with q := .ctx 0 1, opcode := 4, started := true, work := some (.load 0 400) }] }
    Offered (with0 x) sub0 0 0 x ∧ loadRuns x = true := ⟨offered_of _ _ rfl rfl rfl, rfl⟩

def run0 : Run := ⟨.ctx 0 0, 1, false, 1, 0, 0, false, none⟩
def running0 : Ctx := { inSt .running with run := some run0, att := some (attempt0 stream0) }
def between : Ctx := { inSt .running with run := some run0 }

theorem run_witness :
    Taken (with0 (inSt .ready)) sub0 0 0 (inSt .ready) (fun y => y.ident.st = .ready ∧ y.long = none ∧ y.reshard = none ∧ y.run = none)
    ∧ (Taken (with0 running0) sub0 0 0 running0 (fun y => y.ident.st = .running) ∧ running0.run = some run0
      ∧ running0.att = some (attempt0 stream0))
    ∧ (Taken (with0 between) sub0 0 0 between (fun y => y.ident.st = .running) ∧ between.run = some run0 ∧ between.att = none)
    ∧ Taken (with0 (inSt .paused)) sub0 0 0 (inSt .paused) (fun y => y.ident.st = .ready ∨ y.ident.st = .paused)
    ∧ Taken (with0 (inSt .paused)) sub0 0 0 (inSt .paused) (fun y => y.ident.st = .paused ∧ y.ident.awaitReady = false) :=
  ⟨taken_of _ _ _ rfl rfl rfl rfl, ⟨taken_of _ _ _ rfl rfl rfl rfl, rfl, rfl⟩, ⟨taken_of _ _ _ rfl rfl rfl rfl, rfl, rfl⟩,
   taken_of _ _ _ rfl rfl rfl rfl, taken_of _ _ _ rfl rfl rfl rfl⟩

/-- A virtual function beside function 0. -/
def subV : Sub := ⟨.admin 5, 9, false⟩
def withVf (x : Ctx) : State :=
  let s := with0 x; { s with host := { s.host with funs := s.host.funs ++ [(5, ⟨queue0, true, [], none, false⟩)] } }
theorem close_witness : running0.inState [.opened, .ready, .running, .paused, .checkpointing, .faulted, .orphaned] = true
    ∧ Taken (with0 running0) sub0 0 0 running0 (fun _ => true) ∧ TakenAdmin (with0 running0) subA 0 ∧ mayName (with0 running0) 0 running0 = true
    ∧ (TakenAdmin (withVf running0) subV 5 ∧ mayName (withVf running0) 5 running0 = false) :=
  ⟨rfl, taken_of _ _ _ rfl rfl rfl rfl, admin_of _ rfl rfl, by decide, ⟨rfl, rfl, rfl, rfl⟩, by decide⟩

/-- A state whose device memory holds bytes from 0x10000, the frame of virtual address 0x10000. -/
def stored (x : Ctx) (b : Bytes) : State := let s := with0 x; { s with mem := { s.mem with bytes := mwrite s.mem.bytes 0x10000 b } }
/-- One list entry: 4096 bytes at 0x20000 (R507). -/
def list0 : Bytes := leBytes 8 0x20000 ++ leBytes 8 4096

def free0 (y : Ctx) : Bool := y.inState [.ready, .running, .paused] && y.long.isNone && y.reshard.isNone
theorem long_witness :
    (Taken (stored (inSt .paused) list0) sub0 0 0 (inSt .paused) free0 ∧ listCheck (stored (inSt .paused) list0) (inSt .paused) 0x10000 1 = none)
    ∧ (Taken (stored running0 list0) sub0 0 0 running0 free0 ∧ listCheck (stored running0 list0) running0 0x10000 1 = none)
    ∧ (Taken (with0 (inSt .ready)) sub0 0 0 (inSt .ready) free0 ∧ (inSt .ready).run = none ∧ (inSt .ready).att = none ∧ (inSt .ready).colls = [])
    ∧ (let k := { coll0 with epoch := 0, issued := some (0, 15, 0, 0, 0) }; let x := { inSt .ready with colls := [k] }
       Taken (with0 x) sub0 0 0 x free0 ∧ k ∈ x.colls ∧ x.run = none ∧ x.att = none ∧ k.epoch = x.gate.epoch ∧ k.running = true)
    ∧ (Taken (with0 (inSt .faulted)) sub0 0 0 (inSt .faulted) (fun y => y.inState [.opened, .ready, .running, .paused, .checkpointing, .faulted])
      ∧ (inSt .faulted).cmds = [])
    ∧ (let x := { inSt .ready with cmds := [{ (default : Cmd) with q := .ctx 0 0, opcode := 7 }] }
       Taken (with0 x) sub0 0 0 x (fun y => y.inState [.opened, .ready, .running, .paused, .checkpointing, .faulted]) ∧ ∃ k ∈ x.cmds, k.q = sub0.q)
    ∧ (let l := { (default : LongCmd) with opcode := 0x0C, deadline := 500 }; let x := { inSt .checkpointing with long := some l }
       getCtx (with0 x) 0 = some x ∧ x.long = some l ∧ l.opcode = 0x0C ∧ l.deadline ≤ max (with0 x).clock.now 0) :=
  ⟨⟨taken_of _ _ _ rfl rfl rfl rfl, by decide +kernel⟩, ⟨taken_of _ _ _ rfl rfl rfl rfl, by decide +kernel⟩,
   ⟨taken_of _ _ _ rfl rfl rfl rfl, rfl, rfl, rfl⟩, ⟨taken_of _ _ _ rfl rfl rfl rfl, by simp, rfl, rfl, rfl, rfl⟩,
   ⟨taken_of _ _ _ rfl rfl rfl rfl, rfl⟩, ⟨taken_of _ _ _ rfl rfl rfl rfl, by simp [sub0]⟩, ⟨rfl, rfl, rfl, by decide⟩⟩

theorem preempt_not_due : max (with0 (inSt .ready)).clock.now 0 < ({ (default : LongCmd) with deadline := 2000000000 } : LongCmd).deadline := by
  decide

/-- An FP32 row of 32 elements at 0x60000. -/
def bindBody : Bytes := { row 11 32 0x60000 with dims := [1, 32, 0, 0], layer := 0xFFFF }.host
def mapF0 : MapF := ⟨0x200000, 2, 0, true, false, 0, 0⟩
/-- A program of one stream, `END`. -/
def program0 : Bytes :=
  let r := leBytes 4 1 ++ zeros 316
  leBytes 4 0x50525A54 ++ leBytes 2 1 ++ [1, 0] ++ leBytes 4 (64 + 320 + 16) ++ zeros 52 ++ r ++ leBytes 16 (encodeIns hdr0 .endS)
def unmapped : Ctx := { inSt .ready with cat := Catalogue.empty }

theorem memory_witness :
    (let s := stored (inSt .opened) bindBody; let x := inSt .opened
     Taken s sub0 0 0 x memLegal ∧ vaOk 0x10000 = true ∧ bufferOk x 0x10000 128 false = true ∧ bindCheck s x (readVa s x 0x10000 96) = none
      ∧ (Entry.ofBytes (readVa s x 0x10000 96)).isSome = true)
    ∧ (Taken (with0 (inSt .opened)) sub0 0 0 (inSt .opened) memLegal ∧ (tensor (inSt .opened) (call 0)).isSome = true
      ∧ (inSt .opened).stepRuns = false ∧ referenced (inSt .opened) (call 0) = false)
    ∧ (let s := with0 (inSt .opened); let x := inSt .opened
       Taken s sub0 0 0 x memLegal ∧ mapFound s 0 x mapF0 = none ∧ mapF0.loc ≤ 3 ∧ mapOk s x mapF0 = true
        ∧ (placeRange s 0 x 0x20 2 0 true false 0 0).isSome = true)
    ∧ (Taken (with0 unmapped) sub0 0 0 unmapped memLegal ∧ unmapOk unmapped 0x70000 1 = true ∧ unmapFree unmapped 0x70000 1 = true
      ∧ mappedPages unmapped 7 false 1 = true ∧ occupied unmapped 7 1 = false ∧ 0x70000 + 1 * frameBytes ≤ 2 ^ 48)
    ∧ (let s := stored (inSt .opened) program0; let x := inSt .opened
       Taken s sub0 0 0 x (fun y => y.inState [.opened, .ready, .paused] && !exclusiveRuns y) ∧ progCheck s x 0x10000 400 = none) :=
  ⟨⟨taken_of _ _ _ rfl rfl rfl rfl, by decide, by decide, by decide +kernel, by decide +kernel⟩,
   ⟨taken_of _ _ _ rfl rfl rfl rfl, by decide, by decide, by decide⟩, ⟨taken_of _ _ _ rfl rfl rfl rfl, by decide +kernel, by decide, by decide +kernel, by decide +kernel⟩,
   ⟨taken_of _ _ _ rfl rfl rfl rfl, by decide, by decide, by decide, by decide, by decide⟩, ⟨taken_of _ _ _ rfl rfl rfl rfl, by decide +kernel⟩⟩

/-- A MAP of two frames under way: a slice that leaves one to do, and the last one. -/
def mapping : Ctx :=
  { inSt .opened with cmds := [⟨sub0.q, sub0.cid, sub0.prog, 5, [], true, 1, 0, some (.map mapF0)⟩] }
theorem slices_witness :
    serving (with0 mapping) = true ∧ getCtx (with0 mapping) 0 = some mapping
    ∧ (startedCmd (with0 mapping) sub0.q sub0.cid).map (fun k => (k.prog, k.work, k.units)) = some (sub0.prog, some (.map mapF0), 1)
    ∧ 1 + 0 < (Sliced.map mapF0).units (with0 mapping) mapping ∧ (Sliced.map mapF0).units (with0 mapping) mapping ≤ 1 + 1
    ∧ (getQueue (with0 mapping) sub0.q).isSome = true := ⟨rfl, rfl, rfl, by decide, by decide, rfl⟩

/-- An entry in the annex, which lines of the cache may hold. -/
theorem release_cached_witness :
    let x := { inSt .opened with cat := cat1 }
    Taken (with0 x) sub0 0 0 x memLegal ∧ (tensor x (call 8)).map (fun e => e.e.cls) = some 1 ∧ x.stepRuns = false
      ∧ referenced x (call 8) = false := ⟨taken_of _ _ _ rfl rfl rfl rfl, rfl, rfl, by decide⟩

/-! ### Witnesses: SET_POLICY and QUERY -/

def setOf (idx n : Nat) : SetF := ⟨idx, 0x10000, n, 0⟩
/-- Parameter tensors 1 × 32 FP32, a learning rate, a report. -/
def cat5 : Catalogue :=
  { Catalogue.empty with
    tags := (List.range 7).map fun k => (k, 1)
    live := [(0, { row 11 32 0x20000 with layer := 0xFFFF }), (1, { row 11 32 0x22000 with layer := 0xFFFF }), (2, { row 11 1 0x24000 with layer := 0xFFFF }),
             (3, { row 13 16 0x26000 with layer := 0xFFFF }), (4, { row 11 1 0x28000 with layer := 0xFFFF })] }
def setter (p : Policies) : Ctx := { inSt .opened with cat := cat5, pol := p }
def jobRec : Job := { (default : Job) with ls := call 2, report := call 3 }
def groupRec0 : Group := { (default : Group) with opt := 3, master := call 0, grad := call 1, lr := call 4, b1 := 0 }
def watchRec0 : Watch := { (default : Watch) with ceiling := 3, init := 1 }
def groupBytes : Bytes := GroupRec.toBytes ⟨2, [(0, 1), (1, 1)]⟩ 1
def descRec0 : Desc := ⟨5, 0, 0, 0, false, false, false, 0, 1, 0, 0, 0, 0, 0, 0, 0, 0, 0⟩
def grouped : Policies := { Policies.empty with grps := [(1, ⟨2, [(0, 1), (1, 1)]⟩)], rot := [(1, ⟨0, 5⟩)] }
def actBytes : Bytes := [1, 0] ++ zeros 1550
def fabricated (x : Ctx) (b : Bytes) : State := let s := stored x b; { s with host := { s.host with axes := [2, 1, 1, 1] } }

theorem taken_set (p : Policies) (b : Bytes) : Taken (stored (setter p) b) sub0 0 0 (setter p) (fun y => y.inState [.opened, .ready, .paused]) :=
  taken_of _ _ _ rfl rfl rfl rfl

/-- The records as the command reads them, and the checks of each selector. -/
theorem policies_witness :
    (let s := stored (setter Policies.empty) jobRec.toBytes; let x := setter Policies.empty
     vaOk 0x10000 = true ∧ bufferOk x 0x10000 64 false = true ∧ jobFree s (setOf 0 64) x = true
      ∧ (Job.ofBytes (readVa s x 0x10000 64)).map (fun j => jobOk x j) = some true)
    ∧ (let s := stored (setter Policies.empty) groupRec0.toBytes; let x := setter Policies.empty
       x.gate.ranStep = false ∧ (Group.ofBytes (readVa s x 0x10000 64)).map (fun g => groupOk x 4095 g) = some true)
    ∧ (let s := stored (setter Policies.empty) (watchRec0.host ++ zeros 48); let x := setter Policies.empty
       (Watch.ofHost (readVa s x 0x10000 64)).map (fun w => watchOk x w) = some true ∧ tget x.pol.watch 65534 = none)
    ∧ (let s := stored (setter Policies.empty) (RotEntry.toBytes ⟨0, 5⟩ 1); let x := setter Policies.empty
       tget x.pol.rot 1 = none ∧ rotRecOk 1 (readVa s x 0x10000 16) = true)
    ∧ (let s := stored (setter grouped) descRec0.toBytes; let x := setter grouped
       (Desc.ofBytes (readVa s x 0x10000 64)).map (fun d => descOk x d) = some true)
    ∧ (let s := fabricated (setter Policies.empty) groupBytes; let x := setter Policies.empty
       groupNamed x 1 = false ∧ (groupRecOf (readVa s x 0x10000 24)).map (fun g => groupRecOk s 1 (readVa s x 0x10000 24) g) = some true)
    ∧ (let s := stored (setter grouped) ModeRec.zero.toBytes; let x := setter grouped
       (ModeRec.ofBytes (readVa s x 0x10000 32)).map (fun m => modeOk x m && !modeFixed x m) = some true)
    ∧ (let s := stored (setter grouped) (⟨3, true, 0, 0, 0⟩ : VolPolicy).toBytes; let x := setter grouped
       (VolPolicy.ofBytes (readVa s x 0x10000 32)).map (fun m => volPolicyOk s x m) = some true)
    ∧ (let s := stored (setter grouped) [3]; let x := setter grouped
       bitsOf (fld (readVa s x 0x10000 8) 0 1) 7 2 = 0 ∧ zeroAt (readVa s x 0x10000 8) 1 7 = true)
    ∧ (let x := setter grouped; setLegal (selRuns 4) x = true ∧ deletable x 4 1 = true ∧ delFree x 4 1 = true) := by decide +kernel

theorem act_witness : let s := stored (setter grouped) actBytes; let x := setter grouped
    bufferOk x 0x10000 1552 false = true ∧ actOk (readVa s x 0x10000 1552) = true := by decide +kernel

/-- A context with something for every query: a watch entry, a program, a loaded activation table. -/
def queried : Ctx :=
  { setter grouped with
    pol := { grouped with watch := [(4, watchRec0)], act := [(8, actBytes)] }, prog := some ⟨[], [⟨[0], [], []⟩]⟩ }
def queryOf (idx : Nat) : QueryF := ⟨false, idx, 0x20000, 2048, 0⟩

theorem query_witness :
    (Offered (with0 queried) sub0 0 0 queried ∧ queried.memOk = true ∧ vaOk 0x20000 = true)
    ∧ ((match contextRecord (with0 queried) 0 queried with | .ok b => b.length ≤ 2048 | .error _ => false) = true
      ∧ (flagWord queried 5247).isSome = true ∧ (tensor queried (call 0)).isSome = true ∧ (tget queried.pol.watch 4).isSome = true
      ∧ (queryOf 0).index < (match queried.prog with | some p => p.streams.length | none => 0) ∧ (actTable queried 8).isSome = true)
    ∧ (bufferOk queried 0x20000 2048 true = true ∧ (vaPlaces queried 0x20000 4).Nodup ∧ 3 < (leBytes 4 0).length)
    ∧ (bufferOk queried 0x7FFC0 2048 true = false ∧ tensor queried (queryOf 4).index = none ∧ (queryOf 4).clear = false)
    ∧ (TakenAdmin (with0 queried) subA 0 ∧ mayName (with0 queried) 0 queried = true) :=
  ⟨⟨offered_of _ _ rfl rfl rfl, by decide, by decide⟩, by decide +kernel, by decide +kernel, by decide +kernel, admin_of _ rfl rfl, by decide⟩

/-! ### Witnesses: opening, quotas, retirement, queues -/

theorem inv_up : Sound up := by unfold Sound; decide +kernel

/-- One queue of 64 entries, as OPEN's table gives it. -/
def queueEntry0 : Bytes := leBytes 8 0x100000 ++ leBytes 4 64 ++ leBytes 2 0 ++ [0, 0] ++ leBytes 8 0x200000 ++ leBytes 4 64 ++ zeros 4
def openF0 : OpenF := ⟨0x4000, 0x3000, 1, false, 0x0302, 5, 2, 0, 1, 16, 7, 1, 0⟩
def opening : State := { up with hostMem := mwrite [] 0x3000 queueEntry0 }
def orphan : Ctx := { inSt .orphaned with ident := { ident0 .orphaned with deadline := 2000000000 } }
def reclaimF0 : ReclaimF := ⟨0x4000, 0x3000, 1, 0x0302, 5, 0, 99⟩
def reclaiming : State := { with0 orphan with hostMem := mwrite [] 0x3000 queueEntry0 }

theorem open_witness : (TakenAdmin opening subA 0 ∧ Sound opening) ∧ openCheck opening 0 openF0 = none ∧ freeCtx opening = some 0
    ∧ coreUp opening .keeper = true ∧ openCheck up 0 openF0 = some .earg := by
  refine ⟨⟨admin_of _ rfl rfl, ?_⟩, ?_⟩
  · unfold Sound; decide +kernel
  · decide +kernel

theorem reclaim_witness : (TakenAdmin reclaiming subA 0 ∧ Sound reclaiming) ∧ getCtx reclaiming 0 = some orphan ∧ orphan.ident.st = .orphaned
    ∧ reclaiming.now < orphan.ident.deadline ∧ orphan.ident.token = reclaimF0.token
    ∧ (queueTable reclaiming 0x3000 1).all queueEntryOk = true ∧ pasidFree reclaiming 0 5 (some 0) = true ∧ coreUp reclaiming .keeper = true := by
  refine ⟨⟨admin_of _ rfl rfl, ?_⟩, rfl, rfl, ?_⟩
  · unfold Sound; decide +kernel
  · decide +kernel

theorem reclaim_refused_witness : ∀ x, getCtx (with0 ctx0) 0 = some x → x.ident.st ≠ .orphaned := fun x h => by
  cases (Option.some.inj h : ctx0 = x); decide

def told (b : Bytes) (x : Ctx) : State := { with0 x with hostMem := mwrite [] 0x3000 b }
def setAt (idx n target : Nat) : SetF := ⟨idx, 0x3000, n, target⟩
/-- A quota of two carrels, three ways, weight 5 and 128 frames; an allotment; a setup of a 15 × 2 × 1 × 1 fabric. -/
def quotaB : Bytes := leBytes 2 2 ++ [3, 5] ++ leBytes 4 128
def allotB : Bytes := leBytes 2 4 ++ leBytes 2 64 ++ [8, 255, 0, 0] ++ leBytes 4 1000 ++ zeros 4
def setupB : Bytes := leBytes 4 3 ++ [15, 1, 0, 0, 1, 0] ++ leBytes 2 0 ++ zeros 4

/-- A patron with a pinned frame. -/
def holder : State := let s := told setupB ctx0; { s with mem := { s.mem with lines := [default] } }

theorem quotas_witness :
    (serving (with0 ctx0) = true ∧ sub0.q = .ctx 0 0 ∧ (getQueue (with0 ctx0) sub0.q).isSome = true ∧ queueHeld (with0 ctx0) sub0.q = false)
    ∧ (TakenAdmin (withVf ctx0) subV 5 ∧ isPf (withVf ctx0) 5 = false)
    ∧ (let s := told quotaB ctx0
       TakenAdmin s subA 0 ∧ isPf s 0 = true ∧ getCtx s 0 = some ctx0 ∧ samePort s 0 0 = true ∧ setState true ctx0 = none
        ∧ quotaCheck s 0 ctx0 (quotaOf (mread s.hostMem 0x3000 8)) = none)
    ∧ (let b := mread (told allotB ctx0).hostMem 0x3000 16; zeroAt b 6 2 = true ∧ zeroAt b 12 4 = true ∧ samePort (told allotB ctx0) 0 255 = true)
    ∧ (let s := told setupB unmapped; setupOk (mread s.hostMem 0x3000 16) = true ∧ holdsLines s = false ∧ (setPartition s true).isSome = true)
    ∧ (let s := holder; TakenAdmin s subA 0 ∧ setupReserved (mread s.hostMem 0x3000 16) = true ∧ holdsLines s = true
        ∧ (fld (mread s.hostMem 0x3000 16) 8 1 == 1) ≠ s.host.partition) :=
  ⟨⟨rfl, rfl, rfl, rfl⟩, ⟨⟨rfl, rfl, rfl, rfl⟩, rfl⟩, ⟨admin_of _ rfl rfl, rfl, rfl, rfl, rfl, by decide +kernel⟩, by decide +kernel, by decide +kernel,
   ⟨admin_of _ rfl rfl, by decide +kernel, by decide, by decide +kernel⟩⟩

def retiredAll : State :=
  { with0 ctx0 with si := { (with0 ctx0).si with retired := (List.range 1024).map fun k => k * frameBytes } }
/-- Frame 0x20000 of the context's own pages, as the owner table has it. -/
def owned : State := let s := with0 ctx0; { s with mem := { s.mem with owner := [(0x20000, 0)] } }
def migrating : State := { owned with si := { owned.si with migrations := [(0x20000, 0x90000, 2, [])] } }

theorem retire_witness :
    (TakenAdmin retiredAll subA 0 ∧ stackOf 0 = some 0 ∧ 0 ∈ retiredAll.si.retired ∧ 1024 ≤ retiredIn retiredAll 0
      ∧ 1024 * frameBytes ∉ retiredAll.si.retired)
    ∧ (TakenAdmin owned subA 0 ∧ inUse owned 0x90000 = false ∧ 0x90000 ∉ owned.si.retired ∧ retiredIn owned 0 < 1024)
    ∧ (inUse owned 0x20000 = true ∧ (migrationTarget owned 0x20000 0).isSome = true)
    ∧ (migrating.si.migrations.find? (·.1 == 0x20000) = some (0x20000, 0x90000, 2, []) ∧ Memory.wf migrating.mem.bytes ∧ frameOwner migrating 0x20000 = some 0
      ∧ 0x20000 + frameBytes ≤ 0x90000 ∧ (ctx0.maps.find? fun m => m.2.loc == 0 && m.2.frame == 0x20000).any (fun m => tget ctx0.maps m.1 == some m.2) = true)
    ∧ (TakenAdmin migrating subA 0 ∧ (∃ m ∈ migrating.si.migrations, m.1 = 0x20000) ∧ 0x20000 ∉ migrating.si.retired ∧ retiredIn migrating 0 < 1024)
    ∧ (inUse migrating 0x90000 = false ∧ (∃ m ∈ migrating.si.migrations, m.2.1 = 0x90000) ∧ (migrationTarget migrating 0x90000 0).isSome = true
      ∧ (∀ m ∈ migrating.si.migrations, m.1 ≠ 0x90000))
    ∧ (let s := { up with si := { up.si with migrations := [(stackBytes - frameBytes, 0x90000, 2, [])] } }
       s.si.migrations.find? (·.1 == stackBytes - frameBytes) = some (stackBytes - frameBytes, 0x90000, 2, [])
        ∧ isReserved (stackBytes - frameBytes) = true) :=
  ⟨⟨admin_of _ rfl rfl, by decide +kernel⟩, ⟨admin_of _ rfl rfl, by decide +kernel⟩, by decide +kernel, by decide +kernel,
   ⟨admin_of _ rfl rfl, by decide +kernel⟩, by decide +kernel, by decide +kernel⟩

/-- A ring with one command waiting, and one with a used completion entry. -/
def queue1 : Queue := { queue0 with tail := 1, used := 1 }
def queued : Ctx := { ctx0 with queues := [queue1] }
def fullRing : Ctx := { ctx0 with queues := [{ queue0 with used := 64 }] }
/-- A QUERY of the device and an unclean one. -/
def queryB : Bytes := [0x0F, 0, 7, 0] ++ zeros 4 ++ leBytes 2 0x0C ++ zeros 54
def fetching (b : Bytes) : State := { with0 queued with hostMem := mwrite [] (queued.hostAt 0x100000) b }
def cmd0 (op : Nat) : Cmd := { (default : Cmd) with q := .ctx 0 0, cid := 9, opcode := op, started := true, prog := true }
def slicing : Ctx :=
  { inSt .paused with
    cmds := [cmd0 0x0A], long := some { (default : LongCmd) with q := .ctx 0 0, cid := 9, opcode := 0x0A, vol := some ⟨zeros 256, [], zeros 48⟩ } }

theorem queue_witness :
    (serving (with0 queued) = true ∧ fnUp (with0 queued) 0 = true ∧ getCtx (with0 queued) 0 = some queued ∧ queued.ident.st ≠ .orphaned
      ∧ getQueue (with0 queued) (.ctx 0 0) = some queue1 ∧ 63 < queue1.sqn ∧ queue1.sqn ≤ 64 ∧ (1 + queue1.cqn - queue1.cqHead) % queue1.cqn ≤ queue1.used
      ∧ queue1.used < (2 + queue1.cqn - queue1.cqHead) % queue1.cqn)
    ∧ (getQueue (fetching queryB) (.ctx 0 0) = some queue1 ∧ queue1.head ≠ queue1.tail ∧ queueHeld (fetching queryB) (.ctx 0 0) = false
      ∧ waitsKeeper (fetching queryB) (.ctx 0 0) queue1 = false ∧ itsTurn (fetching queryB) (.ctx 0 0) = true
      ∧ (let b := descriptorAt (fetching queryB) (.ctx 0 0) queue1; fld b 1 1 ≤ 1 ∧ zeroAt b 4 4 = true ∧ reservedOk (fld b 0 1) b = true
          ∧ fld b 0 1 = 0x0F ∧ fld b 8 2 = 0x0C))
    ∧ (let b := descriptorAt (fetching ([0x0F, 2] ++ zeros 62)) (.ctx 0 0) queue1; ¬ fld b 1 1 ≤ 1)
    ∧ (getCtx (with0 slicing) 0 = some slicing ∧ (startedCmd (with0 slicing) (.ctx 0 0) 9).map (fun k => k.work.isNone) = some true
      ∧ slicing.long.map (fun l => (l.q, l.cid, l.vol.isSome)) = some (QRef.ctx 0 0, 9, true))
    ∧ (startedCmd (with0 slicing) (.ctx 0 0) 9 = some (cmd0 0x0A) ∧ (cmd0 0x0A).prog = true ∧ (cmd0 0x0A).opcode ≠ opRunStep
      ∧ queue0.used < queue0.cqn ∧ (cmd0 0x0A).lastProgress + 1000000 ≤ max (with0 slicing).clock.now 0
      ∧ max (with0 slicing).clock.now 0 < 999999999 + 1000000)
    ∧ (getQueue (with0 fullRing) (.ctx 0 0)).map (fun v => decide (v.cqn ≤ v.used)) = some true :=
  ⟨by decide +kernel, by decide +kernel, by decide +kernel, by decide +kernel, by decide +kernel, by decide⟩

/-- Queue 1 of two has its turn after queue 0: queue 0 waits. -/
theorem turn_witness :
    let s := { fetching queryB with ctxs := [(0, { queued with queues := [queue1, queue1], lastQueue := 0 })] }
    itsTurn s (.ctx 0 0) = false ∧ itsTurn s (.ctx 0 1) = true := by decide +kernel

/-! ### Witnesses: registers and memory services -/

def host0 : Req := .port 0
def unlocked0 : State := { up with fw := { up.fw with unlocked := true } }
def armed : State := setPage unlocked0 0x024 { getPage unlocked0 0x024 with pEcc := 2 ^ 31 + 4, pCtrl := 16, pEccAddr := 0x40 }
def downPort (c : Nat) : State := setPort up 63 { Port.reset with cause := c }

theorem pages_witness :
    (writes up host0 0 0x024 = true ∧ writes (with0 ctx0) host0 5 0x024 = false)
    ∧ (∀ off ∈ [4096 * 0x024 + 1], off / 4096 = 0x024 ∧ ¬ ((2 = 4 ∧ off % 4 = 0) ∨ (2 = 8 ∧ off % 8 = 0)))
    ∧ ((getPage up 0x024).intEn = false)
    ∧ (writes { up with host := { up.host with funs := [(0, ⟨queue0, false, [], none, false⟩)] } } host0 0 (pgFun 0) = true ∧ up.fw.recovery = false
      ∧ adminOk queue0 = true ∧ adminOk Queue.none = false ∧ (getPage up (pgFun 0)).errValid = false)
    ∧ (writes (downPort 3) host0 0 (pgPort 63) = true ∧ (getPort (downPort 3) 63).st = .down ∧ (getPort (downPort 3) 63).cause = 3)
    ∧ (writes unlocked0 host0 0 0x024 = true ∧ hasPerturb 0x024 = true ∧ unlocked0.fw.unlocked = true ∧ up.fw.unlocked = false)
    ∧ (regsUp armed = true ∧ bitOf (getPage armed 0x024).pEcc 31 = true ∧ bitOf (getPage armed 0x024).pCtrl 4 = true
      ∧ pageClass 0x024 = some (0x0B, 0) ∧ stackOf (getPage armed 0x024).pEccAddr = some 0) := by decide +kernel

/-- A device whose keeper has locked every core's settings: clerk 0 reaches its own bay's pages and no other's. -/
def guarded : State := { up with fw := { protect up.fw with unlocked := true } }
def clerk0 : Req := .core 6
def carrelArmed : State := setPage guarded 0x200 { getPage guarded 0x200 with pEcc := 2 ^ 31 + 2, pCtrl := 16, pEccAddr := 0x40 }

theorem core_witness :
    (writes guarded clerk0 0 0x100 = true ∧ coreReaches guarded 6 0x101 true = false ∧ coreReaches guarded 6 0x101 false = false
      ∧ coreReaches guarded 6 0x008 false = false ∧ coreRuns guarded (reqCore 6) = true) := by decide +kernel

theorem may_write_witness : MayWrite guarded clerk0 0 0x100 ∧ MayWrite up host0 0 0x024 ∧ MayWrite up host0 0 (pgFun 0) ∧ MayWrite up host0 0 0
    ∧ MayWrite (downPort 3) host0 0 (pgPort 63) ∧ MayWrite carrelArmed clerk0 0 0x200 := by
  refine ⟨⟨rfl, rfl, .inl ⟨6, rfl, ?_⟩⟩, ⟨rfl, rfl, .inr (by decide +kernel)⟩, ⟨rfl, rfl, .inr (by decide +kernel)⟩,
    ⟨rfl, rfl, .inr (by decide +kernel)⟩, ⟨rfl, rfl, .inr (by decide +kernel)⟩, ⟨by decide +kernel, rfl, .inl ⟨6, rfl, ?_⟩⟩⟩ <;> decide +kernel

theorem register_commands_witness :
    (Taken (with0 ctx0) sub0 0 0 ctx0 closeLegal ∧ ctx0.att = none ∧ ctx0.run = none ∧ ctx0.long = none)
    ∧ (let s := { up with host := { up.host with funs := [(0, ⟨queue0, false, [], none, false⟩)] } }
       MayWrite s host0 0 (pgFun 0) ∧ s.fw.recovery = false ∧ (getFun s 0).en = false ∧ adminOk (getFun s 0).adm = true)
    ∧ (3 < (getPage up 0x024).sel.length ∧ hasPerturb 0x024 = true ∧ unlocked0.fw.unlocked = true)
    ∧ (pageClass 0x200 = some (0x0F, 0) ∧ carrelArmed.fw.unlocked = true ∧ bitOf (getPage carrelArmed 0x200).pEcc 31 = true
      ∧ bitOf (getPage carrelArmed 0x200).pCtrl 4 = true ∧ 2 ≤ (getPage carrelArmed 0x200).pEcc % 8) :=
  ⟨⟨taken_of _ _ _ rfl rfl rfl rfl, rfl, rfl, rfl⟩, ⟨⟨rfl, rfl, .inr (by decide +kernel)⟩, rfl, rfl, rfl⟩, by decide, by decide +kernel⟩

def pendingSnap : State := { up with regs := { up.regs with snapPending := true, snapTime := 5, gen := 1 } }
def latched : State := { up with regs := { up.regs with readLatch := [⟨host0, 4096 * 0x024 + 0x084, 7⟩] } }

theorem snapshots_witness :
    (writes up host0 0 0 = true ∧ up.regs.snapPending = false ∧ pendingSnap.regs.snapPending = true)
    ∧ (regsUp pendingSnap = true ∧ pendingSnap.regs.gen < 2 ^ 32 ∧ pendingSnap.regs.snapTime ≤ max pendingSnap.clock.now 0
      ∧ pageAsleep up (0x200 + 12) = true ∧ pageAsleep up 0x024 = false)
    ∧ (reads up host0 0 0x024 = true ∧ (reg64 up 0x024 0x080).isSome = true ∧ isLive 0x024 0x080 = true ∧ isLive 0x024 0x020 = false)
    ∧ ((latchOf latched host0 (4096 * 0x024 + 0x080 + 4)).isSome = true ∧ latchOf up host0 (4096 * 0x024 + 0x080 + 4) = none)
    ∧ reads up host0 5 0x024 = false := by decide +kernel

theorem snapshots_sound : Sound pendingSnap := by unfold Sound; decide +kernel

/-- A context in a round of one move; one whose round is over its time has begun at 0. -/
def moved (copied abandoned : Bool) : Move := ⟨call 0, 0, 0, 1, [0x1000000], copied, abandoned⟩
def reshelving (c a : Bool) (t : Nat) : Ctx := { ctx0 with cat := { cat0 with round := some (t, [moved c a]) } }
def vacating : Ctx := { ctx0 with cat := { cat0 with vacated := [(0x90000, 0, 0)] } }

theorem services_witness :
    (stackOf (2 ^ 60) = none ∧ stackOf 0 ≠ none ∧ up.running = true)
    ∧ (mayRound ((with0 ctx0).at 0) ctx0 = true ∧ mayRound ((with0 (reshelving false false 0)).at 0) (reshelving false false 0) = false)
    ∧ ((reshelving false false 0).cat.round = some (0, [moved false false]) ∧ (moved false false).abandoned = false
      ∧ 0 + 1000000 ≤ max (with0 ctx0).clock.now 0 ∧ max (with0 ctx0).clock.now 0 < 999000001 + 1000000)
    ∧ ((∀ m ∈ [moved true false], m.copied = true ∨ m.abandoned = true) ∧ flipSettled vacating (0x90000, 0, 0) = true)
    ∧ (carrelIn (with0 ctx0) 0 = true ∧ tget (with0 ctx0).si.carrelCtx 0 ≠ some 0 ∧ 0 ∈ ctx0.ident.grant) := by decide +kernel

theorem round_witness : let s := (with0 ctx0).at 0
    movePages s ctx0 [] (call 0) 0 1 = some [1, 2, 3, 4, 5, 6, 7] ∧ (framesOf s 1 7).isSome = true ∧ remotePages ctx0 [1, 2, 3, 4, 5, 6, 7] = 0
      ∧ (tensor ctx0 (call 0)).isSome = true := by decide +kernel

/-- A doorbell page read by the port of its function, and by another function's. -/
theorem bar2_witness : speaks (withVf ctx0) host0 0 = true ∧ speaks (withVf ctx0) host0 5 = true ∧ getCtx (withVf ctx0) 0 = some ctx0
    ∧ getQueue (withVf ctx0) (.ctx 0 0) = some queue0 ∧ ctx0.ident.fn = 0 ∧ ctx0.ident.st ≠ .orphaned ∧ ctx0.ident.fn ≠ 5 := by decide +kernel

/-- A function that is set up, and one that was reset and is not yet. -/
theorem muted_witness : (getPage up 0x024).intEn = false ∧ muted up 0 = false
    ∧ muted { up with host := { up.host with funs := [(0, ⟨queue0, false, [], none, true⟩)] } } 0 = true := by decide +kernel

/-! ### Witnesses: the fabric -/

/-- A device at coordinate 0 of a 16 × 2 × 1 × 1 fabric, with its port 0 as given; the peer of port 0 is at coordinate 1. -/
def fab : State := { up with host := { up.host with axes := [16, 2, 1, 1] } }
def link (q : Port) : State := setPort fab 0 q
def portIn (st : PortSt) : Port :=
  { Port.reset with st := st, lanes := 7, partner := 1, cert := 6, sizes := List.replicate 32 255, credits := List.replicate 32 255,
                    ownFree := List.replicate 32 255, laneReady := [3] }
def train0 : TrainResp := ⟨1, [16, 2, 1, 1], [], 15, 6⟩
def auth0 : AuthResp := ⟨true, false, 0, 6⟩

theorem ports_witness :
    (fab.running = true ∧ fab.fabric.selfFailed = false)
    ∧ ((getPort (link (portIn .down)) 0).st = .down ∧ (getPort (link (portIn .down)) 0).cause ≤ 1
      ∧ 2 ≤ (getPort (link { portIn .down with cause := 3 }) 0).cause)
    ∧ ((getPort (link (portIn .training)) 0).st = .training ∧ fab.host.address ≠ none ∧ train0.cert ∉ fab.fabric.refused
      ∧ train0.sizes = fab.host.axes ∧ peerOf (link (portIn .training)) 0 = some train0.addr ∧ train0.lanes % 16 ≠ 0
      ∧ ({ train0 with sizes := [16, 1, 1, 1] } : TrainResp).sizes ≠ fab.host.axes)
    ∧ ((getPort (link (portIn .authenticating)) 0).st = .authenticating ∧ coreUp fab .keeper = true ∧ auth0.reserveRole = bitOf 1 19
      ∧ fab.fw.config.minSvn ≤ auth0.svn ∧ auth0.cert = (portIn .authenticating).cert)
    ∧ ((getPort (link { portIn .training with retrainAt := some 0 }) 0).retrainAt = some 0 ∧ 0 + 100000000 ≤ max fab.clock.now 0
      ∧ max fab.clock.now 0 < 900000001 + 100000000)
    ∧ ((portIn .up).st = .up ∧ ({ portIn .up with credits := [] } : Port).credits.getD 31 0 = 0 ∧ (portIn .up).starving.find? (·.1 == 31) = none)
    ∧ (({ portIn .up with starving := [(30, 5), (31, 0)] } : Port).starving.find? (·.1 == 31) = some (31, 0) ∧ 0 + 10000000 ≤ max fab.clock.now 0
      ∧ max fab.clock.now 0 < 999999999 + 10000000)
    ∧ 16 ≤ ({ portIn .up with events := List.replicate 16 1000000000 }.events.filter fun e => decide (max fab.clock.now 0 < e + 1000000)).length
    ∧ (8 ≤ ({ portIn .up with replayFails := 8 } : Port).replayFails ∧ RetrainCause.lockLost ≠ .replays ∧ RetrainCause.lockLost ≠ .laneRestore
      ∧ ({ portIn .up with lastNak := some (9, 8) } : Port).lastNak = some (9, 8) ∧ (portIn .up).laneReady ≠ [] ∧ (portIn .up).retry = [])
    ∧ (({ portIn .retraining with retrainAt := some 0 } : Port).retrainAt = some 0 ∧ max fab.clock.now 0 ≤ 990000000 + 10000000
      ∧ (portIn .retraining).lanes &&& (15 % 16) ≠ 0)
    ∧ (bitOf (portIn .up).lanes 3 = false ∧ ((portIn .up).laneOk.find? (·.1 == 3)) = none
      ∧ ({ portIn .up with laneOk := [(3, 0)] }.laneOk.find? (·.1 == 3)) = some (3, 0) ∧ 0 + 10000000000 ≤ max fab.clock.now 10000000000)
    ∧ ((portIn .up).keyPending = none ∧ 2 ^ 32 ≤ ({ portIn .up with sentFlits := 2 ^ 32 } : Port).sentFlits
      ∧ ({ portIn .up with keyPending := some 0 } : Port).keyPending = some 0) := by decide +kernel

/-- A flit: its header, and where it is the first of a message, the message's head (R437, R438). -/
def flit (type cls vc : Nat) (first : Bool) (seq cbuf credit src : Nat) : Bytes :=
  leBytes 1 (type * 16) ++ leBytes 1 (cls * 64 + vc * 8 + b2n first * 4) ++ leBytes 3 seq ++ leBytes 1 (cbuf * 8) ++ leBytes 1 credit ++ zeros 9
  ++ leBytes 4 0 ++ leBytes 4 src ++ leBytes 4 7 ++ leBytes 2 2 ++ zeros 2 ++ leBytes 8 5 ++ leBytes 8 0 ++ zeros 208

/-- An earlier frame of empty flits, and one that follows it, whose flits bring its seal (d = 0) or another (d = 1). -/
def frame0 : RxFrame := ⟨0, 0, false, List.replicate 16 (zeros 256)⟩
def after (d : Byte) : List Bytes :=
  (List.range 16).map fun i => zeros 7 ++ [(frameSeal (hopKey frame0.key) frame0.frame (plainFrame frame0)).getD i 0 + d] ++ zeros 248

theorem frames_witness :
    (∀ d, (after d).length = 16 ∧ (((after d).take 15).length = 15 ∧ (after d).take 15 ++ [(after d).getD 15 []] = after d)
      ∧ ∀ x ∈ frame0.flits ++ after d, x.length = 256)
    ∧ frame0.next = false
    ∧ frameSeal (hopKey frame0.key) frame0.frame (plainFrame frame0) = (after 0).map (·.getD 7 0)
    ∧ frameSeal (hopKey frame0.key) frame0.frame (plainFrame frame0) ≠ (after 1).map (·.getD 7 0)
    ∧ ¬ ∀ x ∈ frame0.flits ++ [] :: (after 0).drop 1, x.length = 256 := by
  have h : (frameSeal (hopKey frame0.key) frame0.frame (plainFrame frame0)).length = 16 :=
    frameSeal_length _ _ _ rfl
  unfold after
  generalize frameSeal (hopKey frame0.key) frame0.frame (plainFrame frame0) = l at h ⊢
  match l, h with
  | [a, b, c, d, e, f, g, h, i, j, k, l, m, n, o, p], _ =>
    refine ⟨fun d => ⟨rfl, ⟨rfl, rfl⟩, fun x hx => ?_⟩, rfl, ?_, fun q => ?_, fun q => ?_⟩
    · simp only [frame0, List.mem_append, List.mem_replicate, List.mem_map] at hx
      rcases hx with ⟨_, rfl⟩ | ⟨i, _, rfl⟩
      · rfl
      · simp [zeros]
    · show _ = [a + 0, b + 0, c + 0, d + 0, e + 0, f + 0, g + 0, h + 0, i + 0, j + 0, k + 0, l + 0, m + 0, n + 0, o + 0, p + 0]
      simp
    · have q1 : a = a + 1 := congrArg (fun l : Bytes => l.getD 0 0) q
      revert q1; bv_omega
    · exact absurd (q [] (by simp)) (by decide)

def sent0 : Sent := { (default : Sent) with seq := 9 }

theorem flits_witness :
    ((flit 1 0 0 true 0 0 0 1).length = 256 ∧ (portIn .up).st = .up)
    ∧ (let h := flitHead (flit 0 0 0 false 0 31 1 0); h.reserved = 0 ∧ h.type = 0 ∧ 0 < h.credit ∧ h.cbuf = 31
        ∧ ({ portIn .up with credits := List.replicate 32 254 } : Port).credits.getD 31 0 + h.credit ≤ (portIn .up).sizes.getD 31 0
        ∧ (portIn .up).sizes.getD 31 0 < (portIn .up).credits.getD 31 0 + h.credit)
    ∧ ((flitHead (flit 2 0 0 false 0 0 0 0)).type = 2)
    ∧ (portIn .up).rxFlits.length ≠ 15
    ∧ (let h := flitHead (flit 1 0 0 true 0 0 0 1); let m := msgHead (flit 1 0 0 true 0 0 0 1)
       h.reserved = 0 ∧ h.type = 1 ∧ h.seq = (portIn .up).rxSeq ∧ (portIn .up).ownFree.getD (8 * h.cls + h.vc) 0 ≠ 0 ∧ h.first = true
        ∧ routeOk (link (portIn .up)) h m = true ∧ sourceOk (link (portIn .up)) 0 (portIn .up) m = true ∧ tget (portIn .up).rxMsg 0 = none
        ∧ h.last = false ∧ 1 ≤ m.len)
    ∧ (sourceOk (link (portIn .up)) 0 (portIn .up) (msgHead (flit 1 0 0 true 0 0 0 3)) = false)
    ∧ ((flitHead (flit 1 0 0 true 5 0 0 1)).seq ≠ (portIn .up).rxSeq ∧ ({ portIn .up with nakSent := true } : Port).nakSent = true)
    ∧ (let q := { portIn .up with retry := [sent0], txSeq := 10 }; dropAcked q.txSeq 9 q.retry = [sent0] ∧ sent0.seq = 9)
    ∧ ((flitHead (flit 3 0 0 false 0 0 0 0)).type = 3) := by decide +kernel

def msg (dest hops src : Nat) (flits : List Bytes) : Message := ⟨dest, hops, src, 7, 0, 3, 0, flits, []⟩
/-- A context of job 7 with a key. -/
def keyed : Ctx := { ctx0 with ident := { ctx0.ident with jobKey := some (zeros 32) } }
def keyedState : State := let s := link (portIn .up); { s with ctxs := [(0, keyed)] }
def waiting0 (n : Nat) (checking : Bool) : Waiting := ⟨7, 3, 1, n, [], 0, checking, 0, none⟩
def waitingState (n : Nat) (checking : Bool) : State := { link (portIn .up) with fabric := { (link (portIn .up)).fabric with waiting := [waiting0 n checking] } }

theorem messages_fabric_witness :
    (let s := link (portIn .up)
     isMe s 1 = false ∧ kindClass 0 = some 0 ∧ nextPort s (tableOf s 0) (8 * 0 + (6 + 1)) 1 2 (6 + 1) = some 0 ∧ roomFor s 0 7 2 = true
      ∧ (∃ p ∈ (minimalHops s (tableOf s 0) 0 1).flatMap (portsTo s), shortOf s 7 p = false) ∧ isMe s 0 = true)
    ∧ (let s := link { portIn .up with credits := [] }
       nextPort s (tableOf s 0) (8 * 0 + (6 + 1)) 1 2 (6 + 1) = some 0 ∧ roomFor s 0 7 2 = false)
    ∧ (let o : Outgoing := ⟨msg 1 1 0 [zeros 240], none, none, 0, 0, 0⟩
       let s := link (portIn .up); let t := { s with fabric := { s.fabric with queued := [o] } }
       t.fabric.queued = [o] ∧ readyToGo t o = some (0, 0, 1))
    ∧ (tagKey keyedState 7 = some (some (zeros 32)) ∧ isMe keyedState 0 = true ∧ tagsOk (zeros 32) (msg 0 0 1 []) = true
      ∧ stale keyedState (msg 0 0 1 []) = false)
    ∧ stale { keyedState with fabric := { keyedState.fabric with delivered := [⟨1, 7, 3, [3]⟩] } } (msg 0 0 1 []) = true
    ∧ ((waitingOf (waitingState 7 false) 1 7 3).checking = false ∧ (waitingOf (waitingState 7 false) 1 7 3).attempts < 8
      ∧ 8 ≤ (waitingOf (waitingState 8 false) 1 7 3).attempts)
    ∧ (((waitingState 8 true).fabric.waiting.find? (isWaiting 7 3)) = some (waiting0 8 true) ∧ (waiting0 8 true).checking = true
      ∧ (waiting0 8 true).answered = none ∧ (waiting0 8 true).since + 2000000 ≤ max fab.clock.now 0
      ∧ max fab.clock.now 0 < 999000000 + 2000000 ∧ ({ waiting0 8 true with answered := some 5 } : Waiting).answered = some 5)
    ∧ (jobCtx keyedState 7 = some (0, keyed) ∧ rangeHere keyed 0x10000 64 true = true ∧ rangeHere keyed 0x90000 64 true = false
      ∧ rangeHere keyed 0x10000 64 false = true ∧ rangeHere keyed 0x90000 64 false = false
      ∧ (vaPlaces keyed 0x10000 64).Nodup) := by decide +kernel

theorem wrong_tag_witness : tagsOk (zeros 32) (msg 0 0 1 [zeros 240]) = false := by decide +kernel

/-! ### Witnesses: time, takeover, lives of contexts -/

/-- A device at coordinate 1, whose time comes from coordinate 0 over its port 0. -/
def timed (src : TimeSource) (frames : Nat) (adopted : Bool) : State :=
  let s := link { portIn .up with partner := 0 }
  { s with host := { s.host with address := some 1 }, clock := { s.clock with source := src, tsFrames := frames, adopted := adopted } }

theorem time_witness : timePort (timed .links 0 true) = some 0 ∧ (timed .links 0 true).clock.source ≠ .tsync
    ∧ (timed .tsync 2 true).clock.source = .tsync ∧ (getPort (timed .links 0 true) 0).st = .up ∧ (timed .links 2 false).clock.adopted = false
    ∧ ((timed .links 0 false).clock.adopted = false ∧ (timed .links 0 false).ctxs = [] ∧ (timed .links 0 false).clock.tsFrames = 0)
    ∧ (timed .links 2 false).ctxs = [] ∧ 2 ≤ (timed .links 2 true).clock.tsFrames ∧ (timed .links 1 false).clock.tsFrames < 2
    ∧ (timed .tsync 2 true).clock.tsLast + 3000000 ≤ max (timed .tsync 2 true).clock.now 0
    ∧ (timed .links 1 false).clock.tsFrames ≠ 0
    ∧ max (timed .tsync 2 true).clock.now 0 < 999000000 + 3000000 := by decide +kernel

/-- A frame of zeros announces nothing, and no frame equals it. -/
theorem time_frame_witness : ∀ f < 2 ^ 64, 0 ≠ 0xA5 + 256 * f + 2 ^ 72 * crc32 (leBytes 8 f) := by intros; omega

/-- The reserve of the row of coordinate 1. -/
def reserve0 : State := { fab with host := { fab.host with address := some 0x80000 } }
def standby0 : Ctx := { inSt .opened with ident := { ident0 .opened with standby := true } }
def adopting (x : Ctx) : State :=
  { reserve0 with ctxs := [(0, x)], fabric := { reserve0.fabric with adopted := some 1, lost := [1], points := [(1, 7, 0)] } }
/-- A member of a job of this device and coordinate 1. -/
def memberAt (st : CtxSt) (g : Ctx → Ctx) : Ctx := g { inSt st with pol := pol2 }
def withSlot (x : Ctx) : Ctx := { x with vols := { Vols.empty with slot0 := ⟨some volume0, 0, true, false, 0, 1⟩ } }
def ready1 (st : Bool) : Ctx :=
  memberAt .paused fun x => { x with streamed := st, ident := { x.ident with awaitReady := true } }

theorem takeover_witness :
    (realLoss (.wing 23) = true ∧ reserveOf reserve0 1 = true ∧ (∀ k < 4, (getPort reserve0 (4 * (1 % 16) + k)).st = .down)
      ∧ ([0, 2, 3, 4, 5, 6, 7, 8] : List Nat).Nodup ∧ (∀ r ∈ [0, 2, 3, 4, 5, 6, 7, 8], r / 16 = 1 / 16 ∧ r ≠ 1)
      ∧ (∃ k < 4, (getPort (setPort reserve0 4 (portIn .up)) (4 * (1 % 16) + k)).st ≠ .down))
    ∧ (let s := { reserve0 with ctxs := [(0, standby0)], fabric := { reserve0.fabric with lost := [1] } }
       1 ∈ s.fabric.lost ∧ s.fabric.adopted = none ∧ standbyFor s 7 = true ∧ standbyFor s 8 = false)
    ∧ (let x := memberAt .ready withSlot
       (0, 0) ∈ affected (with0 x) 1 [(7, 0)] ∧ volumeOf x 0 ≠ none ∧ volumeOf x 1 = none ∧ x.inState [.ready, .running, .paused, .checkpointing] = true)
    ∧ (standby0.ident.standby = true ∧ standby0.ident.st = .opened ∧ (adopting standby0).fabric.adopted = some 1
      ∧ (1, 7, (readVolume (zeros 304)).v.step) ∈ (adopting standby0).fabric.points ∧ volumesCheck standby0 [zeros 304] ≠ none)
    ∧ (let x := ready1 true
       (adopting x).fabric.adopted = some 1 ∧ x.streamed = true ∧ x.ident.awaitReady = true ∧ x.att = none ∧ x.run = none
        ∧ allReported (with0 x) x 1 [(0, 4, 5)] = true ∧ allReported (with0 x) x 1 [] = false)
    ∧ ((ready1 false).streamed = false ∧ (ready1 false).ident.awaitReady = true)
    ∧ (let x := memberAt .running id
       x.ident.job ∈ [7] ∧ hasMember x 1 = true ∧ x.ident.standby = false ∧ x.inState [.ready, .running, .paused, .checkpointing] = true
        ∧ hasMember ctx0 1 = false)
    ∧ (let x := memberAt .orphaned withSlot; (0, 0) ∈ affected (with0 x) 1 [(7, 0)] ∧ x.ident.st = .orphaned) := by decide +kernel

/-- The points of job 7 at which a restore begins; none of its buddies is lost. -/
def heard0 : RestorePoints := ⟨[(7, 0)], [2]⟩
/-- A module that has been repaired: the detour of its coordinate stands. -/
def back : State :=
  { fab with
    host := { fab.host with address := some 1 }, ctxs := [(0, standby0)]
    fabric := { fab.fabric with detours := [⟨1, 0x80000, 1⟩], lost := [1] } }
def waitingReserve : State := { reserve0 with ctxs := [(0, standby0)], fabric := { reserve0.fabric with lost := [1] } }

theorem adoption_witness :
    (reserveOf waitingReserve 1 = true ∧ 1 ∈ waitingReserve.fabric.lost ∧ waitingReserve.fabric.adopted = none
      ∧ (∀ p ∈ heard0.points, standbyFor waitingReserve p.1 = true) ∧ (∀ b ∈ heard0.buddies, b ∉ waitingReserve.fabric.lost)
      ∧ (∃ b ∈ (⟨[(7, 0)], [1]⟩ : RestorePoints).buddies, b ∈ waitingReserve.fabric.lost))
    ∧ ((∃ p ∈ (⟨[(8, 0)], []⟩ : RestorePoints).points, standbyFor waitingReserve p.1 = false) ∧ (adopting standby0).fabric.adopted ≠ none)
    ∧ (back.running = true ∧ back.fabric.selfFailed = false ∧ back.host.address = some 1 ∧ (∃ d ∈ back.fabric.detours, d.coord = 1)
      ∧ back.fabric.adopted = none ∧ (∀ p ∈ heard0.points, standbyFor back p.1 = true) ∧ ∀ b ∈ heard0.buddies, b ∉ back.fabric.lost)
    ∧ (let s := adopting standby0; let u := { s with fabric := { s.fabric with buddies := [2] } }
       u.fabric.adopted = some 1 ∧ 2 ∈ u.fabric.buddies ∧ (∃ q ∈ u.fabric.points, standbyFor u q.2.1 = true) ∧ reserveOf u 2 = true) := by decide +kernel

theorem floods_witness :
    (1, [1, 1] ++ [(7, 0)].flatMap fun (p : Nat × Nat) => [p.1, p.2]) ∉ back.fabric.floods
    ∧ ((1 : Nat) ≠ 0x80000 ∧ (∃ e ∈ back.fabric.detours, e.coord = 1 ∧ e.reserve = 0x80000))
    ∧ (∀ e ∈ back.fabric.detours, e.coord = 1 → e.reserve ≠ 0x80010)
    ∧ (∀ e ∈ back.fabric.detours, e.coord ≠ 2)
    ∧ ((2, [1, 7]) ∉ up.fabric.floods ∧ (2, [1, 7]) ∈ { up.fabric with floods := [(2, [1, 7])] }.floods)
    ∧ (let x := memberAt .running fun y => { y with att := some (attempt0 stream0) }
       ∀ a, x.att = some a → beforeSeal a.phase = true) := by
  refine ⟨by decide, by decide, by decide, by decide, by decide, fun a h => ?_⟩
  cases (Option.some.inj h : attempt0 stream0 = a); rfl

theorem takeover_sound : Sound (with0 (memberAt .ready withSlot)) := by unfold Sound; decide +kernel

def ringed : Ctx :=
  let x := memberAt .paused id
  { x with pol := { x.pol with mode := { x.pol.mode with ring := call 0 } }, cat := cat0, tr := { x.tr with staging := [zeros 16] } }
def ringCat : Catalogue := { Catalogue.empty with tags := [(0, 1)], live := [(0, { row 13 128 0x10000 with pitch := 512 })] }
def ringed1 : Ctx := { ringed with cat := ringCat, tr := { ringed.tr with ringOff := 64 } }

theorem lives_witness :
    (running0.inState [.opened, .ready, .running, .paused, .checkpointing, .faulted] = true ∧ ctx0.ident.fn ∈ resetFns (with0 ctx0) (.flr 0)
      ∧ 5 ∉ resetFns (with0 ctx0) (.flr 0) ∧ isPf (with0 ctx0) 5 = false)
    ∧ ((with0 ctx0).host.twoHost = false ∧ (with0 ctx0).host.active ≤ 1
      ∧ (with0 ctx0).mgmt.responses.find? (fun r => r.1 == 1 && r.2.1 == .failover) = none)
    ∧ (let s := { with0 ctx0 with host := { (with0 ctx0).host with up0 := false, out0 := 5 }, pins := { (with0 ctx0).pins with perst0 := false } }
       s.host.active = 0 ∧ s.host.up0 = false ∧ s.host.out0 + 100000000 ≤ max s.clock.now 0 ∧ s.pins.perst0 = false
        ∧ (with0 ctx0).host.up0 = true ∧ (with0 ctx0).pins.perst0 = true)
    ∧ (let s := { with0 ctx0 with mgmt := { (with0 ctx0).mgmt with responses := [(1, .failover, .ok)] } }
       s.mgmt.responses.find? (fun r => r.1 == 1 && r.2.1 == .failover) = some (1, .failover, .ok))
    ∧ (getCtx (with0 orphan) 0 = some orphan ∧ orphan.ident.deadline ≤ max (with0 orphan).clock.now 2000000000
      ∧ max (with0 orphan).clock.now 0 < orphan.ident.deadline)
    ∧ (let x := inSt .draining; x.ident.st = .draining ∧ x.att = none ∧ x.run = none ∧ x.long = none ∧ x.reshard = none ∧ x.cmds = [])
    ∧ (∃ k ∈ mapping.cmds, k.work ≠ none)
    ∧ (({ inSt .draining with run := some run0 } : Ctx).run ≠ none ∧ (inSt .scrubbing).ident.st = .scrubbing ∧ (inSt .scrubbing).closing = none)
    ∧ (running0.inState [.ready, .running, .paused, .checkpointing] = true ∧ ContainCause.keyLost ≠ .emptyGrant
      ∧ beforeSeal (attempt0 stream0).phase = true ∧ beforeSeal (sealing (attempt0 stream0)).phase = false)
    ∧ ((inSt .orphaned).ident.st = .orphaned ∧ ringed1.ident.st ≠ .orphaned)
    ∧ (let t : TRef := ⟨call 0, { row 13 128 0x10000 with pitch := 512 }⟩
       ringed1.tr.staging = [zeros 16] ∧ tensor ringed1 ringed1.pol.mode.ring = some t
        ∧ ringPlace (ringSize t) (ringRead (with0 ringed1) ringed1 t 8 8) ringed1.tr.ringOff 16 = some 64
        ∧ (byteUnits ringed1 t 64 (zeros 16)).isSome = true ∧ (byteUnits ringed1 t 0 (leBytes 8 80)).isSome = true
        ∧ (runPlaces ringed1 t 0 8 ++ runPlaces ringed1 t 64 16).Nodup
        ∧ ringPlace (ringSize t) (ringRead (with0 ringed1) ringed1 t 8 8) 64 600 = none) := by decide +kernel

theorem lives_sound : Sound (with0 ringed1) := by unfold Sound; decide +kernel

/-! ### Witnesses: power, pins, firmware, management -/

def meteredCtx : Ctx := { inSt .running with att := some { attempt0 stream0 with meteredOn := true } }
def stretched (m : Nat) : State :=
  let s := with0 ctx0; { s with control := { s.control with stretches := [(.bay 95, 65)], lastStretch := [(.bay 95, m)] } }
def lowFlow : State := { up with control := { up.control with flowSince := some 0 } }

theorem power_witness :
    (Running (with0 meteredCtx) 0 meteredCtx { attempt0 stream0 with meteredOn := true }
      ∧ islandOk (.carrel 1247) = true ∧ islandOk (.carrel 1248) = false)
    ∧ (let a := { attempt0 stream0 with meteredOn := true }
       25000032 % 96 = 0 ∧ a.held.refresh = none ∧ 0 < 25000032 + 9 - max 25000032 (a.start / 40)
        ∧ (96 % 96 = 0 ∧ 96 + 9 - max 96 (a.start / 40) = 0) ∧ 95 % 96 ≠ 0
        ∧ outsideFrom a ⟨25000000, 96⟩ < 25000000 + 96 ∧ 5 + 6 ≤ outsideFrom a ⟨5, 6⟩ ∧ a.held.droop.Nodup
        ∧ (9 ≤ 25000041 % 96 ∧ a.start / 40 ≤ 25000041 ∧ 25000041 ∉ a.held.droop) ∧ 25000040 % 96 < 9 ∧ 105 < a.start / 40)
    ∧ ((with0 ctx0).released = true ∧ loopsRun (with0 meteredCtx) = true ∧ (meteredSet (with0 meteredCtx)).isSome = true)
    ∧ (let s := stretched 995000000
       loopsRun s = true ∧ meteredSet s = none ∧ (s.control.stretches.map (·.1)).Nodup ∧ (Island.bay 95, 65) ∈ s.control.stretches ∧ 64 < 65
        ∧ adjustable (.bay 95) = true ∧ (s.control.lastStretch.find? (·.1 == .bay 95)) = some (.bay 95, 995000000)
        ∧ max s.clock.now 0 < 995000000 + 10000000)
    ∧ (up.control.cap = 7200 ∧ (up.control.drops.map (·.island)).Nodup ∧ 100 * 6983 < 97 * 7200 ∧ 97 * 7200 ≤ 100 * 6984)
    ∧ (85 < heatOf [(3, 86)] 3 ∧ (∀ k < 48, k ≠ 3 → heatOf [(3, 86)] k ≤ 85) ∧ heatOf [(3, 80)] 3 ≤ 80)
    ∧ (let s := { up with control := { up.control with cool := (List.range 48).map fun k => (k, 0) } }
       cooled [] (s.at 0) 3 = true ∧ ∀ k < 16, wingOfStack k = 3 → cooled [] (s.at 0) (32 + k) = true)
    ∧ ((up.mgmt.responses.find? fun r => r.1 == 1 && r.2.1 == .powerCap 2500) = none ∧ up.running = true)
    ∧ (coreUp up .conservator = true ∧ 1999 * 7200 < max (2000 * 7200) (6000 * 0) ∧ ¬ 2000 * 7200 < max (2000 * 7200) (6000 * 2400)
      ∧ lowFlow.control.flowSince = some 0 ∧ 0 + 10000000000 ≤ max lowFlow.clock.now 10000000000 ∧ lowFlow.control.flowEvent = false)
    ∧ (up.released = true ∧ up.clock.refclkLost = false ∧ up.fw.recovery = false ∧ up.pins.clkMode = false) :=
  ⟨⟨⟨rfl, rfl⟩, by decide⟩, by decide +kernel, by decide, by decide +kernel, by decide +kernel, by decide +kernel, by decide +kernel, by decide, by decide +kernel, by decide⟩

/-- Off, with the trip of a second ago latched. -/
def offState : State := { State.reset with pins := { Pins.reset with pwrEn := false, pwrGood := false, inputSwitch := false, tripped := true } }
def pulled : State := { State.reset with pins := { Pins.reset with presence := false } }
def badImage : Image := { Image.factory with sigOk := false }

theorem pins_witness :
    (offState.pins.pwrEn = false ∧ offState.pins.presence = true ∧ offState.pins.aux = true ∧ offState.pins.tripped = true
      ∧ offState.pins.pwrEnLow + 1000000000 ≤ 1000000000 ∧ 999999999 < offState.pins.pwrEnLow + 1000000000)
    ∧ (State.reset.pins.pwrEn = true ∧ State.reset.pins.modReset = false ∧ State.reset.pins.pwrGood = true ∧ State.reset.pins.presence = true)
    ∧ (up.pins.pwrGood = true ∧ up.pins.modReset = true ∧ pulled.pins.presence = false)
    ∧ (State.reset.pins.inputSwitch = true ∧ tripOk .overvoltage 58 0 0 = true ∧ tripOk .overvoltage 57 0 0 = false ∧ offState.pins.inputSwitch = false)
    ∧ (bootCtl State.reset.fw = some (⟨1, 0, 0, 0, 0⟩, false) ∧ imageCheck State.reset.fw (some Image.factory) = 0
      ∧ imageCheck State.reset.fw (some badImage) ≠ 0 ∧ imageCheck State.reset.fw none ≠ 0)
    ∧ (State.reset.released = false ∧ up.released = true ∧ up.clock.refclkLost = false)
    ∧ (linkMay { up with fw := { up.fw with stage := 6 } } 0 = true ∧ linkMay up 1 = false)
    ∧ (State.reset.fw.writing = none ∧ ({ State.reset.fw with writing := some (false, 0) } : Firmware).writing = some (false, 0)
      ∧ State.reset.clock.now ≤ 0 ∧ (0 : Nat) < up.clock.now) := by decide +kernel

def booting : State := { State.reset with pins := { Pins.reset with modReset := true }, fw := { Firmware.reset with stage := 6 } }
/-- Cores as given. -/
def withCore (k : CoreSt) : State := { up with fw := { up.fw with cores := k :: up.fw.cores.filter (·.id != k.id) } }
def downCore (i : CoreId) (at' : Nat) (l : List Nat) : CoreSt := ⟨i, false, at', l, true, false, 0, []⟩
def quarantine0 : State := let s := withCore (downCore (.clerk 95) 0 []); { s with fw := { s.fw with quarantined := [95] } }
def failing0 (l : List Nat) : State := { up with si := { up.si with failing := l } }

theorem firmware_witness :
    (slotImage booting.fw booting.fw.slot = some Image.factory ∧ booting.released = true ∧ booting.fw.stage = 6 ∧ booting.fw.recovery = false)
    ∧ (up.running = true ∧ coreUp up .keeper = true ∧ coreUp up (.clerk 95) = true)
    ∧ (∀ b, bootCtl booting.fw = some b → b.1.seq + 1 < 2 ^ 32) ∧ booting.fw.locked = false ∧ booting.fw.pendingTrial = false
    ∧ (booting.fw.ctl0.length = 32 ∧ booting.fw.ctl1.length = 32 ∧ tget { booting.fw with written := [(1, [7])] }.written 1 = some [7])
    ∧ (coreRunsUp up .keeper = true ∧ coreRunsUp up .conservator1 = true ∧ .conservator = dutyOf up .conservator
      ∧ (getCore up .keeper).map (fun k => decide (k.kick + 1000000 ≤ max up.clock.now 0)) = some true
      ∧ max up.clock.now 0 < ({ downCore .keeper 0 [] with kick := 999000001 } : CoreSt).kick + 1000000)
    ∧ (let k := downCore .keeper 999000000 []; let s := withCore k
       getCore s .keeper = some k ∧ k.up = false ∧ k.takenOver = false ∧ k.copyOk = true ∧ residentOk s .keeper = true
        ∧ max s.clock.now 0 ≤ k.downAt + 5000000 ∧ thrice k = false ∧ isStandby .keeper1 = true ∧ isStandby .keeper = false
        ∧ residentOk { s with fw := { s.fw with resident := [] } } .keeper = false)
    ∧ (let k := downCore .keeper 0 [60000000000, 1, 0]; let s := withCore k
       thrice k = true ∧ thrice (downCore .keeper 0 [60000000001, 1, 0]) = false ∧ k.takenOver = false ∧ standbyOf .keeper ≠ .keeper
        ∧ coreRunsUp s (standbyOf .keeper) = true)
    ∧ (let k := downCore (.clerk 95) 0 []; let s := withCore k; k.downAt + 10000000 ≤ max s.clock.now 0 ∧ 95 ∉ s.fw.quarantined)
    ∧ (getCore quarantine0 (.clerk 95) = some (downCore (.clerk 95) 0 []) ∧ 95 ∈ quarantine0.fw.quarantined
      ∧ 0 + 1000000000 ≤ max quarantine0.clock.now 0)
    ∧ (pageAsleep up (pgCarrel 1246) = false ∧ coreUp up (.clerk (1246 / 13)) = true)
    ∧ (servedBy (failing0 [0]) 0 = some 0 ∧ 0 ∈ (failing0 [0]).si.failing ∧ atBoundary (failing0 [0]) 0 = true ∧ spareFree (failing0 [0]) 0 = true
      ∧ spareFree (failing0 [0, 12]) 0 = false
      ∧ atBoundary { failing0 [0] with ctxs := [(0, running0)] } 0 = false)
    ∧ (let s := { up with si := { up.si with lanesPending := [(64 * 15 + 63, 7)], lanesSpared := [(15, 63, 1), (15, 63, 2)] } }
       (64 * 15 + 63, 7) ∈ s.si.lanesPending ∧ 2 ≤ (s.si.lanesSpared.filter fun e => e.1 == 15 && e.2.1 == 63).length) := by
  refine ⟨by decide +kernel, by decide +kernel, fun b h => ?_, by decide +kernel⟩
  have e : bootCtl booting.fw = some (⟨1, 0, 0, 0, 0⟩, false) := by decide +kernel
  rw [e] at h; cases h; decide

/-- A session of a key authority over MCTP. -/
def trusted (s : State) : State :=
  { s with mgmt := { s.mgmt with sessions := [(.mctp, 8, 5)] }, fw := { s.fw with config := ⟨0, 0, [8], false⟩ } }
def stagedLive (l : Option LiveUpd) : State :=
  let s := up; { s with fw := { s.fw with staged := true, stagedSlot := 1, slotB := some Image.factory, live := l } }
def handBytes (core : CoreId) (magic : Nat) : Bytes :=
  leBytes 4 magic ++ leBytes 2 1 ++ leBytes 2 1 ++ leBytes 1 (coreClass core) ++ zeros 1 ++ leBytes 2 (coreIndex core) ++ zeros 28
  ++ leBytes 4 (crc32 []) ++ zeros 20
def record0 : Handover := Handover.ofBytes (handBytes .circulation 0x52444E48)
def packet0 : MctpPacket := ⟨true, true, 0, 0, true, [1, 2], false, false, false⟩
def assembling0 : State := { up with mgmt := { up.mgmt with assembling := some (0, 1, 950000000, [1]) } }

theorem management_witness :
    (reaches up .mctp = true ∧ spdmNext 0 0 .getVersion = some (0, 1) ∧ spdmNext 0 0 .heartbeat = none ∧ overVendor .mctp = true
      ∧ coreUp { up with fw := { up.fw with cores := [] } } .keeper = false)
    ∧ ((measured up 1).isSome = true ∧ measured up 300 = none)
    ∧ (authority up .mctp = false ∧ authority (trusted up) .mctp = true ∧ secured (trusted up) .mctp = true ∧ (trusted up).mgmt.responses = [])
    ∧ (getCtx (trusted (with0 ctx0)) 0 = some ctx0 ∧ keyBarred ctx0 = false ∧ keyBarred running0 = true
      ∧ (zeros 32).length = 32 ∧ (zeros 48).length = 48)
    ∧ ((⟨1, 255, [1, 2, 3, 4], false⟩ : ConfigRec).authorities.length ≤ 4 ∧ (⟨0, 0, [], true⟩ : ConfigRec).reserved = true ∧ up.fw.attLog.length < 1024
      ∧ committedKey (trusted up).fw ≠ some 3 ∧ committedKey (trusted up).fw = some 0)
    ∧ (updatable up = true ∧ imageCheck (stagedLive none).fw (slotImage (stagedLive none).fw (stagedLive none).fw.stagedSlot) = 0) := by
  decide +kernel

theorem live_witness :
    ((stagedLive none).fw.live = none ∧ (stagedLive none).fw.staged = true ∧ servesAll (stagedLive none) Image.factory = true
      ∧ logRoom (stagedLive none) Image.factory = true)
    ∧ (let l : LiveUpd := ⟨995000000, []⟩; let s := stagedLive (some l)
       s.fw.live = some l ∧ recordDue (s.at 0) l .circulation record0 = true ∧ acceptsRecord Image.factory record0 = true
        ∧ acceptsRecord Image.factory (Handover.ofBytes (handBytes .circulation 0)) = false ∧ l.accepted.length + 1 < coreIds.length
        ∧ max s.clock.now 0 < l.start + 10000000 ∧ (0 : Nat) + 10000000 ≤ max s.clock.now 0)
    ∧ (let l : LiveUpd := ⟨995000000, coreIds.filter (· != .keeper)⟩
       recordDue ((stagedLive (some l)).at 0) l .keeper (Handover.ofBytes (handBytes .keeper 0x52444E48)) = true
        ∧ l.accepted.length + 1 = coreIds.length)
    ∧ (packet0.pecOk = true ∧ packet0.som = true ∧ packet0.eom = true ∧ messageOk packet0 packet0.body = true
      ∧ messageOk { packet0 with secured := true } packet0.body = false)
    ∧ (assembling0.mgmt.assembling = some (0, 1, 950000000, [1]) ∧ max assembling0.clock.now 0 ≤ 950000000 + 100000000
      ∧ 950000000 + 100000000 < max assembling0.clock.now 1050000001)
    ∧ (up.pins.aux = true ∧ State.reset.pins.modReset = false ∧ up.pins.modReset = true ∧ up.fw.unlocked = false ∧ unlocked0.fw.unlocked = true) := by
  decide +kernel

/-! ### Witnesses: the machine -/

theorem step_witness : ({ up with pending := [.ctrlNop 0 0 hdr0] } : State).pending = .ctrlNop 0 0 hdr0 :: [] := rfl
theorem idle_witness : up.pending = [] ∧ up.running = true ∧ up.clock.hold = 0 ∧ State.reset.running = false
    ∧ ({ up with clock := { up.clock with hold := 1 } } : State).clock.hold = 0 + 1 := by decide
theorem words_witness : hdrOff.wf = true ∧ (Ins.alu addF).wf = true ∧ 0 < 2 ^ 128 ∧ decodeIns 0 = some (hdr0, .nop) := by decide
theorem kept_witness : Sound State.reset ∧ step State.reset = .next State.reset := ⟨by unfold Sound; decide +kernel, rfl⟩

/-- An instruction word leaves the places it does not store to: a FILL of a 2 × 2 extent stores to 16 places. -/
theorem frame_witness : (Instr.moveFill 0 0 hdr0 fillF).ins? = some (0, 0, hdr0, .fill fillF)
    ∧ (storePlaces (.fill fillF) (atOf (.fill fillF))).length = 16 := ⟨rfl, by decide +kernel⟩

/-! ### Witnesses: RESTORE and a streamed volume -/

def volKey0 (x : Ctx) : Ctx := { x with ident := { x.ident with volKey := some [], jobKey := some [] } }
def restoring : Ctx := volKey0 unmapped
def savedVolume : Volume := formVolume (with0 restoring) restoring 1
/-- A volume list of one entry at 0x10000, its buffer list at 0x10100 and the volume at 0x20000. -/
def restoreState : State :=
  let s := with0 restoring
  { s with mem := { s.mem with bytes := mwrite (mwrite (mwrite [] 0x10000 (leBytes 8 0x10100 ++ leBytes 4 1 ++ zeros 4)) 0x10100
      (leBytes 8 0x20000 ++ leBytes 8 4096)) 0x20000 savedVolume.toBytes } }

theorem restore_witness : Taken restoreState sub0 0 0 restoring restoreLegal ∧ restoreCheck restoreState 0 restoring 0x10000 1 0 0 = none :=
  ⟨taken_of _ _ _ rfl rfl rfl rfl, by decide +kernel⟩

theorem restore_rebuilt_witness :
    (match rebuild (readVolumes restoreState 0 restoring 0x10000 1 0 0) 0 restoring
        ((volumeBytes restoreState restoring 0x10000 1).map fun b => (readVolume b).v) (readMapEnts restoreState restoring 0 0) true with
      | .ok u => (getCtx u 0).isSome | .error _ => false) = true := by decide +kernel

def streaming : Ctx := volKey0 { standby0 with cat := Catalogue.empty }
theorem streamed_witness : volumesCheck streaming [savedVolume.toBytes] = none
    ∧ (1, 7, (readVolume savedVolume.toBytes).v.step) ∈ (adopting streaming).fabric.points
    ∧ (match rebuild (adopting streaming) 0 streaming [(readVolume savedVolume.toBytes).v] [] false with
        | .ok u => (getCtx u 0).isSome | .error _ => false) = true := by decide +kernel

/-! ### Instruction words, written out from the tables of chapter 06: each entry is a field's lowest bit and its value -/

def word (fs : List (Nat × Nat)) : Nat := fs.foldl (fun w f => w ||| f.2 <<< f.1) 0

/-- The worked FOLD.DOT word of chapter 06, its header and FOLD's fields. -/
theorem test_word_fold : decodeIns 0x2001_0975_1FFF_FFC0_F800_0000_0000_0000
    = some (⟨false, false, 0, true⟩, .fold .dot ⟨0, 4, 5, 6, 20, 0x7FF, 0xFFF, 31, 0, 0⟩) := by decide
theorem test_word_alu : decodeIns (word [(120, 2), (119, 1), (118, 1), (113, 9), (107, 3), (102, 4), (96, 1), (92, 8), (0, 0xFFFFFFFF)])
    = some (⟨true, true, 9, false⟩, .alu ⟨3, 4, 0, true, 8, 0xFFFFFFFF⟩) := by decide
theorem test_word_li : decodeIns (word [(120, 1), (107, 7), (106, 1), (0, 0x81234567)]) = some (⟨false, false, 0, false⟩, .li 7 true 0x81234567)
    ∧ decodeIns (word [(120, 1), (107, 8), (106, 1)]) = none := by decide
theorem test_word_br : decodeIns (word [(120, 3), (109, 5), (104, 30), (99, 1), (0, 0xFFFE)])
    = some (⟨false, false, 0, false⟩, .br ⟨5, 30, 1, 0xFFFE⟩) ∧ decodeIns (word [(120, 3), (109, 7)]) = none := by decide
theorem test_word_move : decodeIns (word [(124, 1), (120, 0), (109, 2), (106, 5), (101, 28), (89, 0xABC), (69, 0xF0001)])
    = some (⟨false, false, 0, false⟩, .copy ⟨2, 5, 28, 0xABC, 0xF0001, 0⟩) ∧ decodeIns (word [(124, 1), (101, 29)]) = none := by decide
theorem test_word_pre : decodeIns (word [(124, 3), (120, 3), (108, 15), (105, 6), (100, 30)]) = some (⟨false, false, 0, false⟩, .pre .res ⟨15, 6, 30⟩)
    ∧ decodeIns (word [(124, 3), (120, 0), (105, 1)]) = none := by decide
theorem test_word_arith : decodeIns (word [(124, 4), (108, 3), (106, 2), (103, 4), (101, 1), (98, 7), (94, 9), (90, 9), (88, 2), (72, 0xFEFF)])
    = some (⟨false, false, 0, false⟩, .epiArith ⟨3, 2, 4, 1, 7, 9, 9, 2, 0xFEFF⟩)
    ∧ decodeIns (word [(124, 4), (94, 7), (90, 9)]) = none := by decide
theorem test_word_tap : decodeIns (word [(124, 4), (120, 1), (108, 2), (106, 1), (105, 1), (104, 1), (100, 3), (99, 1), (96, 6), (95, 1), (94, 1),
      (93, 1), (77, 0xABCD)])
    = some (⟨false, false, 0, false⟩, .epiTap ⟨2, 1, 1, true, 3, true, 6, 1, true, 1, 0xABCD⟩) := by decide
theorem test_word_rot : decodeIns (word [(124, 5), (120, 1), (109, 1), (106, 2), (101, 3), (89, 4), (78, 0x7FF), (66, 0xFFF)])
    = some (⟨false, false, 0, false⟩, .rot true ⟨1, 2, 3, 4, 0x7FF, 0xFFF⟩) ∧ decodeIns (word [(124, 5), (120, 2), (66, 1)]) = none := by decide
theorem test_word_quant : decodeIns (word [(124, 6), (109, 1), (106, 2), (101, 3), (89, 4), (78, 5)])
    = some (⟨false, false, 0, false⟩, .quant ⟨1, 2, 3, 4, 5, 0⟩) ∧ decodeIns (word [(124, 6), (66, 1)]) = none := by decide
theorem test_word_red : decodeIns (word [(124, 7), (120, 4), (109, 1), (106, 2), (101, 3), (89, 4), (69, 5), (68, 1)])
    = some (⟨false, false, 0, false⟩, .red .amax ⟨1, 2, 3, 4, 5, 1, 0, 0⟩) ∧ decodeIns (word [(124, 7), (120, 8)]) = none := by decide
theorem test_word_vec : decodeIns (word [(124, 8), (120, 3), (109, 1), (106, 2), (100, 4), (95, 30), (83, 6), (63, 7), (61, 3), (56, 9),
      (54, 1), (52, 2), (36, 0x1234)])
    = some (⟨false, false, 0, false⟩, .vec .fma ⟨1, 2, 0, 4, 30, 6, 7, 3, 9, 1, 2, 0x1234⟩)
    ∧ decodeIns (word [(124, 8), (95, 31)]) = none := by decide
theorem test_word_rung : decodeIns (word [(124, 9), (107, 31), (91, 0x8001)]) = some (⟨false, false, 0, false⟩, .rung 31 0x8001) := by decide
theorem test_word_coll : decodeIns (word [(124, 10), (120, 1), (108, 15), (105, 1), (102, 2), (90, 0xFFF)])
    = some (⟨false, false, 0, false⟩, .coll .reduceScatter ⟨15, 1, 2, 0xFFF⟩) ∧ decodeIns (word [(124, 10), (120, 9)]) = none := by decide
theorem test_word_sync : decodeIns (word [(124, 11), (110, 1)]) = some (⟨false, false, 0, false⟩, .fence true)
    ∧ decodeIns (word [(124, 11), (110, 2)]) = none
    ∧ decodeIns (word [(124, 11), (120, 2), (96, 0x8001)]) = some (⟨false, false, 0, false⟩, .waitc 0x8001)
    ∧ decodeIns (word [(124, 11), (120, 3), (96, 0)]) = none ∧ decodeIns (word [(124, 12)]) = none := by decide

/-! ### Ill-formed commands: a term for each check, which the check refuses -/

theorem test_ill_qref : (QRef.admin 256).wf = false ∧ (QRef.ctx 4096 0).wf = false ∧ (QRef.ctx 0 8).wf = false := by decide
theorem test_ill_sub : (Sub.mk (.admin 0) 0x10000 false).wf = false ∧ (Sub.mk (.admin 256) 0 false).wf = false := by decide
theorem test_ill_hdr : (Hdr.mk true false 32 false).wf = false ∧ (Hdr.mk false true 0 false).wf = false ∧ (Hdr.mk false false 1 false).wf = false := by
  decide
theorem test_ill_open : ({ (default : OpenF) with queues := 256 }).wf = false ∧ ({ (default : OpenF) with pasid := 2 ^ 20 }).wf = false
    ∧ ({ (default : ReclaimF) with token := 2 ^ 128 }).wf = false ∧ ({ (default : ReclaimF) with ctx := 2 ^ 16 }).wf = false := by decide
theorem test_ill_bodies : ({ (default : MapF) with loc := 256 }).wf = false ∧ ({ (default : SetF) with length := 2 ^ 32 }).wf = false
    ∧ ({ (default : QueryF) with buffer := 2 ^ 64 }).wf = false ∧ (Req.port 2).wf = false ∧ (Req.core 102).wf = false := by decide
theorem test_ill_ins : (Ins.li 8 true 0).wf = false ∧ (Ins.alu ⟨0, 0, 0, false, 13, 0⟩).wf = false ∧ (Ins.br ⟨7, 0, 0, 0⟩).wf = false
    ∧ (Ins.mova 8 0).wf = false ∧ (Ins.movs 0 8).wf = false ∧ (Ins.flags 32 true).wf = false ∧ (Ins.time 0 3).wf = false
    ∧ (Ins.epiReset 16).wf = false ∧ (Ins.rung 32 0).wf = false ∧ (Ins.waitc 0).wf = false ∧ (Ins.waitt 0x10000).wf = false := by decide
theorem test_ill_data : (Ins.copy ⟨0, 0, 29, 0, 0, 0⟩).wf = false ∧ (Ins.copy ⟨0, 0, 0, 0, 0, 1⟩).wf = false
    ∧ (Ins.fold .dot ⟨0, 0, 0, 0, 27, 0, 0, 0, 0, 0⟩).wf = false ∧ (Ins.fold .dot ⟨0, 0, 0, 0, 0, 0, 0, 0, 0, 1153⟩).wf = false
    ∧ (Ins.pre .self ⟨0, 1, 0⟩).wf = false ∧ (Ins.epiArith ⟨0, 3, 0, 0, 0, 0, 0, 0, 0⟩).wf = false
    ∧ (Ins.epiTap ⟨0, 3, 0, false, 0, false, 0, 0, false, 0, 0⟩).wf = false ∧ (Ins.rot false ⟨0, 0, 0, 0, 0, 0⟩).wf = false
    ∧ (Ins.quant ⟨0, 0, 0, 0, 0, 1⟩).wf = false ∧ (Ins.red .stats ⟨1, 0, 0, 0, 0, 0, 0, 0⟩).wf = false
    ∧ (Ins.vec .add ⟨0, 0, 0, 1, 0, 0, 0, 0, 0, 0, 0, 0⟩).wf = false ∧ (Ins.coll .barrier ⟨0, 1, 0, 0⟩).wf = false := by decide
theorem test_ill_units : (Instr.portDown 64).wf = false ∧ (Instr.laneTest 0 4 0 false).wf = false ∧ (Instr.perstAssert 2 0).wf = false
    ∧ (Instr.ctrlNop 4096 0 default).wf = false ∧ (Instr.ctrlNop 0 16 default).wf = false ∧ (Instr.ctrlTime 0 0 default 0 3).wf = false
    ∧ (Instr.pause ⟨.ctx 0 8, 0, false⟩).wf = false ∧ (Instr.close ⟨.ctx 0 0, 0, false⟩ 0x10000).wf = false := by decide

/-! ### The manual's worked values -/

/-- Chapter 02's ledger example: 2^127 + 2^127 − 2^127 rounds to 2^127, without a flag. -/
theorem test_ledger : ((((Ledger.empty.add32 0x7F000000).1.add32 0x7F000000).1.add32 0xFF000000).1).round32 = (0x7F000000, Flags.none) := by decide
/-- Chapter 02's worked conversions. -/
theorem test_convert : convert .t2 .rne 0 (v32 0xBF333333) = (3, Flags.NX) ∧ convert .int2 .rne 0 (v32 0x3FC00000) = (1, Flags.OFNX)
    ∧ convert .int4 .rne 0 (v32 0x41100000) = (7, Flags.OFNX) ∧ convert .uint4 .rne 0 (v32 0xBF800000) = (0, Flags.OFNX)
    ∧ convert .int8 .rne 0 (v32 0xC0200000) = (0xFE, Flags.NX) ∧ convert .int8 .sr 0x30000000 (v32 0x40A80000) = (6, Flags.NX)
    ∧ convert .fp4 .rne 0 (v32 0x40200000) = (4, Flags.NX) ∧ convert .fp4 .rne 0 (v32 0xC0E00000) = (0xF, Flags.OFNX) := by decide +kernel
theorem test_convert_float : convert .e4m3 .rne 0 (v32 0x3E99999A) = (0x2A, Flags.NX) ∧ convert .e4m3 .rne 0 (v32 0x43FA0000) = (0x7E, Flags.OFNX)
    ∧ convert .e4m3 .rtz 0 (v32 0x7FC00000) = (0x7F, Flags.NV) ∧ convert .e5m2 .rne 0 (v32 0x476A6000) = (0x7B, Flags.NX)
    ∧ convert .e5m2 .rtz 0 (v32 0x4788B800) = (0x7B, Flags.OFNX) ∧ convert .e8m0 .rne 0 (v32 0x3F400000) = (0x7E, Flags.NX)
    ∧ convert .bf16 .rne 0 (v32 0x3F808000) = (0x3F80, Flags.NX) ∧ convert .fp16 .rne 0 (v32 0x477FF000) = (0x7C00, Flags.OFNX)
    ∧ convert .fp16 .rne 0 (v32 0x33000000) = (0, Flags.UFNX)
    ∧ convert .fp32 .rne 0 (decode .fp64 0x3FF0000010000001) = (0x3F800001, Flags.NX) := by decide +kernel
/-- Chapter 04's spans of 256 chunks in 12 pieces. -/
theorem test_spans : ((List.range 12).map (spanStart false 8 256 32 12)) = [0, 21, 42, 64, 85, 106, 128, 149, 170, 192, 213, 234] := by decide
/-- Chapter 01's worked numbering: logical carrel 700 is carrel 4 of bay 58, physical carrel 758. -/
theorem test_numbering : bayOfCarrel 700 = 58 ∧ physOf State.reset 700 = 758 := by decide +kernel

/-! ### Cores that are down, reserves -/

/-- An OPEN in the ring waits while the keeper is down, and only then (R597). -/
theorem open_waits_witness :
    (let s := { fetching ([0x01] ++ zeros 63) with fw := { up.fw with cores := [] } }
     getQueue s (.ctx 0 0) = some queue1 ∧ waitsKeeper s (.ctx 0 0) queue1 = true)
    ∧ waitsKeeper (fetching ([0x01] ++ zeros 63)) (.ctx 0 0) queue1 = false := by decide +kernel
/-- A reserve that has adopted 1 loses the buddy 2 before the stream of job 7 has come: it refuses the takeover (R520). -/
theorem test_buddy_lost :
    (let s := { adopting standby0 with fabric := { (adopting standby0).fabric with buddies := [2] } }
     (s.fabric.adopted = some 1 ∧ 2 ∈ s.fabric.buddies ∧ (∃ q ∈ s.fabric.points, standbyFor s q.2.1 = true))
     ∧ (buddyLost s 2).out = [.flood 2 [1, 7]] ∧ (buddyLost s 3).out = []) := by decide +kernel
/-- A reserve sends by any member of its range; a message to a member of the range by that member (R459). -/
theorem test_reserve_routes : minimalHops reserve0 [] 0 0x105 = (List.range 16) ∧ minimalHops reserve0 [] 0 5 = [5]
    ∧ minimalHops { reserve0 with host := { reserve0.host with address := some 0x20 } } [] 0x20 0x25 = [0x25] := by decide +kernel

/-- The flash of a new device: copy 0 of the boot control block stands, copy 1 is erased (R575, R576). -/
theorem test_flash : (BootCtl.ofBytes State.reset.fw.ctl0).isSome = true ∧ BootCtl.ofBytes State.reset.fw.ctl1 = none ∧ ((List.range 4).map (flashByte State.reset)) = [0x49, 0x5A, 0x43, 0x4C]
    ∧ flashByte State.reset 0x1000 = 0xFF ∧ flashByte State.reset 0x10000 = 0 := by decide +kernel
/-- A detour entry is valid, with its reserve, generation and coordinate (R460). -/
theorem test_detour_word : detourWord (detourStep up (.add 0x9025 0x89020)) 0x902 = 0x8008902000019025 := by decide +kernel
/-- A handover body: a critical entry of 4 bytes fills 8, one of 5 fills 16. -/
theorem test_hand_entries : handEntries 3 ([0x01, 0x80, 4, 0, 9, 0, 0, 0] ++ [2, 0, 5, 0, 1, 0, 0, 0, 1] ++ zeros 7)
    = [(0x8001, 9), (2, 0x100000001)] := by decide +kernel

end Sys2Proof.Tests
end

section
/-! Ledgers as a commutative monoid (R45–R48): adding a term is combining with the ledger of that term alone, so whatever holds of
combining holds of sums of terms; and a ledger's image holds all its bits. -/

namespace Sys2Proof.Machine

/-! ### Combining -/

theorem Ledger.combine_comm (a b : Ledger) : a.combine b = b.combine a := by
  simp only [Ledger.combine, BitVec.add_comm, Bool.or_comm]

theorem Ledger.combine_assoc (a b d : Ledger) : (a.combine b).combine d = a.combine (b.combine d) := by
  simp only [Ledger.combine, BitVec.add_assoc, Bool.or_assoc]

@[simp] theorem Ledger.combine_empty (a : Ledger) : a.combine Ledger.empty = a := by
  simp [Ledger.combine, Ledger.empty]

theorem Ledger.combine_right_comm (a b d : Ledger) : (a.combine b).combine d = (a.combine d).combine b := by
  rw [combine_assoc, combine_comm b d, combine_assoc]

theorem Ledger.combine_l_toNat (a b : Ledger) : (a.combine b).l.toNat = (a.l.toNat + b.l.toNat) % 2 ^ 320 := by
  simp only [combine, BitVec.toNat_add]

/-! ### Terms -/

/-- The ledger of one FP32 term. -/
def Ledger.ofTerm (v : Nat) : Ledger := (Ledger.empty.add32 v).1

/-- Subtracting a negative term's magnitude is adding its complement, so every kind of term acts by combination. -/
theorem Ledger.add32_eq_combine (a : Ledger) (v : Nat) : (a.add32 v).1 = a.combine (ofTerm v) := by
  unfold ofTerm add32
  cases v32 v with
  | nan => simp [combine, empty]
  | inf neg => cases neg <;> simp [combine, empty]
  | fin neg num den e => cases neg <;> simp [combine, empty, BitVec.sub_eq_add_neg]

theorem Ledger.combine_add32 (a b : Ledger) (v : Nat) : ((a.combine b).add32 v).1 = a.combine (b.add32 v).1 := by
  rw [add32_eq_combine, add32_eq_combine, combine_assoc]

theorem Ledger.add32_right_comm (a : Ledger) (v w : Nat) : ((a.add32 v).1.add32 w).1 = ((a.add32 w).1.add32 v).1 := by
  simp only [add32_eq_combine, combine_right_comm a (ofTerm v)]

/-! ### Images -/

theorem leNat_leBytes (n v : Nat) : leNat (leBytes n v) = v % 256 ^ n := by
  induction n generalizing v with
  | zero => simp [leBytes, leNat, Nat.mod_one]
  | succ n ih => rw [leBytes, leNat, ih, BitVec.toNat_ofNat, Nat.pow_succ' (n := n), Nat.mod_mul]

/-- Byte 40 of an image, for its three state bits (R48). -/
def stateByte (nan pinf ninf : Bool) : Byte :=
  BitVec.ofNat 8 ((if nan then 1 else 0) + (if pinf then 2 else 0) + (if ninf then 4 else 0))

theorem stateByte_bits : ∀ nan pinf ninf : Bool, (stateByte nan pinf ninf).getLsbD 0 = nan
    ∧ (stateByte nan pinf ninf).getLsbD 1 = pinf ∧ (stateByte nan pinf ninf).getLsbD 2 = ninf := by
  decide

theorem Ledger.image_take (a : Ledger) : a.image.take 40 = leBytes 40 a.l.toNat := by
  rw [image, List.append_assoc, List.take_left' (leBytes_length _ _)]

theorem Ledger.image_drop (a : Ledger) : a.image.drop 40 = stateByte a.nan a.pinf a.ninf :: List.replicate 7 0 := by
  rw [image, List.append_assoc, List.drop_left' (leBytes_length _ _)]; rfl

theorem Ledger.ofImage_image (a : Ledger) : ofImage a.image = a := by
  obtain ⟨hnan, hpinf, hninf⟩ := stateByte_bits a.nan a.pinf a.ninf
  have hl : BitVec.ofNat 320 (leNat (leBytes 40 a.l.toNat)) = a.l := by
    rw [leNat_leBytes, Nat.mod_eq_of_lt (by have := a.l.isLt; omega), BitVec.ofNat_toNat, BitVec.setWidth_eq]
  simp only [ofImage, image_take, image_drop, List.headD_cons, hl, hnan, hpinf, hninf]

/-! ### The obligation -/

/-- Settles O21: combination is a commutative monoid on ledgers and a term acts by combination, so terms exchange. -/
theorem ledgerAlgebra : Obligations.LedgerAlgebra := by
  refine ⟨fun l a b h => h.foldl_eq' (fun v _ w _ l => l.add32_right_comm v w) l, fun a b d v => ?_⟩
  exact ⟨a.combine_assoc b d, a.combine_comm b, a.combine_empty, a.combine_add32 b v, a.ofImage_image, a.combine_l_toNat b, rfl, rfl, rfl⟩

end Sys2Proof.Machine
end

section
/-! How an instruction at issue settles, by what its body answers; and what a change of a stream's registers leaves (R199, R200, R204, R205). -/

namespace Sys2Proof.Machine

/-! ### Settling -/

variable {s : State} {c st : Nat} {h : Hdr} {i : Ins} {p : At}

/-- Where an instruction only goes to word `n`. -/
theorem issue_done (r : Ready s c st h i p) {body : At → Iss} {n : Nat} (hb : body p = .done p.s n) :
    issue s c st h i body = putStream p { p.t with pc := n, waiting := false } := by
  rw [issue_ready r, hb, settle_next r.here]

/-- Where an instruction changes its stream alone, by `f`. -/
theorem issue_setStream (r : Ready s c st h i p) {body : At → Iss} {f : Stream → Stream} (hb : body p = setStream p f) :
    issue s c st h i body = putStream p { f p.t with pc := p.t.pc + 1, waiting := false } := by
  rw [issue_ready r, hb, setStream, settle_stream r.here]

theorem issue_wait (r : Ready s c st h i p) {body : At → Iss} (hb : body p = .wait) :
    issue s c st h i body = putStream p { p.t with waiting := true } := by
  rw [issue_ready r, hb, settle_wait r.here]

theorem issue_fault (r : Ready s c st h i p) {body : At → Iss} {f : XFault} (hb : body p = .fault f) :
    issue s c st h i body = recordFault s c st p.t.pc p.w p.t.issue f := by
  obtain ⟨rfl, rfl, rfl, -⟩ := issueAt_spec r.here
  rw [issue_ready r, hb, settle]

/-! ### Registers -/

/-- A written register and the next word do not meet. -/
theorem setReg_nextWord (p : At) (rd v : Nat) :
    { p.t.setReg rd v with pc := p.t.pc + 1, waiting := false } = (nextWord p).setReg rd v := by
  unfold Stream.setReg; split <;> rfl

/-- An instruction whose one effect is a write of s[rd]. -/
theorem issue_setReg (r : Ready s c st h i p) {body : At → Iss} {f : Stream → Stream} {rd v : Nat} (hb : body p = setStream p f)
    (hf : f p.t = p.t.setReg rd v) : issue s c st h i body = putStream p ((nextWord p).setReg rd v) := by
  rw [issue_setStream r hb, hf, setReg_nextWord]

/-- An instruction whose one effect is a write of a[rd]. -/
theorem issue_setAddr (r : Ready s c st h i p) {body : At → Iss} {f : Stream → Stream} {rd v : Nat} (hb : body p = setStream p f)
    (hf : f p.t = p.t.setAddr rd v) : issue s c st h i body = putStream p ((nextWord p).setAddr rd v) := by
  rw [issue_setStream r hb, hf]; rfl

@[simp] theorem Stream.setReg_zero (t : Stream) (v : Nat) : t.setReg 0 v = t := if_pos rfl
@[simp] theorem Stream.reg_zero (t : Stream) : t.reg 0 = 0 := if_pos rfl
@[simp] theorem Stream.setReg_a (t : Stream) (r v : Nat) : (t.setReg r v).a = t.a := by unfold setReg; split <;> rfl
@[simp] theorem Stream.setAddr_s (t : Stream) (r v : Nat) : (t.setAddr r v).s = t.s := rfl

theorem Stream.reg_setReg_same (t : Stream) {r : Nat} (v : Nat) (h0 : 0 < r) (hr : r < t.s.length) :
    (t.setReg r v).reg r = v % 2 ^ 64 := by
  simp [setReg, reg, Nat.pos_iff_ne_zero.1 h0, hr]

theorem Stream.reg_setReg_other (t : Stream) {r q : Nat} (v : Nat) (h : q ≠ r) : (t.setReg r v).reg q = t.reg q := by
  unfold setReg
  split
  · rfl
  · simp [reg, List.getElem?_set_ne h.symm]

theorem Stream.addr_setAddr_same (t : Stream) {r : Nat} (v : Nat) (hr : r < t.a.length) : (t.setAddr r v).addr r = v % 2 ^ 32 := by
  simp [setAddr, addr, hr]

theorem Stream.addr_setAddr_other (t : Stream) {r q : Nat} (v : Nat) (h : q ≠ r) : (t.setAddr r v).addr q = t.addr q := by
  simp [setAddr, addr, List.getElem?_set_ne h.symm]

end Sys2Proof.Machine
end

section
/-! The scalar instructions: the 64-bit arithmetic of the ALU and of BR, and what each instruction leaves (R200, R209, R211). -/

namespace Sys2Proof.Machine

/-! ### Two's complement on 64 bits -/

theorem sext64_range (v : Nat) : -2 ^ 63 ≤ sext 64 v ∧ sext 64 v < 2 ^ 63 := by
  unfold sext; split <;> omega

/-- A signed 64-bit value reads back from its code. -/
theorem sext64_twos (i : Int) (lo : -2 ^ 63 ≤ i) (hi : i < 2 ^ 63) : sext 64 (twos 64 i) = i := by
  unfold sext twos; split <;> omega

theorem sext64_mod (v : Nat) : sext 64 (v % 2 ^ 64) = sext 64 v := by
  unfold sext; rw [Nat.mod_mod]

/-- A signed value shifted right keeps its range. -/
theorem sext64_shift_range (a k : Nat) : -2 ^ 63 ≤ sext 64 a / 2 ^ k ∧ sext 64 a / 2 ^ k < 2 ^ 63 := by
  obtain ⟨lo, hi⟩ := sext64_range a
  have hk : (1 : Int) ≤ 2 ^ k := one_le_pow₀ (by norm_num)
  rw [Int.le_ediv_iff_mul_le (by omega), Int.ediv_lt_iff_lt_mul (by omega)]
  constructor <;> nlinarith

/-! ### The ALU -/

/-- Subtraction is what addition undoes. -/
theorem aluFn_sub_add (a b : Nat) (ha : a < 2 ^ 64) : (aluFn 1 a b + b) % 2 ^ 64 = a := by
  simp only [aluFn]; omega

theorem aluFn_and (a b : Nat) (hb : b < 2 ^ 64) : aluFn 3 a b = a &&& b := Nat.mod_eq_of_lt (Nat.and_lt_two_pow a hb)
theorem aluFn_or (a b : Nat) (ha : a < 2 ^ 64) (hb : b < 2 ^ 64) : aluFn 4 a b = a ||| b := Nat.mod_eq_of_lt (Nat.or_lt_two_pow ha hb)
theorem aluFn_xor (a b : Nat) (ha : a < 2 ^ 64) (hb : b < 2 ^ 64) : aluFn 5 a b = a ^^^ b := Nat.mod_eq_of_lt (Nat.xor_lt_two_pow ha hb)
theorem aluFn_shr (a b : Nat) (ha : a < 2 ^ 64) : aluFn 7 a b = a / 2 ^ (b % 64) :=
  Nat.mod_eq_of_lt (Nat.lt_of_le_of_lt (Nat.div_le_self _ _) ha)

theorem sext_aluFn_sra (a b : Nat) : sext 64 (aluFn 8 a b) = sext 64 a / 2 ^ (b % 64) := by
  obtain ⟨lo, hi⟩ := sext64_shift_range a (b % 64)
  exact (sext64_mod _).trans (sext64_twos _ lo hi)

/-- A comparison's result is the bit of its condition. -/
theorem b2n_mod (q : Prop) [Decidable q] : b2n (decide q) % 2 ^ 64 = if q then 1 else 0 := by
  by_cases h : q <;> simp [b2n, h]

theorem sext_aluFn_min (a b : Nat) : sext 64 (aluFn 11 a b) = min (sext 64 a) (sext 64 b) := by
  rw [show aluFn 11 a b = (if s64 a ≤ s64 b then a else b) % 2 ^ 64 from rfl, sext64_mod, apply_ite (sext 64), min_def]; rfl

theorem sext_aluFn_max (a b : Nat) : sext 64 (aluFn 12 a b) = max (sext 64 a) (sext 64 b) := by
  rw [show aluFn 12 a b = (if s64 b ≤ s64 a then a else b) % 2 ^ 64 from rfl, sext64_mod, apply_ite (sext 64), max_comm, max_def]; rfl

/-! ### The obligation -/

/-- Settles O3: each instruction is a change of its stream alone; the ALU's results lie below 2^64 where the function itself does. -/
theorem scalarInstructions : Obligations.ScalarInstructions := by
  refine ⟨fun s c st h p => ⟨fun r => ?nop, fun rd imm r => ?li, fun rd imm r => ?lia, fun f r => ?alu, fun f r => ?br, fun ad rs r => ?mova,
    fun rd as r => ?movs, fun rd r hv => ?now, fun rd r => ?step, fun rd r => ?index⟩, fun a b ha hb => ?fns, fun t r q v => ?regs⟩
  case nop => exact congrArg _ (issue_done r rfl)
  case li => exact congrArg _ (issue_setReg r rfl rfl)
  case lia => exact congrArg _ (issue_setAddr r rfl rfl)
  case alu => exact congrArg _ (issue_setReg r rfl rfl)
  case br => exact congrArg _ (issue_done r rfl)
  case mova => exact congrArg _ (issue_setAddr r rfl rfl)
  case movs => exact congrArg _ (issue_setReg r rfl rfl)
  case now =>
    obtain ⟨hs, -⟩ := issueAt_spec r.here
    exact congrArg _ (issue_setReg r (if_neg (by simp [hv])) (by rw [if_pos rfl, hs]))
  case step => exact congrArg _ (issue_setReg r (if_neg (by simp)) rfl)
  case index => exact congrArg _ (issue_setReg r (if_neg (by simp)) rfl)
  case fns =>
    exact ⟨rfl, aluFn_sub_add a b ha, rfl, aluFn_and a b hb, aluFn_or a b ha hb, aluFn_xor a b ha hb, rfl, aluFn_shr a b ha,
      sext_aluFn_sra a b, b2n_mod _, b2n_mod _, sext_aluFn_min a b, sext_aluFn_max a b, beq_iff_eq, bne_iff_ne, decide_eq_true_iff,
      decide_eq_true_iff, decide_eq_true_iff, decide_eq_true_iff, rfl⟩
  case regs =>
    exact ⟨⟨t.setReg_zero v, t.reg_zero⟩, t.reg_setReg_same v, t.reg_setReg_other v, t.addr_setAddr_same v, t.addr_setAddr_other v,
      t.setReg_a r v, t.setAddr_s r v⟩

end Sys2Proof.Machine
end

section
/-! FENCE, WAITT, WAITC and END (R229, R231, R233): what the slots that a stream waits on say, and what becomes of freed ones. -/

namespace Sys2Proof.Machine

/-! ### Slots -/

@[simp] theorem mem_maskList {m k : Nat} : k ∈ maskList m ↔ k < 16 ∧ bitOf m k = true := by simp [maskList]

theorem slotsOpen_iff {t : Stream} {ks : List Nat} :
    slotsOpen t ks = true ↔ ∃ k ∈ ks, (t.slot k).busy = true ∧ (t.slot k).status = none := by
  simp [slotsOpen]

theorem slotsOpen_eq_false {t : Stream} {ks : List Nat} (h : ∀ k ∈ ks, (t.slot k).busy = true → (t.slot k).status ≠ none) :
    slotsOpen t ks = false := by
  rw [← Bool.not_eq_true, slotsOpen_iff]
  exact fun ⟨k, hk, hb, hs⟩ => h k hk hb hs

theorem slotFault_eq_none {t : Stream} {ks : List Nat}
    (h : ∀ k ∈ ks, (t.slot k).busy = true → (t.slot k).status = some .success) : slotFault t ks = none := by
  have hf : ks.find? (fun k => (t.slot k).busy && (t.slot k).status != some .success) = none := by
    simpa using h
  simp only [slotFault, hf]

/-- The fault of the lowest named slot that did not end in success. -/
theorem slotFault_maskList {t : Stream} {m k : Nat} {e : Status} (hk : k < 16) (hm : bitOf m k = true) (hb : (t.slot k).busy = true)
    (hs : (t.slot k).status = some e) (he : e ≠ .success)
    (low : ∀ j < k, bitOf m j = true → (t.slot j).busy = true → (t.slot j).status = some .success) :
    slotFault t (maskList m) = some ⟨e, 0, (t.slot k).detail⟩ := by
  have hf : (maskList m).find? (fun k => (t.slot k).busy && (t.slot k).status != some .success) = some k := by
    rw [maskList, List.find?_filter, List.find?_range_eq_some]
    exact ⟨by simp [hm, hb, hs, he], List.mem_range.2 hk, by simpa [or_iff_not_imp_left] using low⟩
  simp only [slotFault, hf, hs]

/-! ### Freed slots -/

theorem Stream.slot_setSlot_same {t : Stream} {k : Nat} (v : Slot) (hk : k < t.slots.length) : (t.setSlot k v).slot k = v := by
  simp [setSlot, slot, hk]

theorem Stream.slot_setSlot_other {t : Stream} {k q : Nat} (v : Slot) (h : q ≠ k) : (t.setSlot k v).slot q = t.slot q := by
  simp [setSlot, slot, List.getElem?_set_ne h.symm]

theorem freeSlots_slots_length (t : Stream) (ks : List Nat) : (freeSlots t ks).slots.length = t.slots.length := by
  induction ks generalizing t with
  | nil => rfl
  | cons q ks ih => exact (ih _).trans List.length_set

theorem slot_freeSlots_of_notMem {t : Stream} {ks : List Nat} {k : Nat} (h : k ∉ ks) : (freeSlots t ks).slot k = t.slot k := by
  induction ks generalizing t with
  | nil => rfl
  | cons q ks ih =>
    rw [List.mem_cons, not_or] at h
    exact (ih h.2).trans (Stream.slot_setSlot_other _ h.1)

theorem slot_freeSlots_of_mem {t : Stream} {ks : List Nat} {k : Nat} (hk : k < t.slots.length) (h : k ∈ ks) :
    (freeSlots t ks).slot k = Slot.free := by
  induction ks generalizing t with
  | nil => cases h
  | cons q ks ih =>
    by_cases hks : k ∈ ks
    · exact ih (hk.trans_eq List.length_set.symm) hks
    · obtain rfl : k = q := (List.mem_cons.1 h).resolve_right hks
      exact (slot_freeSlots_of_notMem hks).trans (Stream.slot_setSlot_same _ hk)

/-- Freed slots and the next word do not meet. -/
theorem freeSlots_goTo (t : Stream) (ks : List Nat) (n : Nat) (b : Bool) :
    { freeSlots t ks with pc := n, waiting := b } = freeSlots { t with pc := n, waiting := b } ks := by
  induction ks generalizing t with
  | nil => rfl
  | cons q ks ih => exact ih (t.setSlot q Slot.free)

/-! ### Waiting on slots -/

variable {s : State} {c st : Nat} {h : Hdr} {i : Ins} {p : At} {body : At → Iss} {ks : List Nat} {after : Stream → Stream}

/-- Every named slot's collective has ended in success: the slots become free and the stream goes on. -/
theorem issue_waitSlots_free (r : Ready s c st h i p) (hb : body p = waitSlots p ks after)
    (ok : ∀ k ∈ ks, (p.t.slot k).busy = true → (p.t.slot k).status = some .success) :
    issue s c st h i body = putStream p { after (freeSlots p.t ks) with pc := p.t.pc + 1, waiting := false } := by
  have ho : slotsOpen p.t ks = false := slotsOpen_eq_false fun k hk hbusy => by simp [ok k hk hbusy]
  refine issue_setStream r (f := fun t => after (freeSlots t ks)) ?_
  simp only [hb, waitSlots, ho, slotFault_eq_none ok, Bool.false_eq_true, if_false]

/-- A named slot's collective is still open: the stream waits. -/
theorem issue_waitSlots_open (r : Ready s c st h i p) (hb : body p = waitSlots p ks after)
    (ho : ∃ k ∈ ks, (p.t.slot k).busy = true ∧ (p.t.slot k).status = none) :
    issue s c st h i body = putStream p { p.t with waiting := true } :=
  issue_wait r (by rw [hb, waitSlots, if_pos (slotsOpen_iff.2 ho)])

/-- All have ended and one is at fault: so is the stream. -/
theorem issue_waitSlots_fault (r : Ready s c st h i p) (hb : body p = waitSlots p ks after)
    (ended : ∀ k ∈ ks, (p.t.slot k).busy = true → (p.t.slot k).status ≠ none) {f : XFault} (hf : slotFault p.t ks = some f) :
    issue s c st h i body = recordFault s c st p.t.pc p.w p.t.issue f :=
  issue_fault r (by simp only [hb, waitSlots, slotsOpen_eq_false ended, hf, Bool.false_eq_true, if_false])

/-! ### The obligation -/

/-- Settles O6: WAITC and END wait on their slots in one way (`waitSlots`), whose three ends are told apart by the slots' endings. -/
theorem waitInstructions : Obligations.WaitInstructions := by
  refine ⟨fun s c st h p => ⟨fun w r hw => ?fence, fun w r hw => ?fenceWaits, fun m r hm => ?waitt, fun m r hm => ?waittWaits⟩,
    fun s c st h p => ⟨fun m r ok => ?waitc, fun r ok => ?ends, fun m k r hk hm hb hs => ?waitcOpen,
      fun m k e r hk hm hb hs he ended low => ?waitcFault, fun t ks k hk => ?slots⟩⟩
  case fence =>
    have none_named : (p.t.window.any fun o => !w || !o.writes.isEmpty) = false := by
      simp only [List.any_eq_false]
      intro o ho
      obtain ⟨rfl, hn⟩ := hw o ho
      simp [hn]
    exact congrArg _ (issue_done r (if_neg (ne_true_of_eq_false none_named)))
  case fenceWaits =>
    have named : (p.t.window.any fun o => !w || !o.writes.isEmpty) = true := by simpa using hw
    exact congrArg _ (issue_wait r (if_pos named))
  case waitt =>
    have idle : ((maskList m).any fun k => (p.t.tile k).busy) = false := by simpa using hm
    exact congrArg _ (issue_done r (if_neg (ne_true_of_eq_false idle)))
  case waittWaits =>
    have busy : ((maskList m).any fun k => (p.t.tile k).busy) = true := by simpa [and_assoc] using hm
    exact congrArg _ (issue_wait r (if_pos busy))
  case waitc =>
    refine congrArg _ ((issue_waitSlots_free r rfl fun k hk => ok k ?_ ?_).trans (congrArg _ (freeSlots_goTo _ _ _ _)))
    · exact (mem_maskList.1 hk).1
    · exact (mem_maskList.1 hk).2
  case ends =>
    refine congrArg _ ((issue_waitSlots_free r rfl fun k hk => ok k (List.mem_range.1 hk)).trans (congrArg _ ?_))
    exact congrArg (fun t : Stream => { t with ended := true }) (freeSlots_goTo p.t _ _ _)
  case waitcOpen => exact congrArg _ (issue_waitSlots_open r rfl ⟨k, mem_maskList.2 ⟨hk, hm⟩, hb, hs⟩)
  case waitcFault =>
    refine congrArg _ (issue_waitSlots_fault r rfl (fun j hj => ?_) (slotFault_maskList hk hm hb hs he low))
    exact ended j (mem_maskList.1 hj).1 (mem_maskList.1 hj).2
  case slots => exact ⟨slot_freeSlots_of_mem hk, slot_freeSlots_of_notMem⟩

end Sys2Proof.Machine
end

section
/-! BAR and BAR_RELEASE (R230). -/

namespace Sys2Proof.Machine

theorem barMet_iff {a : Attempt} {k : Nat} :
    barMet a k = true ↔ ∀ t ∈ a.streams, (t.ended = true ∨ k ≤ t.bars) ∧ (k < t.bars ∨ t.window = []) := by
  simp [barMet]

theorem execBarRelease_met {s : State} {c k : Nat} {x : Ctx} {a : Attempt} (hr : Running s c x a) (hp : a.phase = .program)
    (hs : a.status = .success) (hk : barNext a = some k) (hm : barMet a k = true) :
    execBarRelease c s = .next (setCtx s c { x with att := some { a with streams := a.streams.map (passBar k) } }) := by
  obtain ⟨hx, ha⟩ := hr
  simp [execBarRelease, hx, ha, hp, hs, hk, hm, modAtt, modCtx_of hx, Ctx.modAtt]

theorem execBarRelease_unmet {s : State} {c k : Nat} {x : Ctx} {a : Attempt} (hr : Running s c x a) (hk : barNext a = some k)
    (hm : barMet a k = false) : execBarRelease c s = .next s := by
  obtain ⟨hx, ha⟩ := hr
  simp [execBarRelease, hx, ha, hk, hm]

/-- Settles O7: the release is decided by `barMet`, whose failure is one stream's. -/
theorem barAndRelease : Obligations.BarAndRelease := by
  refine fun s c => ⟨fun st h p r hb => ?bar, fun x a k hr hp hs hk met => ?met, fun x a k hr hk ⟨t, ht, late⟩ => ?unmet⟩
  case bar =>
    obtain ⟨rfl, rfl, rfl, -⟩ := issueAt_spec r.here
    exact congrArg _ ((issue_ready r _).trans ((congrArg _ (if_pos hb)).trans (settle_stream r.here _ _)))
  case met => exact execBarRelease_met hr hp hs hk (barMet_iff.2 met)
  case unmet =>
    refine execBarRelease_unmet hr hk (Bool.eq_false_iff.2 fun met => ?_)
    obtain ⟨reached, idle⟩ := barMet_iff.1 met t ht
    rcases late with ⟨he, hlt⟩ | ⟨hle, hw⟩
    · simp [he] at reached; omega
    · exact idle.elim (by omega) hw

end Sys2Proof.Machine
end

section
/-! The end of a stream beyond its last word, and what recording a fault does (R197, R242–R245). -/

namespace Sys2Proof.Machine

/-- A stream that a fault has stopped. -/
def Stream.halted (t : Stream) : Stream := { t with stopped := true, waiting := false }

variable {s : State} {c st pc word carrel : Nat} {f : XFault} {x : Ctx} {a : Attempt}

/-- What recording a fault makes of a context with a running attempt. -/
theorem recordFault_running (hr : Running s c x a) :
    recordFault s c st pc word carrel f = setCtx s c { x with
      faults := if (tget x.faults st).isSome then x.faults else tset x.faults st
        { word := word, pc := pc, stream := st, status := f.status, check := f.check, detail := f.detail, time := s.now, carrel := carrel,
          step := x.gate.step }
      att := some { a with
        status := if a.status = .success then f.status else a.status
        firstFault := if a.status = .success then s.now else a.firstFault
        streams := a.streams.modify st Stream.halted } } := by
  obtain ⟨hx, ha⟩ := hr
  rw [recordFault, modCtx_of hx, List.modify_eq_set_getElem?]
  simp only [ha, beq_iff_eq]
  cases a.streams[st]? <;> rfl

/-- No stream of a context whose attempt has failed issues (R244). -/
theorem issueAt_of_failed (hr : Running s c x a) (hs : a.status ≠ .success) (k : Nat) (h : Hdr) (i : Ins) :
    issueAt s c k h i = none := by
  refine Option.eq_none_iff_forall_ne_some.2 fun p e => ?_
  obtain ⟨-, -, -, hx, ha, -, -, -, ok, -⟩ := issueAt_spec e
  obtain rfl : x = p.x := Option.some.inj (hr.1.symm.trans hx)
  obtain rfl : a = p.a := Option.some.inj (hr.2.symm.trans ha)
  exact hs ok

theorem fallsThrough_running {t : Stream} (hr : Running s c x a) (hrun : x.ident.st = .running) (hp : a.phase = .program)
    (hs : a.status = .success) (ht : a.streams[st]? = some t) (he : t.ended = false) (hst : t.stopped = false)
    (hw : wordAt x st t.pc = none) : fallsThrough s c st = some (x, t) := by
  obtain ⟨hx, ha⟩ := hr
  simp [fallsThrough, hx, ha, hrun, hp, hs, ht, he, hst, hw]

/-- Settles O8: both parts read off what recording a fault makes of the context (`recordFault_running`). -/
theorem streamFaults : Obligations.StreamFaults := by
  refine ⟨fun s c st x a t hr hrun hp hs ht he hst hw hf => ?epc, fun s c st pc word carrel f x a hr => ?record⟩
  case epc =>
    have h : execStreamFallThrough c st s = .next (recordFault s c st t.pc 0 t.issue ⟨.epc, 0, 0⟩) := by
      simp only [execStreamFallThrough, fallsThrough_running hr hrun hp hs ht he hst hw]
    refine h.trans ?_
    rw [recordFault_running hr, List.modify_eq_set_getElem?, ht, hf, if_pos hs, if_pos hs]
    rfl
  case record =>
    rw [recordFault_running hr]
    refine ⟨_, _, getCtx_setCtx_same _ _ _, rfl, fun r h => ?kept, fun h => ⟨if_neg h, if_neg h⟩, fun h => ⟨if_pos h, if_pos h⟩,
      fun t ht => ?stops, fun k hk => ⟨?streams, ?faults⟩, rfl, rfl, fun d hd => getCtx_setCtx_other _ _ _ _ hd, fun h => ?silent⟩
    case kept => simp [h]
    case stops => simp [ht, Stream.halted]
    case streams => exact List.getElem?_modify_ne _ _ hk.symm
    case faults =>
      dsimp only
      split
      · rfl
      · exact tget_tset_other _ _ _ _ hk
    case silent =>
      refine issueAt_of_failed ⟨getCtx_setCtx_same _ _ _, rfl⟩ ?_
      dsimp only
      split <;> assumption

end Sys2Proof.Machine
end

section
/-! What withholds an instruction, whatever it is (R204, R205, R235, R237, R238): every command that issues a carrel instruction issues
it through `issue`, with a body that waits on a busy tile and on the window. -/

namespace Sys2Proof.Machine

/-- The instruction configures or takes the tile `k`. -/
def NamesTile (n : Ins) (k : Nat) : Prop :=
  (∃ o f, n = .pre o f ∧ f.tile = k) ∨ (∃ f, n = .epiArith f ∧ f.tile = k) ∨ (∃ f, n = .epiTap f ∧ f.tile = k) ∨ n = .epiReset k
    ∨ ∃ o f, n = .fold o f ∧ f.tile = k

/-- A body of the instruction `n` that waits while a tile that `n` names is busy (R237), and while `n` cannot enter the window (R235, R238). -/
structure Withholds (n : Ins) (body : At → Iss) : Prop where
  tile : ∀ p k, NamesTile n k → (p.t.tile k).busy = true → body p = .wait
  window : ∀ p reads writes, opCalls n p = some (reads, writes) → p.clear reads writes = false → body p = .wait

/-! ### The bodies -/

variable {n : Ins} {body : At → Iss} {reads writes : At → List Nat}

/-- An instruction that names no tile and is no operation of the window need not wait. -/
theorem withholds_none (ht : ∀ k, ¬ NamesTile n k) (hc : ∀ p, opCalls n p = none) (body : At → Iss) : Withholds n body :=
  ⟨fun _ k h => absurd h (ht k), fun p _ _ h => by simp [hc p] at h⟩

/-- A body that waits first for the window, as the data operations do. -/
theorem withholds_window (ht : ∀ k, ¬ NamesTile n k) (hc : ∀ p, opCalls n p = some (reads p, writes p))
    (hb : ∀ p, p.clear (reads p) (writes p) = false → body p = .wait) : Withholds n body := by
  refine ⟨fun _ k h => absurd h (ht k), fun p rd wr h hw => hb p ?_⟩
  obtain ⟨rfl, rfl⟩ := Prod.mk.inj (Option.some.inj ((hc p).symm.trans h))
  exact hw

/-- A data operation waits for the window. -/
theorem runOp_wait {p : At} {bad : Option XFault} {rd wr set : List Nat} {vec : Bool} {work : At → Work} (h : p.clear rd wr = false) :
    runOp p bad rd wr vec work set = .wait := by
  simp [runOp, h]

/-- PRE and EPI wait for their tile. -/
theorem configTile_wait {p : At} {k : Nat} (h : (p.t.tile k).busy = true) (f : Tile → Tile) : configTile p k f = .wait := if_pos h

theorem withholds_config {k : Nat} {f : At → Tile → Tile} (ht : ∀ q, NamesTile n q → q = k) (hc : ∀ p, opCalls n p = none) :
    Withholds n fun p => configTile p k (f p) := by
  refine ⟨fun p q h hb => configTile_wait ?_ _, fun p _ _ h => by simp [hc p] at h⟩
  rw [← ht q h]; exact hb

/-- FOLD waits for its tile and for the window. -/
theorem withholds_fold (o : FoldOp) (f : FoldF) : Withholds (.fold o f) (issueFold o f) := by
  refine ⟨fun p k h hb => ?_, fun p rd wr h hw => ?_⟩
  · obtain rfl : f.tile = k := by simpa [NamesTile] using h
    simp [issueFold, hb]
  · obtain ⟨rfl, rfl⟩ := Prod.mk.inj (Option.some.inj h)
    simp [issueFold, hw]

/-! ### Every command that issues -/

/-- A command that issues `n` runs `issue` with a body of `n` that waits where R235, R237 and R238 have it wait. -/
theorem exec_issues {i : Instr} {c st : Nat} {h : Hdr} {n : Ins} (e : i.ins? = some (c, st, h, n)) :
    ∃ body, Withholds n body ∧ ∀ s, exec i s = .next (issue s c st h n body) := by
  cases i
  case ctrlNop | ctrlLi | ctrlAlu | ctrlBr | ctrlMova | ctrlMovs | ctrlFlags | ctrlTime | ctrlEnd | moveStage | watchRung
      | syncFence | syncBar | syncWaitc | syncWaitt
      | collAllReduce | collReduceScatter | collAllGather | collBroadcast | collAllToAll | collBarrier | collNormReduce
      | collTokenDispatch | collTokenCombine =>
    cases e; exact ⟨_, withholds_none (by simp [NamesTile]) (fun _ => rfl) _, fun _ => rfl⟩
  case preZero | preBrow | preBcol | preRes | preSelf | epiArith | epiTap | epiReset =>
    cases e; exact ⟨_, withholds_config (by simp [NamesTile]) (fun _ => rfl), fun _ => rfl⟩
  case foldDot | foldL1 | foldL2 | foldMaxp | foldMinp | foldXpop =>
    cases e; exact ⟨_, withholds_fold _ _, fun _ => rfl⟩
  case moveCopy | moveFill | rotFwd | rotInv | qntQuant | qntDeq
      | redSum | redSumsq | redMax | redMin | redAmax | redStats | redLadd | redFadd
      | vecAdd | vecSub | vecMul | vecFma | vecMax | vecMin | vecCvt | vecExp | vecRcp | vecRsqrt | vecSplit | vecMerge =>
    cases e; exact ⟨_, withholds_window (by simp [NamesTile]) (fun _ => rfl) (fun _ hw => runOp_wait hw), fun _ => rfl⟩
  all_goals cases e

/-! ### The window -/

/-- A full window lets nothing enter, nor does an earlier operation that conflicts. -/
theorem clear_eq_false {p : At} {rd wr : List Nat}
    (h : 32 ≤ p.t.window.length ∨ ∃ o ∈ p.t.window, (∃ k ∈ o.writes, k ∈ rd ∨ k ∈ wr) ∨ (stillReads p.a o = true ∧ ∃ k ∈ o.reads, k ∈ wr)) :
    p.clear rd wr = false := by
  rw [At.clear, Bool.and_eq_false_iff]
  refine h.imp (fun full => by simpa using full) fun conflict => ?_
  simpa [hazard] using conflict

/-! ### The obligation -/

/-- Settles O5: whatever the command, it is `issue` of a body that withholds. -/
theorem withheld : Obligations.Withheld := by
  refine ⟨fun s i c st h n p e here hpe hps => ?skipped, fun s i c st h n p e here hp hf hw => ?fenced,
    fun s i c st h n p k e r ht hb => ?tile, fun s i c st h n p rd wr e r hc hw => ?window⟩ <;>
    obtain ⟨body, hbody, hexec⟩ := exec_issues e <;> rw [hexec]
  case skipped =>
    have off : predOk h p.t = false := by
      rw [predOk, hpe, Bool.not_true, Bool.false_or, bne_eq_false_iff_eq, Bool.eq_iff_iff, bne_iff_ne]
      exact hps
    rw [issue_skipped here off]
  case fenced => rw [issue_fenced here hp hf hw]
  case tile => rw [issue_wait r (hbody.tile p k ht hb)]
  case window => rw [issue_wait r (hbody.window p rd wr hc (clear_eq_false hw))]

end Sys2Proof.Machine
end

section
/-! What of a context stands through everything that follows the end of an attempt: completions, transcript records, written tensors,
collectives, and the RUN_STEP, RESHARD and CHECKPOINT that waited for it. The counters of its gate with the loss scale, its report, and
whether an attempt runs (R356, R370, R372, R373). -/

namespace Sys2Proof.Machine

/-- What stands of a context: its gate but for the epoch and the carry sets, its report, and whether an attempt runs. -/
structure Standing where
  gate : Gate
  report : Option Report
  runs : Bool

def Ctx.standing (x : Ctx) : Standing := ⟨{ x.gate with epoch := 0, carry := [], owed := [] }, x.report, x.att.isSome⟩

/-- What stands of the context `c`, if there is one. -/
def standing (s : State) (c : Nat) : Option Standing := (getCtx s c).map Ctx.standing

variable {s t : State} {c d : Nat} {x y : Ctx}

/-! ### The rules -/

theorem standing_of (h : getCtx s c = some x) : standing s c = some x.standing := by rw [standing, h, Option.map_some]

theorem exists_of_standing {v : Standing} (h : standing s c = some v) : ∃ y, getCtx s c = some y ∧ y.standing = v :=
  Option.map_eq_some_iff.1 h

/-- Only the contexts count. -/
theorem standing_of_ctxs (h : t.ctxs = s.ctxs) : standing t d = standing s d := by rw [standing, getCtx, h]; rfl

theorem standing_setCtx (hx : standing s c = some x.standing) (hy : y.standing = x.standing) : standing (setCtx s c y) d = standing s d := by
  rcases eq_or_ne d c with rfl | hd
  · rw [hx, standing_of (getCtx_setCtx_same s d y), hy]
  · rw [standing, getCtx_setCtx_other _ _ _ _ hd, standing]

theorem standing_modCtx {f : Ctx → Ctx} (h : ∀ x, (f x).standing = x.standing) : standing (modCtx s c f) d = standing s d := by
  rw [modCtx]
  split
  · rfl
  · next x hx => exact standing_setCtx (standing_of hx) (h x)

/-- A change of the context itself changes what stands of it in the same way. -/
theorem standing_modCtx_map {f : Ctx → Ctx} {g : Standing → Standing}
    (h : ∀ x, (f x).standing = g x.standing) : standing (modCtx s c f) c = (standing s c).map g := by
  rw [modCtx]
  split
  · next hx => rw [standing, hx]; rfl
  · next x hx => rw [standing_of (getCtx_setCtx_same _ _ _), standing_of hx, h, Option.map_some]

theorem standing_ite {p : Prop} [Decidable p] {v : Option Standing} (hs : standing s d = v) (ht : standing t d = v) :
    standing (if p then s else t) d = v := by
  split
  · exact hs
  · exact ht

@[simp] theorem standing_foldl {α : Type} {f : State → α → State} (h : ∀ s a, standing (f s a) d = standing s d) (l : List α) (s : State) :
    standing (l.foldl f s) d = standing s d :=
  l.foldlRecOn f (motive := fun t => standing t d = standing s d) rfl fun t ht a _ => (h t a).trans ht

@[simp] theorem standing_emit (o : Out) : standing (s.emit o) d = standing s d := rfl
@[simp] theorem standing_countEv (p source n : Nat) (ctx : Option Nat) : standing (countEv s p source n ctx) d = standing s d := rfl
@[simp] theorem standing_countColl (id src n : Nat) : standing (countColl s c id src n) d = standing s d := rfl
@[simp] theorem standing_countDrops (l : List Carried) : standing (countDrops s c l) d = standing s d :=
  standing_foldl (fun _ _ => standing_countColl _ _ _) l s
@[simp] theorem standing_post (job dest kind arg : Nat) (body : Bytes) (hub lanes : Nat) :
    standing (post s job dest kind arg body hub lanes) d = standing s d := standing_of_ctxs (by simp)
@[simp] theorem standing_remoteAccess (job i : Nat) (write : Bool) (va n : Nat) (data : Bytes) :
    standing (remoteAccess s job i write va n data) d = standing s d := standing_of_ctxs (by simp)
@[simp] theorem standing_runAccess (src : Die) (cls : Nat) (cells write : Bool) (gas va off n : Nat) :
    standing (runAccess c x src cls cells write gas va off n s) d = standing s d := standing_of_ctxs (by simp)
@[simp] theorem standing_someCarrel : standing (someCarrel s x).2 d = standing s d := rfl

/-! ### Completions (R532–R534, R553) -/

@[simp] theorem standing_setQueue (q : QRef) (v : Queue) : standing (setQueue s q v) d = standing s d := by
  cases q with
  | admin fn => rw [setQueue]; split <;> rfl
  | ctx c q => exact standing_modCtx fun _ => rfl

@[simp] theorem standing_setCmds (q : QRef) (l : List Cmd) : standing (setCmds s q l) d = standing s d := by
  cases q with
  | admin fn => rw [setCmds]; split <;> rfl
  | ctx c q => exact standing_modCtx fun _ => rfl

@[simp] theorem standing_putEntry (q : QRef) (v : Queue) (e : Compl) : standing (putEntry s q v e) d = standing s d := by
  unfold putEntry
  dsimp only
  split
  · rw [standing_emit, standing_setQueue]; rfl
  · rw [standing_setQueue]; rfl

@[simp] theorem standing_postEntry (q : QRef) (e : Compl) : standing (postEntry s q e) d = standing s d := by
  rw [postEntry]
  split
  · rfl
  · split <;> simp

@[simp] theorem standing_completeOne (q : QRef) (cid : Nat) (st : Status) (result : Nat) :
    standing (completeOne s q cid st result) d = standing s d := by
  simp [completeOne]

@[simp] theorem standing_releaseFences (q : QRef) (n : Nat) (s : State) : standing (releaseFences q n s) d = standing s d := by
  induction n generalizing s with
  | zero => rfl
  | succ n ih =>
    rw [releaseFences]
    split
    · rfl
    · rw [ih, standing_completeOne]

@[simp] theorem standing_complete (q : QRef) (cid : Nat) (st : Status) (result : Nat) : standing (complete s q cid st result) d = standing s d := by
  simp [complete]

@[simp] theorem standing_completePauses : standing (completePauses s c) d = standing s d := by
  rw [completePauses]
  split
  · rfl
  · simp

/-! ### Records and streams -/

@[simp] theorem standing_addRecAt (step : Nat) (r : TRec) : standing (addRecAt s c step r) d = standing s d := standing_modCtx fun _ => rfl

@[simp] theorem standing_addRec (r : TRec) : standing (addRec s c r) d = standing s d := by
  rw [addRec]
  split <;> simp

@[simp] theorem standing_eventRec (code addr : Nat) : standing (eventRec s c code addr) d = standing s d := standing_addRec _

@[simp] theorem standing_flushFlags : standing (flushFlags s c) d = standing s d := standing_modCtx fun _ => rfl

@[simp] theorem standing_modStream (st : Nat) (f : Stream → Stream) : standing (modStream s c st f) d = standing s d :=
  standing_modCtx fun x => by simp [Ctx.standing, Ctx.modAtt]

@[simp] theorem standing_compareNow : standing (compareNow s c) d = standing s d :=
  standing_modCtx fun _ => by split <;> rfl

/-- Leaving a reference changes the mode and the divergence alone (R484, R487). -/
@[simp] theorem standing_replayEnd : standing (replayEnd s c) d = standing s d := by
  rw [← standing_compareNow (s := s) (c := c)]
  unfold replayEnd
  dsimp only
  split
  · rfl
  · next x hx =>
    split
    · rfl
    · split
      · rw [standing_eventRec, standing_modCtx]
        · exact standing_setCtx (standing_of hx) rfl
        · exact fun _ => rfl
      · exact standing_setCtx (standing_of hx) rfl

/-! ### Written tensors -/

@[simp] theorem standing_poke (p : Place) (b : Byte) : standing (poke s c p b) d = standing s d := by
  cases p with
  | phys pa => rfl
  | host a => rfl
  | peer i va => exact standing_modCtx fun _ => rfl
  | store i o => exact standing_modCtx fun _ => by split <;> rfl

@[simp] theorem standing_setPoison (p : Place) (on : Bool) : standing (setPoison s c p on) d = standing s d := by
  cases p with
  | phys pa => rfl
  | host a => rfl
  | peer i va => exact standing_modCtx fun _ => rfl
  | store i o => exact standing_modCtx fun _ => by split <;> rfl

@[simp] theorem standing_applyUnit (u : WUnit) : standing (applyUnit s c u) d = standing s d := by
  rw [applyUnit]
  split <;> simp

@[simp] theorem standing_tellPeers (l : List Place) : standing (tellPeers s c l) d = standing s d :=
  standing_foldl (fun s q => by split <;> simp) _ _

@[simp] theorem standing_applyUnits (l : List WUnit) : standing (applyUnits s c l) d = standing s d := by
  rw [applyUnits]
  split
  · rfl
  · rw [standing_tellPeers, standing_foldl fun s p => by split <;> simp, standing_foldl fun s u => standing_applyUnit u]

@[simp] theorem standing_putAll (l : List (List WUnit × List Place)) : standing (putAll s c l) d = standing s d := by
  simp [putAll]

@[simp] theorem standing_fresh : standing s.fresh.2 d = standing s d := rfl

@[simp] theorem standing_putItems (r : TRef) (l : List Item) : standing (putItems s c r l).1 d = standing s d := by
  rw [putItems]
  split
  · rfl
  · dsimp only
    split <;> simp

@[simp] theorem standing_touchAt (call : Nat) (g : Extent) (write : Bool) (unit : Option Nat) :
    standing (touchAt s c call g write unit) d = standing s d := by
  rw [touchAt]
  split
  · rfl
  · next x _ =>
    split
    · rfl
    · dsimp only
      split
      · split
        · exact standing_modCtx fun _ => rfl
        · rfl
      · rw [standing_modCtx fun _ => by split <;> rfl, standing_foldl fun s r => standing_runAccess _ _ _ _ _ _ _ _]
        split
        · rfl
        · exact standing_someCarrel

@[simp] theorem standing_touchAll (call : Nat) (write : Bool) : standing (touchAll s c call write) d = standing s d := by
  rw [touchAll]
  split
  · rfl
  · split <;> simp

@[simp] theorem standing_touchVolume : standing (touchVolume s c x) d = standing s d := by simp [touchVolume]

@[simp] theorem standing_writeReport (r : Report) : standing (writeReport s c x r) d = standing s d := by
  rw [writeReport]
  split
  · rfl
  · split
    · rfl
    · split
      · rw [standing_putItems, standing_touchAll]
      · rfl

end Sys2Proof.Machine
end

section
/-! The collectives that an end of an attempt lets go on: what stands of a context stands through them (R376, R410, R420, R430, R431). -/

namespace Sys2Proof.Machine

variable {s : State} {c d : Nat} {x : Ctx}

/-! ### Rows and verdicts -/

@[simp] theorem standing_toOthers (k : Member) (kind id : Nat) (b : Bytes) : standing (toOthers s x k kind id b) d = standing s d := by
  simp [toOthers]

@[simp] theorem standing_sendRow (k : Member) (q : Coll) (n : Nat) (carried : Bool) (codes poisoned : List Nat) :
    standing (sendRow s x k q n carried codes poisoned) d = standing s d := by
  rw [sendRow, standing_emit]
  split
  · rfl
  · exact standing_toOthers _ _ _ _

@[simp] theorem standing_sendBodies (k : Member) (q : Coll) : standing (sendBodies s x k q) d = standing s d := by simp [sendBodies]

@[simp] theorem standing_tellDropped (k : Member) (id n : Nat) : standing (tellDropped s x k id n) d = standing s d := by
  simp [tellDropped]

@[simp] theorem standing_floodVerdict (k : Member) (v : Verdict) : standing (floodVerdict s x k v) d = standing s d := by
  simp [floodVerdict]

@[simp] theorem standing_endCollAt (id : Nat) (st : Status) (detail : Nat) : standing (endCollAt s c id st detail) d = standing s d := by
  unfold endCollAt
  split
  · rfl
  · next x hx =>
    refine standing_ite rfl ?_
    have recorded (k : Coll) : standing (if st == .epoison then eventRec (setCtx s c (setColl x k)) c st.code detail
        else setCtx s c (setColl x k)) d = standing s d :=
      (standing_ite (standing_eventRec _ _) rfl).trans (standing_setCtx (standing_of hx) rfl)
    have counted (t : State) : standing (if st == .ecollTimeout then countColl t c id 0x101 1
        else if st == .success then countColl t c id 0x100 1 else t) d = standing t d :=
      standing_ite rfl (standing_ite rfl rfl)
    refine (counted _).trans ?_
    split
    · exact (standing_ite (standing_modStream _ _) rfl).trans (recorded _)
    · exact recorded _

@[simp] theorem standing_endColl (id : Nat) (st : Status) : standing (endColl s c id st) d = standing s d := standing_endCollAt _ _ _

/-- Finding no room marks deferrals alone. -/
theorem noRoom_foldl_standing (di seq : Nat) (l : List Nat) (g : Gate) :
    ({ l.foldl (fun g n => g.noRoom di seq n) g with epoch := 0, carry := [], owed := [] } : Gate)
      = { g with epoch := 0, carry := [], owed := [] } := by
  induction l generalizing g with
  | nil => rfl
  | cons n l ih => exact ih _

theorem standing_dropOwn (hx : standing s c = some x.standing) (k : Member) (id : Nat) (l : List Nat) :
    standing (dropOwn s c x k id l) d = standing s d := by
  rw [dropOwn, standing_foldl fun s n => standing_tellDropped _ _ _]
  refine standing_setCtx hx ?_
  simp [Ctx.standing, noRoom_foldl_standing]

@[simp] theorem standing_deferOwn (k : Member) (id : Nat) : standing (deferOwn s c k id) d = standing s d := by
  unfold deferOwn
  split
  · rfl
  · next x hx =>
    exact standing_ite rfl (standing_ite (standing_dropOwn (standing_of hx) _ _ _) (standing_setCtx (standing_of hx) rfl))

theorem standing_takeAbort (hx : standing s c = some x.standing) (q : Coll) (v : Verdict) :
    standing (takeAbort s c x q v) d = standing s d := by
  rw [takeAbort]
  split
  · rfl
  · rw [standing_endColl]
    exact standing_setCtx hx rfl

@[simp] theorem standing_takeVerdict (v : Verdict) : standing (takeVerdict s c v) d = standing s d := by
  unfold takeVerdict
  split
  · rfl
  · next x hx =>
    split
    · rfl
    · next k _ =>
      have taken (q : Coll) : standing (setCtx s c (setColl (oweVerdict k v x) q)) d = standing s d := standing_setCtx (standing_of hx) rfl
      have ended (q : Coll) (st : Status) : standing (endColl (setCtx s c (setColl (oweVerdict k v x) q)) c v.id st) d = standing s d :=
        (standing_endColl _ _).trans (taken q)
      refine standing_ite (standing_ite (standing_takeAbort (standing_of hx) _ _) rfl) (standing_ite (taken _) ?_)
      split
      · exact ended _ _
      · exact ended _ _
      · exact ended _ _
      · exact ended _ _
      · exact standing_ite (ended _ _) (standing_ite ((standing_sendBodies _ _).trans (taken _))
          (standing_ite ((standing_deferOwn _ _).trans (taken _)) (taken _)))

/-! ### Messages as they come -/

/-- A message that counts, is held or takes effect leaves what each of the three leaves. -/
theorem standing_epochGate {id epoch : Nat} {now hold : Ctx → State} (hnow : ∀ x, getCtx s c = some x → standing (now x) d = standing s d)
    (hhold : ∀ x, getCtx s c = some x → standing (hold x) d = standing s d) : standing (epochGate s c id epoch now hold) d = standing s d := by
  rw [epochGate]
  split
  · rfl
  · next x hx =>
    split
    · rfl
    · split
      · exact hhold x hx
      · exact hnow x hx

@[simp] theorem standing_noticeIn (n : Notice) : standing (noticeIn s c n) d = standing s d := by
  refine standing_epochGate (fun x hx => ?_) fun x hx => standing_setCtx (standing_of hx) rfl
  split
  · split
    · exact standing_setCtx (standing_of hx) rfl
    · rfl
  · rfl

@[simp] theorem standing_verdictIn (v : Verdict) : standing (verdictIn s c v) d = standing s d :=
  standing_epochGate (fun _ _ => standing_takeVerdict v) fun _ hx => standing_setCtx (standing_of hx) rfl

theorem takeMessage_standing (m : CollMsg) : (takeMessage x m).standing = x.standing := by
  unfold takeMessage
  split <;> rfl

@[simp] theorem standing_messageIn (m : CollMsg) : standing (messageIn s c m) d = standing s d :=
  standing_epochGate (fun _ hx => standing_setCtx (standing_of hx) (takeMessage_standing m)) fun _ hx => standing_setCtx (standing_of hx) rfl

@[simp] theorem standing_abortColl (id : Nat) : standing (abortColl s c id) d = standing s d := by
  unfold abortColl
  split
  · rfl
  · next x hx =>
    split
    · rfl
    · dsimp only
      split
      · simp
      · split
        · rfl
        · rw [standing_takeAbort (by simp [standing_of hx]), standing_floodVerdict]

@[simp] theorem standing_abortIn (id epoch : Nat) : standing (abortIn s c id epoch) d = standing s d := by
  refine standing_epochGate (fun x hx => ?_) fun x hx => standing_setCtx (standing_of hx) rfl
  split
  · split
    · exact standing_abortColl id
    · rfl
  · rfl

@[simp] theorem standing_releaseHeld : standing (releaseHeld s c) d = standing s d := by
  rw [releaseHeld]
  split
  · rfl
  · next x hx =>
    simp only [standing_foldl, standing_noticeIn, standing_verdictIn, standing_messageIn, standing_abortIn, implies_true]
    exact standing_setCtx (standing_of hx) rfl

end Sys2Proof.Machine
end

section
/-! The end of an attempt: what it makes of its context, and what RUN_STEP, RESHARD and CHECKPOINT do after it (R372–R376, R430, R507,
R544). -/

namespace Sys2Proof.Machine

variable {s : State} {c d : Nat} {x : Ctx} {a : Attempt}

/-- A RESHARD that waited changes the epoch and the carry sets alone (R430). -/
@[simp] theorem standing_reshardNow : standing (reshardNow s c) d = standing s d := by
  unfold reshardNow
  split
  · rfl
  · next x hx =>
    split
    · rfl
    · dsimp only
      split
      · rfl
      · simp only [standing_completePauses, standing_complete, standing_releaseHeld, standing_foldl, standing_addRec, standing_countDrops,
          implies_true]
        exact standing_setCtx (standing_of hx) rfl

@[simp] theorem standing_endLong (st : Status) (result : Nat) : standing (endLong s c st result) d = standing s d := by
  unfold endLong
  split
  · rfl
  · next x hx =>
    split
    · rfl
    · simp only [standing_completePauses, standing_complete]
      refine standing_setCtx (standing_of hx) ?_
      split <;> rfl

@[simp] theorem standing_captureLong : standing (captureLong s c) d = standing s d := by
  unfold captureLong
  split
  · rfl
  · next x hx =>
    split
    · rfl
    · next l _ =>
      refine standing_ite rfl ?_
      dsimp only
      generalize hs0 : (if (longVolume s x (if l.opcode = opPreempt then 2 else 1)).2.isNone ∧ x.vols.snapshot.isNone
        then touchVolume s c x else s) = s0
      have touched (d : Nat) : standing s0 d = standing s d := hs0 ▸ standing_ite standing_touchVolume rfl
      obtain ⟨y, hy, hyx⟩ := exists_of_standing ((touched c).trans (standing_of hx))
      rw [hy, Option.getD_some]
      have captured (l : Option LongCmd) (v : Vols) : standing (setCtx s0 c { y with long := l, vols := v }) d = standing s d := by
        rw [← touched d]
        exact standing_setCtx (standing_of hy) rfl
      exact standing_ite ((standing_endLong _ _).trans (captured _ _)) (captured _ _)

@[simp] theorem standing_endRun (st : Status) : standing (endRun s c st) d = standing s d := by
  unfold endRun
  split
  · rfl
  · next x hx =>
    split
    · rfl
    · have completed (i : Ident) (q : QRef) (cid : Nat) (st : Status) (n : Nat) :
          standing (complete (setCtx s c { x with run := none, ident := i }) q cid st n) d = standing s d :=
        (standing_complete _ _ _ _).trans (standing_setCtx (standing_of hx) rfl)
      rw [standing_captureLong, standing_reshardNow]
      exact (standing_ite rfl standing_completePauses).trans (completed _ _ _ _ _)

@[simp] theorem standing_continueRun (outcome : Nat) (st : Status) (div : Bool) : standing (continueRun s c outcome st div) d = standing s d := by
  unfold continueRun
  split
  · rfl
  · split
    · have ended (e : Status) : standing (endRun s c e) d = standing s d := standing_endRun e
      exact standing_ite (ended _) <| standing_ite (ended _) <| standing_ite (ended _) <| standing_ite (ended _) <| standing_ite (ended _) <|
        standing_ite (ended _) <| standing_ite (ended _) <| standing_ite (ended _) rfl
    · exact standing_endRun _
    · rfl

/-! ### The end of an attempt (R372–R376) -/

/-- The records of the end write the report, and leave the gate and the attempt (R373, R474, R477). -/
theorem standing_recordEnd (r : Report) :
    standing (recordEnd s c x a r) c = (standing s c).map fun v => { v with report := some r } := by
  unfold recordEnd
  refine (standing_ite standing_replayEnd rfl).trans ?_
  rw [standing_modCtx_map (g := fun v => { v with report := some r }), standing_addRec, standing_foldl fun s t => standing_addRecAt _ _,
    standing_writeReport, standing_flushFlags]
  exact fun _ => rfl

/-- An attempt that ends leaves the gate but for its carry sets, whatever its outcome; its report is there, and no attempt runs. -/
theorem standing_finishAttempt (hr : Running s c x a) (outcome : Nat) (st : Status) :
    standing (finishAttempt s c outcome st) c = some ⟨x.standing.gate, some (reportOf x a outcome st), false⟩ := by
  obtain ⟨hx, ha⟩ := hr
  have ended (f : Ctx → Ctx) (l : List Carried) (hf : ∀ y, (f y).standing = { y.standing with runs := false }) :
      standing (countDrops (modCtx (recordEnd s c x a (reportOf x a outcome st)) c f) c l) c
        = some ⟨x.standing.gate, some (reportOf x a outcome st), false⟩ := by
    rw [standing_countDrops, standing_modCtx_map (g := fun v => { v with runs := false }) hf, standing_recordEnd, standing_of hx]
    rfl
  unfold finishAttempt finishWith
  simp only [hx, ha, id_eq, standing_continueRun]
  split
  · exact (standing_ite (standing_postEntry _ _) rfl).trans (ended _ _ fun _ => rfl)
  · exact ended _ _ fun _ => rfl

end Sys2Proof.Machine
end

section
/-! The loss scale (R356, R358, R359). -/

namespace Sys2Proof.Machine

variable {j : Job} {g : Gate} {n : Nat}

theorem commitScale_of_lt (hj : j.edition ≠ 1) (h : g.clean + 1 < j.growthOf) : commitScale j g = { g with clean := g.clean + 1 } := by
  rw [commitScale, if_neg hj, if_neg (Nat.not_le.2 h)]

theorem commitScale_of_le (hj : j.edition ≠ 1) (h : j.growthOf ≤ g.clean + 1) :
    commitScale j g = { g with clean := 0, exp := if j.dyn then min (g.exp + 1) 40 else g.exp } := by
  rw [commitScale, if_neg hj, if_pos h]

theorem skipScale_one : skipScale j 1 g
    = { g with consec := g.consec + 1, skips := g.skips + 1, clean := 0, exp := if j.dyn then max (g.exp - 1) (-24) else g.exp } := rfl

theorem skipScale_of_ne (h : n ≠ 1) : skipScale j n g = { g with consec := g.consec + 1, skips := g.skips + 1 } := if_pos h

/-- A skip counts, and the step number stands, whatever its outcome (R372). -/
theorem skipScale_counts : (skipScale j n g).skips = g.skips + 1 ∧ (skipScale j n g).consec = g.consec + 1 ∧ (skipScale j n g).step = g.step := by
  rcases eq_or_ne n 1 with rfl | h
  · exact ⟨rfl, rfl, rfl⟩
  · rw [skipScale_of_ne h]
    exact ⟨rfl, rfl, rfl⟩

/-- A commit leaves e or, with dyn, doubles the scale within its bound. -/
theorem commitScale_exp (hj : j.edition ≠ 1) :
    (commitScale j g).exp = g.exp ∨ (j.dyn = true ∧ (commitScale j g).exp = min (g.exp + 1) 40) := by
  rcases Nat.lt_or_ge (g.clean + 1) j.growthOf with h | h
  · exact .inl (by rw [commitScale_of_lt hj h])
  · rw [commitScale_of_le hj h]
    cases j.dyn
    · exact .inl rfl
    · exact .inr ⟨rfl, rfl⟩

/-- A skip leaves e or, with dyn, halves the scale within its bound. -/
theorem skipScale_exp : (skipScale j n g).exp = g.exp ∨ (j.dyn = true ∧ (skipScale j n g).exp = max (g.exp - 1) (-24)) := by
  rcases eq_or_ne n 1 with rfl | h
  · rw [skipScale_one]
    cases j.dyn
    · exact .inl rfl
    · exact .inr ⟨rfl, rfl⟩
  · exact .inl (by rw [skipScale_of_ne h])

/-- The bound held back a halving of a non-finite skip, or a doubling, which has cleared the clean count of the commit (R359). -/
theorem heldAtBound_iff {x : Ctx} {a : Attempt} (hx : x.pol.job = some j) (hj : j.edition ≠ 1) (hd : j.dyn = true) :
    heldAtBound x a n = true ↔ (n = 1 ∧ a.eUsed = -24) ∨ (n = 0 ∧ a.eUsed = 40 ∧ x.gate.clean = 0) := by
  simp [heldAtBound, hx, hj, hd, and_assoc]

/-- Settles O31: the gate's functions case by case, and a failed attempt through what its end leaves standing (`standing_finishAttempt`). -/
theorem lossScale : Obligations.LossScale := by
  refine ⟨fun j g n hj => ⟨fun ⟨lo, hi⟩ => ?range, fun hd => ?static, fun hd hne lo => ?halved, fun he => ?lowest, fun hn => ?kept,
    fun h => ?clean, fun h => ?grown, skipScale_counts⟩, fun s c n x a e hr _ => ?failed, fun x a j n e hx hj hd => ?bound⟩
  case range =>
    have hc := commitScale_exp (g := g) hj
    have hs := skipScale_exp (j := j) (g := g) (n := n)
    omega
  case static =>
    have hc := commitScale_exp (g := g) hj
    have hs := skipScale_exp (j := j) (g := g) (n := n)
    simp only [hd, Bool.false_eq_true, false_and, or_false] at hc hs
    exact ⟨hc, hs⟩
  case halved =>
    rw [skipScale_one, hd]
    exact ⟨max_eq_left (by omega), rfl⟩
  case lowest =>
    have hs := skipScale_exp (j := j) (g := g) (n := 1)
    omega
  case kept =>
    rw [skipScale_of_ne hn]
    exact ⟨rfl, rfl⟩
  case clean =>
    rw [commitScale_of_lt hj h]
    exact ⟨rfl, rfl⟩
  case grown =>
    refine ⟨by rw [commitScale_of_le hj h], fun hd hlt => ?_, fun he => ?_⟩
    · rw [commitScale_of_le hj h, hd]
      exact min_eq_left (by omega)
    · have hc := commitScale_exp (g := g) hj
      omega
  case failed =>
    obtain ⟨y, hy, hyx⟩ := exists_of_standing (standing_finishAttempt hr n e)
    exact ⟨y, hy, congrArg (·.gate.exp) hyx, congrArg (·.gate.clean) hyx⟩
  case bound => exact heldAtBound_iff hx hj hd

end Sys2Proof.Machine
end

section
/-! What leaves the volume state of every context (R489–R512) as it is: completions, transcript records, written tensors, collectives, a RESHARD
that waited, and the records of an attempt's end. -/

namespace Sys2Proof.Machine

/-- The volume state of the context `c`, if there is one. -/
def volsAt (s : State) (c : Nat) : Option Vols := (getCtx s c).map (·.vols)

variable {s t : State} {c d : Nat} {x : Ctx}

/-! ### The rules -/

theorem volsAt_of (h : getCtx s c = some x) : volsAt s c = some x.vols := by rw [volsAt, h, Option.map_some]

theorem volsAt_of_ctxs (h : t.ctxs = s.ctxs) : volsAt t d = volsAt s d := by rw [volsAt, getCtx, h]; rfl

@[simp] theorem volsAt_setCtx (h : volsAt s c = some x.vols) : volsAt (setCtx s c x) d = volsAt s d := by
  rcases eq_or_ne d c with rfl | hd
  · rw [h, volsAt_of (getCtx_setCtx_same s d x)]
  · rw [volsAt, getCtx_setCtx_other _ _ _ _ hd, volsAt]

@[simp] theorem volsAt_modCtx {f : Ctx → Ctx} (h : ∀ x, (f x).vols = x.vols) : volsAt (modCtx s c f) d = volsAt s d := by
  rw [modCtx]
  split
  · rfl
  · next x hx => exact volsAt_setCtx (by rw [h, volsAt_of hx])

@[simp] theorem volsAt_foldl {α : Type} {f : State → α → State} (h : ∀ s a, volsAt (f s a) d = volsAt s d) (l : List α) (s : State) :
    volsAt (l.foldl f s) d = volsAt s d :=
  l.foldlRecOn f (motive := fun t => volsAt t d = volsAt s d) rfl fun t ht a _ => (h t a).trans ht

@[simp] theorem volsAt_emit (o : Out) : volsAt (s.emit o) d = volsAt s d := rfl
@[simp] theorem volsAt_countEv (p source n : Nat) (ctx : Option Nat) : volsAt (countEv s p source n ctx) d = volsAt s d := rfl
@[simp] theorem volsAt_countColl (id src n : Nat) : volsAt (countColl s c id src n) d = volsAt s d := rfl
@[simp] theorem volsAt_countDrops (l : List Carried) : volsAt (countDrops s c l) d = volsAt s d :=
  volsAt_foldl (fun _ _ => volsAt_countColl _ _ _) l s
@[simp] theorem volsAt_post (job dest kind arg : Nat) (body : Bytes) (hub lanes : Nat) :
    volsAt (post s job dest kind arg body hub lanes) d = volsAt s d := volsAt_of_ctxs (by simp)
@[simp] theorem volsAt_remoteAccess (job i : Nat) (write : Bool) (va n : Nat) (data : Bytes) :
    volsAt (remoteAccess s job i write va n data) d = volsAt s d := volsAt_of_ctxs (by simp)
@[simp] theorem volsAt_runAccess (src : Die) (cls : Nat) (cells write : Bool) (gas va off n : Nat) :
    volsAt (runAccess c x src cls cells write gas va off n s) d = volsAt s d := volsAt_of_ctxs (by simp)

/-! ### Completions -/

@[simp] theorem volsAt_setQueue (q : QRef) (v : Queue) : volsAt (setQueue s q v) d = volsAt s d := by
  cases q with
  | admin fn => rw [setQueue]; split <;> rfl
  | ctx c q => exact volsAt_modCtx fun _ => rfl

@[simp] theorem volsAt_setCmds (q : QRef) (l : List Cmd) : volsAt (setCmds s q l) d = volsAt s d := by
  cases q with
  | admin fn => rw [setCmds]; split <;> rfl
  | ctx c q => exact volsAt_modCtx fun _ => rfl

@[simp] theorem volsAt_postEntry (q : QRef) (e : Compl) : volsAt (postEntry s q e) d = volsAt s d := by
  have put (v : Queue) : volsAt (putEntry s q v e) d = volsAt s d := by
    unfold putEntry
    dsimp only
    split <;> exact volsAt_setQueue _ _
  rw [postEntry]
  split
  · rfl
  · split <;> simp [put]

@[simp] theorem volsAt_completeOne (q : QRef) (cid : Nat) (st : Status) (result : Nat) :
    volsAt (completeOne s q cid st result) d = volsAt s d := by
  simp [completeOne]

@[simp] theorem volsAt_releaseFences (q : QRef) (n : Nat) (s : State) : volsAt (releaseFences q n s) d = volsAt s d := by
  induction n generalizing s with
  | zero => rfl
  | succ n ih => rw [releaseFences]; split <;> simp [ih]

@[simp] theorem volsAt_complete (q : QRef) (cid : Nat) (st : Status) (result : Nat) : volsAt (complete s q cid st result) d = volsAt s d := by
  simp [complete]

@[simp] theorem volsAt_completePauses : volsAt (completePauses s c) d = volsAt s d := by
  rw [completePauses]; split <;> simp

/-! ### Records and streams -/

@[simp] theorem volsAt_addRecAt (step : Nat) (r : TRec) : volsAt (addRecAt s c step r) d = volsAt s d := volsAt_modCtx fun _ => rfl
@[simp] theorem volsAt_addRec (r : TRec) : volsAt (addRec s c r) d = volsAt s d := by rw [addRec]; split <;> simp
@[simp] theorem volsAt_eventRec (code addr : Nat) : volsAt (eventRec s c code addr) d = volsAt s d := volsAt_addRec _
@[simp] theorem volsAt_flushFlags : volsAt (flushFlags s c) d = volsAt s d := volsAt_modCtx fun _ => rfl
@[simp] theorem volsAt_modStream (st : Nat) (f : Stream → Stream) : volsAt (modStream s c st f) d = volsAt s d := volsAt_modCtx fun _ => rfl
@[simp] theorem volsAt_compareNow : volsAt (compareNow s c) d = volsAt s d := volsAt_modCtx fun _ => by split <;> rfl

@[simp] theorem volsAt_replayEnd : volsAt (replayEnd s c) d = volsAt s d := by
  unfold replayEnd
  dsimp only
  split
  · exact volsAt_compareNow
  · next x hx =>
    have hv := volsAt_of hx
    simp [apply_ite (volsAt · d), hv]

/-! ### Written tensors -/

@[simp] theorem volsAt_poke (p : Place) (b : Byte) : volsAt (poke s c p b) d = volsAt s d := by
  cases p with
  | phys pa => rfl
  | host a => rfl
  | peer i va => exact volsAt_modCtx fun _ => rfl
  | store i o => exact volsAt_modCtx fun _ => by split <;> rfl

@[simp] theorem volsAt_setPoison (p : Place) (on : Bool) : volsAt (setPoison s c p on) d = volsAt s d := by
  cases p with
  | phys pa => rfl
  | host a => rfl
  | peer i va => exact volsAt_modCtx fun _ => rfl
  | store i o => exact volsAt_modCtx fun _ => by split <;> rfl

@[simp] theorem volsAt_applyUnit (u : WUnit) : volsAt (applyUnit s c u) d = volsAt s d := by rw [applyUnit]; split <;> simp

@[simp] theorem volsAt_tellPeers (l : List Place) : volsAt (tellPeers s c l) d = volsAt s d :=
  volsAt_foldl (fun _ _ => by split <;> simp) _ _

@[simp] theorem volsAt_applyUnits (l : List WUnit) : volsAt (applyUnits s c l) d = volsAt s d := by
  rw [applyUnits]
  split
  · rfl
  · simp [apply_ite (volsAt · d)]

@[simp] theorem volsAt_putItems (r : TRef) (l : List Item) : volsAt (putItems s c r l).1 d = volsAt s d := by
  have put (s : State) (l) : volsAt (putAll s c l) d = volsAt s d := by simp [putAll]
  rw [putItems]
  split
  · rfl
  · dsimp only
    split
    · exact put _ _
    · exact put _ _

@[simp] theorem volsAt_touchAt (call : Nat) (g : Extent) (write : Bool) (unit : Option Nat) :
    volsAt (touchAt s c call g write unit) d = volsAt s d := by
  rw [touchAt]
  split
  · rfl
  · next x _ =>
    split
    · rfl
    · dsimp only
      split
      · simp [apply_ite (volsAt · d)]
      · rw [volsAt_modCtx fun _ => by split <;> rfl, volsAt_foldl fun s r => volsAt_runAccess _ _ _ _ _ _ _ _]
        split <;> rfl

@[simp] theorem volsAt_touchAll (call : Nat) (write : Bool) : volsAt (touchAll s c call write) d = volsAt s d := by
  rw [touchAll]
  split
  · rfl
  · split <;> simp

@[simp] theorem volsAt_touchVolume : volsAt (touchVolume s c x) d = volsAt s d := by simp [touchVolume]

@[simp] theorem volsAt_writeReport (r : Report) : volsAt (writeReport s c x r) d = volsAt s d := by
  rw [writeReport]
  split
  · rfl
  · split
    · rfl
    · simp [apply_ite (volsAt · d)]

/-! ### Collectives -/

@[simp] theorem volsAt_toOthers (k : Member) (kind id : Nat) (b : Bytes) : volsAt (toOthers s x k kind id b) d = volsAt s d := by
  simp [toOthers]

@[simp] theorem volsAt_sendBodies (k : Member) (q : Coll) : volsAt (sendBodies s x k q) d = volsAt s d := by
  have row (s : State) (n : Nat) (carried : Bool) (codes poisoned : List Nat) :
      volsAt (sendRow s x k q n carried codes poisoned) d = volsAt s d := by
    simp [sendRow, apply_ite (volsAt · d)]
  simp [sendBodies, row]

@[simp] theorem volsAt_tellDropped (k : Member) (id n : Nat) : volsAt (tellDropped s x k id n) d = volsAt s d := by simp [tellDropped]

@[simp] theorem volsAt_floodVerdict (k : Member) (v : Verdict) : volsAt (floodVerdict s x k v) d = volsAt s d := by simp [floodVerdict]

theorem volsAt_setColl (hv : volsAt s c = some x.vols) (q : Coll) : volsAt (setCtx s c (setColl x q)) d = volsAt s d := volsAt_setCtx hv

@[simp] theorem volsAt_endColl (id : Nat) (st : Status) : volsAt (endColl s c id st) d = volsAt s d := by
  unfold endColl endCollAt
  split
  · rfl
  · next x hx =>
    have hv := volsAt_of hx
    cases hi : (collOr x id).issued <;> simp [hi, apply_ite (volsAt · d), volsAt_setColl hv]

theorem volsAt_dropOwn (hv : volsAt s c = some x.vols) (k : Member) (id : Nat) (l : List Nat) :
    volsAt (dropOwn s c x k id l) d = volsAt s d := by
  simp [dropOwn, hv]

@[simp] theorem volsAt_deferOwn (k : Member) (id : Nat) : volsAt (deferOwn s c k id) d = volsAt s d := by
  unfold deferOwn
  split
  · rfl
  · next x hx =>
    have hv := volsAt_of hx
    simp [apply_ite (volsAt · d), volsAt_dropOwn, hv]

theorem volsAt_takeAbort (hv : volsAt s c = some x.vols) (q : Coll) (v : Verdict) : volsAt (takeAbort s c x q v) d = volsAt s d := by
  simp [takeAbort, apply_ite (volsAt · d), volsAt_setColl hv]

@[simp] theorem volsAt_takeVerdict (v : Verdict) : volsAt (takeVerdict s c v) d = volsAt s d := by
  unfold takeVerdict
  split
  · rfl
  · next x hx =>
    have hv := volsAt_of hx
    split
    · rfl
    · next k _ =>
      have taken (q : Coll) : volsAt (setCtx s c (setColl (oweVerdict k v x) q)) d = volsAt s d := volsAt_setCtx hv
      cases v.outcome <;> simp [apply_ite (volsAt · d), taken, volsAt_takeAbort hv]

/-- A message that counts, is held or takes effect leaves what each of the three leaves. -/
theorem volsAt_epochGate {id epoch : Nat} {now hold : Ctx → State} (hnow : ∀ x, volsAt s c = some x.vols → volsAt (now x) d = volsAt s d)
    (hhold : ∀ x, volsAt s c = some x.vols → volsAt (hold x) d = volsAt s d) : volsAt (epochGate s c id epoch now hold) d = volsAt s d := by
  rw [epochGate]
  split
  · rfl
  · next x hx => simp [apply_ite (volsAt · d), hnow x (volsAt_of hx), hhold x (volsAt_of hx)]

@[simp] theorem volsAt_noticeIn (n : Notice) : volsAt (noticeIn s c n) d = volsAt s d := by
  refine volsAt_epochGate (fun x hv => ?_) fun _ hv => volsAt_setCtx hv
  split
  · simp [apply_ite (volsAt · d), volsAt_setColl hv]
  · rfl

@[simp] theorem volsAt_verdictIn (v : Verdict) : volsAt (verdictIn s c v) d = volsAt s d :=
  volsAt_epochGate (fun _ _ => volsAt_takeVerdict v) fun _ hv => volsAt_setCtx hv

theorem takeMessage_vols (m : CollMsg) : (takeMessage x m).vols = x.vols := by
  unfold takeMessage
  split <;> rfl

@[simp] theorem volsAt_messageIn (m : CollMsg) : volsAt (messageIn s c m) d = volsAt s d :=
  volsAt_epochGate (fun _ hv => volsAt_setCtx (by rw [takeMessage_vols, hv])) fun _ hv => volsAt_setCtx hv

@[simp] theorem volsAt_abortColl (id : Nat) : volsAt (abortColl s c id) d = volsAt s d := by
  unfold abortColl
  split
  · rfl
  · next x hx =>
    have hv := volsAt_of hx
    split
    · rfl
    · simp [apply_ite (volsAt · d), volsAt_takeAbort, hv]

@[simp] theorem volsAt_abortIn (id epoch : Nat) : volsAt (abortIn s c id epoch) d = volsAt s d := by
  refine volsAt_epochGate (fun x _ => ?_) fun _ hv => volsAt_setCtx hv
  split
  · simp [apply_ite (volsAt · d)]
  · rfl

@[simp] theorem volsAt_releaseHeld : volsAt (releaseHeld s c) d = volsAt s d := by
  rw [releaseHeld]
  split
  · rfl
  · next x hx =>
    have hv := volsAt_of hx
    simp [hv]

/-! ### RESHARD and the records of an end -/

@[simp] theorem volsAt_reshardNow : volsAt (reshardNow s c) d = volsAt s d := by
  unfold reshardNow
  split
  · rfl
  · next x hx =>
    have hv := volsAt_of hx
    split
    · rfl
    · simp [apply_ite (volsAt · d), hv]

@[simp] theorem volsAt_recordEnd (a : Attempt) (r : Report) : volsAt (recordEnd s c x a r) d = volsAt s d := by
  simp [recordEnd, apply_ite (volsAt · d)]

end Sys2Proof.Machine
end

section
/-! What a CHECKPOINT that waited does to the slots after an attempt: it reads one, which marks its reader and nothing else (R494, R507, R544). -/

namespace Sys2Proof.Machine

variable {s t : State} {c d : Nat} {x y : Ctx} {a : Attempt}

/-- The volume state but for who reads its slots. -/
def Vols.unread (v : Vols) : Vols := { v with slot0 := { v.slot0 with readers := 0 }, slot1 := { v.slot1 with readers := 0 } }

/-- The volume state of the context `c` but for the readers, if there is one. -/
def unreadAt (s : State) (c : Nat) : Option Vols := (volsAt s c).map Vols.unread

theorem unreadAt_congr (h : volsAt t d = volsAt s d) : unreadAt t d = unreadAt s d := congrArg _ h

theorem unreadAt_of (h : getCtx s c = some x) : unreadAt s c = some x.vols.unread := by rw [unreadAt, volsAt_of h, Option.map_some]

theorem unreadAt_setCtx (hx : getCtx s c = some x) (hy : y.vols.unread = x.vols.unread) : unreadAt (setCtx s c y) d = unreadAt s d := by
  rcases eq_or_ne d c with rfl | hd
  · rw [unreadAt_of hx, unreadAt_of (getCtx_setCtx_same s d y), hy]
  · rw [unreadAt, volsAt, getCtx_setCtx_other _ _ _ _ hd, unreadAt, volsAt]

theorem unreadAt_ite {p : Prop} [Decidable p] {v : Option Vols} (hs : unreadAt s d = v) (ht : unreadAt t d = v) :
    unreadAt (if p then s else t) d = v := by
  split
  · exact hs
  · exact ht

theorem slotReaders_unread (f : Nat → Nat) (n : Nat) (v : Vols) : (slotReaders f n v).unread = v.unread := by
  unfold slotReaders
  split <;> rfl

/-- A slot's readers come or go, where there is a slot. -/
theorem slotReaders?_unread (f : Nat → Nat) (n : Option Nat) (v : Vols) :
    (match n with | some n => slotReaders f n v | none => v).unread = v.unread := by
  cases n with
  | none => rfl
  | some n => exact slotReaders_unread f n v

@[simp] theorem unreadAt_endLong (st : Status) (result : Nat) : unreadAt (endLong s c st result) d = unreadAt s d := by
  unfold endLong
  split
  · rfl
  · next x hx =>
    split
    · rfl
    · next l _ =>
      refine (unreadAt_congr (volsAt_completePauses.trans (volsAt_complete _ _ _ _))).trans (unreadAt_setCtx hx ?_)
      exact (apply_ite (fun y : Ctx => y.vols.unread) _ _ _).trans ((ite_self _).trans (slotReaders?_unread _ l.slot _))

@[simp] theorem unreadAt_captureLong : unreadAt (captureLong s c) d = unreadAt s d := by
  unfold captureLong
  split
  · rfl
  · next x hx =>
    split
    · rfl
    · next l _ =>
      refine unreadAt_ite rfl ?_
      dsimp only
      generalize hs0 : (if (longVolume s x (if l.opcode = opPreempt then 2 else 1)).2.isNone ∧ x.vols.snapshot.isNone
        then touchVolume s c x else s) = s0
      have touched (d : Nat) : volsAt s0 d = volsAt s d := by
        rw [← hs0, apply_ite (volsAt · d), volsAt_touchVolume, ite_self]
      obtain ⟨y, hy, hyx⟩ : ∃ y, getCtx s0 c = some y ∧ y.vols = x.vols := Option.map_eq_some_iff.1 ((touched c).trans (volsAt_of hx))
      have captured (n : Option Nat) (l : Option LongCmd) : unreadAt (setCtx s0 c { y with
          long := l, vols := match n with | some n => slotReaders (· + 1) n y.vols | none => y.vols }) d = unreadAt s d :=
        (unreadAt_setCtx hy (slotReaders?_unread _ n _)).trans (unreadAt_congr (touched d))
      rw [hy, Option.getD_some]
      exact unreadAt_ite ((unreadAt_endLong _ _).trans (captured _ _)) (captured _ _)

@[simp] theorem unreadAt_endRun (st : Status) : unreadAt (endRun s c st) d = unreadAt s d := by
  unfold endRun
  split
  · rfl
  · next x hx =>
    split
    · rfl
    · have hv := volsAt_of hx
      have completed (i : Ident) (q : QRef) (cid : Nat) (st : Status) (n : Nat) :
          volsAt (complete (setCtx s c { x with run := none, ident := i }) q cid st n) d = volsAt s d :=
        (volsAt_complete _ _ _ _).trans (volsAt_setCtx hv)
      refine unreadAt_captureLong.trans ((unreadAt_congr volsAt_reshardNow).trans ?_)
      exact unreadAt_ite (unreadAt_congr (completed _ _ _ _ _)) (unreadAt_congr (volsAt_completePauses.trans (completed _ _ _ _ _)))

@[simp] theorem unreadAt_continueRun (outcome : Nat) (st : Status) (div : Bool) :
    unreadAt (continueRun s c outcome st div) d = unreadAt s d := by
  unfold continueRun
  split
  · rfl
  · split
    · simp [apply_ite (unreadAt · d)]
    · exact unreadAt_endRun _
    · rfl

end Sys2Proof.Machine
end

section
/-! Phase G (R482, R483, R493, R494): the copy of a commit into its slot, and what stands of it when the attempt has ended. -/

namespace Sys2Proof.Machine

variable {s : State} {c : Nat} {x y : Ctx} {a : Attempt}

/-! ### Slots -/

theorem getSlot_putSlot_same (x : Ctx) (n : Nat) (v : VSlot) : getSlot (putSlot x n v) n = v := by
  unfold getSlot putSlot
  split <;> rfl

/-- Slots are read off the volume state. -/
theorem getSlot_congr (h : y.vols = x.vols) (n : Nat) : getSlot y n = getSlot x n := by simp only [getSlot, h]

/-- Whoever reads a slot, it holds the same volume for the same target. -/
theorem getSlot_of_unread (h : y.vols.unread = x.vols.unread) (n : Nat) :
    (getSlot y n).vol = (getSlot x n).vol ∧ (getSlot y n).step = (getSlot x n).step ∧ (getSlot y n).target = (getSlot x n).target := by
  have h0 := congrArg Vols.slot0 h
  have h1 := congrArg Vols.slot1 h
  simp only [Vols.unread, VSlot.mk.injEq] at h0 h1
  obtain ⟨hvol0, hstep0, -, -, -, htarget0⟩ := h0
  obtain ⟨hvol1, hstep1, -, -, -, htarget1⟩ := h1
  unfold getSlot
  split
  · exact ⟨hvol0, hstep0, htarget0⟩
  · exact ⟨hvol1, hstep1, htarget1⟩

theorem copyReady_iff :
    copyReady x = true ↔ (getSlot x (endedStep x 0 % 2)).vol = none
      ∨ ((getSlot x (endedStep x 0 % 2)).drained = true ∧ (getSlot x (endedStep x 0 % 2)).readers = 0) := by
  simp [copyReady]

/-! ### The copy -/

/-- The slot as the copy of a commit fills it (R493). -/
def copySlot (s : State) (x : Ctx) : VSlot :=
  ⟨some (formVolume s x 0), x.gate.step, x.vols.target == 3 && !(formVolume s x 0).poisoned, false, 0, x.vols.target⟩

/-- A context of which what stands and the volume state are kept. -/
theorem exists_kept {t : State} {d : Nat} (hx : getCtx s d = some x) (hs : standing t d = standing s d) (hv : volsAt t d = volsAt s d) :
    ∃ y, getCtx t d = some y ∧ y.standing = x.standing ∧ y.vols = x.vols := by
  obtain ⟨y, hy, hyx⟩ := exists_of_standing (hs.trans (standing_of hx))
  exact ⟨y, hy, hyx, Option.some.inj ((volsAt_of hy).symm.trans (hv.trans (volsAt_of hx)))⟩

/-- Filling a slot leaves what stands of the context. -/
theorem putSlot_standing (x : Ctx) (n : Nat) (v : VSlot) : (putSlot x n v).standing = x.standing := rfl

theorem putSlot_vols_congr (h : y.vols = x.vols) (n : Nat) (v : VSlot) : (putSlot y n v).vols = (putSlot x n v).vols := by
  simp only [putSlot, h]

/-- Copying reads the tensors, fills the slot, and records a poisoned volume. -/
theorem copyOut_eq (hx : getCtx s c = some x) {z : Ctx} (hz : getCtx (touchVolume s c x) c = some z) (hstep : z.gate.step = x.gate.step)
    (hv : z.vols = x.vols) :
    copyOut s c = if (formVolume s x 0).poisoned
      then eventRec (setCtx (touchVolume s c x) c (putSlot z (endedStep x 0 % 2) (copySlot s x))) c Status.epoison.code 0
      else setCtx (touchVolume s c x) c (putSlot z (endedStep x 0 % 2) (copySlot s x)) := by
  simp only [copyOut, hx, modCtx_of hz, hstep, hv, copySlot]

/-- The copy fills its slot and leaves the rest of the volume state, and what stands of the context. -/
theorem copyOut_spec (hx : getCtx s c = some x) :
    ∃ y, getCtx (copyOut s c) c = some y ∧ y.standing = x.standing ∧ y.vols = (putSlot x (endedStep x 0 % 2) (copySlot s x)).vols := by
  obtain ⟨z, hz, hzs, hzv⟩ := exists_kept hx (standing_touchVolume (c := c) (x := x)) volsAt_touchVolume
  have hcopy := copyOut_eq hx hz (congrArg (·.gate.step) hzs) hzv
  have hw := getCtx_setCtx_same (touchVolume s c x) c (putSlot z (endedStep x 0 % 2) (copySlot s x))
  have hs : standing (copyOut s c) c = standing (setCtx (touchVolume s c x) c (putSlot z (endedStep x 0 % 2) (copySlot s x))) c := by
    rw [hcopy, apply_ite (standing · c), standing_eventRec, ite_self]
  have hv : volsAt (copyOut s c) c = volsAt (setCtx (touchVolume s c x) c (putSlot z (endedStep x 0 % 2) (copySlot s x))) c := by
    rw [hcopy, apply_ite (volsAt · c), volsAt_eventRec, ite_self]
  obtain ⟨y, hy, hys, hyv⟩ := exists_kept hw hs hv
  exact ⟨y, hy, hys.trans ((putSlot_standing z _ _).trans hzs), hyv.trans (putSlot_vols_congr hzv _ _)⟩

/-! ### The end of the attempt -/

/-- The records of an end are written, and no attempt runs (R483). -/
def recorded (s : State) (c : Nat) (x : Ctx) (a : Attempt) (r : Report) : State :=
  modCtx (recordEnd s c x a r) c fun y => { y with att := none, tr := { y.tr with attemptRecs := [] } }

theorem recorded_spec (hx : getCtx s c = some x) (a : Attempt) (r : Report) :
    ∃ z, getCtx (recorded s c x a r) c = some z ∧ z.standing = ⟨x.standing.gate, some r, false⟩ ∧ z.vols = x.vols := by
  have hs : standing (recorded s c x a r) c = some ⟨x.standing.gate, some r, false⟩ := by
    rw [recorded, standing_modCtx_map (g := fun v => { v with runs := false }) fun _ => rfl, standing_recordEnd, standing_of hx]
    rfl
  have hv : volsAt (recorded s c x a r) c = volsAt s c := by
    refine (volsAt_modCtx fun _ => ?_).trans (volsAt_recordEnd a r)
    rfl
  obtain ⟨z, hz, hzs⟩ := exists_of_standing hs
  exact ⟨z, hz, hzs, Option.some.inj ((volsAt_of hz).symm.trans (hv.trans (volsAt_of hx)))⟩

/-- A commit's end does `last` once its records are written; what neither an entry nor the end of a RUN_STEP changes is then as `last` left it. -/
theorem finishWith_commit {α : Type} {f : State → α} (hr : Running s c x a) (last : State → State)
    (entry : ∀ s q e, f (postEntry s q e) = f s) (run : ∀ s div, f (continueRun s c 0 .success div) = f s) :
    f (finishWith last s c 0 .success) = f (last (recorded s c x a (reportOf x a 0 .success))) := by
  obtain ⟨hx, ha⟩ := hr
  generalize hrep : reportOf x a 0 .success = r
  rw [finishWith]
  simp only [hx, ha, run, hrep, countDrops, ↓reduceIte, List.foldl_nil]
  change f (match x.run with | some q => _ | none => last (recorded s c x a r)) = _
  cases x.run with
  | none => rfl
  | some q =>
    dsimp only
    split
    · exact entry _ _ _
    · rfl

theorem reportOf_outcome {n : Nat} {e : Status} : (reportOf x a n e).outcome = n := rfl

theorem endedStep_congr (h : y.gate.step = x.gate.step) (n : Nat) : endedStep y n = endedStep x n := by simp only [endedStep, h]

/-- No attempt runs, by what stands of the context. -/
theorem att_eq_none_of_standing (h : y.standing.runs = false) : y.att = none := by simpa [Ctx.standing] using h

/-- The end of an attempt in phase G without a copy. -/
theorem finishAttempt_commit (hr : Running s c x a) : ∃ y, getCtx (finishAttempt s c 0 .success) c = some y ∧ y.att = none
    ∧ y.report = some (reportOf x a 0 .success) := by
  obtain ⟨y, hy, hys⟩ := exists_of_standing (standing_finishAttempt hr 0 .success)
  exact ⟨y, hy, att_eq_none_of_standing (by rw [hys]), congrArg Standing.report hys⟩

/-- The end of an attempt in phase G with its copy: once the records are written the context is `z`, and its slot holds the volume of `z`. -/
theorem finishWith_copyOut (hr : Running s c x a) :
    ∃ y z, getCtx (finishWith (copyOut · c) s c 0 .success) c = some y ∧ y.att = none ∧ y.report = some (reportOf x a 0 .success)
      ∧ getCtx (recorded s c x a (reportOf x a 0 .success)) c = some z
      ∧ (getSlot y (endedStep x 0 % 2)).vol = some (formVolume (recorded s c x a (reportOf x a 0 .success)) z 0)
      ∧ (getSlot y (endedStep x 0 % 2)).step = x.gate.step ∧ (getSlot y (endedStep x 0 % 2)).target = x.vols.target := by
  have hs := finishWith_commit hr (copyOut · c) (f := (standing · c)) (fun _ _ _ => standing_postEntry _ _) fun _ _ =>
    standing_continueRun _ _ _
  have hv := finishWith_commit hr (copyOut · c) (f := (unreadAt · c)) (fun _ _ _ => unreadAt_congr (volsAt_postEntry _ _)) fun _ _ =>
    unreadAt_continueRun _ _ _
  generalize reportOf x a 0 .success = r at hs hv ⊢
  obtain ⟨z, hz, hzs, hzv⟩ := recorded_spec hr.1 a r
  have hstep : z.gate.step = x.gate.step := congrArg (·.gate.step) hzs
  obtain ⟨w, hw, hws, hwv⟩ := copyOut_spec hz
  obtain ⟨y, hy, hys⟩ := exists_of_standing (hs.trans ((standing_of hw).trans (congrArg some (hws.trans hzs))))
  have hyv : y.vols.unread = w.vols.unread := Option.some.inj ((unreadAt_of hy).symm.trans (hv.trans (unreadAt_of hw)))
  obtain ⟨hvol, hst, htgt⟩ := getSlot_of_unread hyv (endedStep x 0 % 2)
  have hslot : getSlot w (endedStep x 0 % 2) = copySlot (recorded s c x a r) z := by
    rw [getSlot_congr hwv, endedStep_congr hstep, getSlot_putSlot_same]
  rw [hslot] at hvol hst htgt
  exact ⟨y, z, hy, att_eq_none_of_standing (by rw [hys]), congrArg Standing.report hys, hz, hvol, hst.trans hstep,
    htgt.trans (congrArg Vols.target hzv)⟩

end Sys2Proof.Machine
end

section
/-! What the device sends of its own: everything else of it stands (R437, R443, R452). -/

namespace Sys2Proof.Machine

/-- From `s` to `t` nothing has happened but that messages of one kind, job and destination have been numbered, queued and kept. -/
def SendsOnly (job dest kind : Nat) (s t : State) : Prop :=
  ∃ numbers l kept, t = { s with fabric := { s.fabric with mseq := numbers, queued := s.fabric.queued ++ l, kept := kept } }
    ∧ ∀ o ∈ l, o.msg.kind = kind ∧ o.msg.dest = dest ∧ o.msg.job = job

variable {s t u : State} {job dest kind : Nat}

theorem SendsOnly.refl (s : State) : SendsOnly job dest kind s s := ⟨s.fabric.mseq, [], s.fabric.kept, by rw [List.append_nil], by simp⟩

theorem SendsOnly.trans (h : SendsOnly job dest kind s t) (k : SendsOnly job dest kind t u) : SendsOnly job dest kind s u := by
  obtain ⟨_, l, _, rfl, hl⟩ := h
  obtain ⟨n, m, r, rfl, hm⟩ := k
  exact ⟨n, l ++ m, r, by rw [← List.append_assoc], fun o ho => (List.mem_append.1 ho).elim (hl o) (hm o)⟩

theorem SendsOnly.foldl {α : Type} {f : State → α → State} (h : ∀ s a, SendsOnly job dest kind s (f s a)) (l : List α) (s : State) :
    SendsOnly job dest kind s (l.foldl f s) :=
  l.foldlRecOn f (motive := SendsOnly job dest kind s) (SendsOnly.refl s) fun t ht a _ => ht.trans (h t a)

theorem sendsOnly_postOne (s : State) (arg : Nat) (body : Bytes) (hub lanes : Nat) :
    SendsOnly job dest kind s (postOne s job dest kind arg body hub lanes) := by
  unfold postOne
  dsimp only
  split
  · exact ⟨_, _, _, rfl, by simp [formMessage]⟩
  · exact ⟨_, [], s.fabric.kept, by rw [List.append_nil]; rfl, by simp⟩

theorem sendsOnly_post (s : State) (arg : Nat) (body : Bytes) (hub lanes : Nat) :
    SendsOnly job dest kind s (post s job dest kind arg body hub lanes) :=
  SendsOnly.foldl (fun s _ => sendsOnly_postOne s _ _ _ _) _ s

namespace SendsOnly

variable (h : SendsOnly job dest kind s t)
include h

theorem ctxs : t.ctxs = s.ctxs := by obtain ⟨_, _, _, rfl, -⟩ := h; rfl
theorem out : t.out = s.out := by obtain ⟨_, _, _, rfl, -⟩ := h; rfl
theorem mem : t.mem = s.mem := by obtain ⟨_, _, _, rfl, -⟩ := h; rfl
theorem partners : t.fabric.partners = s.fabric.partners := by obtain ⟨_, _, _, rfl, -⟩ := h; rfl

theorem queued : ∃ l, t.fabric.queued = s.fabric.queued ++ l ∧ ∀ o ∈ l, o.msg.kind = kind ∧ o.msg.dest = dest ∧ o.msg.job = job := by
  obtain ⟨_, l, _, rfl, hl⟩ := h
  exact ⟨l, rfl, hl⟩

end SendsOnly

end Sys2Proof.Machine
end

section
/-! The drains of the second-copy slots (R497–R500), and the obligation on phase G and the drains. -/

namespace Sys2Proof.Machine

variable {s : State} {c t slot rank part : Nat} {x : Ctx} {a : Attempt} {w : Volume} {data : Bytes}

/-! ### DRAIN_START -/

/-- A drain to the buddy sends messages of kind 7, then tells of the volume. -/
theorem drainOut_sends (s : State) (x : Ctx) (w : Volume) :
    ∃ u, SendsOnly x.ident.job (buddyCoord s x) 7 s u
      ∧ drainOut s x w = u.emit (.volume (buddyCoord s x) w.step (w.shards.map (·.bytes)) w.colophon) :=
  ⟨_, (SendsOnly.foldl (fun s _ => sendsOnly_post s _ _ _ _) _ s).trans (sendsOnly_post _ _ _ _ _), rfl⟩

/-- A drain to the area writes tensors (R498). -/
theorem volsAt_areaWrite {d : Nat} (v : Volume) : volsAt (areaWrite s c x slot v) d = volsAt s d := by
  unfold areaWrite
  split
  · rfl
  · dsimp only
    split
    · simp
    · rfl

theorem drainReady_iff {v : VSlot} : drainReady s x v = true ↔ v.drained = false ∧ v.draining = false
    ∧ (v.target = 1 → buddyPort s (buddyCoord s x) = true) ∧ (v.target = 2 → x.ident.st ≠ .orphaned) ∧ v.target ≠ 3 := by
  simp [drainReady, imp_iff_not_or, and_assoc]

theorem execDrainStart_ready (hx : getCtx s c = some x) (hw : (getSlot x slot).vol = some w) (hp : w.poisoned = false)
    (hr : drainReady s x (getSlot x slot) = true) :
    execDrainStart c slot s = .next (
      let s1 := setCtx s c (putSlot x slot { getSlot x slot with draining := true })
      if (getSlot x slot).target = 1 then drainOut s1 x w else areaWrite s1 c x slot w) := by
  simp [execDrainStart, hx, hw, hp, hr]

theorem execDrainStart_unready (hx : getCtx s c = some x) (hr : drainReady s x (getSlot x slot) = false) :
    execDrainStart c slot s = .next s := by
  unfold execDrainStart
  simp only [hx, hr]
  split
  · rfl
  · simp

/-- DRAIN_START to the buddy: the drain is open, and the volume is on its way (R497). -/
theorem execDrainStart_buddy (hx : getCtx s c = some x) (hw : (getSlot x slot).vol = some w) (hp : w.poisoned = false)
    (hr : drainReady s x (getSlot x slot) = true) (h1 : (getSlot x slot).target = 1) :
    ∃ u, execDrainStart c slot s = .next u ∧ getCtx u c = some (putSlot x slot { getSlot x slot with draining := true })
      ∧ u.out = s.out ++ [.volume (buddyCoord s x) w.step (w.shards.map (·.bytes)) w.colophon] ∧ u.mem = s.mem
      ∧ ∃ l, u.fabric.queued = s.fabric.queued ++ l
        ∧ ∀ o ∈ l, o.msg.kind = 7 ∧ o.msg.dest = buddyCoord s x ∧ o.msg.job = x.ident.job := by
  obtain ⟨u, hu, hdrain⟩ := drainOut_sends (setCtx s c (putSlot x slot { getSlot x slot with draining := true })) x w
  refine ⟨_, (execDrainStart_ready hx hw hp hr).trans (congrArg _ ((if_pos h1).trans hdrain)), ?_, congrArg (· ++ _) hu.out, hu.mem, hu.queued⟩
  rw [getCtx_emit, getCtx, hu.ctxs]
  exact getCtx_setCtx_same _ _ _

/-- DRAIN_START to the area: the drain is open, and what the volume writes there leaves the slot (R498). -/
theorem execDrainStart_area (hx : getCtx s c = some x) (hw : (getSlot x slot).vol = some w) (hp : w.poisoned = false)
    (hr : drainReady s x (getSlot x slot) = true) (h1 : (getSlot x slot).target ≠ 1) :
    ∃ u y, execDrainStart c slot s = .next u ∧ getCtx u c = some y ∧ getSlot y slot = { getSlot x slot with draining := true } := by
  have hv := (volsAt_areaWrite (c := c) (x := x) (slot := slot) w).trans (volsAt_of (getCtx_setCtx_same s c
    (putSlot x slot { getSlot x slot with draining := true })))
  obtain ⟨y, hy, hyv⟩ := Option.map_eq_some_iff.1 hv
  exact ⟨_, y, (execDrainStart_ready hx hw hp hr).trans (congrArg _ (if_neg h1)), hy,
    (getSlot_congr hyv slot).trans (getSlot_putSlot_same _ _ _)⟩

/-! ### DRAIN_COMPLETE -/

theorem execDrainComplete_done {b : Bool} (hx : getCtx s c = some x) (h : drainDone s x (getSlot x slot) b = true) :
    execDrainComplete c slot b s = .next (setCtx s c (putSlot x slot { getSlot x slot with drained := true, draining := false })) := by
  simp [execDrainComplete, hx, h]

theorem execDrainComplete_open {b : Bool} (hx : getCtx s c = some x) (h : drainDone s x (getSlot x slot) b = false) :
    execDrainComplete c slot b s = .next s := by
  simp [execDrainComplete, hx, h]

/-! ### DRAIN_RECEIVE -/

theorem partialOf_spec (s : State) (c rank part : Nat) :
    (partialOf s c rank part).ctx = c ∧ (partialOf s c rank part).rank = rank ∧ (partialOf s c rank part).complete = false := by
  unfold partialOf
  split
  · next p hp =>
    have found : (p.ctx = c ∧ p.rank = rank) ∧ p.complete = false := by simpa using List.find?_some hp
    split <;> exact ⟨found.1.1, found.1.2, found.2⟩
  · exact ⟨rfl, rfl, rfl⟩

theorem execDrainReceive_part (hx : getCtx s c = some x) :
    execDrainReceive c rank part false data s = .next (setPartner s c rank { partialOf s c rank part with
      data := (partialOf s c rank part).data.filter (·.1 != part) ++ [(part, data)] }) := by
  simp [execDrainReceive, hx]

theorem execDrainReceive_colophon {p : Partner} (hx : getCtx s c = some x)
    (h : s.fabric.partners.find? (fun p => p.ctx == c && p.rank == rank && !p.complete) = some p) :
    execDrainReceive c rank part true data s = .next (drainColophon s c rank (x.ident.volKey.getD []) p data) := by
  simp only [execDrainReceive, hx, h, if_true]

theorem mem_setPartner (s : State) (c rank : Nat) (p : Partner) : p ∈ (setPartner s c rank p).fabric.partners := by
  simp [setPartner]

/-- An acknowledgement sends a message, if anything, and tells of it. -/
theorem drainAck_sends (s : State) (c rank step : Nat) :
    ∃ u job dest, SendsOnly job dest 3 s u ∧ drainAck s c rank step = u.emit (.drainAck c rank step) := by
  unfold drainAck
  split
  · split
    · exact ⟨_, _, _, sendsOnly_post _ _ _ _ _, rfl⟩
    · exact ⟨s, 0, 0, SendsOnly.refl s, rfl⟩
  · exact ⟨s, 0, 0, SendsOnly.refl s, rfl⟩

/-- A volume whose colophon holds is kept whole, and acknowledged. -/
theorem drainColophon_ok {key : Bytes} {p : Partner} (h : colophonOk key data p.data = true) :
    (drainColophon s c rank key p data).out = s.out ++ [.drainAck c rank (fld data 24 6)] ∧ (drainColophon s c rank key p data).ctxs = s.ctxs
      ∧ ⟨c, rank, fld data 24 6, (0xFFFF, data) :: p.data, true⟩ ∈ (drainColophon s c rank key p data).fabric.partners := by
  rw [drainColophon, if_pos h]
  obtain ⟨u, job, dest, hu, hack⟩ := drainAck_sends { s with fabric := { s.fabric with
    partners := keepNewest c rank (fld data 24 6) s.fabric.partners ++ [⟨c, rank, fld data 24 6, (0xFFFF, data) :: p.data, true⟩] } }
      c rank (fld data 24 6)
  dsimp only
  rw [hack, State.emit_out, State.emit_ctxs, State.emit_fabric, hu.out, hu.ctxs, hu.partners]
  exact ⟨rfl, rfl, List.mem_append_right _ (List.mem_singleton.2 rfl)⟩

/-! ### SECOND_COPY -/

/-- What SECOND_COPY does of an attempt in phase G, while the circulation core serves. -/
theorem execSecondCopy_eq (hr : Running s c x a) (hup : coreUp s .circulation = true) (hp : a.phase = .copy) :
    execSecondCopy c t s = .next (
      if stagingHolds (s.at t) x a 0 = false then s.at t
      else if x.pol.vol.copy = false then finishAttempt (s.at t) c 0 .success
      else if copyReady x = false then s.at t
      else finishWith (copyOut · c) (s.at t) c 0 .success) := by
  obtain ⟨hx, ha⟩ := hr
  have hup' : coreUp (s.at t) .circulation = true := hup
  simp only [execSecondCopy, hup', getCtx_at, hx, ha, hp]
  cases stagingHolds (s.at t) x a 0 <;> cases x.pol.vol.copy <;> cases copyReady x <;> rfl

/-! ### The obligation -/

/-- Settles O33: phase G by what its copy and the end of the attempt leave (`finishWith_copyOut`), the drains operation by operation. -/
theorem volumesKept : Obligations.VolumesKept := by
  refine ⟨fun s c t x a hr hup hp => ⟨copyReady_iff, fun hroom hcopy hready => ?filled, fun hroom hcopy => ?ended, fun hwait => ?waits⟩,
    fun s c slot x hx _ => ⟨fun w hw hdr hdi hp htarget => ?starts, fun h1 hport => ?noPort, fun hdi h1 => ⟨?acked, ?unacked⟩,
      fun hdi h1 horph hdone b => ?stored, fun rank part data => ?part, fun rank part data p hfind hok => ?whole⟩⟩
  case filled =>
    obtain ⟨y, z, hy, hatt, hrep, hz, hvol, hstep, htgt⟩ := finishWith_copyOut (s := s.at t) hr
    have hexec : execSecondCopy c t s = .next (finishWith (copyOut · c) (s.at t) c 0 .success) := by
      rw [execSecondCopy_eq hr hup hp]
      simp [hroom, hcopy, hready]
    refine ⟨_, y, _, z, hexec, hy, hatt, hrep, reportOf_outcome, ?_, ?_, hstep, htgt⟩
    · exact hz
    · exact hvol
  case ended =>
    obtain ⟨y, hy, hatt, hrep⟩ := finishAttempt_commit (s := s.at t) hr
    have hexec : execSecondCopy c t s = .next (finishAttempt (s.at t) c 0 .success) := by
      rw [execSecondCopy_eq hr hup hp]
      simp [hroom, hcopy]
    exact ⟨_, y, _, hexec, hy, hatt, hrep, reportOf_outcome⟩
  case waits =>
    refine (execSecondCopy_eq hr hup hp).trans ?_
    rcases hwait with ⟨hcopy, hready⟩ | hroom
    · simp [hcopy, hready]
    · simp [hroom]
  case starts =>
    rcases htarget with ⟨h1, hport⟩ | ⟨h2, horph⟩
    · have ready : drainReady s x (getSlot x slot) = true := drainReady_iff.2 ⟨hdr, hdi, fun _ => hport, by simp [h1], by simp [h1]⟩
      obtain ⟨u, hexec, hu, hsent⟩ := execDrainStart_buddy hx hw hp ready h1
      exact ⟨u, _, hexec, hu, getSlot_putSlot_same _ _ _, fun _ => hsent⟩
    · have ready : drainReady s x (getSlot x slot) = true := drainReady_iff.2 ⟨hdr, hdi, by simp [h2], fun _ => horph, by simp [h2]⟩
      have h1 : (getSlot x slot).target ≠ 1 := by simp [h2]
      obtain ⟨u, y, hexec, hy, hopen⟩ := execDrainStart_area hx hw hp ready h1
      exact ⟨u, y, hexec, hy, hopen, fun h => absurd h h1⟩
  case noPort =>
    refine execDrainStart_unready hx (Bool.eq_false_iff.2 fun h => ?_)
    obtain ⟨-, -, hup, -⟩ := drainReady_iff.1 h
    simp [hup h1] at hport
  case acked => exact execDrainComplete_done hx (by simp [drainDone, hdi, h1])
  case unacked => exact execDrainComplete_open hx (by simp [drainDone, h1])
  case stored => exact execDrainComplete_done hx (by simp [drainDone, hdi, h1, horph, hdone])
  case part =>
    obtain ⟨hc, hrank, hopen⟩ := partialOf_spec s c rank part
    exact ⟨_, _, execDrainReceive_part hx, mem_setPartner _ _ _ _, hc, hrank, hopen, by simp, rfl⟩
  case whole =>
    obtain ⟨hout, hctxs, hmem⟩ := drainColophon_ok (s := s) (c := c) (rank := rank) hok
    exact ⟨_, _, execDrainReceive_colophon hx hfind, hout, hmem, rfl, rfl, rfl, rfl, hctxs⟩

end Sys2Proof.Machine
end
